-- ==== Sys2Proof/Word.lean ====
section
/-! DEFINITION. The plain data of the IF-416's conventions (spec/00_scope.md, Conventions): bytes, words, addresses,
the four masters, and data held once for each master. -/

namespace Sys2Proof

abbrev Byte := BitVec 8

/-- A word of data, 4 bytes. -/
abbrev Word := BitVec 32

/-- A 32-bit byte address. -/
abbrev Addr := BitVec 32

/-- A word address divided by 4, as MA carries it (R166). -/
abbrev WordAddr := BitVec 30

/-- A line address divided by 32, as IVLA carries it (section 2.3). -/
abbrev LineAddr := BitVec 27

/-- The tag of a line, 0 to 131071 (R1). -/
abbrev Tag := BitVec 17

/-- A way of a directory set, 0 to 7 (R1). -/
abbrev Way := Fin 8

/-- The four master slots (00_scope.md, Masters and master sets). -/
inductive Master where
  | m0 | m1 | m2 | m3
  deriving DecidableEq, Repr

/-- One value for each of M0 to M3. -/
structure PerMaster (α : Type) where
  m0 : α
  m1 : α
  m2 : α
  m3 : α
  deriving DecidableEq, Repr

/-- A subset of the masters, held as one membership for each. -/
abbrev MasterSet := PerMaster Bool

/-- The byte positions 0 to 3 of a word, each with its byte where it is named (R74, R97). -/
structure Lanes where
  b0 : Option Byte
  b1 : Option Byte
  b2 : Option Byte
  b3 : Option Byte
  deriving DecidableEq, Repr

end Sys2Proof
end

