-- ==== Sys2Proof/Syntax.lean ====
section
/-! DEFINITION. The commands of the part: one constructor for each row of spec/opcode_table.json, with the input
levels its event samples as operands (log 5). -/

namespace Sys2Proof

/-- The request kinds (R145). -/
inductive RequestKind where
  | read | readLine | write | lockRead | lockWrite | sync
  deriving DecidableEq, Repr

/-- What the granted master drives in a request transfer (R145), with the level of its request line when the
transfer is taken (R150, step 1). A request carries one word of SD, byte position k on bits 8k to 8k + 7, and
one parity bit for each byte on SDP. -/
structure RequestLines where
  sreq : Bool
  sa   : Addr
  sben : BitVec 4
  sd   : Word
  sdp  : BitVec 4
  deriving DecidableEq, Repr

/-- What the memory controller drives in a completion transfer (R166): the tag, the status with the delivered word
count, and the delivered words from the request's start word on. -/
structure CompletionLines where
  mctag  : BitVec 2
  mcstat : BitVec 5
  mrd    : Vector Word 8
  deriving DecidableEq, Repr

/-- The commands: the rows of the opcode table in its order. -/
inductive Instr where
  | chipReset (mpres mrst : MasterSet)
  | grant (sreq : MasterSet)
  | read (r : RequestLines)
  | readLine (r : RequestLines)
  | write (r : RequestLines)
  | lockRead (r : RequestLines)
  | lockWrite (r : RequestLines)
  | sync (r : RequestLines)
  | malformedRequest (skind : BitVec 3) (r : RequestLines)
  | requestLineFall (m : Master)
  | replySend
  | issueEvent (mrdy : Bool)
  | mrlCompletion (c : CompletionLines)
  | sendEvent
  | acknowledge (m : Master)
  | timerExpiry (m : Master)
  | lockTimeout
  | resetNoticeRise (m : Master)
  | resetNoticeFall (m : Master)
  | walkerVisit
  | trackerWaitRetry (m : Master)
  | spiSelect
  | responseEnd
  | deselect
  | getStatus
  | getRegion (n : Byte)
  | setRegion (n : Byte) (base pages : BitVec 32) (policy : Byte)
  | retireRegion (n : Byte)
  | sweep
  | getRecord (set : BitVec 16) (way : Byte)
  | setLimits (invalidation lock : BitVec 16) (bypass : Byte)
  | isolate (n : Byte)
  | join (n : Byte)
  | takeError
  | unknownCommand (code : Byte)
  deriving DecidableEq, Repr

end Sys2Proof
end

