-- ==== Sys2Proof/Decode.lean ====
section
/-! DEFINITION. How the wires spell commands. SKIND names the command of a request transfer (R145), and the bits that the
service controller clocks spell a maintenance command (R177, R178, section 10.2). The opcode table gives no row bits of
its own (every row's "fields" is empty and none has "fixed"), so a word spells what R178 gives it: the maintenance
command whose frame it is (log 10). -/

namespace Sys2Proof

/-! ### Request transfers (R145) -/

/-- The kind that SKIND names; 6 and 7 name none (R145). -/
def kindOfSkind (skind : BitVec 3) : Option RequestKind :=
  if skind = 0#3 then some .read
  else if skind = 1#3 then some .readLine
  else if skind = 2#3 then some .write
  else if skind = 3#3 then some .lockRead
  else if skind = 4#3 then some .lockWrite
  else if skind = 5#3 then some .sync
  else none

/-- The command that a request transfer is (R150, R151). -/
def requestCommand (skind : BitVec 3) (r : RequestLines) : Instr :=
  match kindOfSkind skind with
  | some .read => .read r
  | some .readLine => .readLine r
  | some .write => .write r
  | some .lockRead => .lockRead r
  | some .lockWrite => .lockWrite r
  | some .sync => .sync r
  | none => .malformedRequest skind r

/-- What SKIND carries in the transfer that a command is (R145). -/
def Instr.skind : Instr → Option (BitVec 3)
  | .read _ => some 0#3
  | .readLine _ => some 1#3
  | .write _ => some 2#3
  | .lockRead _ => some 3#3
  | .lockWrite _ => some 4#3
  | .sync _ => some 5#3
  | .malformedRequest k _ => some k
  | .chipReset _ _ | .grant _ | .requestLineFall _ | .replySend | .issueEvent _ | .mrlCompletion _ | .sendEvent
  | .acknowledge _ | .timerExpiry _ | .lockTimeout | .resetNoticeRise _ | .resetNoticeFall _ | .walkerVisit
  | .trackerWaitRetry _ | .spiSelect | .responseEnd | .deselect | .getStatus | .getRegion _ | .setRegion _ _ _ _
  | .retireRegion _ | .sweep | .getRecord _ _ | .setLimits _ _ _ | .isolate _ | .join _ | .takeError
  | .unknownCommand _ => none

/-! ### Bytes and fields of a frame (R177) -/

/-- Two bytes and four bytes of a field, most significant first (R177). -/
def bytes2 (w : BitVec 16) : List Byte := [w.extractLsb' 8 8, w.extractLsb' 0 8]

def bytes4 (w : BitVec 32) : List Byte :=
  [w.extractLsb' 24 8, w.extractLsb' 16 8, w.extractLsb' 8 8, w.extractLsb' 0 8]

/-- The field that two and four bytes make, most significant first (R177). -/
def field2 (b1 b0 : Byte) : BitVec 16 := b1 ++ b0

def field4 (b3 b2 b1 b0 : Byte) : BitVec 32 := b3 ++ b2 ++ b1 ++ b0

/-- A byte as it crosses a serial line, most significant bit first (R177). -/
def bitsOfByte (b : Byte) : List Bool :=
  [b.getLsbD 7, b.getLsbD 6, b.getLsbD 5, b.getLsbD 4, b.getLsbD 3, b.getLsbD 2, b.getLsbD 1, b.getLsbD 0]

/-- The bytes that the bits sampled on SPI_SDI make, most significant bit first; bits short of a byte make none
(R177). -/
def bytesOfBits : List Bool → List Byte
  | b7 :: b6 :: b5 :: b4 :: b3 :: b2 :: b1 :: b0 :: bits =>
    (BitVec.ofBool b7 ++ BitVec.ofBool b6 ++ BitVec.ofBool b5 ++ BitVec.ofBool b4 ++ BitVec.ofBool b3 ++
      BitVec.ofBool b2 ++ BitVec.ofBool b1 ++ BitVec.ofBool b0) :: bytesOfBits bits
  | _ => []

/-! ### Command frames (R178, section 10.2) -/

/-- The bytes of the command frame that a code begins; a code that names no command makes a frame of one byte (R178). -/
def commandLength (code : Byte) : Nat :=
  if code = 0x02 ∨ code = 0x04 ∨ code = 0x08 ∨ code = 0x09 then 2
  else if code = 0x03 then 11
  else if code = 0x06 then 4
  else if code = 0x07 then 6
  else 1

/-- The bytes of the response to a command with a code (R178). -/
def responseLength (code : Byte) : Nat :=
  if code = 0x01 then 16
  else if code = 0x02 then 11
  else if code = 0x06 then 35
  else if code = 0x0A then 9
  else 1

/-- The command that a code names, with its arguments from the bytes after byte 0; `none` while they are fewer than its
frame has. Bytes after the frame are not read (R177, R178, section 10.2). -/
def commandWith (code : Byte) (args : List Byte) : Option Instr :=
  if code = 0x01 then some .getStatus
  else if code = 0x05 then some .sweep
  else if code = 0x0A then some .takeError
  else if code = 0x02 ∨ code = 0x04 ∨ code = 0x08 ∨ code = 0x09 then
    match args with
    | n :: _ =>
      some (if code = 0x02 then .getRegion n else if code = 0x04 then .retireRegion n
        else if code = 0x08 then .isolate n else .join n)
    | [] => none
  else if code = 0x03 then
    match args with
    | n :: b3 :: b2 :: b1 :: b0 :: p3 :: p2 :: p1 :: p0 :: policy :: _ =>
      some (.setRegion n (field4 b3 b2 b1 b0) (field4 p3 p2 p1 p0) policy)
    | _ => none
  else if code = 0x06 then
    match args with
    | s1 :: s0 :: way :: _ => some (.getRecord (field2 s1 s0) way)
    | _ => none
  else if code = 0x07 then
    match args with
    | i1 :: i0 :: l1 :: l0 :: bypass :: _ => some (.setLimits (field2 i1 i0) (field2 l1 l0) bypass)
    | _ => none
  else some (.unknownCommand code)

/-- The command that the bytes of a transaction name, once the frame that byte 0 begins is complete (R177). -/
def commandOfBytes : List Byte → Option Instr
  | [] => none
  | code :: args => commandWith code args

/-- The command frame of a maintenance command (R178, section 10.2); no bytes for any other command. -/
def commandFrame : Instr → List Byte
  | .getStatus => [0x01]
  | .getRegion n => [0x02, n]
  | .setRegion n base pages policy => 0x03 :: n :: (bytes4 base ++ bytes4 pages ++ [policy])
  | .retireRegion n => [0x04, n]
  | .sweep => [0x05]
  | .getRecord set way => 0x06 :: (bytes2 set ++ [way])
  | .setLimits invalidation lock bypass => 0x07 :: (bytes2 invalidation ++ bytes2 lock ++ [bypass])
  | .isolate n => [0x08, n]
  | .join n => [0x09, n]
  | .takeError => [0x0A]
  | .unknownCommand code => [code]
  | .chipReset _ _ | .grant _ | .read _ | .readLine _ | .write _ | .lockRead _ | .lockWrite _ | .sync _
  | .malformedRequest _ _ | .requestLineFall _ | .replySend | .issueEvent _ | .mrlCompletion _ | .sendEvent
  | .acknowledge _ | .timerExpiry _ | .lockTimeout | .resetNoticeRise _ | .resetNoticeFall _ | .walkerVisit
  | .trackerWaitRetry _ | .spiSelect | .responseEnd | .deselect => []

/-- The bytes of a word, byte 0 at its least significant end (the opcode table's numbering). -/
def bytesOfWord (n w : Nat) : List Byte := (List.range n).map fun k => BitVec.ofNat 8 (w / 2 ^ (8 * k))

/-- The maintenance command whose command frame a word is: byte 0 names the command, and its code fixes the length that
the word must have (R177, R178; log 10). -/
def decodeTableWord (nbits w : Nat) : Option Instr :=
  match bytesOfWord (nbits / 8) w with
  | [] => none
  | code :: args =>
    if nbits = 8 * commandLength code then commandWith code args else none

/-! ### A transaction (R177) -/

/-- The events that a transaction makes with some bytes clocked in it: its command when the frame is complete, and the
response end when the last byte of the response is shifted out. It carries one command, whatever is clocked after it. -/
def eventsOfBytes (bytes : List Byte) : List Instr :=
  match bytes with
  | [] => []
  | code :: args =>
    match commandWith code args with
    | none => []
    | some c =>
      if commandLength code + responseLength code ≤ bytes.length then [c, .responseEnd] else [c]

/-- The commands that a transaction is, from the bits sampled on SPI_SDI between the fall and the rise of SPI_CS_N. -/
def transactionCommands (sdi : List Bool) : List Instr :=
  .spiSelect :: (eventsOfBytes (bytesOfBits sdi) ++ [.deselect])

end Sys2Proof
end

