-- ==== Sys2Proof/Config.lean ====
section
/-! DEFINITION. The principal figures of the part (spec/00_scope.md, Principal figures) and the limits' values after
chip reset (R181, R186). The spec leaves no result value open, so there is no free value here. -/

namespace Sys2Proof.Config

/-- Sets of the Presence Directory (R1). -/
def directorySets : Nat := 1024

/-- Ways of a set (R1). -/
def waysPerSet : Nat := 8

/-- Posted Write Queue entries (R74). -/
def queueEntries : Nat := 16

/-- Tracker entries (R31). -/
def trackerEntries : Nat := 16

/-- MRL requests in flight (R168). -/
def inFlightRequests : Nat := 4

/-- Error records (R182). -/
def errorRecords : Nat := 8

/-- Region sizes are counted in pages of 4 KB (R116). -/
def pageBytes : Nat := 4096

/-- The limits after chip reset (R181). -/
def resetInvalidationTimeout : Nat := 4096
def resetLockTimeout : Nat := 1024
def resetBypassLimit : Nat := 4

end Sys2Proof.Config
end

