-- ==== Sys2Proof/Machine/State.lean ====
section
/-! DEFINITION. The state of the part: for each block the state its chapter gives it, the levels and transfers on
the part's lines, and the queue of waiting commands. Plain data throughout. -/

namespace Sys2Proof.Machine

/-! ## Master attachment (spec/07_master_attachment.md) -/

/-- R132. -/
inductive AttachState where
  | absent | online | isolated | inReset
  deriving DecidableEq, Repr

/-- The MAU: attachment states (R132), write-failed flags (R142), and the reset-notice lines as last seen (R140). -/
structure Mau where
  attach      : PerMaster AttachState
  writeFailed : MasterSet
  resetNotice : MasterSet
  deriving DecidableEq, Repr

/-! ## Regions (spec/06_regions.md) -/

inductive RegionPolicy where
  | tracked | uncached | device
  deriving DecidableEq, Repr

/-- The states of an entry that is not UNUSED (R116). -/
inductive RegionState where
  | active | retiring
  deriving DecidableEq, Repr

/-- A region entry that is not UNUSED (R116). An UNUSED entry is `none` in the table. -/
structure Region where
  state  : RegionState
  base   : Addr
  pages  : Nat
  policy : RegionPolicy
  deriving DecidableEq, Repr

/-- The eight region entries. -/
abbrev RegionTable := Vector (Option Region) 8

/-- The policy of an address with the state of the entry that gave it, as a lookup returns it and a slot records it
(R55, R117). UNCACHED stands for an UNCACHED entry and for no entry. -/
inductive Policy where
  | tracked (st : RegionState)
  | uncached
  | device
  deriving DecidableEq, Repr

/-! ## Request slots (spec/03_request_slots_reads_and_line_fills.md) -/

/-- R55, R63. -/
inductive FillMode where
  | directory | uncached
  deriving DecidableEq, Repr

/-- Kind, address, policy, fill mode and write data of a request in a slot (R55). The kind's row of R146 says which of
them it has. A WRITE or LOCK-WRITE answered ERR by its checks has no recorded policy (R96; log 15). `noKind` is the
request whose SKIND names no kind (R55, R151). -/
inductive SlotRequest where
  | read (word : WordAddr) (policy : Policy)
  | readLine (line : LineAddr) (policy : Policy) (mode : FillMode)
  | lockRead (word : WordAddr) (policy : Policy)
  | write (word : WordAddr) (policy : Option Policy) (lanes : Lanes)
  | lockWrite (word : WordAddr) (policy : Option Policy) (lanes : Lanes)
  | sync
  | noKind (word : WordAddr)
  deriving DecidableEq, Repr

/-- The wait reasons of a HELD slot (R59; TRACKER_WAIT by R110, SYNC_WAIT by R103). -/
structure WaitReasons where
  overlap        : Bool
  bypassLimit    : Bool
  queueEmptyWait : Bool
  lineBusy       : Bool
  wayWait        : Bool
  lockWait       : Bool
  trackerWait    : Bool
  syncWait       : Bool
  deriving DecidableEq, Repr

/-- The reply recorded in a REPLYING slot (R55). -/
inductive SlotReply where
  | word
  | line (keep : Bool)
  | done
  | err
  deriving DecidableEq, Repr

/-- The states of a slot that is not EMPTY (R55). -/
inductive SlotPhase where
  | held
  | issued
  | replying (r : SlotReply)
  deriving DecidableEq, Repr

/-- How a request on the MRL ended. -/
inductive Ending where
  | ok | fail
  deriving DecidableEq, Repr

/-- A slot that is not EMPTY. `arrived` is the MRL completion of a LOCK-WRITE that still waits for its tracker
condition (R112). `freeEntryTold` says that the IVT has reported a free entry to a LOCK-WRITE with TRACKER_WAIT and
its write step has not been made again yet (R36, R110). -/
structure Slot where
  phase         : SlotPhase
  request       : SlotRequest
  waits         : WaitReasons
  arrived       : Option Ending
  freeEntryTold : Bool
  deriving DecidableEq, Repr

/-- The RSA: the four slots (`none` is EMPTY) and the acceptance order, oldest first (R55, R57). -/
structure Rsa where
  slots : PerMaster (Option Slot)
  order : List Master
  deriving DecidableEq, Repr

/-! ## The Bus Front End (spec/08_the_shared_request_bus.md, spec/05_writes_sync_and_locked_pairs.md) -/

/-- Code, data and mark of a reply that a slot makes (R154). -/
inductive Answer where
  | word (w : Word)
  | line (ws : List Word) (keep : Bool)
  | done
  | err
  deriving DecidableEq, Repr

/-- A reply comes from a slot, or is the RETRY of a refused request, which comes from none (R155). -/
inductive ReplyBody where
  | answer (a : Answer)
  | retry
  deriving DecidableEq, Repr

/-- A reply made and not yet sent (R154). -/
structure Reply where
  master : Master
  body   : ReplyBody
  deriving DecidableEq, Repr

/-- A held bus lock (R106). The deadline is a count of CLK periods, `none` once cancelled. -/
structure BusLock where
  holder   : Master
  word     : WordAddr
  deadline : Option Nat
  deriving DecidableEq, Repr

/-- The BFE: grant, rotation pointer, retry preference list, reply queue, bus lock. -/
structure Bfe where
  grant     : Option Master
  pointer   : Master
  retryList : List Master
  replies   : List Reply
  lock      : Option BusLock
  deriving DecidableEq, Repr

/-! ## The Presence Directory (spec/01_the_presence_directory.md) and its walker (spec/06_regions.md) -/

/-- R3. -/
inductive FillPhase where
  | waiting | issued
  deriving DecidableEq, Repr

/-- A pending fill item (R3). -/
structure PendingFill where
  master  : Master
  phase   : FillPhase
  spoiled : Bool
  deriving DecidableEq, Repr

/-- A successor: its line, held as its tag, and its claimants, oldest first (R4). -/
structure Successor where
  tag       : Tag
  claimants : List Master
  deriving DecidableEq, Repr

/-- The states of a record that is not FREE (R6); only an EVICTING record may carry a successor (R2). -/
inductive RecordStatus where
  | shared
  | invalidating
  | evicting (successor : Option Successor)
  deriving DecidableEq, Repr

/-- A non-FREE line record with the way it stands in (R2). -/
structure LineRecord where
  way     : Way
  tag     : Tag
  status  : RecordStatus
  sharers : MasterSet
  pending : List PendingFill
  deriving DecidableEq, Repr

/-- The non-FREE records of one set in the set's install order, oldest first (R5). A way that is not listed is FREE,
and a record's install rank is its position, counted from 1. -/
abbrev DirectorySet := List LineRecord

/-- The sets that hold a record, by set number, set numbers rising. A set that is not listed has eight FREE ways. -/
abbrev Directory := List (Nat × DirectorySet)

/-- R123. -/
inductive WalkMode where
  | idle
  | retiring (n : Fin 8)
  | sweeping
  deriving DecidableEq, Repr

inductive PauseReason where
  | pending | invalidating | evicting | noEntry
  deriving DecidableEq, Repr

/-- The way a paused walker waits on, the reason, and whether an event of R127 has ended the pause. -/
structure Pause where
  way    : Way
  reason : PauseReason
  ended  : Bool
  deriving DecidableEq, Repr

/-- The Directory Walker (R123). -/
structure Walker where
  mode        : WalkMode
  set         : Option Nat
  visited     : List Way
  pause       : Option Pause
  outstanding : Nat
  draining    : Bool
  deriving DecidableEq, Repr

structure Pdr where
  sets   : Directory
  walker : Walker
  deriving DecidableEq, Repr

/-! ## The Invalidation Tracker (spec/02_invalidation_tracker_and_invalidation_bus.md) -/

inductive EntryKind where
  | write | evict | walk
  deriving DecidableEq, Repr

/-- A live tracker entry (R31). -/
structure TrackerEntry where
  line    : LineAddr
  kind    : EntryKind
  targets : MasterSet
  sent    : MasterSet
  acked   : MasterSet
  causes  : MasterSet
  deriving DecidableEq, Repr

/-- The IVT: live entries in tracker order, each master's outstanding-notice list, oldest first, and each master's
acknowledge timer, `none` when stopped, else its deadline in CLK periods (R31, R41, R42). -/
structure Ivt where
  entries : List TrackerEntry
  notices : PerMaster (List LineAddr)
  timers  : PerMaster (Option Nat)
  deriving DecidableEq, Repr

/-! ## The Posted Write Queue (spec/04_the_posted_write_queue.md) -/

inductive WritePhase where
  | waiting | issued
  deriving DecidableEq, Repr

/-- A posted write entry (R74). -/
structure QueueEntry where
  word   : WordAddr
  lanes  : Lanes
  source : Master
  phase  : WritePhase
  count  : Nat
  deriving DecidableEq, Repr

/-! ## The Memory Link Controller (spec/09_the_memory_request_link.md) -/

inductive LinkKind where
  | rdWord | rdLine | rdRest | wrWord
  deriving DecidableEq, Repr

/-- R168. -/
inductive Origin where
  | read (m : Master)
  | unposted (m : Master)
  | queue (source : Master)
  | continuation (m : Master)
  deriving DecidableEq, Repr

/-- An item of the in-flight list (R168). -/
structure InFlight where
  tag     : BitVec 2
  kind    : LinkKind
  word    : WordAddr
  origin  : Origin
  discard : Bool
  deriving DecidableEq, Repr

/-- An assembly (R173); its master is its place, its next word the number of words held. -/
structure Assembly where
  line  : LineAddr
  mode  : FillMode
  words : List Word
  deriving DecidableEq, Repr

/-- The MLC: in-flight list, assemblies, and the masters whose continuations wait, oldest first. -/
structure Mlc where
  inFlight      : List InFlight
  assemblies    : PerMaster (Option Assembly)
  continuations : List Master
  deriving DecidableEq, Repr

/-! ## The Maintenance Controller (spec/10_maintenance_port_and_error_queue.md) -/

/-- R182. -/
inductive ErrorKind where
  | writeParity | requestMalformed | memReadFail | memWriteFail
  | invalidationTimeout | strayAck | lockTimeout | lockBroken
  deriving DecidableEq, Repr

structure ErrorRecord where
  kind    : ErrorKind
  master  : Master
  address : Option Addr
  deriving DecidableEq, Repr

/-- The transaction under way (R177): none; the command frame being shifted in; the response frame being shifted out
after the command frame taken, with whether it is a TAKE-ERROR's that returned a record; the response ended. -/
inductive Port where
  | idle
  | receiving
  | responding (command response : List Byte) (returnedRecord : Bool)
  | ended
  deriving DecidableEq, Repr

structure Mnc where
  invalidationTimeout : Nat
  lockTimeout         : Nat
  bypassLimit         : Nat
  errors              : List ErrorRecord
  overflow            : Bool
  port                : Port
  deriving DecidableEq, Repr

/-! ## Lines -/

/-- A reply transfer: SRTAG, SRCODE, SKEEP (absent where it has no meaning), and for each word driven on SD the word
with its four parity bits on SDP (R145, R147). -/
structure ReplyTransfer where
  tag   : Master
  code  : BitVec 3
  keep  : Option Bool
  words : List (Word × BitVec 4)
  deriving DecidableEq, Repr

/-- A message on the IVB: IVLA and the select lines (section 2.3). -/
structure IvbMessage where
  line   : LineAddr
  select : MasterSet
  deriving DecidableEq, Repr

/-- A request transfer on the MRL (R166). Each of the 32 lines of MWD has a level where its byte position is selected;
a field and a line that carry no meaning are absent (log 16). -/
structure LinkRequest where
  mtag  : BitVec 2
  mkind : BitVec 2
  ma    : WordAddr
  mben  : Option (BitVec 4)
  mwd   : Option (Vector (Option Bool) 32)
  deriving DecidableEq, Repr

/-- Input levels as last seen, and the transfers that the last command drove (log 4). -/
structure Pins where
  sreq        : MasterSet
  mrdy        : Bool
  spiSelected : Bool
  srb         : Option ReplyTransfer
  ivb         : Option IvbMessage
  mrl         : Option LinkRequest
  deriving DecidableEq, Repr

/-! ## The whole part -/

/-- `clk` counts CLK periods (log 1); `pending` is the queue of waiting commands, first in, first out. -/
structure State where
  bfe     : Bfe
  rsa     : Rsa
  rgt     : RegionTable
  pdr     : Pdr
  ivt     : Ivt
  pwq     : List QueueEntry
  mlc     : Mlc
  mau     : Mau
  mnc     : Mnc
  pins    : Pins
  clk     : Nat
  pending : List Instr
  deriving DecidableEq, Repr

/-- The reasons to stop with a fault. There is none: no rule of the spec stops the part. -/
inductive Fault : Type
  deriving DecidableEq, Repr

/-- The reasons to refuse a command. -/
inductive Refusal where
  /-- Raised by `exec` for a row that has no meaning yet. Safe: the model stops. No arm raises it now. -/
  | notModelled (mnemonic : String)
  deriving DecidableEq, Repr

/-! ## Chip reset -/

def WaitReasons.none : WaitReasons :=
  ⟨false, false, false, false, false, false, false, false⟩

/-- The walker when it is IDLE (R123). -/
def Walker.idle : Walker := ⟨.idle, .none, [], .none, 0, false⟩

/-- A fitted slot is ONLINE, any other ABSENT (R133). -/
def attachOfStrap (fitted : Bool) : AttachState := if fitted then .online else .absent

/-- The blocks as chip reset leaves them (R30, R52, R73, R95, R115, R131, R133, R165, R176, R186), with the straps and
the reset-notice lines that the release of RESET_N finds. -/
def State.afterReset (mpres mrst : MasterSet) (sreq : MasterSet) (mrdy spiSelected : Bool) (clk : Nat)
    (pending : List Instr) : State where
  bfe := ⟨none, .m3, [], [], none⟩
  rsa := ⟨⟨none, none, none, none⟩, []⟩
  rgt := Vector.replicate 8 none
  pdr := ⟨[], Walker.idle⟩
  ivt := ⟨[], ⟨[], [], [], []⟩, ⟨none, none, none, none⟩⟩
  pwq := []
  mlc := ⟨[], ⟨none, none, none, none⟩, []⟩
  mau :=
    { attach := ⟨attachOfStrap mpres.m0, attachOfStrap mpres.m1, attachOfStrap mpres.m2, attachOfStrap mpres.m3⟩
      writeFailed := ⟨false, false, false, false⟩
      resetNotice := mrst }
  mnc :=
    { invalidationTimeout := Config.resetInvalidationTimeout
      lockTimeout := Config.resetLockTimeout
      bypassLimit := Config.resetBypassLimit
      errors := []
      overflow := false
      port := .idle }
  pins := ⟨sreq, mrdy, spiSelected, none, none, none⟩
  clk := clk
  pending := pending

/-- The part right after chip reset. DESIGN CHOICE (log 6): all four straps show a master, no notice stands, the
request lines are down, MRDY is deasserted, SPI_CS_N is high. -/
def State.reset : State :=
  State.afterReset ⟨true, true, true, true⟩ ⟨false, false, false, false⟩ ⟨false, false, false, false⟩ false false 0 []

end Sys2Proof.Machine
end

