-- ==== Sys2Proof/Machine/Masters.lean ====
section
/-! DEFINITION. Reading and changing what is held once for each master, and the operations on master sets
(spec/00_scope.md, Masters and master sets). -/

namespace Sys2Proof

/-- M0 to M3 in rotation order. -/
def Master.all : List Master := [.m0, .m1, .m2, .m3]

/-- The number 0 to 3 of a master, as the frames and bus fields carry it (R145, section 10.2). -/
def Master.number : Master → Nat
  | .m0 => 0
  | .m1 => 1
  | .m2 => 2
  | .m3 => 3

/-- The master with a number, where the number is 0 to 3 (R138). -/
def Master.ofNumber : Nat → Option Master
  | 0 => some .m0
  | 1 => some .m1
  | 2 => some .m2
  | 3 => some .m3
  | _ => none

/-- The next master in rotation order. -/
def Master.next : Master → Master
  | .m0 => .m1
  | .m1 => .m2
  | .m2 => .m3
  | .m3 => .m0

def PerMaster.get {α : Type} (p : PerMaster α) : Master → α
  | .m0 => p.m0
  | .m1 => p.m1
  | .m2 => p.m2
  | .m3 => p.m3

def PerMaster.set {α : Type} (p : PerMaster α) (m : Master) (x : α) : PerMaster α :=
  match m with
  | .m0 => { p with m0 := x }
  | .m1 => { p with m1 := x }
  | .m2 => { p with m2 := x }
  | .m3 => { p with m3 := x }

/-- The value at each master, computed from the master. -/
def PerMaster.of {α : Type} (f : Master → α) : PerMaster α := ⟨f .m0, f .m1, f .m2, f .m3⟩

namespace MasterSet

def empty : MasterSet := ⟨false, false, false, false⟩

def mem (x : MasterSet) (m : Master) : Bool := x.get m

def single (m : Master) : MasterSet := PerMaster.of fun k => k == m

def insert (x : MasterSet) (m : Master) : MasterSet := x.set m true

def erase (x : MasterSet) (m : Master) : MasterSet := x.set m false

def union (x y : MasterSet) : MasterSet := PerMaster.of fun k => x.get k || y.get k

def diff (x y : MasterSet) : MasterSet := PerMaster.of fun k => x.get k && !y.get k

def isEmpty (x : MasterSet) : Bool := !x.m0 && !x.m1 && !x.m2 && !x.m3

/-- The members in ascending order. -/
def toList (x : MasterSet) : List Master := Master.all.filter fun m => x.get m

end MasterSet

end Sys2Proof
end

