-- ==== Sys2Proof/Machine/Geometry.lean ====
section
/-! DEFINITION. Addresses, words, lines, sets and tags (spec/00_scope.md, Addresses, words and lines; R1), and the
byte positions of a word. -/

namespace Sys2Proof

/-- The word address of a byte address: its low two bits ignored. -/
def wordOfAddr (a : Addr) : WordAddr := a.extractLsb' 2 30

/-- The line address of a byte address: its low five bits ignored. -/
def lineOfAddr (a : Addr) : LineAddr := a.extractLsb' 5 27

/-- The line a word lies in. -/
def lineOfWord (w : WordAddr) : LineAddr := w.extractLsb' 3 27

/-- The number 0 to 7 of a word in its line. -/
def wordIndex (w : WordAddr) : Nat := (w.extractLsb' 0 3).toNat

/-- Word k of a line. -/
def wordOfLine (l : LineAddr) (k : Nat) : WordAddr := l ++ BitVec.ofNat 3 k

/-- The byte address of a word address. -/
def addrOfWord (w : WordAddr) : Addr := w ++ 0#2

/-- The byte address of a line address. -/
def addrOfLine (l : LineAddr) : Addr := l ++ 0#5

/-- The set index of a line, 0 to 1023 (R1). -/
def setOfLine (l : LineAddr) : Nat := (l.extractLsb' 0 10).toNat

/-- The tag of a line (R1). -/
def tagOfLine (l : LineAddr) : Tag := l.extractLsb' 10 17

/-- The line held by a record with a tag in a set (R1). -/
def lineOfTag (t : Tag) (set : Nat) : LineAddr := t ++ BitVec.ofNat 10 set

/-! ### Byte positions (R74, R79, R145, R166) -/

/-- Byte position k of a word stands on bits 8k to 8k + 7. -/
def byteOfWord (w : Word) (k : Nat) : Byte := w.extractLsb' (8 * k) 8

/-- The byte positions that SBEN names, with their bytes of SD (R145). -/
def lanesOf (sben : BitVec 4) (sd : Word) : Lanes :=
  { b0 := if sben.getLsbD 0 then some (byteOfWord sd 0) else none
    b1 := if sben.getLsbD 1 then some (byteOfWord sd 1) else none
    b2 := if sben.getLsbD 2 then some (byteOfWord sd 2) else none
    b3 := if sben.getLsbD 3 then some (byteOfWord sd 3) else none }

/-- What stands at byte position k. -/
def Lanes.at (x : Lanes) (k : Nat) : Option Byte :=
  match k with
  | 0 => x.b0
  | 1 => x.b1
  | 2 => x.b2
  | 3 => x.b3
  | _ => none

/-- MBEN of a WR-WORD: bit k selects byte position k. -/
def Lanes.selected (x : Lanes) : BitVec 4 :=
  BitVec.ofBool x.b3.isSome ++ BitVec.ofBool x.b2.isSome ++ BitVec.ofBool x.b1.isSome ++ BitVec.ofBool x.b0.isSome

/-- MWD of a WR-WORD: byte position k on lines 8k to 8k + 7, where it is selected. -/
def Lanes.lines (x : Lanes) : Vector (Option Bool) 32 :=
  Vector.ofFn fun i => (x.at (i.val / 8)).map fun b => b.getLsbD (i.val % 8)

/-- The bytes of a later write over those of an earlier one (R79). -/
def Lanes.over (later earlier : Lanes) : Lanes :=
  { b0 := later.b0.or earlier.b0
    b1 := later.b1.or earlier.b1
    b2 := later.b2.or earlier.b2
    b3 := later.b3.or earlier.b3 }

/-! ### Parity (section 8.2) -/

/-- The even-parity bit of a byte: set when the byte holds an odd number of ones. -/
def evenParity (b : Byte) : Bool :=
  ((b.getLsbD 0 ^^ b.getLsbD 1) ^^ (b.getLsbD 2 ^^ b.getLsbD 3)) ^^
    ((b.getLsbD 4 ^^ b.getLsbD 5) ^^ (b.getLsbD 6 ^^ b.getLsbD 7))

/-- Byte position k and its bit of SDP together hold an even number of ones (R148). -/
def positionParityGood (sd : Word) (sdp : BitVec 4) (k : Nat) : Bool :=
  evenParity (byteOfWord sd k) == sdp.getLsbD k

/-- Every position that SBEN names has good parity (R148). -/
def writeParityGood (sben : BitVec 4) (sd : Word) (sdp : BitVec 4) : Bool :=
  [0, 1, 2, 3].all fun k => !sben.getLsbD k || positionParityGood sd sdp k

/-- The four parity bits generated for a word driven on SD (R149). -/
def parityOfWord (w : Word) : BitVec 4 :=
  BitVec.ofBool (evenParity (byteOfWord w 3)) ++ BitVec.ofBool (evenParity (byteOfWord w 2)) ++
    BitVec.ofBool (evenParity (byteOfWord w 1)) ++ BitVec.ofBool (evenParity (byteOfWord w 0))

end Sys2Proof
end

