-- ==== Sys2Proof/WellFormed.lean ====
section
/-! DEFINITION. Which commands are terms of their row. Two rows restrict an operand: MALFORMED_REQUEST carries a SKIND
that names no kind (R145, R151), and UNKNOWN_COMMAND a code that names no command (R178). Every other operand value
is one that the row's event may sample. -/

namespace Sys2Proof

/-- SKIND names no kind (R145). -/
def skindNamesNoKind (k : BitVec 3) : Bool := (kindOfSkind k).isNone

/-- The codes 0x01 to 0x0A name a command (R178). -/
def codeNamesCommand (c : Byte) : Bool := decide (1 ≤ c.toNat) && decide (c.toNat ≤ 10)

def Instr.wellFormed : Instr → Bool
  | .malformedRequest k _ => skindNamesNoKind k
  | .unknownCommand c => !codeNamesCommand c
  | .chipReset _ _ | .grant _ | .read _ | .readLine _ | .write _ | .lockRead _ | .lockWrite _ | .sync _
  | .requestLineFall _ | .replySend | .issueEvent _ | .mrlCompletion _ | .sendEvent | .acknowledge _
  | .timerExpiry _ | .lockTimeout | .resetNoticeRise _ | .resetNoticeFall _ | .walkerVisit
  | .trackerWaitRetry _ | .spiSelect | .responseEnd | .deselect | .getStatus | .getRegion _
  | .setRegion _ _ _ _ | .retireRegion _ | .sweep | .getRecord _ _ | .setLimits _ _ _ | .isolate _
  | .join _ | .takeError => true

end Sys2Proof
end

