-- ==== Sys2Proof/Machine/Operands.lean ====
section
/-! DEFINITION. The operand forms: what the part reads from the lines of a request (R146), from the lines of a
completion (R167) and from the arguments of a maintenance command (R178, section 10.2), and the bytes of the
response frames. -/

namespace Sys2Proof.Machine

/-! ### Requests (R146) -/

/-- The word a READ, LOCK-READ, WRITE or LOCK-WRITE names: SA with its low two bits ignored. -/
def requestWord (r : RequestLines) : WordAddr := wordOfAddr r.sa

/-- The line a READ-LINE names: SA with its low five bits ignored. -/
def requestLine (r : RequestLines) : LineAddr := lineOfAddr r.sa

/-- The byte positions a WRITE or LOCK-WRITE names, with their data. -/
def requestLanes (r : RequestLines) : Lanes := lanesOf r.sben r.sd

/-- A write names at least one byte position (R97). -/
def namesAByte (r : RequestLines) : Bool := r.sben != 0#4

/-- Each named byte has good parity (R97, R148). -/
def requestParityGood (r : RequestLines) : Bool := writeParityGood r.sben r.sd r.sdp

/-! ### Completions (R166, R167) -/

/-- How a completion is taken. -/
inductive CompletionStatus where
  | ok
  | short (n : Nat)
  | fail
  deriving DecidableEq, Repr

/-- The words a line read asks for from its start word (R166). -/
def wordsAsked (kind : LinkKind) (word : WordAddr) : Nat :=
  match kind with
  | .rdWord | .wrWord => 1
  | .rdLine => 8
  | .rdRest => 8 - wordIndex word

/-- The delivered word count of MCSTAT: bits 2 to 4. -/
def deliveredCount (c : CompletionLines) : Nat := (c.mcstat.extractLsb' 2 3).toNat

/-- The status of a completion read by the kind of the request completed (R167). -/
def completionStatus (kind : LinkKind) (word : WordAddr) (c : CompletionLines) : CompletionStatus :=
  let n := deliveredCount c
  if c.mcstat.extractLsb' 0 2 = 0#2 then .ok
  else if c.mcstat.extractLsb' 0 2 = 1#2 then
    match kind with
    | .rdLine | .rdRest => if 1 ≤ n ∧ n < wordsAsked kind word then .short n else .fail
    | .rdWord | .wrWord => .fail
  else .fail

/-- The first n delivered words. -/
def deliveredWords (c : CompletionLines) (n : Nat) : List Word := c.mrd.toList.take n

/-! ### Link requests (R166) -/

/-- MKIND. -/
def LinkKind.mkind : LinkKind → BitVec 2
  | .rdWord => 0
  | .rdLine => 1
  | .rdRest => 2
  | .wrWord => 3

/-- The fields driven in a request transfer; MBEN and MWD carry the byte positions of a WR-WORD. -/
def linkRequest (tag : BitVec 2) (kind : LinkKind) (word : WordAddr) (lanes : Option Lanes) : LinkRequest :=
  ⟨tag, kind.mkind, word, lanes.map Lanes.selected, lanes.map Lanes.lines⟩

/-! ### Maintenance arguments and frames (R177, R178, section 10.2) -/

/-- The status codes (R178). -/
def statusOk : Byte := 0
def statusBusy : Byte := 1
def statusWrongState : Byte := 2
def statusRegionOverlap : Byte := 3
def statusBadArg : Byte := 4

/-- An entry number 0 to 7 (R118, R120, R121). -/
def entryOfByte (n : Byte) : Option (Fin 8) :=
  if h : n.toNat < 8 then some ⟨n.toNat, h⟩ else none

/-- A master number 0 to 3 (R138, R139). -/
def masterOfByte (n : Byte) : Option Master := Master.ofNumber n.toNat

/-- The policy codes of SET-REGION. -/
def policyOfByte (p : Byte) : Option RegionPolicy :=
  if p = 0 then some .tracked else if p = 1 then some .uncached else if p = 2 then some .device else none

def byteOfNat (n : Nat) : Byte := BitVec.ofNat 8 n

def byteOfMaster (m : Master) : Byte := byteOfNat m.number

def byteOfBool (b : Bool) : Byte := if b then 1 else 0

/-- A response whose status is not OK: every byte after the status is 0 (R178). -/
def refusedFrame (status : Byte) (length : Nat) : List Byte :=
  status :: List.replicate (length - 1) 0

/-- A list of master numbers in a field of four bytes, 0xFF in the unused ones (section 10.2). -/
def masterField (ms : List Master) : List Byte :=
  ((ms.map byteOfMaster) ++ [0xFF, 0xFF, 0xFF, 0xFF]).take 4

def attachCode : AttachState → Byte
  | .absent => 0
  | .online => 1
  | .isolated => 2
  | .inReset => 3

def policyCode : RegionPolicy → Byte
  | .tracked => 0
  | .uncached => 1
  | .device => 2

def errorCode : ErrorKind → Byte
  | .writeParity => 1
  | .requestMalformed => 2
  | .memReadFail => 3
  | .memWriteFail => 4
  | .invalidationTimeout => 5
  | .strayAck => 6
  | .lockTimeout => 7
  | .lockBroken => 8

/-- One pending item of a GET-RECORD response. -/
def pendingField (p : PendingFill) : List Byte :=
  [byteOfMaster p.master,
   match p.phase with
   | .waiting => 0
   | .issued => 1,
   byteOfBool p.spoiled]

/-- Bytes 12 to 23 of a GET-RECORD response. -/
def pendingFields (ps : List PendingFill) : List Byte :=
  ((ps.map pendingField).flatten ++ List.replicate 12 0xFF).take 12

/-- The GET-REGION response (R120). -/
def regionFrame (e : Option Region) : List Byte :=
  match e with
  | none => [statusOk, 0] ++ bytes4 0 ++ bytes4 0 ++ [0xFF]
  | some r =>
    [statusOk, match r.state with
      | .active => 1
      | .retiring => 2] ++ bytes4 r.base ++ bytes4 (BitVec.ofNat 32 r.pages) ++ [policyCode r.policy]

/-- The GET-RECORD response for a way: its record with its install rank, or none when FREE (R29, R180). -/
def recordFrame (set : Nat) (record : Option (LineRecord × Nat)) : List Byte :=
  match record with
  | none =>
    [statusOk, 0] ++ bytes4 0 ++ [0] ++ masterField [] ++ [0] ++ pendingFields [] ++ [0, 0] ++ bytes4 0 ++ [0] ++
      masterField []
  | some (r, rank) =>
    [statusOk, match r.status with
      | .shared => 1
      | .invalidating => 2
      | .evicting _ => 3] ++
      bytes4 (addrOfLine (lineOfTag r.tag set)) ++
      [byteOfNat r.sharers.toList.length] ++ masterField r.sharers.toList ++
      [byteOfNat r.pending.length] ++ pendingFields r.pending ++ [byteOfNat rank] ++
      match r.status with
      | .evicting (some su) =>
        [1] ++ bytes4 (addrOfLine (lineOfTag su.tag set)) ++ [byteOfNat su.claimants.length] ++
          masterField su.claimants
      | _ => [0] ++ bytes4 0 ++ [0] ++ masterField []

/-- The TAKE-ERROR response (R183). -/
def errorFrame (e : Option ErrorRecord) : List Byte :=
  match e with
  | none => [statusOk, 0, 0, 0xFF, 0] ++ bytes4 0
  | some r =>
    [statusOk, 1, errorCode r.kind, byteOfMaster r.master] ++
      match r.address with
      | some a => [1] ++ bytes4 a
      | none => [0] ++ bytes4 0

end Sys2Proof.Machine
end

