-- ==== Sys2Proof/Machine/Flags.lean ====
section
/-! DEFINITION. Every condition and flag the rules compute from the state: region lookups, the wait reasons of a slot,
the conditions of SYNC and of a LOCK-WRITE's end, grantability, the walk's range, and ALERT_N. None of them changes
state. -/

namespace Sys2Proof.Machine

/-! ### Regions (R116, R117) -/

/-- A region entry that is not UNUSED covers base to base + pages × 4096 − 1. -/
def Region.covers (r : Region) (a : Addr) : Bool :=
  decide (r.base.toNat ≤ a.toNat) && decide (a.toNat < r.base.toNat + r.pages * Config.pageBytes)

/-- The entries that are not UNUSED, in entry order. -/
def usedRegions (t : RegionTable) : List Region := t.toList.filterMap id

/-- The policy an entry gives, with the entry's state for TRACKED. -/
def Region.lookupResult (r : Region) : Policy :=
  match r.policy with
  | .tracked => .tracked r.state
  | .uncached => .uncached
  | .device => .device

/-- The lookup of an address (R117): UNCACHED where no entry covers it. -/
def regionLookup (t : RegionTable) (a : Addr) : Policy :=
  match (usedRegions t).find? (fun r => r.covers a) with
  | some r => r.lookupResult
  | none => .uncached

/-- Two used ranges share an address. -/
def Region.overlaps (r q : Region) : Bool :=
  decide (r.base.toNat < q.base.toNat + q.pages * Config.pageBytes) &&
    decide (q.base.toNat < r.base.toNat + r.pages * Config.pageBytes)

/-! ### Attachment (R132, R143) -/

def State.isOnline (s : State) (m : Master) : Bool := s.mau.attach.get m == .online

/-- Some master is ISOLATED (R143). -/
def State.anyIsolated (s : State) : Bool := Master.all.any fun m => s.mau.attach.get m == .isolated

/-- ALERT_N is asserted (R185). -/
def State.alert (s : State) : Bool := !s.mnc.errors.isEmpty || s.anyIsolated

/-! ### SPI_SDO (R177) -/

/-- The byte that SPI_SDO carries as byte k of the transaction under way: 0x00 during the command frame, the response from
the byte after it on, and 0x00 after the response. Outside a transaction it carries none. -/
def Port.sdo (p : Port) (k : Nat) : Option Byte :=
  match p with
  | .idle => none
  | .receiving | .ended => some 0
  | .responding command response _ =>
    some (if k < command.length then 0 else response.getD (k - command.length) 0)

/-! ### The tracker (R31, R32) -/

/-- The live entry for a line. -/
def State.liveEntry (s : State) (l : LineAddr) : Option TrackerEntry := s.ivt.entries.find? fun e => e.line == l

def State.trackerFull (s : State) : Bool := decide (Config.trackerEntries ≤ s.ivt.entries.length)

/-- The unsent targets of an entry (R32). -/
def TrackerEntry.unsent (e : TrackerEntry) : MasterSet := MasterSet.diff e.targets e.sent

/-- Acked equals targets (R45). -/
def TrackerEntry.complete (e : TrackerEntry) : Bool := e.acked == e.targets

/-! ### Requests in slots (R55, R59) -/

/-- The recorded policy is TRACKED. -/
def Policy.isTracked : Policy → Bool
  | .tracked _ => true
  | .uncached | .device => false

/-- The words a request reads or writes hold a word (R55): one word, or the eight words of a line. -/
def SlotRequest.spans : SlotRequest → WordAddr → Bool
  | .read w _, x | .lockRead w _, x | .write w _ _, x | .lockWrite w _ _, x => w == x
  | .readLine l _ _, x => lineOfWord x == l
  | .sync, _ | .noKind _, _ => false

/-- A device access: a read of any kind, or a WRITE, whose recorded policy is DEVICE (R81). -/
def SlotRequest.isDeviceAccess : SlotRequest → Bool
  | .read _ p | .readLine _ p _ | .lockRead _ p => p == .device
  | .write _ p _ => p == some .device
  | .lockWrite _ _ _ | .sync | .noKind _ => false

/-- A read kind in a TRACKED or UNCACHED region: the kinds that carry OVERLAP and BYPASS_LIMIT (R59). -/
def SlotRequest.isPlainRead : SlotRequest → Bool
  | .read _ p | .readLine _ p _ | .lockRead _ p => p != .device
  | .write _ _ _ | .lockWrite _ _ _ | .sync | .noKind _ => false

def SlotRequest.isRead : SlotRequest → Bool
  | .read _ _ | .readLine _ _ _ | .lockRead _ _ => true
  | .write _ _ _ | .lockWrite _ _ _ | .sync | .noKind _ => false

/-- The kinds issued as unposted writes when they stand HELD: a LOCK-WRITE or a DEVICE write (R169). -/
def SlotRequest.isUnpostedWrite : SlotRequest → Bool
  | .write _ _ _ | .lockWrite _ _ _ => true
  | .read _ _ | .readLine _ _ _ | .lockRead _ _ | .sync | .noKind _ => false

/-- A LOCK-READ of a word in a line. -/
def SlotRequest.isLockReadIn (l : LineAddr) : SlotRequest → Bool
  | .lockRead w _ => lineOfWord w == l
  | .read _ _ | .readLine _ _ _ | .write _ _ _ | .lockWrite _ _ _ | .sync | .noKind _ => false

def SlotRequest.isLockRead : SlotRequest → Bool
  | .lockRead _ _ => true
  | .read _ _ | .readLine _ _ _ | .write _ _ _ | .lockWrite _ _ _ | .sync | .noKind _ => false

/-- OVERLAP's condition: the queue holds a WAITING entry whose word the request spans (R59, R87). -/
def overlapHolds (pwq : List QueueEntry) (q : SlotRequest) : Bool :=
  q.isPlainRead && pwq.any fun e => e.phase == .waiting && q.spans e.word

/-- BYPASS_LIMIT's condition: the queue holds a WAITING entry at or above the limit (R59, R90). -/
def bypassHolds (pwq : List QueueEntry) (limit : Nat) (q : SlotRequest) : Bool :=
  q.isPlainRead && pwq.any fun e => e.phase == .waiting && decide (limit ≤ e.count)

/-- QUEUE_EMPTY_WAIT's condition: the queue holds any entry (R59, R92). -/
def queueEmptyHolds (pwq : List QueueEntry) (q : SlotRequest) : Bool := q.isDeviceAccess && !pwq.isEmpty

/-- A slot whose OVERLAP, BYPASS_LIMIT and QUEUE_EMPTY_WAIT are in line with a queue and a limit (R60). -/
def Slot.withQueueWaits (pwq : List QueueEntry) (limit : Nat) (sl : Slot) : Slot :=
  { sl with waits :=
    { sl.waits with
      overlap := overlapHolds pwq sl.request
      bypassLimit := bypassHolds pwq limit sl.request
      queueEmptyWait := queueEmptyHolds pwq sl.request } }

/-- A HELD slot with no wait reason (R56). -/
def Slot.eligible (sl : Slot) : Bool := sl.phase == .held && sl.waits == WaitReasons.none

/-- Some slot holds a device access with QUEUE_EMPTY_WAIT: posted writes are refused (R81). -/
def State.deviceHold (s : State) : Bool :=
  Master.all.any fun m =>
    match s.rsa.slots.get m with
    | some sl => sl.phase == .held && sl.waits.queueEmptyWait
    | none => false

/-- The three conditions of a fill lookup (R9, R63). -/
def State.directoryFill (s : State) (m : Master) (l : LineAddr) : Bool :=
  regionLookup s.rgt (addrOfLine l) == .tracked .active && s.isOnline m && s.pdr.walker.mode != .sweeping

/-! ### The ends of SYNC and LOCK-WRITE (R103, R111) -/

/-- The queue condition of a SYNC (R103, R86). -/
def State.queueConditionOf (s : State) (m : Master) : Bool := !s.pwq.any fun e => e.source == m

/-- The tracker condition of a SYNC (R103). -/
def State.causeConditionOf (s : State) (m : Master) : Bool := !s.ivt.entries.any fun e => e.causes.get m

def State.syncComplete (s : State) (m : Master) : Bool := s.queueConditionOf m && s.causeConditionOf m

/-- The tracker condition of a LOCK-WRITE: none for its line is live; a LOCK-WRITE whose recorded policy is not
TRACKED has no such condition (R111). -/
def State.lockWriteConditionOf (s : State) (word : WordAddr) (policy : Option Policy) : Bool :=
  match policy with
  | some (.tracked _) => (s.liveEntry (lineOfWord word)).isNone
  | _ => true

/-! ### The arbiter (R157, R158) -/

def State.slotEmpty (s : State) (m : Master) : Bool := (s.rsa.slots.get m).isNone

def State.hasReply (s : State) (m : Master) : Bool := s.bfe.replies.any fun r => r.master == m

/-- The bus lock is free or its holder is m. -/
def State.lockAllows (s : State) (m : Master) : Bool :=
  match s.bfe.lock with
  | none => true
  | some k => k.holder == m

def State.grantable (s : State) (m : Master) : Bool :=
  s.pins.sreq.get m && s.slotEmpty m && !s.hasReply m &&
    (s.mau.attach.get m == .online || s.mau.attach.get m == .isolated) && s.lockAllows m

/-- The masters in rotation order after the one the pointer names, which is reached last. -/
def rotationFrom (p : Master) : List Master := [p.next, p.next.next, p.next.next.next, p]

/-- The master that a grant would choose: the oldest grantable one on the list, else the first by rotation. -/
def State.grantChoice (s : State) : Option Master :=
  (s.bfe.retryList.find? fun m => s.grantable m).or ((rotationFrom s.bfe.pointer).find? fun m => s.grantable m)

/-! ### The directory and the walk (R1, R5, R14, R125, R129) -/

/-- The records of a set, in install order. -/
def Directory.get : Directory → Nat → DirectorySet
  | [], _ => []
  | (k, v) :: d, i => if k = i then v else Directory.get d i

/-- The record of a line, where its set holds one (R9). -/
def Directory.recordOf (d : Directory) (l : LineAddr) : Option LineRecord :=
  (d.get (setOfLine l)).find? fun r => r.tag == tagOfLine l

/-- The record at a way of a set, where the way is not FREE. -/
def Directory.recordAt (d : Directory) (set : Nat) (way : Way) : Option LineRecord :=
  (d.get set).find? fun r => r.way == way

/-- The lowest-numbered FREE way of a set (R13). -/
def DirectorySet.lowestFree (rs : DirectorySet) : Option Way :=
  ([0, 1, 2, 3, 4, 5, 6, 7] : List Way).find? fun w => !rs.any fun r => r.way == w

/-- A way is eligible as victim when its record is SHARED with no pending fill (R14). -/
def LineRecord.eligibleVictim (r : LineRecord) : Bool := r.status == .shared && r.pending.isEmpty

/-- A SHARED record left with no sharers and no pending fills, which is freed (R8). -/
def LineRecord.isLeftEmpty (r : LineRecord) : Bool :=
  r.status == .shared && r.sharers.isEmpty && r.pending.isEmpty

/-- The successor a record carries. -/
def LineRecord.successor (r : LineRecord) : Option Successor :=
  match r.status with
  | .evicting su => su
  | .shared | .invalidating => none

/-- A line lies in the range of the walk: in the entry being retired, or anywhere for a sweep (R125, R129). -/
def State.walkCovers (s : State) (l : LineAddr) : Bool :=
  match s.pdr.walker.mode with
  | .idle => false
  | .sweeping => true
  | .retiring n =>
    match s.rgt[n] with
    | some r => r.covers (addrOfLine l)
    | none => false

/-- Same way contents as far as R127 looks at a record's state: the line, and SHARED, INVALIDATING or EVICTING. -/
def LineRecord.sameState (a b : LineRecord) : Bool :=
  a.tag == b.tag &&
    match a.status, b.status with
    | .shared, .shared => true
    | .invalidating, .invalidating => true
    | .evicting _, .evicting _ => true
    | _, _ => false

/-- Between two moments the record at a way changed its state, including a change to FREE. -/
def stateChanged (before after : Option LineRecord) : Bool :=
  match before, after with
  | none, none => false
  | some a, some b => !a.sameState b
  | _, _ => true

/-- Between two moments some pending item left the record. -/
def itemLeft (before after : Option LineRecord) : Bool :=
  match before, after with
  | some a, some b => a.pending.any fun p => !b.pending.any fun q => q.master == p.master
  | some a, none => !a.pending.isEmpty
  | none, _ => false

/-- The pending fills of the record are not what they were. -/
def pendingChanged (before after : Option LineRecord) : Bool :=
  (before.map (·.pending)) != (after.map (·.pending))

/-- The change from one record to the other ends a pause with a reason (R127). -/
def endsPause (reason : PauseReason) (before after : Option LineRecord) : Bool :=
  match reason with
  | .pending => stateChanged before after || itemLeft before after
  | .invalidating | .evicting => stateChanged before after
  | .noEntry => stateChanged before after || pendingChanged before after

end Sys2Proof.Machine
end

