-- ==== Sys2Proof/Machine/Ops.lean ====
section
/-! DEFINITION. The named operations over the state that the commands are built from, block by block: what an event
does at the BFE, RSA, PDR, IVT, PWQ, MLC, MAU and MNC, and the release of a master. Each is the one place where its
rule is written. -/

namespace Sys2Proof.Machine

/-! ### One block replaced -/

def State.withBfe (s : State) (x : Bfe) : State := { s with bfe := x }
def State.withRsa (s : State) (x : Rsa) : State := { s with rsa := x }
def State.withRgt (s : State) (x : RegionTable) : State := { s with rgt := x }
def State.withPdr (s : State) (x : Pdr) : State := { s with pdr := x }
def State.withIvt (s : State) (x : Ivt) : State := { s with ivt := x }
def State.withPwq (s : State) (x : List QueueEntry) : State := { s with pwq := x }
def State.withMlc (s : State) (x : Mlc) : State := { s with mlc := x }
def State.withMau (s : State) (x : Mau) : State := { s with mau := x }
def State.withMnc (s : State) (x : Mnc) : State := { s with mnc := x }
def State.withPins (s : State) (x : Pins) : State := { s with pins := x }
def State.withClk (s : State) (x : Nat) : State := { s with clk := x }
def State.withPending (s : State) (x : List Instr) : State := { s with pending := x }

/-! ### The start of an event -/

/-- The buses as they stand between transfers: a transfer lasts until the next command (log 4). -/
def Pins.quiet (p : Pins) : Pins := { p with srb := none, ivb := none, mrl := none }

/-- A fitted master whose notice was still up at the release of RESET_N is IN_RESET from the first event on; there is
nothing to release (R133; log 7). -/
def Mau.takeStandingNotices (u : Mau) : Mau :=
  { u with attach := PerMaster.of fun m =>
      if u.resetNotice.get m && u.attach.get m == .online then .inReset else u.attach.get m }

/-- The state in which a command finds the part. -/
def State.atEvent (s : State) : State := (s.withPins s.pins.quiet).withMau s.mau.takeStandingNotices

/-! ### Error records (R182, R184) -/

/-- A record joins the young end of the error queue, or is discarded and sets the overflow flag. -/
def State.pushError (kind : ErrorKind) (m : Master) (address : Option Addr) (s : State) : State :=
  if s.mnc.errors.length < Config.errorRecords then
    s.withMnc { s.mnc with errors := s.mnc.errors ++ [⟨kind, m, address⟩] }
  else s.withMnc { s.mnc with overflow := true }

/-! ### Slots (R55 to R57) -/

/-- A slot of a request as it is accepted HELD. -/
def Slot.held (q : SlotRequest) (w : WaitReasons) : Slot := ⟨.held, q, w, none, false⟩

def State.setSlot (m : Master) (sl : Option Slot) (s : State) : State :=
  s.withRsa { s.rsa with slots := s.rsa.slots.set m sl }

/-- A slot leaves EMPTY: its master joins the young end of the acceptance order (R57). -/
def State.enterSlot (m : Master) (sl : Slot) (s : State) : State :=
  s.withRsa ⟨s.rsa.slots.set m (some sl), s.rsa.order ++ [m]⟩

/-- A slot becomes EMPTY: its master leaves the acceptance order (R57). -/
def State.emptySlot (m : Master) (s : State) : State :=
  s.withRsa ⟨s.rsa.slots.set m none, s.rsa.order.filter fun k => k != m⟩

/-- A change of the slot of m, if it is not EMPTY. -/
def State.modifySlot (m : Master) (f : Slot → Slot) (s : State) : State :=
  s.setSlot m ((s.rsa.slots.get m).map f)

/-- A change of every HELD slot. -/
def State.modifyHeld (f : Master → Slot → Slot) (s : State) : State :=
  s.withRsa { s.rsa with slots := PerMaster.of fun m =>
    (s.rsa.slots.get m).map fun sl => if sl.phase = .held then f m sl else sl }

/-- HELD slots bring OVERLAP, BYPASS_LIMIT and QUEUE_EMPTY_WAIT into line with the queue as it stands (R60, R91). -/
def State.refreshQueueWaits (s : State) : State :=
  s.modifyHeld fun _ sl => sl.withQueueWaits s.pwq s.mnc.bypassLimit

/-- The mark of an answer that its slot records (R55). -/
def Answer.recorded : Answer → SlotReply
  | .word _ => .word
  | .line _ keep => .line keep
  | .done => .done
  | .err => .err

/-- A reply is made: the slot becomes REPLYING, and the reply joins the young end of the reply queue (R69, R154). -/
def State.makeReply (m : Master) (a : Answer) (s : State) : State :=
  (s.modifySlot m fun sl => ⟨.replying a.recorded, sl.request, WaitReasons.none, none, false⟩).withBfe
    { s.bfe with replies := s.bfe.replies ++ [⟨m, .answer a⟩] }

/-- A request decided at once: its slot becomes HELD with no wait reasons and REPLYING in the same event
(R97, R109, R151). -/
def State.decideAtOnce (m : Master) (q : SlotRequest) (a : Answer) (s : State) : State :=
  (s.enterSlot m (Slot.held q WaitReasons.none)).makeReply m a

/-! ### The bus lock (R68, R106) -/

/-- The lock becomes free, and every HELD LOCK-READ loses LOCK_WAIT. -/
def State.releaseLock (s : State) : State :=
  (s.withBfe { s.bfe with lock := none }).modifyHeld fun _ sl =>
    if sl.request.isLockRead then { sl with waits := { sl.waits with lockWait := false } } else sl

/-- The lock is released if m holds it. -/
def State.releaseLockOf (m : Master) (s : State) : State :=
  match s.bfe.lock with
  | some k => if k.holder = m then s.releaseLock else s
  | none => s

/-- m takes the lock for a word in this event, and every other HELD LOCK-READ gains LOCK_WAIT (R68). -/
def State.takeLock (m : Master) (word : WordAddr) (s : State) : State :=
  (s.withBfe { s.bfe with lock := some ⟨m, word, some (s.clk + s.mnc.lockTimeout)⟩ }).modifyHeld fun k sl =>
    if k ≠ m ∧ sl.request.isLockRead then { sl with waits := { sl.waits with lockWait := true } } else sl

/-- A holder's request other than LOCK-WRITE breaks the lock with a LOCK_BROKEN record (R108). -/
def State.breakLock (k : BusLock) (s : State) : State :=
  s.releaseLock.pushError .lockBroken k.holder (some (addrOfWord k.word))

/-! ### The tracker (R33 to R35) -/

/-- A create request: the new entry takes the young end, and a HELD LOCK-READ of a word in its line gains LINE_BUSY;
`none` is the refusal NO_ENTRY (R33). -/
def State.createEntry (l : LineAddr) (kind : EntryKind) (targets causes : MasterSet) (s : State) : Option State :=
  if s.trackerFull then none
  else
    some <| (s.withIvt { s.ivt with entries := s.ivt.entries ++
        [⟨l, kind, targets, MasterSet.empty, MasterSet.empty, causes⟩] }).modifyHeld fun _ sl =>
      if sl.request.isLockReadIn l then { sl with waits := { sl.waits with lineBusy := true } } else sl

/-- A change of the live entry for a line. -/
def State.modifyEntry (l : LineAddr) (f : TrackerEntry → TrackerEntry) (s : State) : State :=
  s.withIvt { s.ivt with entries := s.ivt.entries.map fun e => if e.line = l then f e else e }

/-- An enlarge request (R34). -/
def State.enlargeEntry (l : LineAddr) (t : MasterSet) (a : Master) (s : State) : State :=
  s.modifyEntry l fun e => { e with targets := MasterSet.union e.targets t, causes := e.causes.insert a }

/-- An add-cause request (R35). -/
def State.addCause (l : LineAddr) (a : Master) (s : State) : State :=
  s.modifyEntry l fun e => { e with causes := e.causes.insert a }

/-! ### Directory sets (R5, R7, R8) -/

/-- A set's records replaced; a set left without a record is not listed. -/
def Directory.put : Directory → Nat → DirectorySet → Directory
  | [], i, v => if v.isEmpty then [] else [(i, v)]
  | (k, u) :: d, i, v =>
    if i < k then (if v.isEmpty then (k, u) :: d else (i, v) :: (k, u) :: d)
    else if i = k then (if v.isEmpty then d else (i, v) :: d)
    else (k, u) :: Directory.put d i v

/-- The canonical form of the directory: set numbers rising and below 1024, every listed set holding a record. -/
def Directory.wf : Directory → Bool
  | [] => true
  | (k, v) :: d => decide (k < Config.directorySets) && !v.isEmpty && (d.all fun e => decide (k < e.1)) &&
      Directory.wf d

/-- Every record of the directory replaced or freed. -/
def Directory.mapRecords (f : LineRecord → Option LineRecord) (d : Directory) : Directory :=
  (d.map fun e => (e.1, e.2.filterMap f)).filter fun e => !e.2.isEmpty

def State.setRecords (i : Nat) (rs : DirectorySet) (s : State) : State :=
  s.withPdr { s.pdr with sets := s.pdr.sets.put i rs }

/-- Installing a way for a line with a list of masters: SHARED, no sharers, one WAITING item for each (R7). -/
def LineRecord.installed (way : Way) (tag : Tag) (ms : List Master) : LineRecord :=
  ⟨way, tag, .shared, MasterSet.empty, ms.map fun m => ⟨m, .waiting, false⟩⟩

/-- A set's record for a tag replaced, or freed by `none`. -/
def DirectorySet.update (rs : DirectorySet) (t : Tag) (f : LineRecord → Option LineRecord) : DirectorySet :=
  rs.filterMap fun r => if r.tag = t then f r else some r

def State.updateRecord (l : LineAddr) (f : LineRecord → Option LineRecord) (s : State) : State :=
  s.setRecords (setOfLine l) (DirectorySet.update (s.pdr.sets.get (setOfLine l)) (tagOfLine l) f)

/-- A record as it stands after an event that may leave it with nothing: freed when it is (R8). -/
def LineRecord.unlessEmpty (r : LineRecord) : Option LineRecord := if r.isLeftEmpty then none else some r

/-! ### Fill lookup (R9 to R15) -/

/-- The outcomes of a fill lookup (R9). -/
inductive LookupOutcome where
  | joined | lineBusy | claimant | demoted
  deriving DecidableEq, Repr

/-- The victim of a full set: the oldest eligible way (R14). -/
def DirectorySet.victim (rs : DirectorySet) : Option LineRecord := rs.find? fun r => r.eligibleVictim

/-- A victim chosen for a fill of m for line l (R15). -/
def State.useVictim (m : Master) (l : LineAddr) (v : LineRecord) (s : State) : State × LookupOutcome :=
  let i := setOfLine l
  let rs := s.pdr.sets.get i
  if v.sharers.isEmpty then
    (s.setRecords i ((rs.filter fun r => r.way != v.way) ++ [LineRecord.installed v.way (tagOfLine l) [m]]), .joined)
  else
    match s.createEntry (lineOfTag v.tag i) .evict v.sharers MasterSet.empty with
    | none => (s, .demoted)
    | some s' =>
      (s'.setRecords i (rs.map fun r =>
        if r.way = v.way then { r with status := .evicting (some ⟨tagOfLine l, [m]⟩) } else r), .claimant)

/-- m joins the claimants of the successor that a record carries, where that successor has a tag (R12). -/
def LineRecord.withClaimant (m : Master) (t : Tag) (r : LineRecord) : LineRecord :=
  match r.status with
  | .evicting (some su) =>
    if su.tag = t then { r with status := .evicting (some { su with claimants := su.claimants ++ [m] }) } else r
  | .evicting none | .invalidating | .shared => r

/-- A fill lookup of m for line l (R9): the line's record, then a successor with that line, then a FREE way, then the
victim choice of a full set. -/
def State.fillLookup (m : Master) (l : LineAddr) (s : State) : State × LookupOutcome :=
  let i := setOfLine l
  let t := tagOfLine l
  let rs := s.pdr.sets.get i
  match rs.find? fun r => r.tag == t with
  | some r =>
    match r.status with
    | .shared =>
      (s.setRecords i (DirectorySet.update rs t fun r =>
        some { r with pending := r.pending ++ [⟨m, .waiting, false⟩] }), .joined)
    | .invalidating => (s, .lineBusy)
    | .evicting _ => (s, .demoted)
  | none =>
    if rs.any fun r => r.successor.any fun su => su.tag == t then
      (s.setRecords i (rs.map (LineRecord.withClaimant m t)), .claimant)
    else
      match rs.lowestFree with
      | some w => (s.setRecords i (rs ++ [LineRecord.installed w t [m]]), .joined)
      | none =>
        match rs.victim with
        | none => (s, .demoted)
        | some v => s.useVictim m l v

/-- The fill mode of a READ-LINE after a demotion. -/
def SlotRequest.demoted : SlotRequest → SlotRequest
  | .readLine l p _ => .readLine l p .uncached
  | q => q

/-- A fill's slot as a lookup's outcome leaves it (R64). -/
def Slot.afterLookup (o : LookupOutcome) (sl : Slot) : Slot :=
  { sl with
    request := if o = .demoted then sl.request.demoted else sl.request
    waits := { sl.waits with lineBusy := o == .lineBusy, wayWait := o == .claimant } }

/-- The slots of claimants told DEMOTED, or their way reinstalled: each loses WAY_WAIT (R65). -/
def State.endWayWait (o : LookupOutcome) (ms : List Master) (s : State) : State :=
  ms.foldl (fun s m => s.modifySlot m (Slot.afterLookup o)) s

/-- The fill of m held with LINE_BUSY against l is looked up again, or demoted (R11, R65). -/
def State.releaseFill (l : LineAddr) (s : State) (m : Master) : State :=
  match s.rsa.slots.get m with
  | some sl =>
    match sl.phase, sl.request with
    | .held, .readLine l' _ .directory =>
      if l' = l ∧ sl.waits.lineBusy = true then
        if s.directoryFill m l then
          let (s', o) := s.fillLookup m l
          s'.modifySlot m (Slot.afterLookup o)
        else s.modifySlot m (Slot.afterLookup .demoted)
      else s
    | _, _ => s
  | none => s

/-- Line l is released: its waiting fills are taken in acceptance order (R11, R65). -/
def State.releaseLine (l : LineAddr) (s : State) : State := s.rsa.order.foldl (State.releaseFill l) s

/-! ### Write step (R20 to R22) -/

/-- The target set of a write of a to line l (R20). -/
def State.writeTargets (a : Master) (l : LineAddr) (s : State) : MasterSet :=
  match s.pdr.sets.recordOf l with
  | none => MasterSet.empty
  | some r =>
    match r.status with
    | .shared => r.sharers.erase a
    | .invalidating =>
      match s.liveEntry l with
      | some e => MasterSet.diff (r.sharers.erase a) e.targets
      | none => r.sharers.erase a
    | .evicting _ => MasterSet.empty

/-- The ISSUED items of masters other than the writer are spoiled (R22). -/
def LineRecord.spoiledByWrite (a : Master) (r : LineRecord) : LineRecord :=
  { r with pending := r.pending.map fun p =>
      if p.phase = .issued ∧ p.master ≠ a then { p with spoiled := true } else p }

/-- The tracker's part and the record's new status in a write step; `none` is NO_ENTRY (R21). -/
def State.writeTracker (a : Master) (l : LineAddr) (s : State) : Option State :=
  let t := s.writeTargets a l
  match s.pdr.sets.recordOf l with
  | none => some s
  | some r =>
    match r.status with
    | .shared =>
      if t.isEmpty then some s
      else (s.createEntry l .write t (MasterSet.single a)).map fun s' =>
        s'.updateRecord l fun r => some { r with status := .invalidating }
    | .invalidating | .evicting _ =>
      if !t.isEmpty then some (s.enlargeEntry l t a)
      else
        match s.liveEntry l with
        | some e => if (e.targets.erase a).isEmpty then some s else some (s.addCause l a)
        | none => some s

/-- The directory's part in a write of a to line l: taken whole, or refused with NO_ENTRY and nothing changed. -/
def State.writeStep (a : Master) (l : LineAddr) (s : State) : Option State :=
  (s.writeTracker a l).map fun s' => s'.updateRecord l fun r => some (r.spoiledByWrite a)

/-! ### Ends of fills (R16 to R19) -/

/-- The pending item of m for line l becomes ISSUED (R16). -/
def State.fillIssued (m : Master) (l : LineAddr) (s : State) : State :=
  s.updateRecord l fun r => some { r with pending := r.pending.map fun p =>
    if p.master = m then { p with phase := .issued } else p }

/-- The fill is kept: its item is not spoiled, its master is ONLINE, and the record is not INVALIDATING with its
master among the targets (R17). -/
def State.fillKept (m : Master) (l : LineAddr) (s : State) : Bool :=
  match s.pdr.sets.recordOf l with
  | none => false
  | some r =>
    (r.pending.any fun p => p.master == m && !p.spoiled) && s.isOnline m &&
      !(r.status == .invalidating && (s.liveEntry l).any fun e => e.targets.get m)

/-- m's item leaves the record of l, m joining the sharers if the fill is kept; the record is freed if nothing is left
(R17, R18). -/
def State.endFill (m : Master) (l : LineAddr) (keep : Bool) (s : State) : State :=
  s.updateRecord l fun r =>
    { r with
      sharers := if keep then r.sharers.insert m else r.sharers
      pending := r.pending.filter fun p => p.master != m }.unlessEmpty

/-! ### The walker (R123, R127, R128) -/

def State.withWalker (w : Walker) (s : State) : State := s.withPdr { s.pdr with walker := w }

/-- The walk ends if it is draining and none of its WALK entries is live (R128). -/
def State.endWalkIfDone (s : State) : State :=
  if s.pdr.walker.draining && s.pdr.walker.outstanding == 0 then
    match s.pdr.walker.mode with
    | .idle => s
    | .sweeping => s.withWalker Walker.idle
    | .retiring n => (s.withRgt (s.rgt.set n none)).withWalker Walker.idle
  else s

/-- The completion of a WALK entry is counted (R128). -/
def State.countWalkEntry (s : State) : State :=
  (s.withWalker { s.pdr.walker with outstanding := s.pdr.walker.outstanding - 1 }).endWalkIfDone

/-- A pause with a reason is marked ended. -/
def Walker.endPause (w : Walker) : Walker := { w with pause := w.pause.map fun p => { p with ended := true } }

/-- The PDR tells the walker of an event that ends its pause (R127). -/
def State.tellWalker (before after : State) : State :=
  match after.pdr.walker.pause, after.pdr.walker.set with
  | some p, some i =>
    if endsPause p.reason (before.pdr.sets.recordAt i p.way) (after.pdr.sets.recordAt i p.way) then
      after.withWalker after.pdr.walker.endPause
    else after
  | _, _ => after

/-! ### Completion of a tracker entry (R23 to R25, R36, R45) -/

/-- The waiters for a free entry are told: LOCK-WRITEs with TRACKER_WAIT, and the walker paused with NO_ENTRY (R36). -/
def State.tellFreeEntry (s : State) : State :=
  let s := s.modifyHeld fun _ sl => if sl.waits.trackerWait then { sl with freeEntryTold := true } else sl
  match s.pdr.walker.pause with
  | some p => if p.reason = .noEntry then s.withWalker s.pdr.walker.endPause else s
  | none => s

/-- The directory's part in the completion of an entry: R23 for WRITE, R24 and R25 for EVICT and WALK. -/
def State.completeAtDirectory (e : TrackerEntry) (s : State) : State :=
  match e.kind with
  | .write =>
    (s.updateRecord e.line fun r =>
      { r with status := .shared, sharers := MasterSet.diff r.sharers e.targets }.unlessEmpty).releaseLine e.line
  | .evict | .walk =>
    let i := setOfLine e.line
    let rs := s.pdr.sets.get i
    match rs.find? fun r => r.tag == tagOfLine e.line with
    | none => s
    | some r =>
      let rest := rs.filter fun q => q.way != r.way
      match r.successor with
      | none => s.setRecords i rest
      | some su =>
        (s.setRecords i (rest ++ [LineRecord.installed r.way su.tag su.claimants])).endWayWait .joined su.claimants

/-- HELD LOCK-READs of a word in the line lose LINE_BUSY (R67). -/
def State.lockReadsReleased (l : LineAddr) (s : State) : State :=
  s.modifyHeld fun _ sl =>
    if sl.request.isLockReadIn l then { sl with waits := { sl.waits with lineBusy := false } } else sl

/-- A complete entry leaves the tracker, and the directory, the slots, the walker and the waiters are told, in the order
of R45. The decisions of SYNC and LOCK-WRITE slots follow once for the event, in `settleWaiters` (log 14). -/
def State.completeEntry (s : State) (e : TrackerEntry) : State :=
  let wasFull := s.trackerFull
  let s := s.withIvt { s.ivt with entries := s.ivt.entries.filter fun k => k.line != e.line }
  let s := (s.completeAtDirectory e).lockReadsReleased e.line
  let s := if e.kind = .walk then s.countWalkEntry else s
  if wasFull then s.tellFreeEntry else s

/-! ### SYNC and LOCK-WRITE decided (R104, R112) -/

/-- The answer of a SYNC by its master's write-failed flag (R104). -/
def State.syncAnswer (s : State) (m : Master) : Answer := if s.mau.writeFailed.get m then .err else .done

def Ending.answer : Ending → Answer
  | .ok => .done
  | .fail => .err

/-- A SYNC whose two conditions hold is decided; a LOCK-WRITE whose completion has arrived and whose tracker condition
holds ends, releasing the lock if its master still holds it. -/
def State.settleSlot (s : State) (m : Master) : State :=
  match s.rsa.slots.get m with
  | none => s
  | some sl =>
    match sl.phase, sl.request, sl.arrived with
    | .held, .sync, _ => if s.syncComplete m then s.makeReply m (s.syncAnswer m) else s
    | .issued, .lockWrite w p _, some en =>
      if s.lockWriteConditionOf w p then (s.releaseLockOf m).makeReply m en.answer else s
    | _, _, _ => s

/-- The slots that wait on the queue or the tracker are examined in acceptance order, so that the replies of one event
join the reply queue in that order (R57, R104, R112, R154). -/
def State.settleWaiters (s : State) : State := s.rsa.order.foldl State.settleSlot s

/-- Entries complete in tracker order, then the slots that waited on them are examined (R45, R46). -/
def State.completeEntries (es : List TrackerEntry) (s : State) : State :=
  (es.foldl State.completeEntry s).settleWaiters

/-! ### The Posted Write Queue (R76 to R80) -/

/-- The queue's answer to an offered write (R76). -/
inductive QueueAnswer where
  | deviceHold | merge | append | full
  deriving DecidableEq, Repr

def State.offer (m : Master) (w : WordAddr) (s : State) : QueueAnswer :=
  if s.deviceHold then .deviceHold
  else if s.pwq.getLast?.any fun e => e.phase == .waiting && e.source == m && e.word == w then .merge
  else if s.pwq.length < Config.queueEntries then .append
  else .full

/-- The youngest entry with a later write's bytes merged in (R79). -/
def mergeYoungest (lanes : Lanes) : List QueueEntry → List QueueEntry
  | [] => []
  | [e] => [{ e with lanes := lanes.over e.lanes }]
  | e :: f :: es => e :: mergeYoungest lanes (f :: es)

/-- A write is placed as the queue answered: merged, or appended with count 0 (R78, R79); the slots are told (R60). -/
def State.placeWrite (m : Master) (w : WordAddr) (lanes : Lanes) (ans : QueueAnswer) (s : State) : State :=
  match ans with
  | .merge => (s.withPwq (mergeYoungest lanes s.pwq)).refreshQueueWaits
  | .append => (s.withPwq (s.pwq ++ [⟨w, lanes, m, .waiting, 0⟩])).refreshQueueWaits
  | .deviceHold | .full => s

/-- A read issued: every WAITING entry's count rises by one (R89). -/
def raiseCounts (q : List QueueEntry) : List QueueEntry :=
  q.map fun e => if e.phase = .waiting then { e with count := e.count + 1 } else e

/-- The oldest WAITING entry becomes ISSUED (R83). -/
def issueOldest : List QueueEntry → List QueueEntry
  | [] => []
  | e :: q => if e.phase = .waiting then { e with phase := .issued } :: q else e :: issueOldest q

/-! ### Replies at acceptance (R152) -/

/-- A refused request: a RETRY reply, and its master to the young end of the retry preference list. -/
def State.refuse (m : Master) (s : State) : State :=
  s.withBfe { s.bfe with replies := s.bfe.replies ++ [⟨m, .retry⟩], retryList := s.bfe.retryList ++ [m] }

/-! ### Release of a master (R26, R27, R46, R70, R71, R135, R136, R160, R175) -/

/-- A claim of m abandoned or demoted: m leaves the claimants, and the last one to leave drops the successor
(R4, R19, R27). -/
def RecordStatus.withoutClaimant (m : Master) : RecordStatus → RecordStatus
  | .evicting (some su) =>
    let cs := su.claimants.filter fun k => k != m
    .evicting (if cs.isEmpty then none else some { su with claimants := cs })
  | .evicting none => .evicting none
  | .invalidating => .invalidating
  | .shared => .shared

/-- m's pending item is abandoned on entering IN_RESET and spoiled on entering ISOLATED (R19, R27). -/
def pendingWithout (m : Master) (entering : AttachState) (ps : List PendingFill) : List PendingFill :=
  if entering = .inReset then ps.filter fun p => p.master != m
  else ps.map fun p => if p.master = m then { p with spoiled := true } else p

/-- What the directory's removal of m does to one record, by the state m enters; `none` frees it (R26, R27, R19). -/
def LineRecord.withoutMaster (m : Master) (entering : AttachState) (r : LineRecord) : Option LineRecord :=
  LineRecord.unlessEmpty
    { r with
      sharers := r.sharers.erase m
      pending := pendingWithout m entering r.pending
      status := r.status.withoutClaimant m }

/-- m leaves the sharers of every record, and its fill in progress is treated by the state it enters; on isolation the
slot of a claimant is told DEMOTED (R27). -/
def State.removeFromDirectory (m : Master) (entering : AttachState) (s : State) : State :=
  let s := s.withPdr { s.pdr with sets := s.pdr.sets.mapRecords (LineRecord.withoutMaster m entering) }
  if entering = .isolated then
    s.modifySlot m fun sl =>
      if sl.phase = .held ∧ sl.waits.wayWait = true then Slot.afterLookup .demoted sl else sl
  else s

/-- m leaves every entry's targets, sent and acked, its list is emptied and its timer stopped; the entries then
complete are completed in tracker order (R46). -/
def State.releaseFromTracker (m : Master) (s : State) : State :=
  let entries := s.ivt.entries.map fun e =>
    { e with targets := e.targets.erase m, sent := e.sent.erase m, acked := e.acked.erase m }
  (s.withIvt ⟨entries, s.ivt.notices.set m [], s.ivt.timers.set m none⟩).completeEntries
    (entries.filter fun e => e.complete)

/-- An item of m's slot is marked discard; items of PWQ origin never are (R175). -/
def InFlight.discardFor (m : Master) (i : InFlight) : InFlight :=
  match i.origin with
  | .read k | .unposted k | .continuation k => if k = m then { i with discard := true } else i
  | .queue _ => i

/-- m's slot is emptied: its reply removed, its MRL requests marked discard, its continuation and assembly removed
(R71, R156, R175). -/
def State.abandonSlot (m : Master) (s : State) : State :=
  ((s.emptySlot m).withBfe { s.bfe with replies := s.bfe.replies.filter fun r => r.master != m }).withMlc
    { inFlight := s.mlc.inFlight.map (InFlight.discardFor m)
      assemblies := s.mlc.assemblies.set m none
      continuations := s.mlc.continuations.filter fun k => k != m }

/-- m leaves the retry preference list (R136). -/
def State.leaveRetryList (m : Master) (s : State) : State :=
  s.withBfe { s.bfe with retryList := s.bfe.retryList.filter fun k => k != m }

/-- An outstanding grant to m is withdrawn (R160). -/
def State.withdrawGrant (m : Master) (s : State) : State :=
  if s.bfe.grant = some m then s.withBfe { s.bfe with grant := none } else s

def State.setAttach (m : Master) (a : AttachState) (s : State) : State :=
  s.withMau { s.mau with attach := s.mau.attach.set m a }

/-- m enters ISOLATED (R135): directory, tracker, slot, lock and list, then the records of the passage. An isolation by
timeout names the line at the head of m's list; it makes INVALIDATION_TIMEOUT and, if m still held the lock in the
lock's step, LOCK_BROKEN (R136, R137; log 13). One by command makes none. -/
def State.isolate (m : Master) (timeout : Option LineAddr) (s : State) : State :=
  let before := s
  let s := ((s.setAttach m .isolated).removeFromDirectory m .isolated).releaseFromTracker m
  let held := s.bfe.lock.filter fun k => k.holder == m
  let s := (s.releaseLockOf m).leaveRetryList m
  let s :=
    match timeout with
    | none => s
    | some l =>
      let s := s.pushError .invalidationTimeout m (some (addrOfLine l))
      match held with
      | some k => s.pushError .lockBroken m (some (addrOfWord k.word))
      | none => s
  State.tellWalker before s

/-- m enters IN_RESET (R135, R140): as above with its slot emptied and an outstanding grant withdrawn; no record. -/
def State.enterReset (m : Master) (s : State) : State :=
  let before := s
  let s := ((s.setAttach m .inReset).removeFromDirectory m .inReset).releaseFromTracker m
  let s := (s.abandonSlot m).releaseLockOf m
  State.tellWalker before ((s.leaveRetryList m).withdrawGrant m)

end Sys2Proof.Machine
end

