-- ==== Sys2Proof/Machine/Attachment.lean ====
section
/-! DEFINITION. Chip reset and the reset notices of the masters (spec/07_master_attachment.md). -/

namespace Sys2Proof.Machine

/-- CHIP_RESET: every block returns to its reset state and the straps give the attachment states. Input levels, the
count of CLK periods and the queue of waiting commands are outside the reset (log 9). -/
def execChipReset (mpres mrst : MasterSet) (s : State) : Host.Outcome State Fault Refusal :=
  .next (State.afterReset mpres mrst s.pins.sreq s.pins.mrdy s.pins.spiSelected s.clk s.pending)

def State.seeResetNotice (m : Master) (up : Bool) (s : State) : State :=
  s.withMau { s.mau with resetNotice := s.mau.resetNotice.set m up }

/-- RESET_NOTICE_RISE: an ONLINE or ISOLATED master enters IN_RESET; ignored on an ABSENT slot (R132, R140). -/
def execResetNoticeRise (m : Master) (s : State) : Host.Outcome State Fault Refusal :=
  let s := s.atEvent.seeResetNotice m true
  match s.mau.attach.get m with
  | .online | .isolated => .next (s.enterReset m)
  | .absent | .inReset => .next s

/-- RESET_NOTICE_FALL: an IN_RESET master returns to ONLINE holding nothing (R141). -/
def execResetNoticeFall (m : Master) (s : State) : Host.Outcome State Fault Refusal :=
  let s := s.atEvent.seeResetNotice m false
  match s.mau.attach.get m with
  | .inReset => .next (s.setAttach m .online)
  | .absent | .online | .isolated => .next s

end Sys2Proof.Machine
end

