-- ==== Sys2Proof/Machine/Bus.lean ====
section
/-! DEFINITION. The commands of the Shared Request Bus and of the bus lock (spec/08_the_shared_request_bus.md,
spec/03_request_slots_reads_and_line_fills.md, spec/05_writes_sync_and_locked_pairs.md): grants, the acceptance of
each request kind, the fall of a request line, the sending of replies, and the lock timeout. -/

namespace Sys2Proof.Machine

/-! ### Grant (R157, R158, R160) -/

def State.seeRequestLines (sreq : MasterSet) (s : State) : State := s.withPins { s.pins with sreq := sreq }

/-- The grant event: the grant and the pointer name the chosen master, which leaves the retry preference list. -/
def State.giveGrant (m : Master) (s : State) : State :=
  s.withBfe { s.bfe with
    grant := some m, pointer := m, retryList := s.bfe.retryList.filter fun k => k != m }

/-- GRANT: no grant is made while the request phase is busy or when no master is grantable (R144, R158). -/
def execGrant (sreq : MasterSet) (s : State) : Host.Outcome State Fault Refusal :=
  let s := s.atEvent.seeRequestLines sreq
  match s.bfe.grant, s.grantChoice with
  | none, some m => .next (s.giveGrant m)
  | _, _ => .next s

/-- REQUEST_LINE_FALL (R160). -/
def execRequestLineFall (m : Master) (s : State) : Host.Outcome State Fault Refusal :=
  .next ((s.atEvent.seeRequestLines (s.pins.sreq.erase m)).withdrawGrant m)

/-! ### The acceptance event (R150) -/

/-- The grant is cleared at its acceptance or lapse. -/
def State.clearGrant (m : Master) (lineUp : Bool) (s : State) : State :=
  (s.withBfe { s.bfe with grant := none }).seeRequestLines (s.pins.sreq.set m lineUp)

/-- Steps 1 to 3 of R150 for the request of the granted master: no transfer without a grant; a lapse when the request
line is down; RETRY under another master's lock; and the holder's lock broken unless the request is a LOCK-WRITE.
What is left to the kind is `handle`. -/
def State.accept (r : RequestLines) (isLockWrite : Bool) (handle : Master → State → State) (s : State) : State :=
  match s.bfe.grant with
  | none => s
  | some m =>
    let s := s.clearGrant m r.sreq
    if r.sreq = false then s
    else
      match s.bfe.lock with
      | none => handle m s
      | some k =>
        if k.holder ≠ m then s.refuse m
        else if isLockWrite then handle m s
        else handle m (s.breakLock k)

/-- A slot HELD with a request, the waits named, and the waits that the queue gives it (R59). -/
def State.newSlot (s : State) (q : SlotRequest) (w : WaitReasons) : Slot :=
  (Slot.held q w).withQueueWaits s.pwq s.mnc.bypassLimit

/-- The policy of a word's address at this event (R58, R117). -/
def State.policyOfWord (s : State) (w : WordAddr) : Policy := regionLookup s.rgt (addrOfWord w)

/-! ### Reads (R62 to R64, R67) -/

def State.acceptRead (r : RequestLines) (m : Master) (s : State) : State :=
  let w := requestWord r
  s.enterSlot m (s.newSlot (.read w (s.policyOfWord w)) WaitReasons.none)

def execRead (r : RequestLines) (s : State) : Host.Outcome State Fault Refusal :=
  .next (s.atEvent.accept r false (State.acceptRead r))

/-- A READ-LINE: a directory fill is looked up, any other is uncached (R63, R64). -/
def State.acceptReadLine (r : RequestLines) (m : Master) (s : State) : State :=
  let l := requestLine r
  let p := regionLookup s.rgt (addrOfLine l)
  if s.directoryFill m l then
    let (s', o) := s.fillLookup m l
    s'.enterSlot m ((s'.newSlot (.readLine l p .directory) WaitReasons.none).afterLookup o)
  else s.enterSlot m (s.newSlot (.readLine l p .uncached) WaitReasons.none)

def execReadLine (r : RequestLines) (s : State) : Host.Outcome State Fault Refusal :=
  .next (State.tellWalker s.atEvent (s.atEvent.accept r false (State.acceptReadLine r)))

/-- A LOCK-READ's own waits: LINE_BUSY while its line has a live entry, LOCK_WAIT under another master's lock (R67). -/
def State.lockReadWaits (s : State) (m : Master) (w : WordAddr) : WaitReasons :=
  { WaitReasons.none with lineBusy := (s.liveEntry (lineOfWord w)).isSome, lockWait := !s.lockAllows m }

def State.acceptLockRead (r : RequestLines) (m : Master) (s : State) : State :=
  let w := requestWord r
  s.enterSlot m (s.newSlot (.lockRead w (s.policyOfWord w)) (s.lockReadWaits m w))

def execLockRead (r : RequestLines) (s : State) : Host.Outcome State Fault Refusal :=
  .next (s.atEvent.accept r false (State.acceptLockRead r))

/-! ### WRITE (R96 to R101) -/

/-- A posted write: offered to the queue, its write step made if its policy is TRACKED, then placed and answered DONE;
refused with RETRY by the queue or by the tracker (R98, R99). -/
def State.postWrite (m : Master) (w : WordAddr) (lanes : Lanes) (p : Policy) (s : State) : State :=
  match s.offer m w with
  | .deviceHold | .full => s.refuse m
  | ans =>
    match if p.isTracked then s.writeStep m (lineOfWord w) else some s with
    | none => s.refuse m
    | some s' => (s'.placeWrite m w lanes ans).decideAtOnce m (.write w (some p) lanes) .done

def State.acceptWrite (r : RequestLines) (m : Master) (s : State) : State :=
  let w := requestWord r
  let lanes := requestLanes r
  if !namesAByte r then
    (s.decideAtOnce m (.write w none lanes) .err).pushError .requestMalformed m (some (addrOfWord w))
  else if !requestParityGood r then
    (s.decideAtOnce m (.write w none lanes) .err).pushError .writeParity m (some (addrOfWord w))
  else
    match s.policyOfWord w with
    | .device => s.enterSlot m (s.newSlot (.write w (some .device) lanes) WaitReasons.none)
    | p => s.postWrite m w lanes p

def execWrite (r : RequestLines) (s : State) : Host.Outcome State Fault Refusal :=
  .next (State.tellWalker s.atEvent (s.atEvent.accept r false (State.acceptWrite r)))

/-! ### LOCK-WRITE (R109, R110) -/

/-- A LOCK-WRITE that passed its checks: the deadline is cancelled, the policy recorded afresh, and the write step made
in a TRACKED region; a refused step holds the slot with TRACKER_WAIT (R110). -/
def State.joinPair (k : BusLock) (m : Master) (w : WordAddr) (lanes : Lanes) (s : State) : State :=
  let s := s.withBfe { s.bfe with lock := some { k with deadline := none } }
  let p := s.policyOfWord w
  let q := SlotRequest.lockWrite w (some p) lanes
  if p.isTracked then
    match s.writeStep m (lineOfWord w) with
    | some s' => s'.enterSlot m (Slot.held q WaitReasons.none)
    | none => s.enterSlot m (Slot.held q { WaitReasons.none with trackerWait := true })
  else s.enterSlot m (Slot.held q WaitReasons.none)

/-- The checks of R109 in their order. -/
def State.acceptLockWrite (r : RequestLines) (m : Master) (s : State) : State :=
  let w := requestWord r
  let lanes := requestLanes r
  let failed := fun (s : State) => s.decideAtOnce m (.lockWrite w none lanes) .err
  match s.bfe.lock with
  | none => (failed s).pushError .requestMalformed m (some (addrOfWord w))
  | some k =>
    if w ≠ k.word then (failed s.releaseLock).pushError .lockBroken m (some (addrOfWord k.word))
    else if !namesAByte r then (failed s.releaseLock).pushError .requestMalformed m (some (addrOfWord w))
    else if !requestParityGood r then (failed s.releaseLock).pushError .writeParity m (some (addrOfWord w))
    else s.joinPair k m w lanes

def execLockWrite (r : RequestLines) (s : State) : Host.Outcome State Fault Refusal :=
  .next (State.tellWalker s.atEvent (s.atEvent.accept r true (State.acceptLockWrite r)))

/-! ### SYNC and the request with no kind (R103, R104, R151) -/

def State.acceptSync (m : Master) (s : State) : State :=
  if s.syncComplete m then s.decideAtOnce m .sync (s.syncAnswer m)
  else s.enterSlot m (Slot.held .sync { WaitReasons.none with syncWait := true })

def execSync (r : RequestLines) (s : State) : Host.Outcome State Fault Refusal :=
  .next (s.atEvent.accept r false State.acceptSync)

def State.acceptNoKind (r : RequestLines) (m : Master) (s : State) : State :=
  let w := requestWord r
  (s.decideAtOnce m (.noKind w) .err).pushError .requestMalformed m (some (addrOfWord w))

/-- MALFORMED_REQUEST: a SKIND that names a kind is no event of this row (log 18). -/
def execMalformedRequest (skind : BitVec 3) (r : RequestLines) (s : State) : Host.Outcome State Fault Refusal :=
  if skindNamesNoKind skind then .next (s.atEvent.accept r false (State.acceptNoKind r)) else .next s.atEvent

/-! ### Replies (R147, R149, R155) -/

/-- The reply codes (R145). -/
def ReplyBody.code : ReplyBody → BitVec 3
  | .answer (.word _) => 0
  | .answer (.line _ _) => 1
  | .answer .done => 2
  | .retry => 3
  | .answer .err => 4

/-- The words a reply drives on SD. -/
def ReplyBody.words : ReplyBody → List Word
  | .answer (.word w) => [w]
  | .answer (.line ws _) => ws
  | .answer .done | .answer .err | .retry => []

def ReplyBody.keep : ReplyBody → Option Bool
  | .answer (.line _ k) => some k
  | .answer (.word _) | .answer .done | .answer .err | .retry => none

/-- The transfer of a reply, with the parity generated for each word it drives (R147, R149). -/
def Reply.transfer (r : Reply) : ReplyTransfer :=
  ⟨r.master, r.body.code, r.body.keep, r.body.words.map fun w => (w, parityOfWord w)⟩

/-- The slot of m holds a SYNC answered ERR. -/
def State.sendsSyncErr (s : State) (r : Reply) : Bool :=
  r.body == .answer .err && (s.rsa.slots.get r.master).any fun sl => sl.request == .sync

/-- The sent reply's slot becomes EMPTY; a RETRY comes from none. The ERR of a SYNC clears the flag (R155, R142). -/
def State.afterSend (r : Reply) (s : State) : State :=
  let s' := if r.body = .retry then s else s.emptySlot r.master
  if s.sendsSyncErr r then s'.withMau { s'.mau with writeFailed := s'.mau.writeFailed.erase r.master } else s'

def execReplySend (s : State) : Host.Outcome State Fault Refusal :=
  let s := s.atEvent
  match s.bfe.replies with
  | [] => .next s
  | r :: rest =>
    .next (((s.withBfe { s.bfe with replies := rest }).withPins
      { s.pins with srb := some r.transfer }).afterSend r)

/-! ### The lock deadline (R107) -/

/-- LOCK_TIMEOUT: the running deadline is reached (log 2). -/
def execLockTimeout (s : State) : Host.Outcome State Fault Refusal :=
  let s := s.atEvent
  match s.bfe.lock with
  | some ⟨h, w, some d⟩ =>
    .next ((s.withClk (max s.clk d)).releaseLock.pushError .lockTimeout h (some (addrOfWord w)))
  | _ => .next s

end Sys2Proof.Machine
end

