-- ==== Sys2Proof/Machine/Invalidation.lean ====
section
/-! DEFINITION. The commands of the Invalidation Tracker (spec/02_invalidation_tracker_and_invalidation_bus.md): the
send event, acknowledges, timer expiry, and the LOCK-WRITE that tries its write step again. -/

namespace Sys2Proof.Machine

/-- A message for an entry (R37): its unsent targets become sent, each gains the line on its list, and the timer of
each whose list was empty starts with the timeout in force (R42). -/
def State.sendMessage (e : TrackerEntry) (s : State) : State :=
  let u := e.unsent
  (s.withIvt
    { entries := s.ivt.entries.map fun k => if k.line = e.line then { k with sent := MasterSet.union k.sent u } else k
      notices := PerMaster.of fun m => if u.get m then s.ivt.notices.get m ++ [e.line] else s.ivt.notices.get m
      timers := PerMaster.of fun m =>
        if u.get m && (s.ivt.notices.get m).isEmpty then some (s.clk + s.mnc.invalidationTimeout)
        else s.ivt.timers.get m }).withPins { s.pins with ivb := some ⟨e.line, u⟩ }

/-- SEND_EVENT: the oldest entry with an unsent target; the bus is idle when there is none (R38). -/
def execSendEvent (s : State) : Host.Outcome State Fault Refusal :=
  let s := s.atEvent
  match s.ivt.entries.find? fun e => !e.unsent.isEmpty with
  | none => .next s
  | some e => .next (s.sendMessage e)

/-- The head item of m's list is answered (R39): the entry for its line gains m in acked, and the timer restarts for a
new head or stops. The entry completes if its acked set now equals its targets. -/
def State.answerHead (m : Master) (l : LineAddr) (rest : List LineAddr) (s : State) : State :=
  let entries := s.ivt.entries.map fun e => if e.line = l then { e with acked := e.acked.insert m } else e
  let timer := if rest.isEmpty then none else some (s.clk + s.mnc.invalidationTimeout)
  (s.withIvt ⟨entries, s.ivt.notices.set m rest, s.ivt.timers.set m timer⟩).completeEntries
    (entries.filter fun e => e.line == l && e.complete)

/-- ACKNOWLEDGE: answers the head of an ONLINE master's list; otherwise a STRAY_ACK of an ONLINE or ISOLATED master, and
ignored for an IN_RESET or ABSENT one (R39, R40). -/
def execAcknowledge (m : Master) (s : State) : Host.Outcome State Fault Refusal :=
  let s := s.atEvent
  match s.mau.attach.get m with
  | .absent | .inReset => .next s
  | .isolated => .next (s.pushError .strayAck m none)
  | .online =>
    match s.ivt.notices.get m with
    | [] => .next (s.pushError .strayAck m none)
    | l :: rest => .next (State.tellWalker s (s.answerHead m l rest))

/-- TIMER_EXPIRY: the running timer of an ONLINE master reaches its deadline (log 2); the master is isolated and the
line at the head of its list recorded (R43, R137). -/
def execTimerExpiry (m : Master) (s : State) : Host.Outcome State Fault Refusal :=
  let s := s.atEvent
  match s.ivt.timers.get m, s.ivt.notices.get m with
  | some d, l :: _ => if s.isOnline m then .next ((s.withClk (max s.clk d)).isolate m (some l)) else .next s
  | _, _ => .next s

/-- The write step of a LOCK-WRITE held with TRACKER_WAIT, made again after a report of a free entry (R110). -/
def State.retryLockWrite (m : Master) (w : WordAddr) (s : State) : State :=
  match s.writeStep m (lineOfWord w) with
  | some s' =>
    s'.modifySlot m fun sl => { sl with waits := { sl.waits with trackerWait := false }, freeEntryTold := false }
  | none => s.modifySlot m fun sl => { sl with freeEntryTold := false }

/-- TRACKER_WAIT_RETRY: taken once for each report of a free entry (R36, R110; log 17). -/
def execTrackerWaitRetry (m : Master) (s : State) : Host.Outcome State Fault Refusal :=
  let s := s.atEvent
  match s.rsa.slots.get m with
  | some ⟨.held, .lockWrite w _ _, ws, _, true⟩ =>
    if ws.trackerWait then .next (State.tellWalker s (s.retryLockWrite m w)) else .next s
  | _ => .next s

end Sys2Proof.Machine
end

