-- ==== Sys2Proof/Machine/Link.lean ====
section
/-! DEFINITION. The commands of the Memory Request Link (spec/09_the_memory_request_link.md): the issue event and the
completion transfer. -/

namespace Sys2Proof.Machine

/-! ### Issue (R168 to R170) -/

/-- The lowest-numbered tag that no item on the list holds (R168). -/
def State.freeTag (s : State) : Option (BitVec 2) :=
  ([0, 1, 2, 3] : List (BitVec 2)).find? fun t => !s.mlc.inFlight.any fun i => i.tag == t

/-- The request is driven in one request transfer and joins the in-flight list. -/
def State.drive (tag : BitVec 2) (kind : LinkKind) (word : WordAddr) (origin : Origin) (lanes : Option Lanes)
    (s : State) : State :=
  (s.withMlc { s.mlc with inFlight := s.mlc.inFlight ++ [⟨tag, kind, word, origin, false⟩] }).withPins
    { s.pins with mrl := some (linkRequest tag kind word lanes) }

/-- The oldest eligible slot in acceptance order with a request of some kind. -/
def State.oldestEligible (s : State) (p : SlotRequest → Bool) : Option (Master × SlotRequest) :=
  s.rsa.order.findSome? fun m =>
    match s.rsa.slots.get m with
    | some sl => if sl.eligible && p sl.request then some (m, sl.request) else none
    | none => none

/-- The candidates of R169 in their rank. -/
inductive Candidate where
  | continuation (m : Master)
  | unposted (m : Master) (q : SlotRequest)
  | read (m : Master) (q : SlotRequest)
  | queued (e : QueueEntry)
  deriving DecidableEq, Repr

/-- The first candidate: a continuation, an unposted write, a read, a queued write (R169). -/
def State.issueChoice (s : State) : Option Candidate :=
  ((s.mlc.continuations.head?.map Candidate.continuation).or
    ((s.oldestEligible SlotRequest.isUnpostedWrite).map fun x => Candidate.unposted x.1 x.2)).or
  (((s.oldestEligible SlotRequest.isRead).map fun x => Candidate.read x.1 x.2).or
    ((s.pwq.find? fun e => e.phase == .waiting).map Candidate.queued))

def State.slotIssued (m : Master) (s : State) : State := s.modifySlot m fun sl => { sl with phase := .issued }

/-- The changes that the issue of any read makes: its slot ISSUED, the WAITING entries' counts raised, the other reads
brought into line (R61, R89). -/
def State.readIssued (m : Master) (s : State) : State :=
  let s := s.slotIssued m
  (s.withPwq (raiseCounts s.pwq)).refreshQueueWaits

/-- A continuation leaves its list and asks for the line from the assembly's next word (R170, R173). -/
def State.issueContinuation (tag : BitVec 2) (m : Master) (s : State) : State :=
  let s := s.withMlc { s.mlc with continuations := s.mlc.continuations.tail }
  match s.mlc.assemblies.get m with
  | some a => s.drive tag .rdRest (wordOfLine a.line a.words.length) (.continuation m) none
  | none => s

def State.issueUnposted (tag : BitVec 2) (m : Master) (q : SlotRequest) (s : State) : State :=
  match q with
  | .write w _ lanes | .lockWrite w _ lanes => (s.slotIssued m).drive tag .wrWord w (.unposted m) (some lanes)
  | .read _ _ | .readLine _ _ _ | .lockRead _ _ | .sync | .noKind _ => s

def State.issueRead (tag : BitVec 2) (m : Master) (q : SlotRequest) (s : State) : State :=
  match q with
  | .read w _ => (s.readIssued m).drive tag .rdWord w (.read m) none
  | .lockRead w _ => ((s.readIssued m).drive tag .rdWord w (.read m) none).takeLock m w
  | .readLine l _ mode =>
    let s := (s.readIssued m).drive tag .rdLine (wordOfLine l 0) (.read m) none
    let s := s.withMlc { s.mlc with assemblies := s.mlc.assemblies.set m (some ⟨l, mode, []⟩) }
    if mode = .directory then s.fillIssued m l else s
  | .write _ _ _ | .lockWrite _ _ _ | .sync | .noKind _ => s

/-- The oldest WAITING entry goes to memory, and the reads it held are brought into line (R83). -/
def State.issueQueued (tag : BitVec 2) (e : QueueEntry) (s : State) : State :=
  ((s.withPwq (issueOldest s.pwq)).refreshQueueWaits).drive tag .wrWord e.word (.queue e.source) (some e.lanes)

def State.issue (tag : BitVec 2) (c : Candidate) (s : State) : State :=
  match c with
  | .continuation m => s.issueContinuation tag m
  | .unposted m q => s.issueUnposted tag m q
  | .read m q => s.issueRead tag m q
  | .queued e => s.issueQueued tag e

/-- ISSUE_EVENT: taken while the list holds fewer than four items, MRDY is asserted and a candidate stands (R169). -/
def execIssueEvent (mrdy : Bool) (s : State) : Host.Outcome State Fault Refusal :=
  let s := s.atEvent.withPins { s.atEvent.pins with mrdy := mrdy }
  if s.mlc.inFlight.length < Config.inFlightRequests ∧ mrdy = true then
    match s.freeTag, s.issueChoice with
    | some tag, some c => .next (State.tellWalker s (s.issue tag c))
    | _, _ => .next s
  else .next s

/-! ### Completion (R167, R171 to R175) -/

/-- A word request ends OK or, by any other status, with FAIL (R167). -/
def CompletionStatus.ending : CompletionStatus → Ending
  | .ok => .ok
  | .short _ | .fail => .fail

/-- The record of a failed read or write: the word, or the line for a line read (R171, R174, R175). -/
def State.recordFailure (kind : LinkKind) (word : WordAddr) (m : Master) (s : State) : State :=
  match kind with
  | .rdWord => s.pushError .memReadFail m (some (addrOfWord word))
  | .rdLine | .rdRest => s.pushError .memReadFail m (some (addrOfLine (lineOfWord word)))
  | .wrWord => s.pushError .memWriteFail m (some (addrOfWord word))

/-- A PWQ entry's completion: the oldest entry leaves; a FAIL makes its record and sets the source's flag; the source's
SYNC is examined (R84 to R86). -/
def State.queueWriteEnds (en : Ending) (s : State) : State :=
  match s.pwq with
  | [] => s
  | e :: rest =>
    let s := (s.withPwq rest).refreshQueueWaits
    let s :=
      match en with
      | .ok => s
      | .fail =>
        (s.pushError .memWriteFail e.source (some (addrOfWord e.word))).withMau
          { s.mau with writeFailed := s.mau.writeFailed.insert e.source }
    s.settleSlot e.source

/-- An unposted write's completion: a DEVICE write is answered; a LOCK-WRITE's is marked arrived and its end examined
(R102, R112, R172). -/
def State.unpostedEnds (m : Master) (word : WordAddr) (en : Ending) (s : State) : State :=
  let s := if en = .fail then s.recordFailure .wrWord word m else s
  match s.rsa.slots.get m with
  | some sl =>
    if sl.request.isUnpostedWrite then
      match sl.request with
      | .lockWrite _ _ _ => (s.modifySlot m fun sl => { sl with arrived := some en }).settleSlot m
      | _ => s.makeReply m en.answer
    else s
  | none => s

/-- A word read's completion (R171); a failed LOCK-READ releases the lock its master still holds (R68). -/
def State.wordReadEnds (m : Master) (word : WordAddr) (st : CompletionStatus) (c : CompletionLines) (s : State) : State :=
  match st.ending with
  | .ok => s.makeReply m (.word (c.mrd[0]))
  | .fail =>
    let s' := (s.recordFailure .rdWord word m).makeReply m .err
    match s.rsa.slots.get m with
    | some sl => if sl.request.isLockRead then s'.releaseLockOf m else s'
    | none => s'

/-- A fill has all its words: the directory decides the mark of a directory fill (R174, R17). -/
def State.fillEnds (m : Master) (a : Assembly) (ws : List Word) (s : State) : State :=
  let s := s.withMlc { s.mlc with assemblies := s.mlc.assemblies.set m none }
  match a.mode with
  | .directory =>
    let keep := s.fillKept m a.line
    (s.endFill m a.line keep).makeReply m (.line ws keep)
  | .uncached => s.makeReply m (.line ws false)

/-- A fill has failed: its words are discarded and its item removed (R174, R18). -/
def State.fillFails (m : Master) (a : Assembly) (s : State) : State :=
  let s := s.withMlc { s.mlc with assemblies := s.mlc.assemblies.set m none }
  let s := s.recordFailure .rdLine (wordOfLine a.line 0) m
  let s := if a.mode = .directory then s.endFill m a.line false else s
  s.makeReply m .err

/-- A line read's completion: words added, a continuation placed for a SHORT, the fill ended by OK or FAIL (R173). -/
def State.lineReadEnds (m : Master) (asked : Nat) (st : CompletionStatus) (c : CompletionLines) (s : State) : State :=
  match s.mlc.assemblies.get m with
  | none => s
  | some a =>
    match st with
    | .ok => s.fillEnds m a (a.words ++ deliveredWords c asked)
    | .short n =>
      s.withMlc { s.mlc with
        assemblies := s.mlc.assemblies.set m (some { a with words := a.words ++ deliveredWords c n })
        continuations := s.mlc.continuations ++ [m] }
    | .fail => s.fillFails m a

/-- A completion handed to the owner of its request (R171 to R174). -/
def State.handOver (i : InFlight) (st : CompletionStatus) (c : CompletionLines) (s : State) : State :=
  match i.origin with
  | .queue _ => s.queueWriteEnds st.ending
  | .unposted m => s.unpostedEnds m i.word st.ending
  | .read m | .continuation m =>
    if i.kind = .rdWord then s.wordReadEnds m i.word st c else s.lineReadEnds m (wordsAsked i.kind i.word) st c

/-- The completion of an item marked discard: only a failure leaves a record (R175). -/
def State.discarded (i : InFlight) (st : CompletionStatus) (s : State) : State :=
  match st, i.origin with
  | .fail, .read m | .fail, .unposted m | .fail, .continuation m => s.recordFailure i.kind i.word m
  | _, _ => s

/-- MRL_COMPLETION: taken for the oldest item, whatever tag it carries; ignored while the list is empty (R167). -/
def execMrlCompletion (c : CompletionLines) (s : State) : Host.Outcome State Fault Refusal :=
  let s := s.atEvent
  match s.mlc.inFlight with
  | [] => .next s
  | i :: rest =>
    let st := completionStatus i.kind i.word c
    let s' := s.withMlc { s.mlc with inFlight := rest }
    if i.discard then .next (s'.discarded i st) else .next (State.tellWalker s (s'.handOver i st c))

end Sys2Proof.Machine
end

