-- ==== Sys2Proof/Machine/Maintenance.lean ====
section
/-! DEFINITION. The maintenance port (spec/10_maintenance_port_and_error_queue.md) and the commands other chapters
define for it (R118 to R122, R129, R138, R139). -/

namespace Sys2Proof.Machine

/-! ### The transaction (R177) -/

def State.setPort (p : Port) (s : State) : State := s.withMnc { s.mnc with port := p }

/-- SPI_SELECT: a fall of SPI_CS_N begins a transaction; a line already low cannot fall (R177, R186; log 8). -/
def execSpiSelect (s : State) : Host.Outcome State Fault Refusal :=
  let s := s.atEvent
  if s.pins.spiSelected then .next s
  else .next ((s.withPins { s.pins with spiSelected := true }).setPort .receiving)

/-- DESELECT: the transaction ends (R177). -/
def execDeselect (s : State) : Host.Outcome State Fault Refusal :=
  let s := s.atEvent
  .next ((s.withPins { s.pins with spiSelected := false }).setPort .idle)

/-- The head record is removed, and the removal that leaves the queue empty clears the overflow flag (R183, R184). -/
def State.removeHeadError (s : State) : State :=
  s.withMnc { s.mnc with
    errors := s.mnc.errors.tail
    overflow := s.mnc.overflow && !s.mnc.errors.tail.isEmpty }

/-- RESPONSE_END: a TAKE-ERROR that returned a record removes it (R177, R183). -/
def execResponseEnd (s : State) : Host.Outcome State Fault Refusal :=
  let s := s.atEvent
  match s.mnc.port with
  | .responding _ _ returned => .next ((if returned then s.removeHeadError else s).setPort .ended)
  | .idle | .receiving | .ended => .next s

/-- Command c is taken: a command frame is being shifted in, and its bytes name c, by byte 0's code (R177, R178;
log 8). -/
def State.takes (c : Instr) (s : State) : Bool :=
  s.mnc.port == .receiving && commandOfBytes (commandFrame c) == some c

/-- Command c taken with the last byte of its command frame: it is carried out and answered with a response frame; where
it is not taken its bytes are ignored (R177). -/
def State.takeCommand (c : Instr) (f : State → State × List Byte) (s : State) : Host.Outcome State Fault Refusal :=
  let s := s.atEvent
  if s.takes c then
    let (s', response) := f s
    .next (s'.setPort (.responding (commandFrame c) response false))
  else .next s

/-! ### Reading the part (R179, R120, R180) -/

/-- The GET-STATUS response. -/
def State.statusFrame (s : State) : List Byte :=
  [statusOk] ++ Master.all.map (fun m => attachCode (s.mau.attach.get m)) ++
    (match s.bfe.lock with
     | some k => [byteOfMaster k.holder] ++ bytes4 (addrOfWord k.word)
     | none => [0xFF] ++ bytes4 0) ++
    [byteOfNat s.pwq.length, byteOfNat s.ivt.entries.length] ++
    (match s.pdr.walker.mode with
     | .idle => [0, 0]
     | .retiring n => [1, byteOfNat n.val]
     | .sweeping => [2, 0]) ++
    [byteOfNat s.mnc.errors.length, byteOfBool s.mnc.overflow]

def execGetStatus (s : State) : Host.Outcome State Fault Refusal := s.takeCommand .getStatus fun s => (s, s.statusFrame)

def State.getRegion (n : Byte) (s : State) : State × List Byte :=
  match entryOfByte n with
  | none => (s, refusedFrame statusBadArg (responseLength 0x02))
  | some i => (s, regionFrame s.rgt[i])

def execGetRegion (n : Byte) (s : State) : Host.Outcome State Fault Refusal :=
  s.takeCommand (.getRegion n) (State.getRegion n)

/-- A set's record at a way, with its install rank. -/
def DirectorySet.ranked (rs : DirectorySet) (w : Way) : Option (LineRecord × Nat) :=
  (rs.find? fun r => r.way == w).map fun r => (r, (rs.findIdx fun r => r.way == w) + 1)

def State.getRecord (set : BitVec 16) (way : Byte) (s : State) : State × List Byte :=
  if Config.directorySets ≤ set.toNat then (s, refusedFrame statusBadArg (responseLength 0x06))
  else
    match entryOfByte way with
    | none => (s, refusedFrame statusBadArg (responseLength 0x06))
    | some w => (s, recordFrame set.toNat (DirectorySet.ranked (s.pdr.sets.get set.toNat) w))

def execGetRecord (set : BitVec 16) (way : Byte) (s : State) : Host.Outcome State Fault Refusal :=
  s.takeCommand (.getRecord set way) (State.getRecord set way)

/-! ### Regions and walks (R118, R121, R122, R129) -/

/-- The region a SET-REGION names, where base, page count and policy are in range (R118). -/
def regionOfArgs (base pages : BitVec 32) (policy : Byte) : Option Region :=
  if base.toNat % Config.pageBytes = 0 ∧ 1 ≤ pages.toNat ∧ pages.toNat ≤ 1048576 ∧
      base.toNat + pages.toNat * Config.pageBytes ≤ 4294967296 then
    (policyOfByte policy).map fun p => ⟨.active, base, pages.toNat, p⟩
  else none

/-- SET-REGION with its checks in their order (R118). -/
def State.setRegion (n : Byte) (base pages : BitVec 32) (policy : Byte) (s : State) : State × List Byte :=
  match entryOfByte n with
  | none => (s, [statusBadArg])
  | some i =>
    if s.rgt[i].isSome then (s, [statusWrongState])
    else
      match regionOfArgs base pages policy with
      | none => (s, [statusBadArg])
      | some r =>
        if (usedRegions s.rgt).any fun q => r.overlaps q then (s, [statusRegionOverlap])
        else (s.withRgt (s.rgt.set i (some r)), [statusOk])

def execSetRegion (n : Byte) (base pages : BitVec 32) (policy : Byte) (s : State) :
    Host.Outcome State Fault Refusal :=
  s.takeCommand (.setRegion n base pages policy) (State.setRegion n base pages policy)

/-- A walk begins at set 0 (R122, R123, R129). -/
def Walker.started (mode : WalkMode) : Walker := ⟨mode, some 0, [], none, 0, false⟩

/-- RETIRE-REGION with its checks in their order (R121, R122). -/
def State.retireRegion (n : Byte) (s : State) : State × List Byte :=
  match entryOfByte n with
  | none => (s, [statusBadArg])
  | some i =>
    if s.pdr.walker.mode ≠ .idle then (s, [statusBusy])
    else
      match s.rgt[i] with
      | some ⟨.active, base, pages, .tracked⟩ =>
        ((s.withRgt (s.rgt.set i (some ⟨.retiring, base, pages, .tracked⟩))).withWalker
          (Walker.started (.retiring i)), [statusOk])
      | some ⟨.active, _, _, _⟩ => (s.withRgt (s.rgt.set i none), [statusOk])
      | some ⟨.retiring, _, _, _⟩ | none => (s, [statusWrongState])

def execRetireRegion (n : Byte) (s : State) : Host.Outcome State Fault Refusal :=
  s.takeCommand (.retireRegion n) (State.retireRegion n)

def State.sweep (s : State) : State × List Byte :=
  if s.pdr.walker.mode ≠ .idle then (s, [statusBusy])
  else (s.withWalker (Walker.started .sweeping), [statusOk])

def execSweep (s : State) : Host.Outcome State Fault Refusal := s.takeCommand .sweep State.sweep

/-! ### Limits (R181, R91) -/

def limitsInRange (invalidation lock : BitVec 16) (bypass : Byte) : Bool :=
  decide (64 ≤ invalidation.toNat) && decide (64 ≤ lock.toNat) && decide (1 ≤ bypass.toNat) &&
    decide (bypass.toNat ≤ 15)

/-- SET-LIMITS: all three limits take their values together, and the held reads their BYPASS_LIMIT by the new one. -/
def State.setLimits (invalidation lock : BitVec 16) (bypass : Byte) (s : State) : State × List Byte :=
  if limitsInRange invalidation lock bypass then
    ((s.withMnc { s.mnc with
        invalidationTimeout := invalidation.toNat
        lockTimeout := lock.toNat
        bypassLimit := bypass.toNat }).refreshQueueWaits, [statusOk])
  else (s, [statusBadArg])

def execSetLimits (invalidation lock : BitVec 16) (bypass : Byte) (s : State) : Host.Outcome State Fault Refusal :=
  s.takeCommand (.setLimits invalidation lock bypass) (State.setLimits invalidation lock bypass)

/-! ### Isolation (R138, R139) -/

def State.isolateCommand (n : Byte) (s : State) : State × List Byte :=
  match masterOfByte n with
  | none => (s, [statusBadArg])
  | some m => if s.isOnline m then (s.isolate m none, [statusOk]) else (s, [statusWrongState])

def execIsolate (n : Byte) (s : State) : Host.Outcome State Fault Refusal :=
  s.takeCommand (.isolate n) (State.isolateCommand n)

def State.joinCommand (n : Byte) (s : State) : State × List Byte :=
  match masterOfByte n with
  | none => (s, [statusBadArg])
  | some m =>
    if s.mau.attach.get m = .isolated then (s.setAttach m .online, [statusOk]) else (s, [statusWrongState])

def execJoin (n : Byte) (s : State) : Host.Outcome State Fault Refusal := s.takeCommand (.join n) (State.joinCommand n)

/-! ### The error queue and the unknown code (R183, R178) -/

/-- TAKE-ERROR: the oldest record is returned and stays at the head until the response end (R183). -/
def execTakeError (s : State) : Host.Outcome State Fault Refusal :=
  let s := s.atEvent
  if s.takes .takeError then
    .next (s.setPort (.responding (commandFrame .takeError) (errorFrame s.mnc.errors.head?) (!s.mnc.errors.isEmpty)))
  else .next s

/-- UNKNOWN_COMMAND: answered BAD_ARG. A code that names a command is not taken as this row (log 18). -/
def execUnknownCommand (code : Byte) (s : State) : Host.Outcome State Fault Refusal :=
  s.takeCommand (.unknownCommand code) fun s => (s, [statusBadArg])

end Sys2Proof.Machine
end

