-- ==== Sys2Proof/Machine/Walk.lean ====
section
/-! DEFINITION. The visits of the Directory Walker (spec/06_regions.md, sections 6.4 and 6.5). -/

namespace Sys2Proof.Machine

/-- The walker finishes with a way. -/
def State.finishWay (w : Way) (s : State) : State :=
  s.withWalker { s.pdr.walker with visited := s.pdr.walker.visited ++ [w] }

/-- The walker pauses on a way (R127). -/
def State.pauseOn (w : Way) (reason : PauseReason) (s : State) : State :=
  s.withWalker { s.pdr.walker with pause := some ⟨w, reason, false⟩ }

/-- A record at a way of a set changed. -/
def State.changeWay (i : Nat) (w : Way) (f : LineRecord → LineRecord) (s : State) : State :=
  s.setRecords i ((s.pdr.sets.get i).map fun r => if r.way = w then f r else r)

/-- The spoil request (R28). -/
def LineRecord.spoiled (r : LineRecord) : LineRecord :=
  { r with pending := r.pending.map fun p => { p with spoiled := true } }

/-- The evict request: a WALK entry for the record's sharers, or the refusal that pauses the walker (R28, R125). -/
def State.evictForWalk (i : Nat) (r : LineRecord) (s : State) : State :=
  match s.createEntry (lineOfTag r.tag i) .walk r.sharers MasterSet.empty with
  | none => s.pauseOn r.way .noEntry
  | some s' =>
    let s' := s'.changeWay i r.way fun r => { r with status := .evicting none }
    (s'.withWalker { s'.pdr.walker with outstanding := s'.pdr.walker.outstanding + 1 }).finishWay r.way

/-- The drop-successor request, where the successor's line lies in the walk's range (R28, R126). -/
def State.dropSuccessor (i : Nat) (r : LineRecord) (s : State) : State :=
  match r.successor with
  | some su =>
    if s.walkCovers (lineOfTag su.tag i) then
      (s.changeWay i r.way fun r => { r with status := .evicting none }).endWayWait .demoted su.claimants
    else s
  | none => s

/-- A record examined (R125, R126, R129). A covered SHARED record with neither sharers nor pending fills, which the
rules keep from arising, is finished with (log 12). -/
def State.examine (i : Nat) (r : LineRecord) (s : State) : State :=
  let covered := s.walkCovers (lineOfTag r.tag i)
  match r.status with
  | .shared =>
    if !covered then s.finishWay r.way
    else if !r.pending.isEmpty then (s.changeWay i r.way LineRecord.spoiled).pauseOn r.way .pending
    else if r.sharers.isEmpty then s.finishWay r.way
    else s.evictForWalk i r
  | .invalidating => if covered then s.pauseOn r.way .invalidating else s.finishWay r.way
  | .evicting _ =>
    let s := s.dropSuccessor i r
    if covered then s.pauseOn r.way .evicting else s.finishWay r.way

/-- No way of the set is left: the walker moves to the next set, or becomes draining after set 1023 (R124, R128). -/
def State.leaveSet (i : Nat) (s : State) : State :=
  if i + 1 < Config.directorySets then s.withWalker { s.pdr.walker with set := some (i + 1), visited := [] }
  else (s.withWalker { s.pdr.walker with set := none, visited := [], draining := true }).endWalkIfDone

/-- The oldest way of a set that has not been visited (R124). -/
def nextWay (rs : DirectorySet) (visited : List Way) : Option LineRecord := rs.find? fun r => !visited.contains r.way

/-- A visit that takes the next way of its set, or leaves the set when there is none (R124). -/
def State.visitNext (i : Nat) (s : State) : State :=
  match nextWay (s.pdr.sets.get i) s.pdr.walker.visited with
  | some r => s.examine i r
  | none => s.leaveSet i

/-- A visit after a pause on a way: the way is examined afresh as it then stands (R127). One that a pause with EVICTING
finds FREE is finished with (R126); any other found FREE is passed over within the visit (R124, R125; log 11). -/
def State.visitPaused (i : Nat) (p : Pause) (s : State) : State :=
  match s.pdr.sets.recordAt i p.way with
  | some r => s.examine i r
  | none => if p.reason = .evicting then s.finishWay p.way else s.visitNext i

/-- The walker waits on a record and no event has ended the pause. -/
def Walker.isPaused (w : Walker) : Bool := w.pause.any fun p => !p.ended

/-- WALKER_VISIT: taken while the walker is not IDLE, not draining and not paused (R124, R127). -/
def execWalkerVisit (s : State) : Host.Outcome State Fault Refusal :=
  let s := s.atEvent
  let w := s.pdr.walker
  if w.mode = .idle ∨ w.draining = true ∨ w.isPaused = true then .next s
  else
    match w.set with
    | none => .next s
    | some i =>
      let s := s.withWalker { w with pause := none }
      match w.pause with
      | some p => .next (s.visitPaused i p)
      | none => .next (s.visitNext i)

end Sys2Proof.Machine
end

