-- ==== Sys2Proof/Machine/Dispatch.lean ====
section
/-! DEFINITION. The effect of each command on everything but the queue: one arm per row of the opcode table. -/

namespace Sys2Proof.Machine

def exec (i : Instr) (s : State) : Host.Outcome State Fault Refusal :=
  match i with
  | .chipReset mpres mrst => Sys2Proof.Machine.execChipReset mpres mrst s
  | .grant sreq => Sys2Proof.Machine.execGrant sreq s
  | .read r => Sys2Proof.Machine.execRead r s
  | .readLine r => Sys2Proof.Machine.execReadLine r s
  | .write r => Sys2Proof.Machine.execWrite r s
  | .lockRead r => Sys2Proof.Machine.execLockRead r s
  | .lockWrite r => Sys2Proof.Machine.execLockWrite r s
  | .sync r => Sys2Proof.Machine.execSync r s
  | .malformedRequest skind r => Sys2Proof.Machine.execMalformedRequest skind r s
  | .requestLineFall m => Sys2Proof.Machine.execRequestLineFall m s
  | .replySend => Sys2Proof.Machine.execReplySend s
  | .issueEvent mrdy => Sys2Proof.Machine.execIssueEvent mrdy s
  | .mrlCompletion c => Sys2Proof.Machine.execMrlCompletion c s
  | .sendEvent => Sys2Proof.Machine.execSendEvent s
  | .acknowledge m => Sys2Proof.Machine.execAcknowledge m s
  | .timerExpiry m => Sys2Proof.Machine.execTimerExpiry m s
  | .lockTimeout => Sys2Proof.Machine.execLockTimeout s
  | .resetNoticeRise m => Sys2Proof.Machine.execResetNoticeRise m s
  | .resetNoticeFall m => Sys2Proof.Machine.execResetNoticeFall m s
  | .walkerVisit => Sys2Proof.Machine.execWalkerVisit s
  | .trackerWaitRetry m => Sys2Proof.Machine.execTrackerWaitRetry m s
  | .spiSelect => Sys2Proof.Machine.execSpiSelect s
  | .responseEnd => Sys2Proof.Machine.execResponseEnd s
  | .deselect => Sys2Proof.Machine.execDeselect s
  | .getStatus => Sys2Proof.Machine.execGetStatus s
  | .getRegion n => Sys2Proof.Machine.execGetRegion n s
  | .setRegion n base pages policy => Sys2Proof.Machine.execSetRegion n base pages policy s
  | .retireRegion n => Sys2Proof.Machine.execRetireRegion n s
  | .sweep => Sys2Proof.Machine.execSweep s
  | .getRecord set way => Sys2Proof.Machine.execGetRecord set way s
  | .setLimits invalidation lock bypass => Sys2Proof.Machine.execSetLimits invalidation lock bypass s
  | .isolate n => Sys2Proof.Machine.execIsolate n s
  | .join n => Sys2Proof.Machine.execJoin n s
  | .takeError => Sys2Proof.Machine.execTakeError s
  | .unknownCommand code => Sys2Proof.Machine.execUnknownCommand code s

end Sys2Proof.Machine
end

