-- ==== Sys2Proof/Machine/Step.lean ====
section
/-! DEFINITION. One step: the command at the front of the queue is taken; on an empty queue one CLK period passes. -/

namespace Sys2Proof.Machine

/-- One step. The empty queue's CLK period is a DESIGN CHOICE (log 1). -/
def step (s : State) : Host.Outcome State Fault Refusal :=
  match s.pending with
  | [] => .next (s.withClk (s.clk + 1))
  | c :: rest => exec c (s.withPending rest)

/-- The command a word spells put at the front of the queue (log 10). -/
def State.withFetchWord (s : State) (nbits w : Nat) : State :=
  match decodeTableWord nbits w with
  | some c => s.withPending (c :: s.pending)
  | none => s

end Sys2Proof.Machine
end

