-- ==== Sys2Proof/Safety.lean ====
section
/-! DEFINITION. What the statements speak of: words for what a command finds and does, in terms of the state alone, and
the invariants that every step keeps. -/

namespace Sys2Proof

/-- The lines of a request transfer, for the seven commands that are one. -/
def Instr.requestLines : Instr → Option RequestLines
  | .read r | .readLine r | .write r | .lockRead r | .lockWrite r | .sync r | .malformedRequest _ r => some r
  | .chipReset _ _ | .grant _ | .requestLineFall _ | .replySend | .issueEvent _ | .mrlCompletion _ | .sendEvent
  | .acknowledge _ | .timerExpiry _ | .lockTimeout | .resetNoticeRise _ | .resetNoticeFall _ | .walkerVisit
  | .trackerWaitRetry _ | .spiSelect | .responseEnd | .deselect | .getStatus | .getRegion _ | .setRegion _ _ _ _
  | .retireRegion _ | .sweep | .getRecord _ _ | .setLimits _ _ _ | .isolate _ | .join _ | .takeError
  | .unknownCommand _ => none

/-- Byte position k holds, with its bit of SDP, an even number of ones (R148). -/
def RequestLines.GoodAt (r : RequestLines) (k : Nat) : Prop :=
  (((List.range 8).countP fun j => r.sd.getLsbD (8 * k + j)) + (if r.sdp.getLsbD k then 1 else 0)) % 2 = 0

/-- Every byte position that SBEN names is good (R148). -/
def RequestLines.Good (r : RequestLines) : Prop := ∀ k, k < 4 → r.sben.getLsbD k = true → r.GoodAt k

end Sys2Proof

namespace Sys2Proof.Machine

/-! ### What a request finds -/

/-- The part once the granted master's request transfer is taken and before the request is handled (R150, step 1): the
grant cleared, its request line as the transfer shows it, the buses quiet and standing notices taken (logs 4, 5, 7). -/
def State.taken (s : State) (m : Master) (line : Bool) : State :=
  { s.atEvent with
    bfe := { s.bfe with grant := none }
    pins := { s.pins.quiet with sreq := s.pins.sreq.set m line } }

/-- Nobody holds the bus lock, and m's granted request transfer stands with its line up. -/
def State.Presents (s : State) (m : Master) (r : RequestLines) : Prop :=
  s.bfe.grant = some m ∧ r.sreq = true ∧ s.bfe.lock = none

/-- The error queue after a record is offered to it (R182, R184). -/
def Mnc.offered (c : Mnc) (kind : ErrorKind) (m : Master) (address : Option Addr) : Mnc :=
  if c.errors.length < 8 then { c with errors := c.errors ++ [⟨kind, m, address⟩] } else { c with overflow := true }

/-- The slots after the lock becomes free: every HELD LOCK-READ without LOCK_WAIT (R106). -/
def Rsa.lockFreed (a : Rsa) : Rsa :=
  { a with slots := PerMaster.of fun m => (a.slots.get m).map fun sl =>
      if sl.phase = .held then
        if sl.request.isLockRead = true then { sl with waits := { sl.waits with lockWait := false } } else sl
      else sl }

/-- The slots after a tracker entry for line l is created: every HELD LOCK-READ of a word in l with LINE_BUSY, and every
other slot as it was (R33, R67). -/
def Rsa.lineTaken (a : Rsa) (l : LineAddr) : Rsa :=
  { a with slots := PerMaster.of fun m => (a.slots.get m).map fun sl =>
      match sl.phase, sl.request with
      | .held, .lockRead w _ => if lineOfWord w = l then { sl with waits := { sl.waits with lineBusy := true } } else sl
      | _, _ => sl }

/-- The slots and the acceptance order after m's slot has left EMPTY (R57). -/
def Rsa.entered (a : Rsa) (m : Master) (sl : Slot) : Rsa := ⟨a.slots.set m (some sl), a.order ++ [m]⟩

/-- The slots with m's replaced. -/
def Rsa.withSlot (a : Rsa) (m : Master) (sl : Slot) : Rsa := { a with slots := a.slots.set m (some sl) }

/-- The slot of a request decided at its acceptance, or of one that has ended (R55). -/
def Slot.answered (q : SlotRequest) (a : Answer) : Slot := ⟨.replying a.recorded, q, WaitReasons.none, none, false⟩

/-- The BFE with a reply of m's slot at the young end of the reply queue (R154). -/
def Bfe.answering (b : Bfe) (m : Master) (a : Answer) : Bfe := { b with replies := b.replies ++ [⟨m, .answer a⟩] }

/-- The BFE after the acceptance of m's request with a reply made in it (R150, R154). -/
def Bfe.replied (b : Bfe) (m : Master) (a : Answer) : Bfe :=
  { b with grant := none, replies := b.replies ++ [⟨m, .answer a⟩] }

/-- The BFE after the acceptance of m's request with the refusal RETRY (R152). -/
def Bfe.refused (b : Bfe) (m : Master) : Bfe :=
  { b with grant := none, replies := b.replies ++ [⟨m, .retry⟩], retryList := b.retryList ++ [m] }

/-- The three wait reasons that the queue gives a request are present exactly while their conditions hold (R59). -/
def QueueWaits (s : State) (q : SlotRequest) (w : WaitReasons) : Prop :=
  (w.overlap = true ↔ q.isPlainRead = true ∧ ∃ e ∈ s.pwq, e.phase = .waiting ∧ q.spans e.word = true) ∧
  (w.bypassLimit = true ↔ q.isPlainRead = true ∧ ∃ e ∈ s.pwq, e.phase = .waiting ∧ s.mnc.bypassLimit ≤ e.count) ∧
  (w.queueEmptyWait = true ↔ q.isDeviceAccess = true ∧ s.pwq ≠ [])

/-- No wait reason but the queue's three. -/
def WaitReasons.QueueOnly (w : WaitReasons) : Prop :=
  w.lineBusy = false ∧ w.wayWait = false ∧ w.lockWait = false ∧ w.trackerWait = false ∧ w.syncWait = false

/-- The slots with every HELD slot's queue waits brought into line with a queue (R60). -/
def Rsa.refreshed (a : Rsa) (pwq : List QueueEntry) (limit : Nat) : Rsa :=
  { a with slots := PerMaster.of fun m => (a.slots.get m).map fun sl =>
      if sl.phase = .held then sl.withQueueWaits pwq limit else sl }

/-! ### The arbiter (R157, R158) -/

/-- m is grantable, the five conditions of R157. -/
def Grantable (s : State) (m : Master) : Prop :=
  s.pins.sreq.get m = true ∧ s.rsa.slots.get m = none ∧ (∀ r ∈ s.bfe.replies, r.master ≠ m) ∧
    (s.mau.attach.get m = .online ∨ s.mau.attach.get m = .isolated) ∧ (∀ k, s.bfe.lock = some k → k.holder = m)

/-- m stands in a list with a property that no element before it has. -/
def FirstIn (l : List Master) (p : Master → Prop) (m : Master) : Prop :=
  p m ∧ ∃ before after, l = before ++ m :: after ∧ ∀ k ∈ before, ¬ p k

/-- m is the choice of R158: the oldest grantable master on the retry preference list, else the first by rotation. -/
def GrantChoice (s : State) (m : Master) : Prop :=
  FirstIn s.bfe.retryList (Grantable s) m ∨
    ((∀ k ∈ s.bfe.retryList, ¬ Grantable s k) ∧
      FirstIn [s.bfe.pointer.next, s.bfe.pointer.next.next, s.bfe.pointer.next.next.next, s.bfe.pointer]
        (Grantable s) m)

/-! ### The issue choice (R56, R169) -/

/-- The HELD slot of m with no wait reason holds a request of a kind. -/
def State.EligibleFor (s : State) (kind : SlotRequest → Bool) (m : Master) : Prop :=
  ∃ sl, s.rsa.slots.get m = some sl ∧ sl.phase = .held ∧ sl.waits = WaitReasons.none ∧ kind sl.request = true

/-- No slot in the acceptance order is eligible with a request of a kind. -/
def State.NoneEligible (s : State) (kind : SlotRequest → Bool) : Prop :=
  ∀ m ∈ s.rsa.order, ¬ s.EligibleFor kind m

/-- The lowest-numbered tag that no item on the in-flight list holds (R168). -/
def State.LowestFreeTag (s : State) (t : BitVec 2) : Prop :=
  (∀ i ∈ s.mlc.inFlight, i.tag ≠ t) ∧ ∀ u : BitVec 2, u < t → ∃ i ∈ s.mlc.inFlight, i.tag = u

/-- A request can be issued (R169): the list holds fewer than four items, and t is its tag. -/
def State.CanIssue (s : State) (t : BitVec 2) : Prop := s.mlc.inFlight.length < 4 ∧ s.LowestFreeTag t

/-- The in-flight list after an issue (R168). -/
def Mlc.joined (c : Mlc) (t : BitVec 2) (kind : LinkKind) (w : WordAddr) (o : Origin) : Mlc :=
  { c with inFlight := c.inFlight ++ [⟨t, kind, w, o, false⟩] }

/-- The lines after an issue event (R166): MRDY as seen, and the request transfer. -/
def Pins.driven (p : Pins) (t : BitVec 2) (kind : LinkKind) (w : WordAddr) (lanes : Option Lanes) : Pins :=
  { p.quiet with mrdy := true, mrl := some (linkRequest t kind w lanes) }

/-! ### Waits and pauses ended (R65, R127) -/

/-- A slot of a fill of line l after a lookup made for it, or after its way was reinstalled or taken from it (R64, R65). -/
def Slot.lookedUp (sl : Slot) (l : LineAddr) (p : Policy) (o : LookupOutcome) : Slot :=
  { sl with
    request := .readLine l p (if o = .demoted then .uncached else .directory)
    waits := { sl.waits with
      lineBusy := if o = .lineBusy then true else false
      wayWait := if o = .claimant then true else false } }

/-- The visit takes the next way of set i: no pause stands, or one has ended, was not with EVICTING, and its way is FREE
(R124, R126, R127; log 11). -/
def State.VisitsNextWay (s : State) (i : Nat) : Prop :=
  ∀ p, s.pdr.walker.pause = some p →
    p.ended = true ∧ p.reason ≠ .evicting ∧ ∀ q ∈ s.pdr.sets.get i, q.way ≠ p.way

/-- The record at a way changed its state between two moments, including a change to FREE or to another line. -/
def StateChanged (b a : Option LineRecord) : Prop :=
  ¬ (b = none ∧ a = none) ∧
    ∀ x y, b = some x → a = some y → x.tag = y.tag →
      ¬ ((x.status = .shared ∧ y.status = .shared) ∨ (x.status = .invalidating ∧ y.status = .invalidating) ∨
        ∃ u v, x.status = .evicting u ∧ y.status = .evicting v)

/-- A pending item of the record at a way left it between two moments. -/
def ItemLeft (b a : Option LineRecord) : Prop :=
  ∃ x, b = some x ∧ ∃ q ∈ x.pending, ∀ y, a = some y → ∀ z ∈ y.pending, z.master ≠ q.master

/-! ### What a leaving master leaves behind (R26, R27, R46, R70) -/

/-- A record after m has entered ISOLATED or IN_RESET: m is no sharer and no claimant, the last claimant to leave takes
the successor with it, m's pending item is spoiled on isolation and removed on reset, and everything of other masters
stands; `none` is a record left SHARED with nothing, which is FREE (R8, R19, R26, R27). -/
def LineRecord.afterLeaving (m : Master) (entered : AttachState) (r : LineRecord) : Option LineRecord :=
  let left : LineRecord := { r with
    sharers := r.sharers.set m false
    pending :=
      if entered = .inReset then r.pending.filter fun p => p.master != m
      else r.pending.map fun p => if p.master = m then { p with spoiled := true } else p
    status :=
      match r.status with
      | .evicting (some su) =>
        .evicting (if ∀ k ∈ su.claimants, k = m then none
          else some { su with claimants := su.claimants.filter fun k => k != m })
      | st => st }
  if left.status = .shared ∧ (∀ k ∈ Master.all, left.sharers.get k = false) ∧ left.pending = [] then none
  else some left

/-- The slots after m's claim is demoted: a slot HELD with WAY_WAIT loses it, and its fill becomes uncached (R27, R70). -/
def Rsa.claimantTold (a : Rsa) (m : Master) : Rsa :=
  { a with slots := a.slots.set m ((a.slots.get m).map fun sl =>
      if sl.phase = .held ∧ sl.waits.wayWait = true then { sl with
        request :=
          match sl.request with
          | .readLine l p _ => .readLine l p .uncached
          | q => q
        waits := { sl.waits with lineBusy := false, wayWait := false } }
      else sl) }

/-- A tracker entry after m is released from it: m in none of targets, sent and acked, and the causes as they were
(R46). -/
def TrackerEntry.releasedFrom (m : Master) (e : TrackerEntry) : TrackerEntry :=
  { e with targets := e.targets.set m false, sent := e.sent.set m false, acked := e.acked.set m false }

/-- The state after the first two steps of the passage of m to ISOLATED or IN_RESET (R135): m has its new state, each
record of the directory has lost m (R26, R27), m is released from the tracker, and the entries that then stand complete
are completed (R46). The directory is the one in canonical form with these records. -/
def State.Completes (s : State) (m : Master) (entered : AttachState) (clk : Nat) (completed : State) : Prop :=
  ∃ (d : Directory) (gone : State), d.wf = true ∧
    (∀ i, d.get i = (s.pdr.sets.get i).filterMap fun r => r.afterLeaving m entered) ∧
    gone = { s.atEvent with
      clk := clk
      mau := { s.atEvent.mau with
        attach := s.atEvent.mau.attach.set m entered
        resetNotice := if entered = .inReset then s.mau.resetNotice.set m true else s.mau.resetNotice }
      pdr := { s.pdr with sets := d }
      rsa := if entered = .isolated then s.rsa.claimantTold m else s.rsa
      ivt := ⟨s.ivt.entries.map fun x => x.releasedFrom m, s.ivt.notices.set m [], s.ivt.timers.set m none⟩ } ∧
    completed = gone.completeEntries (gone.ivt.entries.filter fun x => x.acked == x.targets)

/-! ### What the slots are told of a completion (R36, R45, R67) -/

/-- The slots after the completion of an entry of a line: HELD LOCK-READs in the line lose LINE_BUSY, and if the tracker
was full HELD slots with TRACKER_WAIT are told of the free entry (R36, R67). Every other slot stands. -/
def Rsa.completionTold (a : Rsa) (l : LineAddr) (full : Bool) : Rsa :=
  { a with slots := PerMaster.of fun m => (a.slots.get m).map fun sl =>
      if sl.phase = .held then { sl with
        waits :=
          match sl.request with
          | .lockRead w _ => if lineOfWord w = l then { sl.waits with lineBusy := false } else sl.waits
          | _ => sl.waits
        freeEntryTold := if full = true ∧ sl.waits.trackerWait = true then true else sl.freeEntryTold }
      else sl }

/-! ### The invariants -/

/-- The error queue, the limits and the port (R181 to R184): at most 8 records, the overflow flag set over no empty
queue, the limits in range, and a record that a response has returned still at the head. -/
def MaintenanceSound (s : State) : Prop :=
  s.mnc.errors.length ≤ 8 ∧ (s.mnc.errors = [] → s.mnc.overflow = false) ∧
  (64 ≤ s.mnc.invalidationTimeout ∧ s.mnc.invalidationTimeout ≤ 65535) ∧
  (64 ≤ s.mnc.lockTimeout ∧ s.mnc.lockTimeout ≤ 65535) ∧
  (1 ≤ s.mnc.bypassLimit ∧ s.mnc.bypassLimit ≤ 15) ∧
  ∀ command frame, s.mnc.port = .responding command frame true → s.mnc.errors ≠ []

/-- The Posted Write Queue and the in-flight list (R75, R80, R89, R168): their bounds, the run of ISSUED entries before
the run of WAITING ones, counts that never rise towards the young end, distinct tags, and the ISSUED entries in step
with the in-flight items of PWQ origin, none of which is marked discard. -/
def QueuesSound (s : State) : Prop :=
  s.pwq.length ≤ 16 ∧
  s.pwq.Pairwise (fun a b => b.phase = .issued → a.phase = .issued) ∧
  s.pwq.Pairwise (fun a b => a.phase = .waiting → b.phase = .waiting → b.count ≤ a.count) ∧
  s.mlc.inFlight.length ≤ 4 ∧ (s.mlc.inFlight.map InFlight.tag).Nodup ∧
  ((s.pwq.filter fun e => e.phase == .issued).map fun e => (e.word, Origin.queue e.source)) =
    ((s.mlc.inFlight.filter fun i => match i.origin with
      | .queue _ => true
      | _ => false).map fun i => (i.word, i.origin)) ∧
  ∀ i ∈ s.mlc.inFlight, ∀ m, i.origin = .queue m → i.discard = false

/-- The acceptance order holds exactly the masters whose slots are not EMPTY, the retry preference list holds no
duplicates, and a granted master's slot is EMPTY and it stands on no list (R57, R144, R159). -/
def ArbiterSound (s : State) : Prop :=
  s.rsa.order.Nodup ∧ (∀ m, m ∈ s.rsa.order ↔ s.rsa.slots.get m ≠ none) ∧ s.bfe.retryList.Nodup ∧
  ∀ m, s.bfe.grant = some m → s.rsa.slots.get m = none ∧ m ∉ s.bfe.retryList

/-- The Region Table (R116, R117, R122): entries in range, no address covered twice, and an entry is RETIRING, and then
TRACKED, exactly while the walker retires it. -/
def RegionsSound (s : State) : Prop :=
  (∀ n : Fin 8, ∀ r, s.rgt[n] = some r →
    r.base.toNat % 4096 = 0 ∧ 1 ≤ r.pages ∧ r.pages ≤ 1048576 ∧ r.base.toNat + r.pages * 4096 ≤ 4294967296 ∧
      (r.state = .retiring → r.policy = .tracked)) ∧
  (∀ n k : Fin 8, n ≠ k → ∀ r q, s.rgt[n] = some r → s.rgt[k] = some q →
    ∀ a : Addr, ¬ (r.covers a = true ∧ q.covers a = true)) ∧
  ∀ n : Fin 8, (∃ r, s.rgt[n] = some r ∧ r.state = .retiring) ↔ s.pdr.walker.mode = .retiring n

/-- The directory's sets (R1, R4, R5): set numbers rising and below 1024, no way twice in a set, and no line twice among
the lines and the successors of a set. -/
def DirectoryCanonical (s : State) : Prop :=
  s.pdr.sets.wf = true ∧
  ∀ i, ((s.pdr.sets.get i).map LineRecord.way).Nodup ∧
    ((s.pdr.sets.get i).map LineRecord.tag ++
      (s.pdr.sets.get i).filterMap fun r => r.successor.map Successor.tag).Nodup

/-- A master that is not ONLINE is no sharer, no claimant and no target (R26, R32, R134). A notice that still stands
counts as the end of ONLINE (R133; log 7). -/
def HoldersOnline (s : State) : Prop :=
  ∀ m, ¬ (s.mau.attach.get m = .online ∧ s.mau.resetNotice.get m = false) →
    (∀ i, ∀ r ∈ s.pdr.sets.get i, r.sharers.get m = false ∧ ∀ su, r.successor = some su → m ∉ su.claimants) ∧
    ∀ e ∈ s.ivt.entries, e.targets.get m = false

/-- Every HELD slot carries OVERLAP, BYPASS_LIMIT and QUEUE_EMPTY_WAIT exactly while their conditions hold, and no
bypass count exceeds 15 (R59, R60, R91). -/
def WaitsFollowQueue (s : State) : Prop :=
  (∀ m sl, s.rsa.slots.get m = some sl → sl.phase = .held → QueueWaits s sl.request sl.waits) ∧
  (∀ e ∈ s.pwq, e.count ≤ 15) ∧ 1 ≤ s.mnc.bypassLimit ∧ s.mnc.bypassLimit ≤ 15

/-- What the tracker holds and what the directory shows of it (R6, R31, R41, R42, R45, R128). -/
structure TrackerAgrees (s : State) : Prop where
  canonical : DirectoryCanonical s
  /-- No SHARED record stands without sharers and pending fills (R8), and an EVICTING one has no pending fill and no
  successor without claimants (R4, R14). -/
  records : ∀ i, ∀ r ∈ s.pdr.sets.get i, r.isLeftEmpty = false ∧
    ∀ su, r.status = .evicting su → r.pending = [] ∧ ∀ u, su = some u → u.claimants ≠ []
  /-- At most 16 live entries, no two for one line. -/
  bounded : s.ivt.entries.length ≤ 16 ∧ (s.ivt.entries.map TrackerEntry.line).Nodup
  /-- acked within sent within targets, and some target has not answered. -/
  conditions : ∀ e ∈ s.ivt.entries,
    (∀ m, e.acked.get m = true → e.sent.get m = true) ∧ (∀ m, e.sent.get m = true → e.targets.get m = true) ∧
      ∃ m, e.targets.get m = true ∧ e.acked.get m = false
  /-- A record is INVALIDATING or EVICTING exactly when the tracker holds an entry for its line, of the kind that goes
  with its state. -/
  live : ∀ i, ∀ r ∈ s.pdr.sets.get i,
    match r.status with
    | .shared => ∀ e ∈ s.ivt.entries, e.line ≠ lineOfTag r.tag i
    | .invalidating => ∃ e ∈ s.ivt.entries, e.line = lineOfTag r.tag i ∧ e.kind = .write
    | .evicting _ => ∃ e ∈ s.ivt.entries, e.line = lineOfTag r.tag i ∧ e.kind ≠ .write
  /-- Every live entry's line has a record. -/
  recorded : ∀ e ∈ s.ivt.entries, ∃ r ∈ s.pdr.sets.get (setOfLine e.line), r.tag = tagOfLine e.line
  /-- A master's list holds one item for each entry that has sent it a message it has not acknowledged, and its timer
  runs exactly while the list is not empty. -/
  notices : ∀ m, (s.ivt.notices.get m).Nodup ∧
    (∀ l, l ∈ s.ivt.notices.get m ↔
      ∃ e ∈ s.ivt.entries, e.line = l ∧ e.sent.get m = true ∧ e.acked.get m = false) ∧
    (s.ivt.timers.get m = none ↔ s.ivt.notices.get m = [])
  /-- The walker counts the live WALK entries. -/
  counted : s.pdr.walker.outstanding = (s.ivt.entries.filter fun e => e.kind == .walk).length ∧
    (s.pdr.walker.mode = .idle → s.pdr.walker = Walker.idle)

/-- The in-flight items of m's present request. -/
def State.liveItems (s : State) (m : Master) : List InFlight :=
  s.mlc.inFlight.filter fun i =>
    !i.discard && (i.origin == .read m || i.origin == .unposted m || i.origin == .continuation m)

/-- Nothing of m stands at the MLC. -/
def State.IdleAtLink (s : State) (m : Master) : Prop :=
  s.liveItems m = [] ∧ m ∉ s.mlc.continuations ∧ s.mlc.assemblies.get m = none

/-- An ISSUED request stands in exactly one place (R168): on the in-flight list by the kind of its request, or, for a
fill between parts, on the continuation list, or, for a LOCK-WRITE whose completion has arrived, in its slot. -/
def State.IssuedInOnePlace (s : State) (m : Master) (sl : Slot) : Prop :=
  match sl.request with
  | .read _ _ | .lockRead _ _ =>
    (∃ i, s.liveItems m = [i] ∧ i.kind = .rdWord ∧ i.origin = .read m) ∧
      m ∉ s.mlc.continuations ∧ s.mlc.assemblies.get m = none ∧ sl.arrived = none
  | .readLine l _ _ =>
    ∃ a, s.mlc.assemblies.get m = some a ∧ a.line = l ∧ a.words.length ≤ 7 ∧ sl.arrived = none ∧
      (((∃ i, s.liveItems m = [i] ∧
          ((i.kind = .rdLine ∧ i.origin = .read m ∧ a.words = []) ∨
            (i.kind = .rdRest ∧ i.origin = .continuation m ∧ i.word = wordOfLine l a.words.length))) ∧
          m ∉ s.mlc.continuations) ∨
        (s.liveItems m = [] ∧ s.mlc.continuations.count m = 1 ∧ a.words ≠ []))
  | .write _ _ _ =>
    (∃ i, s.liveItems m = [i] ∧ i.kind = .wrWord ∧ i.origin = .unposted m) ∧
      m ∉ s.mlc.continuations ∧ s.mlc.assemblies.get m = none ∧ sl.arrived = none
  | .lockWrite _ _ _ =>
    ((∃ i, s.liveItems m = [i] ∧ i.kind = .wrWord ∧ i.origin = .unposted m ∧ sl.arrived = none) ∨
        (s.liveItems m = [] ∧ sl.arrived ≠ none)) ∧
      m ∉ s.mlc.continuations ∧ s.mlc.assemblies.get m = none
  | .sync | .noKind _ => False

/-- Each request accepted stands in one place from its acceptance to its reply, and leads to one reply (R55, R154,
R168). -/
structure OneReplyEach (s : State) : Prop where
  /-- A granted master has no request and no reply. -/
  granted : ∀ m, s.bfe.grant = some m → s.rsa.slots.get m = none ∧ ∀ r ∈ s.bfe.replies, r.master ≠ m
  /-- At most one reply for each master. -/
  single : (s.bfe.replies.map Reply.master).Nodup
  slots : ∀ m,
    match s.rsa.slots.get m with
    | none => s.IdleAtLink m ∧ ∀ r ∈ s.bfe.replies, r.master = m → r.body = .retry
    | some sl =>
      match sl.phase with
      | .held => s.IdleAtLink m ∧ sl.arrived = none ∧ ∀ r ∈ s.bfe.replies, r.master ≠ m
      | .issued => s.IssuedInOnePlace m sl ∧ ∀ r ∈ s.bfe.replies, r.master ≠ m
      | .replying x => s.IdleAtLink m ∧ sl.arrived = none ∧ ∃ a, ⟨m, .answer a⟩ ∈ s.bfe.replies ∧ a.recorded = x

end Sys2Proof.Machine
end

