-- ==== Sys2Proof/Certificates/Slice0/Obligations.lean ====
section
/-! DEFINITION. The statements for the provers. A statement of a command's result gives the whole next state: every
block it does not name stands as the event found it, `State.atEvent` (or `State.taken` for a request transfer), which
`Obligations.EventsStartFromStandingNotices` describes. That start of an event is the model's choice (logs 4, 5
and 7). -/

open Sys2Proof Sys2Proof.Machine

/-! ### The machine: the queue, the start of an event, chip reset -/

/-- A step takes the command at the front of the queue and runs it with the rest of the queue; on an empty queue it is
one CLK period and nothing else, which is the model's choice (log 1). -/
def Obligations.StepRunsTheFrontCommand : Prop :=
  (∀ (c : Instr) (rest : List Instr) (s : State), s.pending = c :: rest →
    step s = exec c { s with pending := rest }) ∧
  ∀ s : State, s.pending = [] → step s = .next { s with clk := s.clk + 1 }

/-- Every command has a next state, for no command faults or is refused, and every event starts from `State.atEvent`:
the transfers of the event before no longer stand on the buses (log 4), and an ONLINE master whose reset notice still
stands is IN_RESET (R133; log 7). -/
def Obligations.EventsStartFromStandingNotices : Prop :=
  (∀ (c : Instr) (s : State), (∃ t, exec c s = .next t) ∧ exec c s = exec c s.atEvent) ∧
  ∀ s : State, ∃ a : PerMaster AttachState,
    s.atEvent = { s with
      mau := { s.mau with attach := a }, pins := { s.pins with srb := none, ivb := none, mrl := none } } ∧
    ∀ m, a.get m =
      if s.mau.resetNotice.get m = true ∧ s.mau.attach.get m = .online then .inReset else s.mau.attach.get m

/-- What chip reset leaves, block by block (R30, R52, R73, R95, R115, R116, R123, R133, R165, R176, R186). The last
clause is the model's: the input levels as last seen, the count of CLK periods and the queue of waiting commands are
outside the reset, and notices that the release finds up stand until the next event (logs 7 and 9). -/
def Obligations.ChipResetEmptiesEveryBlock : Prop :=
  ∀ (mpres mrst : MasterSet) (s : State), ∃ t, exec (.chipReset mpres mrst) s = .next t ∧
    t.bfe = ⟨none, .m3, [], [], none⟩ ∧
    (∀ m, t.rsa.slots.get m = none) ∧ t.rsa.order = [] ∧
    (∀ n : Fin 8, t.rgt[n] = none) ∧
    (∀ i, t.pdr.sets.get i = []) ∧ t.pdr.walker = ⟨.idle, none, [], none, 0, false⟩ ∧
    t.ivt.entries = [] ∧ (∀ m, t.ivt.notices.get m = []) ∧ (∀ m, t.ivt.timers.get m = none) ∧
    t.pwq = [] ∧
    t.mlc.inFlight = [] ∧ (∀ m, t.mlc.assemblies.get m = none) ∧ t.mlc.continuations = [] ∧
    (∀ m, t.mau.attach.get m = if mpres.get m = true then .online else .absent) ∧
    (∀ m, t.mau.writeFailed.get m = false) ∧
    t.mnc = ⟨4096, 1024, 4, [], false, .idle⟩ ∧
    t.pins.srb = none ∧ t.pins.ivb = none ∧ t.pins.mrl = none ∧ t.alert = false ∧
    (t.mau.resetNotice = mrst ∧ t.pins.sreq = s.pins.sreq ∧ t.pins.mrdy = s.pins.mrdy ∧
      t.pins.spiSelected = s.pins.spiSelected ∧ t.clk = s.clk ∧ t.pending = s.pending)

/-! ### Grants (chapter 8) -/

/-- A grant goes to the choice of R158; with the request phase busy or no master grantable none is made (R144). The fall
of a request line withdraws that master's outstanding grant, and the rotation pointer keeps its name (R160). -/
def Obligations.GrantGoesToTheChosenMaster : Prop :=
  (∀ (lines : MasterSet) (s seen : State), seen = { s.atEvent with pins := { s.pins.quiet with sreq := lines } } →
    (∀ m, s.bfe.grant = none → GrantChoice seen m →
      exec (.grant lines) s = .next { seen with
        bfe := { s.bfe with
          grant := some m, pointer := m, retryList := s.bfe.retryList.filter fun k => k != m } }) ∧
    ((s.bfe.grant ≠ none ∨ ∀ m, ¬ Grantable seen m) → exec (.grant lines) s = .next seen)) ∧
  ∀ (m : Master) (s : State),
    exec (.requestLineFall m) s = .next { s.atEvent with
      bfe := { s.bfe with grant := if s.bfe.grant = some m then none else s.bfe.grant }
      pins := { s.pins.quiet with sreq := s.pins.sreq.set m false } }

/-! ### Acceptance, what all kinds share (R150, R152, R108) -/

/-- Steps 1 and 2 of R150: with no grant no transfer is taken, with the request line down the grant lapses, and under
another master's lock every request is refused with RETRY and nothing of it is done (R152). -/
def Obligations.TransferNeedsGrantAndLock : Prop :=
  ∀ (c : Instr) (r : RequestLines) (s : State), c.requestLines = some r → c.wellFormed = true →
    (s.bfe.grant = none → exec c s = .next s.atEvent) ∧
    (∀ m, s.bfe.grant = some m → r.sreq = false → exec c s = .next (s.taken m false)) ∧
    (∀ m k, s.bfe.grant = some m → r.sreq = true → s.bfe.lock = some k → k.holder ≠ m →
      exec c s = .next { s.taken m true with bfe := s.bfe.refused m })

/-- Step 3 of R150: a request of the holder other than LOCK-WRITE is handled as by a master with no lock, after the
lock is released with its LOCK_BROKEN record (R108). -/
def Obligations.HoldersOtherRequestBreaksTheLock : Prop :=
  ∀ (c : Instr) (r : RequestLines) (m : Master) (k : BusLock) (s : State), c.requestLines = some r →
    c.wellFormed = true → (∀ q, c ≠ .lockWrite q) → s.bfe.grant = some m → r.sreq = true →
    s.bfe.lock = some k → k.holder = m →
    exec c s = exec c { s with
      bfe := { s.bfe with lock := none }
      rsa := s.rsa.lockFreed
      mnc := s.mnc.offered .lockBroken m (some (addrOfWord k.word)) }

/-- The Region Table's lookup (R117): TRACKED with the entry's state, UNCACHED or DEVICE, as the entry that covers the
address has it, and UNCACHED where none does. -/
def Obligations.LookupGivesTheCoveringEntrysPolicy : Prop :=
  ∀ (s : State) (a : Addr), RegionsSound s →
    (∀ (n : Fin 8) (e : Region), s.rgt[n] = some e → e.base.toNat ≤ a.toNat →
      a.toNat < e.base.toNat + e.pages * 4096 →
      (e.policy = .tracked → regionLookup s.rgt a = .tracked e.state) ∧
      (e.policy = .uncached → regionLookup s.rgt a = .uncached) ∧
      (e.policy = .device → regionLookup s.rgt a = .device)) ∧
    ((∀ (n : Fin 8) (e : Region), s.rgt[n] = some e →
        ¬ (e.base.toNat ≤ a.toNat ∧ a.toNat < e.base.toNat + e.pages * 4096)) →
      regionLookup s.rgt a = .uncached)

/-- The parity of a write's named bytes is checked, and of no other (R148); every byte driven in a reply is given even
parity (R149). -/
def Obligations.ParityIsEven : Prop :=
  (∀ r : RequestLines, requestParityGood r = true ↔ r.Good) ∧
  ∀ (w : Word) (k : Nat), k < 4 →
    (((List.range 8).countP fun j => w.getLsbD (8 * k + j)) + (if (parityOfWord w).getLsbD k then 1 else 0)) % 2 = 0

/-! ### The wires (sections 8.1, 9.1 and 10.2) -/

/-- Each request kind has its SKIND (R145) and each maintenance command its frame (R177, R178, section 10.2), fields and
bits most significant first, and both are read back as they were written. A frame short of the length that byte 0 gives
names no command yet; bytes after it are not read; a transaction carries one command, and its response ends when as many
bytes as the response has were clocked after it (R177). A word whose bytes are a command's frame, byte 0 at its least
significant end, spells that command, and is put at the front of the queue as it; no other word spells one, a frame cut
short or one with bytes after it among them (log 10). -/
def Obligations.WiresSpellTheirCommands : Prop :=
  (∀ r : RequestLines, requestCommand 0#3 r = .read r ∧ requestCommand 1#3 r = .readLine r ∧
    requestCommand 2#3 r = .write r ∧ requestCommand 3#3 r = .lockRead r ∧ requestCommand 4#3 r = .lockWrite r ∧
    requestCommand 5#3 r = .sync r ∧ requestCommand 6#3 r = .malformedRequest 6#3 r ∧
    requestCommand 7#3 r = .malformedRequest 7#3 r) ∧
  (∀ (c : Instr) (r : RequestLines), c.requestLines = some r → c.wellFormed = true →
    ∃ k, c.skind = some k ∧ requestCommand k r = c) ∧
  (∀ w : BitVec 32, bytes4 w = [BitVec.ofNat 8 (w.toNat / 2 ^ 24), BitVec.ofNat 8 (w.toNat / 2 ^ 16),
    BitVec.ofNat 8 (w.toNat / 2 ^ 8), BitVec.ofNat 8 w.toNat]) ∧
  (∀ w : BitVec 16, bytes2 w = [BitVec.ofNat 8 (w.toNat / 2 ^ 8), BitVec.ofNat 8 w.toNat]) ∧
  (∀ (n policy way bypass code : Byte) (base pages : BitVec 32) (set invalidation lock : BitVec 16),
    commandFrame .getStatus = [0x01] ∧ commandFrame (.getRegion n) = [0x02, n] ∧
    commandFrame (.setRegion n base pages policy) = [0x03, n] ++ bytes4 base ++ bytes4 pages ++ [policy] ∧
    commandFrame (.retireRegion n) = [0x04, n] ∧ commandFrame .sweep = [0x05] ∧
    commandFrame (.getRecord set way) = [0x06] ++ bytes2 set ++ [way] ∧
    commandFrame (.setLimits invalidation lock bypass) = [0x07] ++ bytes2 invalidation ++ bytes2 lock ++ [bypass] ∧
    commandFrame (.isolate n) = [0x08, n] ∧ commandFrame (.join n) = [0x09, n] ∧
    commandFrame .takeError = [0x0A] ∧ commandFrame (.unknownCommand code) = [code]) ∧
  (∀ c : Instr, c.wellFormed = true → commandFrame c ≠ [] →
    ∀ extra, commandOfBytes (commandFrame c ++ extra) = some c) ∧
  (∀ (bytes : List Byte) (c : Instr), commandOfBytes bytes = some c →
    c.wellFormed = true ∧ commandFrame c ≠ [] ∧ ∃ extra, bytes = commandFrame c ++ extra) ∧
  (∀ (code : Byte) (args : List Byte),
    commandOfBytes (code :: args) = none ↔ (code :: args).length < commandLength code) ∧
  (∀ code : Byte,
    (commandLength code, responseLength code) =
      match code.toNat with
      | 1 => (1, 16)
      | 2 => (2, 11)
      | 3 => (11, 1)
      | 4 | 8 | 9 => (2, 1)
      | 6 => (4, 35)
      | 7 => (6, 1)
      | 10 => (1, 9)
      | _ => (1, 1)) ∧
  (∀ (b : Byte) (j : Nat), j < 8 → (bitsOfByte b)[j]? = some (b.getLsbD (7 - j))) ∧
  (∀ (bytes : List Byte) (bits : List Bool), bits.length < 8 →
    bytesOfBits (bytes.flatMap bitsOfByte ++ bits) = bytes) ∧
  (∀ (c : Instr) (code : Byte) (args extra : List Byte) (bits : List Bool), c.wellFormed = true →
    commandFrame c = code :: args → bits.length < 8 →
    transactionCommands ((code :: args ++ extra).flatMap bitsOfByte ++ bits) =
      [.spiSelect, c] ++ (if responseLength code ≤ extra.length then [.responseEnd] else []) ++ [.deselect]) ∧
  (∀ (code : Byte) (args : List Byte) (bits : List Bool), bits.length < 8 →
    (code :: args).length < commandLength code →
    transactionCommands ((code :: args).flatMap bitsOfByte ++ bits) = [.spiSelect, .deselect]) ∧
  (∀ bits : List Bool, bits.length < 8 → transactionCommands bits = [.spiSelect, .deselect]) ∧
  (∀ (nbits word : Nat) (c : Instr), decodeTableWord nbits word = some c →
    c.wellFormed = true ∧ commandFrame c ≠ [] ∧ nbits = 8 * (commandFrame c).length ∧
      ∀ k, k < (commandFrame c).length → (commandFrame c)[k]? = some (BitVec.ofNat 8 (word / 2 ^ (8 * k)))) ∧
  ∀ (c : Instr) (code : Byte) (args : List Byte) (word : Nat) (s : State), c.wellFormed = true →
    commandFrame c = code :: args →
    (∀ k, k < (code :: args).length → (code :: args)[k]? = some (BitVec.ofNat 8 (word / 2 ^ (8 * k)))) →
    decodeTableWord (8 * (code :: args).length) word = some c ∧
      s.withFetchWord (8 * (code :: args).length) word = { s with pending := c :: s.pending }

/-- The fields of a request transfer on the MRL (R166): the tag, the kind's code, MA, and the selected byte positions k on
MBEN bit k and MWD lines 8k to 8k + 7. A line that carries no meaning is absent (log 16). -/
def Obligations.LinkRequestHasItsLayout : Prop :=
  ∀ (t mkind : BitVec 2) (kind : LinkKind) (w : WordAddr) (x : Lanes),
    (kind = .rdWord ∧ mkind = 0#2 ∨ kind = .rdLine ∧ mkind = 1#2 ∨ kind = .rdRest ∧ mkind = 2#2 ∨
      kind = .wrWord ∧ mkind = 3#2) →
    linkRequest t kind w none = ⟨t, mkind, w, none, none⟩ ∧
    ∃ (ben : BitVec 4) (wd : Vector (Option Bool) 32),
      linkRequest t kind w (some x) = ⟨t, mkind, w, some ben, some wd⟩ ∧
      ∀ (k : Nat) (byte : Option Byte), (k, byte) ∈ [(0, x.b0), (1, x.b1), (2, x.b2), (3, x.b3)] →
        (ben.getLsbD k = true ↔ byte ≠ none) ∧
        (∀ j, j < 8 → byte = none → wd[8 * k + j]? = some none) ∧
        ∀ j b, j < 8 → byte = some b → wd[8 * k + j]? = some (some (b.getLsbD j))

/-! ### Reads (chapter 3) -/

/-- A READ is held with its word, its policy and the waits that the queue gives it (R59, R62); a LOCK-READ accepted while
nobody holds the lock is held as a READ is, and with LINE_BUSY while a tracker entry for its line is live (R67). -/
def Obligations.WordReadIsHeld : Prop :=
  ∀ (r : RequestLines) (m : Master) (s : State) (x : WordAddr) (p : Policy), s.Presents m r → x = wordOfAddr r.sa →
    p = regionLookup s.rgt (addrOfWord x) →
    (∃ w, exec (.read r) s = .next { s.taken m true with rsa := s.rsa.entered m (Slot.held (.read x p) w) } ∧
      QueueWaits s (.read x p) w ∧ w.QueueOnly) ∧
    ∃ w, exec (.lockRead r) s = .next { s.taken m true with
        rsa := s.rsa.entered m (Slot.held (.lockRead x p) w) } ∧
      QueueWaits s (.lockRead x p) w ∧ { w with lineBusy := false }.QueueOnly ∧
      (w.lineBusy = true ↔ ∃ e ∈ s.ivt.entries, e.line = lineOfWord x)

/-- A READ-LINE outside the three conditions of R9 is held UNCACHED, with no directory request (R63). Under them it is
looked up, and its slot takes the outcome (R64); the walker is told of a change at the way it waits on (R127). -/
def Obligations.FillIsLookedUpOrUncached : Prop :=
  ∀ (r : RequestLines) (m : Master) (s : State) (l : LineAddr) (p : Policy), s.Presents m r → l = lineOfAddr r.sa →
    p = regionLookup s.rgt (addrOfLine l) →
    (¬ (p = .tracked .active ∧ s.atEvent.mau.attach.get m = .online ∧ s.pdr.walker.mode ≠ .sweeping) →
      ∃ w, exec (.readLine r) s = .next { s.taken m true with
          rsa := s.rsa.entered m (Slot.held (.readLine l p .uncached) w) } ∧
        QueueWaits s (.readLine l p .uncached) w ∧ w.QueueOnly) ∧
    ∀ (looked : State) (o : LookupOutcome), p = .tracked .active → s.atEvent.mau.attach.get m = .online →
      s.pdr.walker.mode ≠ .sweeping → State.fillLookup m l (s.taken m true) = (looked, o) →
      ∃ w, exec (.readLine r) s = .next (State.tellWalker s.atEvent { looked with
          rsa := looked.rsa.entered m
            (Slot.held (.readLine l p (if o = .demoted then .uncached else .directory)) w) }) ∧
        QueueWaits s (.readLine l p .directory) w ∧ (w.lineBusy = true ↔ o = .lineBusy) ∧
        (w.wayWait = true ↔ o = .claimant) ∧ { w with lineBusy := false, wayWait := false }.QueueOnly

/-- A fill lookup that finds the line's record answers by its state (R10, R11, R12), and one that finds the line as a
successor joins its claimants (R12). -/
def Obligations.LookupMeetsTheRecord : Prop :=
  ∀ (m : Master) (l : LineAddr) (s : State), DirectoryCanonical s →
    (∀ (older younger : DirectorySet) (r : LineRecord),
      s.pdr.sets.get (setOfLine l) = older ++ r :: younger → r.tag = tagOfLine l →
      (r.status = .shared → ∃ t, s.fillLookup m l = (t, .joined) ∧
        t = { s with pdr := { s.pdr with sets := t.pdr.sets } } ∧
        (∀ i, t.pdr.sets.get i = if i = setOfLine l then
          older ++ { r with pending := r.pending ++ [⟨m, .waiting, false⟩] } :: younger
          else s.pdr.sets.get i)) ∧
      (r.status = .invalidating → s.fillLookup m l = (s, .lineBusy)) ∧
      (∀ su, r.status = .evicting su → s.fillLookup m l = (s, .demoted))) ∧
    (∀ (older younger : DirectorySet) (r : LineRecord) (su : Successor),
      s.pdr.sets.get (setOfLine l) = older ++ r :: younger → r.status = .evicting (some su) →
      su.tag = tagOfLine l →
      ∃ t, s.fillLookup m l = (t, .claimant) ∧ t = { s with pdr := { s.pdr with sets := t.pdr.sets } } ∧
        (∀ i, t.pdr.sets.get i = if i = setOfLine l then
          older ++ { r with status := .evicting (some { su with claimants := su.claimants ++ [m] }) } :: younger
          else s.pdr.sets.get i))

/-- A fill lookup of a line that the set neither records nor names as a successor installs the lowest-numbered FREE way
for it, at the young end of the install order (R7, R13). -/
def Obligations.MissInstallsTheLowestFreeWay : Prop :=
  ∀ (m : Master) (l : LineAddr) (s : State) (w : Way), s.pdr.sets.wf = true →
    (∀ r ∈ s.pdr.sets.get (setOfLine l), r.tag ≠ tagOfLine l ∧ ∀ su, r.successor = some su → su.tag ≠ tagOfLine l) →
    (∀ r ∈ s.pdr.sets.get (setOfLine l), r.way ≠ w) →
    (∀ v : Way, v < w → ∃ r ∈ s.pdr.sets.get (setOfLine l), r.way = v) →
    ∃ t, s.fillLookup m l = (t, .joined) ∧ t = { s with pdr := { s.pdr with sets := t.pdr.sets } } ∧
      ∀ i, t.pdr.sets.get i = if i = setOfLine l then
        s.pdr.sets.get i ++ [⟨w, tagOfLine l, .shared, MasterSet.empty, [⟨m, .waiting, false⟩]⟩]
        else s.pdr.sets.get i

/-- In a full set the oldest SHARED way without pending fills is the victim; with none the fill is demoted (R14). A
victim without sharers is installed anew; one with sharers becomes EVICTING under an EVICT entry with the line as its
successor, or, with the tracker full, stays as it was and the fill is demoted (R15, R33); the entry created gives every
HELD LOCK-READ of a word in the victim's line LINE_BUSY (R67). -/
def Obligations.FullSetChoosesAVictim : Prop :=
  ∀ (m : Master) (l : LineAddr) (s : State), DirectoryCanonical s →
    (∀ r ∈ s.pdr.sets.get (setOfLine l), r.tag ≠ tagOfLine l ∧ ∀ su, r.successor = some su → su.tag ≠ tagOfLine l) →
    (∀ w : Way, ∃ r ∈ s.pdr.sets.get (setOfLine l), r.way = w) →
    ((∀ r ∈ s.pdr.sets.get (setOfLine l), ¬ (r.status = .shared ∧ r.pending = [])) →
      s.fillLookup m l = (s, .demoted)) ∧
    ∀ (older younger : DirectorySet) (v : LineRecord),
      s.pdr.sets.get (setOfLine l) = older ++ v :: younger → v.status = .shared → v.pending = [] →
      (∀ r ∈ older, ¬ (r.status = .shared ∧ r.pending = [])) →
      ((∀ k, v.sharers.get k = false) →
        ∃ t, s.fillLookup m l = (t, .joined) ∧ t = { s with pdr := { s.pdr with sets := t.pdr.sets } } ∧
          ∀ i, t.pdr.sets.get i = if i = setOfLine l then
            older ++ younger ++ [⟨v.way, tagOfLine l, .shared, MasterSet.empty, [⟨m, .waiting, false⟩]⟩]
            else s.pdr.sets.get i) ∧
      ((∃ k, v.sharers.get k = true) → 16 ≤ s.ivt.entries.length → s.fillLookup m l = (s, .demoted)) ∧
      ((∃ k, v.sharers.get k = true) → s.ivt.entries.length < 16 →
        ∃ t, s.fillLookup m l = (t, .claimant) ∧
          t = { s with
            pdr := { s.pdr with sets := t.pdr.sets }
            rsa := s.rsa.lineTaken (lineOfTag v.tag (setOfLine l))
            ivt := { s.ivt with entries := s.ivt.entries ++
              [⟨lineOfTag v.tag (setOfLine l), .evict, v.sharers, MasterSet.empty, MasterSet.empty,
                MasterSet.empty⟩] } } ∧
          ∀ i, t.pdr.sets.get i = if i = setOfLine l then
            older ++ { v with status := .evicting (some ⟨tagOfLine l, [m]⟩) } :: younger
            else s.pdr.sets.get i)

/-- A fill held with LINE_BUSY against a released line is looked up again if the three conditions still hold, and else
demoted (R11, R65); the fills of the line are taken in acceptance order, each on the directory the one before it left.
Claimants whose way is reinstalled lose WAY_WAIT, and claimants told DEMOTED become uncached (R65). -/
def Obligations.WaitingFillsAreReleased : Prop :=
  (∀ (m : Master) (l : LineAddr) (p : Policy) (sl : Slot) (s : State), s.rsa.slots.get m = some sl →
    sl.phase = .held → sl.request = .readLine l p .directory →
    (sl.waits.lineBusy = false → s.releaseFill l m = s) ∧
    (sl.waits.lineBusy = true →
      (∀ looked o, regionLookup s.rgt (addrOfLine l) = .tracked .active → s.mau.attach.get m = .online →
        s.pdr.walker.mode ≠ .sweeping → State.fillLookup m l s = (looked, o) →
        s.releaseFill l m = { looked with rsa := looked.rsa.withSlot m (sl.lookedUp l p o) }) ∧
      (¬ (regionLookup s.rgt (addrOfLine l) = .tracked .active ∧ s.mau.attach.get m = .online ∧
          s.pdr.walker.mode ≠ .sweeping) →
        s.releaseFill l m = { s with rsa := s.rsa.withSlot m (sl.lookedUp l p .demoted) }))) ∧
  (∀ (m : Master) (l : LineAddr) (s : State),
    (∀ sl p, s.rsa.slots.get m = some sl → sl.phase = .held → sl.request ≠ .readLine l p .directory) →
    s.releaseFill l m = s) ∧
  (∀ (l : LineAddr) (s : State), s.releaseLine l = s.rsa.order.foldl (fun u m => u.releaseFill l m) s) ∧
  ∀ (o : LookupOutcome) (m : Master) (ms : List Master) (l : LineAddr) (p : Policy) (sl : Slot) (s : State),
    State.endWayWait o [] s = s ∧
    (s.rsa.slots.get m = some sl → sl.request = .readLine l p .directory →
      State.endWayWait o (m :: ms) s =
        State.endWayWait o ms { s with rsa := s.rsa.withSlot m (sl.lookedUp l p o) })

/-! ### Writes, SYNC and the locked pair (chapters 4 and 5) -/

/-- A WRITE that names no byte, or names one of bad parity, is answered ERR with its record and does nothing else (R97);
so is a request whose SKIND names no kind (R151). That such a write records no policy is the model's reading (log 15). -/
def Obligations.MalformedRequestIsAnsweredErr : Prop :=
  ∀ (r : RequestLines) (m : Master) (s : State) (x : WordAddr) (failed : SlotRequest → ErrorKind → State),
    s.Presents m r → x = wordOfAddr r.sa →
    (∀ q kind, failed q kind = { s.taken m true with
      rsa := s.rsa.entered m (Slot.answered q .err)
      bfe := s.bfe.replied m .err
      mnc := s.mnc.offered kind m (some (addrOfWord x)) }) →
    (r.sben = 0#4 →
      exec (.write r) s = .next (failed (.write x none (lanesOf r.sben r.sd)) .requestMalformed)) ∧
    (r.sben ≠ 0#4 → ¬ r.Good →
      exec (.write r) s = .next (failed (.write x none (lanesOf r.sben r.sd)) .writeParity)) ∧
    ∀ skind : BitVec 3, skind = 6#3 ∨ skind = 7#3 →
      exec (.malformedRequest skind r) s = .next (failed (.noKind x) .requestMalformed)

/-- A WRITE in a DEVICE region is held, with QUEUE_EMPTY_WAIT while the queue holds any entry (R101). -/
def Obligations.DeviceWriteIsHeld : Prop :=
  ∀ (r : RequestLines) (m : Master) (s : State) (q : SlotRequest), s.Presents m r → r.sben ≠ 0#4 → r.Good →
    regionLookup s.rgt (addrOfWord (wordOfAddr r.sa)) = .device →
    q = .write (wordOfAddr r.sa) (some .device) (lanesOf r.sben r.sd) →
    ∃ w, exec (.write r) s = .next { s.taken m true with rsa := s.rsa.entered m (Slot.held q w) } ∧
      (w.queueEmptyWait = true ↔ s.pwq ≠ []) ∧ { w with queueEmptyWait := false } = WaitReasons.none

/-- The queue's answer to an offered write, in the order of R76. -/
def Obligations.QueueAnswersInOrder : Prop :=
  ∀ (m : Master) (w : WordAddr) (s : State),
    ((∃ k sl, s.rsa.slots.get k = some sl ∧ sl.phase = .held ∧ sl.waits.queueEmptyWait = true) →
      s.offer m w = .deviceHold) ∧
    ((∀ k sl, s.rsa.slots.get k = some sl → sl.phase = .held → sl.waits.queueEmptyWait = false) →
      (∀ older y, s.pwq = older ++ [y] → y.phase = .waiting → y.source = m → y.word = w → s.offer m w = .merge) ∧
      ((∀ older y, s.pwq = older ++ [y] → ¬ (y.phase = .waiting ∧ y.source = m ∧ y.word = w)) →
        (s.pwq.length < 16 → s.offer m w = .append) ∧ (16 ≤ s.pwq.length → s.offer m w = .full)))

/-- A posted WRITE that the queue can take and whose write step, made in a TRACKED region alone, is taken: it is
appended with count 0, or merged into the youngest entry, and answered DONE (R77 to R79, R98, R99). One that the queue
refuses, or whose write step finds no tracker entry, is answered RETRY with nothing done (R98, R99, R152). -/
def Obligations.PostedWriteIsPlacedOrRefused : Prop :=
  (∀ (r : RequestLines) (m : Master) (s stepped : State) (p : Policy) (placed : List QueueEntry),
    s.Presents m r → r.sben ≠ 0#4 → r.Good →
    p = regionLookup s.rgt (addrOfWord (wordOfAddr r.sa)) → p ≠ .device →
    (if p.isTracked then State.writeStep m (lineOfWord (wordOfAddr r.sa)) (s.taken m true)
      else some (s.taken m true)) = some stepped →
    (s.offer m (wordOfAddr r.sa) = .append ∧
        placed = s.pwq ++ [⟨wordOfAddr r.sa, lanesOf r.sben r.sd, m, .waiting, 0⟩] ∨
      s.offer m (wordOfAddr r.sa) = .merge ∧ ∃ older y, s.pwq = older ++ [y] ∧
        placed = older ++ [{ y with lanes := (lanesOf r.sben r.sd).over y.lanes }]) →
    exec (.write r) s = .next (State.tellWalker s.atEvent { stepped with
      pwq := placed
      bfe := s.bfe.replied m .done
      rsa := (stepped.rsa.refreshed placed s.mnc.bypassLimit).entered m
        (Slot.answered (.write (wordOfAddr r.sa) (some p) (lanesOf r.sben r.sd)) .done) })) ∧
  ∀ (r : RequestLines) (m : Master) (s : State) (p : Policy), s.Presents m r → r.sben ≠ 0#4 → r.Good →
    p = regionLookup s.rgt (addrOfWord (wordOfAddr r.sa)) → p ≠ .device →
    (s.offer m (wordOfAddr r.sa) = .deviceHold ∨ s.offer m (wordOfAddr r.sa) = .full ∨
      p.isTracked = true ∧ State.writeStep m (lineOfWord (wordOfAddr r.sa)) (s.taken m true) = none) →
    exec (.write r) s = .next { s.taken m true with bfe := s.bfe.refused m }

/-- What a write step does at the tracker, the record and the slots, for the targets of R20, and when it is refused (R21,
R22, R33 to R35): a created entry with the record INVALIDATING and LINE_BUSY for the HELD LOCK-READs of its line alone
(R67), an enlarged entry, a cause added, or nothing; and in every step taken the ISSUED items of other masters spoiled. A
line with no record changes nothing (R21). -/
def Obligations.WriteStepTakesItsTrackerPart : Prop :=
  (∀ (a k : Master) (l : LineAddr) (s : State),
    (s.pdr.sets.recordOf l = none → (s.writeTargets a l).get k = false) ∧
    ∀ r, s.pdr.sets.recordOf l = some r →
      (r.status = .shared → ((s.writeTargets a l).get k = true ↔ r.sharers.get k = true ∧ k ≠ a)) ∧
      (∀ e, r.status = .invalidating → s.liveEntry l = some e →
        ((s.writeTargets a l).get k = true ↔ r.sharers.get k = true ∧ k ≠ a ∧ e.targets.get k = false)) ∧
      (∀ su, r.status = .evicting su → (s.writeTargets a l).get k = false)) ∧
  (∀ (a : Master) (l : LineAddr) (s : State), s.pdr.sets.wf = true → s.pdr.sets.recordOf l = none →
    s.writeStep a l = some s) ∧
  ∀ (a : Master) (l : LineAddr) (s : State) (r : LineRecord), s.pdr.sets.wf = true →
    s.pdr.sets.recordOf l = some r →
    ((r.status = .shared ∧ (∃ k, (s.writeTargets a l).get k = true) ∧ 16 ≤ s.ivt.entries.length) →
      s.writeStep a l = none) ∧
    (¬ (r.status = .shared ∧ (∃ k, (s.writeTargets a l).get k = true) ∧ 16 ≤ s.ivt.entries.length) →
      ∃ t, s.writeStep a l = some t ∧
        (∀ i, t.pdr.sets.get i = if i = setOfLine l then
          DirectorySet.update (s.pdr.sets.get i) (tagOfLine l) (fun q => some { q with
            status := if r.status = .shared ∧ (s.writeTargets a l).isEmpty = false then .invalidating else q.status
            pending := q.pending.map fun p =>
              if p.phase = .issued ∧ p.master ≠ a then { p with spoiled := true } else p })
          else s.pdr.sets.get i) ∧
        t.pdr.walker = s.pdr.walker ∧ t.ivt.notices = s.ivt.notices ∧
        t.ivt.timers = s.ivt.timers ∧ t.bfe = s.bfe ∧ t.rgt = s.rgt ∧ t.pwq = s.pwq ∧ t.mlc = s.mlc ∧
        t.mau = s.mau ∧ t.mnc = s.mnc ∧ t.pins = s.pins ∧ t.clk = s.clk ∧ t.pending = s.pending ∧
        (r.status = .shared → (∃ k, (s.writeTargets a l).get k = true) →
          t.rsa = s.rsa.lineTaken l ∧
          t.ivt.entries = s.ivt.entries ++
            [⟨l, .write, s.writeTargets a l, MasterSet.empty, MasterSet.empty, MasterSet.single a⟩]) ∧
        (¬ (r.status = .shared ∧ ∃ k, (s.writeTargets a l).get k = true) → t.rsa = s.rsa) ∧
        (r.status = .shared → (∀ k, (s.writeTargets a l).get k = false) → t.ivt = s.ivt) ∧
        (r.status ≠ .shared → (∃ k, (s.writeTargets a l).get k = true) →
          t.ivt.entries = s.ivt.entries.map fun e =>
            if e.line = l then { e with
              targets := MasterSet.union e.targets (s.writeTargets a l), causes := e.causes.insert a } else e) ∧
        (∀ e, r.status ≠ .shared → (∀ k, (s.writeTargets a l).get k = false) → s.liveEntry l = some e →
          ((∃ k, k ≠ a ∧ e.targets.get k = true) →
            t.ivt.entries = s.ivt.entries.map fun e =>
              if e.line = l then { e with causes := e.causes.insert a } else e) ∧
          ((∀ k, e.targets.get k = true → k = a) → t.ivt = s.ivt)))

/-- The four failing checks of a LOCK-WRITE, each with the lock and the record it leaves (R109). That it records no policy is
the model's reading (log 15). -/
def Obligations.LockWriteFailingItsChecksIsAnsweredErr : Prop :=
  ∀ (r : RequestLines) (m : Master) (s : State) (failed : State), s.bfe.grant = some m → r.sreq = true →
    failed = { s.taken m true with
      rsa := s.rsa.lockFreed.entered m (Slot.answered (.lockWrite (wordOfAddr r.sa) none (lanesOf r.sben r.sd)) .err)
      bfe := { s.bfe.replied m .err with lock := none } } →
    (s.bfe.lock = none → exec (.lockWrite r) s = .next { failed with
      rsa := s.rsa.entered m (Slot.answered (.lockWrite (wordOfAddr r.sa) none (lanesOf r.sben r.sd)) .err)
      mnc := s.mnc.offered .requestMalformed m (some (addrOfWord (wordOfAddr r.sa))) }) ∧
    ∀ k, s.bfe.lock = some k → k.holder = m →
      (wordOfAddr r.sa ≠ k.word → exec (.lockWrite r) s = .next { failed with
        mnc := s.mnc.offered .lockBroken m (some (addrOfWord k.word)) }) ∧
      (wordOfAddr r.sa = k.word → r.sben = 0#4 → exec (.lockWrite r) s = .next { failed with
        mnc := s.mnc.offered .requestMalformed m (some (addrOfWord (wordOfAddr r.sa))) }) ∧
      (wordOfAddr r.sa = k.word → r.sben ≠ 0#4 → ¬ r.Good → exec (.lockWrite r) s = .next { failed with
        mnc := s.mnc.offered .writeParity m (some (addrOfWord (wordOfAddr r.sa))) })

/-- A LOCK-WRITE that passes its checks joins the pair (R110): the deadline is cancelled, the policy recorded afresh,
and in a TRACKED region the write step made; a refused step holds the slot with TRACKER_WAIT. Once a free entry has been
reported to it, the step is made again (R36; log 17). -/
def Obligations.LockWriteJoinsThePair : Prop :=
  (∀ (r : RequestLines) (m : Master) (k : BusLock) (s joined : State) (p : Policy) (q : SlotRequest),
    s.bfe.grant = some m → r.sreq = true → s.bfe.lock = some k → k.holder = m → wordOfAddr r.sa = k.word →
    r.sben ≠ 0#4 → r.Good → p = regionLookup s.rgt (addrOfWord (wordOfAddr r.sa)) →
    q = .lockWrite (wordOfAddr r.sa) (some p) (lanesOf r.sben r.sd) →
    joined = { s.taken m true with bfe := { s.bfe with grant := none, lock := some { k with deadline := none } } } →
    (p.isTracked = false → exec (.lockWrite r) s = .next { joined with
      rsa := s.rsa.entered m (Slot.held q WaitReasons.none) }) ∧
    (∀ stepped, p.isTracked = true → joined.writeStep m (lineOfWord k.word) = some stepped →
      exec (.lockWrite r) s = .next (State.tellWalker s.atEvent { stepped with
        rsa := stepped.rsa.entered m (Slot.held q WaitReasons.none) })) ∧
    (p.isTracked = true → joined.writeStep m (lineOfWord k.word) = none →
      exec (.lockWrite r) s = .next { joined with
        rsa := s.rsa.entered m (Slot.held q { WaitReasons.none with trackerWait := true }) })) ∧
  ∀ (m : Master) (s : State) (w : WordAddr) (p : Option Policy) (lanes : Lanes) (ws : WaitReasons)
    (arrived : Option Ending),
    s.rsa.slots.get m = some ⟨.held, .lockWrite w p lanes, ws, arrived, true⟩ → ws.trackerWait = true →
    (∀ stepped sl, s.atEvent.writeStep m (lineOfWord w) = some stepped → stepped.rsa.slots.get m = some sl →
      exec (.trackerWaitRetry m) s = .next (State.tellWalker s.atEvent { stepped with
        rsa := stepped.rsa.withSlot m { sl with
          waits := { sl.waits with trackerWait := false }, freeEntryTold := false } })) ∧
    (s.atEvent.writeStep m (lineOfWord w) = none →
      exec (.trackerWaitRetry m) s = .next { s.atEvent with
        rsa := s.rsa.withSlot m ⟨.held, .lockWrite w p lanes, ws, arrived, false⟩ })

/-- A SYNC is decided at once by the write-failed flag when no entry of its master stands in the queue and no tracker
entry has it as a cause; otherwise it is held with SYNC_WAIT (R103, R104). Examined again at the end of an event, it is
decided the same way once both conditions hold (R104); the waiting slots are examined in acceptance order, which is the
model's choice (log 14). -/
def Obligations.SyncIsDecidedOrHeld : Prop :=
  (∀ (r : RequestLines) (m : Master) (s : State), s.Presents m r →
    (((∀ e ∈ s.pwq, e.source ≠ m) ∧ (∀ e ∈ s.ivt.entries, e.causes.get m = false)) →
      ∀ a, a = (if s.mau.writeFailed.get m = true then Answer.err else Answer.done) →
      exec (.sync r) s = .next { s.taken m true with
        rsa := s.rsa.entered m (Slot.answered .sync a), bfe := s.bfe.replied m a }) ∧
    (¬ ((∀ e ∈ s.pwq, e.source ≠ m) ∧ (∀ e ∈ s.ivt.entries, e.causes.get m = false)) →
      exec (.sync r) s = .next { s.taken m true with
        rsa := s.rsa.entered m (Slot.held .sync { WaitReasons.none with syncWait := true }) })) ∧
  (∀ (m : Master) (sl : Slot) (s : State), s.rsa.slots.get m = some sl → sl.phase = .held → sl.request = .sync →
    (((∀ e ∈ s.pwq, e.source ≠ m) ∧ (∀ e ∈ s.ivt.entries, e.causes.get m = false)) →
      ∀ a, a = (if s.mau.writeFailed.get m = true then Answer.err else Answer.done) →
      s.settleSlot m = { s with
        rsa := s.rsa.withSlot m (Slot.answered .sync a), bfe := s.bfe.answering m a }) ∧
    (¬ ((∀ e ∈ s.pwq, e.source ≠ m) ∧ (∀ e ∈ s.ivt.entries, e.causes.get m = false)) → s.settleSlot m = s)) ∧
  ∀ s : State, s.settleWaiters = s.rsa.order.foldl (fun u m => u.settleSlot m) s

/-- The running deadline of the lock is reached: the lock is released with a LOCK_TIMEOUT record (R107). The clock's
new count is the model's choice (log 2). -/
def Obligations.LockTimesOut : Prop :=
  (∀ (h : Master) (w : WordAddr) (d : Nat) (s : State), s.bfe.lock = some ⟨h, w, some d⟩ →
    exec .lockTimeout s = .next { s.atEvent with
      clk := max s.clk d
      bfe := { s.bfe with lock := none }
      rsa := s.rsa.lockFreed
      mnc := s.mnc.offered .lockTimeout h (some (addrOfWord w)) }) ∧
  ∀ s : State, (∀ k, s.bfe.lock = some k → k.deadline = none) → exec .lockTimeout s = .next s.atEvent

/-- The oldest reply is sent (R155): it is driven with its tag and code (R145, R147), and leaves the queue; a reply from
a slot empties it, and the ERR of a SYNC clears its master's write-failed flag. That a DONE, RETRY or ERR drives no words
on SD, which then has no meaning (R147), is the model's reading (log 16). With no reply in the queue none is sent, and
the command is not taken (log 3). -/
def Obligations.OldestReplyIsSent : Prop :=
  (∀ s : State, s.bfe.replies = [] → exec .replySend s = .next s.atEvent) ∧
  ∀ (x : Reply) (rest : List Reply) (s sent : State), s.bfe.replies = x :: rest →
    sent = { s.atEvent with
      bfe := { s.bfe with replies := rest }
      pins := { s.pins.quiet with srb := some x.transfer } } →
    x.transfer.tag = x.master ∧
    (x.body = .retry → x.transfer.code = 3 ∧ x.transfer.words = [] ∧ exec .replySend s = .next sent) ∧
    ∀ a emptied, x.body = .answer a →
      emptied = { sent with
        rsa := ⟨s.rsa.slots.set x.master none, s.rsa.order.filter fun k => k != x.master⟩ } →
      (∀ w, a = .word w → x.transfer.code = 0 ∧ x.transfer.words = [(w, parityOfWord w)]) ∧
      (∀ ws keep, a = .line ws keep → x.transfer.code = 1 ∧ x.transfer.keep = some keep ∧
        x.transfer.words = ws.map fun w => (w, parityOfWord w)) ∧
      (a = .done → x.transfer.code = 2 ∧ x.transfer.words = []) ∧
      (a = .err → x.transfer.code = 4 ∧ x.transfer.words = []) ∧
      ((a = .err ∧ ∃ sl, s.rsa.slots.get x.master = some sl ∧ sl.request = .sync) →
        exec .replySend s = .next { emptied with
          mau := { s.atEvent.mau with writeFailed := s.mau.writeFailed.set x.master false } }) ∧
      (¬ (a = .err ∧ ∃ sl, s.rsa.slots.get x.master = some sl ∧ sl.request = .sync) →
        exec .replySend s = .next emptied)

/-! ### The Memory Request Link (chapter 9) -/

/-- The oldest continuation is issued before everything else, as RD-REST from its assembly's next word (R169, R170,
R173); with no continuation, the oldest eligible LOCK-WRITE or DEVICE write. -/
def Obligations.ContinuationThenUnpostedWriteIssues : Prop :=
  ∀ (t : BitVec 2) (m : Master) (s : State), s.CanIssue t →
    (∀ (younger : List Master) (a : Assembly), s.mlc.continuations = m :: younger →
      s.mlc.assemblies.get m = some a →
      exec (.issueEvent true) s = .next { s.atEvent with
        mlc := { s.mlc.joined t .rdRest (wordOfLine a.line a.words.length) (.continuation m) with
          continuations := younger }
        pins := s.pins.driven t .rdRest (wordOfLine a.line a.words.length) none }) ∧
    ∀ (sl : Slot) (w : WordAddr) (p : Option Policy) (lanes : Lanes), s.mlc.continuations = [] →
      FirstIn s.rsa.order (s.EligibleFor SlotRequest.isUnpostedWrite) m → s.rsa.slots.get m = some sl →
      sl.request = .write w p lanes ∨ sl.request = .lockWrite w p lanes →
      exec (.issueEvent true) s = .next { s.atEvent with
        rsa := s.rsa.withSlot m { sl with phase := .issued }
        mlc := s.mlc.joined t .wrWord w (.unposted m)
        pins := s.pins.driven t .wrWord w (some lanes) }

/-- With neither, the oldest eligible read is issued (R61, R169, R170): its slot is ISSUED, every WAITING entry's count
rises by one and the HELD slots are brought into line (R89); a LOCK-READ takes the lock (R68); a READ-LINE starts an
assembly, and a directory fill's item is ISSUED (R16). -/
def Obligations.ReadIssuesThird : Prop :=
  ∀ (t : BitVec 2) (m : Master) (sl : Slot) (s issued : State) (raised : List QueueEntry), s.CanIssue t →
    s.mlc.continuations = [] → s.NoneEligible SlotRequest.isUnpostedWrite →
    FirstIn s.rsa.order (s.EligibleFor SlotRequest.isRead) m → s.rsa.slots.get m = some sl →
    raised = s.pwq.map (fun e => if e.phase = .waiting then { e with count := e.count + 1 } else e) →
    issued = { s.atEvent with
      pwq := raised
      rsa := (s.rsa.withSlot m { sl with phase := .issued }).refreshed raised
        s.mnc.bypassLimit } →
    (∀ w p, sl.request = .read w p → exec (.issueEvent true) s = .next { issued with
      mlc := s.mlc.joined t .rdWord w (.read m), pins := s.pins.driven t .rdWord w none }) ∧
    (∀ w p, sl.request = .lockRead w p → exec (.issueEvent true) s = .next { issued with
      mlc := s.mlc.joined t .rdWord w (.read m)
      pins := s.pins.driven t .rdWord w none
      bfe := { s.bfe with lock := some ⟨m, w, some (s.clk + s.mnc.lockTimeout)⟩ }
      rsa := { issued.rsa with slots := PerMaster.of fun k => (issued.rsa.slots.get k).map fun x =>
        if x.phase = .held then
          if k ≠ m ∧ x.request.isLockRead = true then { x with waits := { x.waits with lockWait := true } } else x
        else x } }) ∧
    (∀ l p, sl.request = .readLine l p .uncached → exec (.issueEvent true) s = .next { issued with
      mlc := { s.mlc.joined t .rdLine (wordOfLine l 0) (.read m) with
        assemblies := s.mlc.assemblies.set m (some ⟨l, .uncached, []⟩) }
      pins := s.pins.driven t .rdLine (wordOfLine l 0) none }) ∧
    (∀ l p, sl.request = .readLine l p .directory → s.pdr.sets.wf = true →
      ∃ d : Directory, exec (.issueEvent true) s = .next (State.tellWalker s.atEvent { issued with
          mlc := { s.mlc.joined t .rdLine (wordOfLine l 0) (.read m) with
            assemblies := s.mlc.assemblies.set m (some ⟨l, .directory, []⟩) }
          pins := s.pins.driven t .rdLine (wordOfLine l 0) none
          pdr := { s.pdr with sets := d } }) ∧
        ∀ i, d.get i = if i = setOfLine l then
          DirectorySet.update (s.pdr.sets.get i) (tagOfLine l) (fun r => some { r with
            pending := r.pending.map fun x => if x.master = m then { x with phase := .issued } else x })
          else s.pdr.sets.get i)

/-- With no other candidate the oldest WAITING entry is issued as one WR-WORD, and the HELD slots are brought into line
(R83, R169, R170). With the list full, MRDY deasserted or no candidate no issue event is taken: MRDY is only seen. -/
def Obligations.QueuedWriteIssuesLast : Prop :=
  (∀ (t : BitVec 2) (older younger : List QueueEntry) (e : QueueEntry) (s : State) (q : List QueueEntry),
    s.CanIssue t → s.mlc.continuations = [] → s.NoneEligible SlotRequest.isUnpostedWrite →
    s.NoneEligible SlotRequest.isRead → s.pwq = older ++ e :: younger → (∀ x ∈ older, x.phase = .issued) →
    e.phase = .waiting → q = older ++ { e with phase := .issued } :: younger →
    exec (.issueEvent true) s = .next { s.atEvent with
      pwq := q
      rsa := s.rsa.refreshed q s.mnc.bypassLimit
      mlc := s.mlc.joined t .wrWord e.word (.queue e.source)
      pins := s.pins.driven t .wrWord e.word (some e.lanes) }) ∧
  ∀ (mrdy : Bool) (s : State),
    (mrdy = false ∨ 4 ≤ s.mlc.inFlight.length ∨
      (s.mlc.continuations = [] ∧ s.NoneEligible SlotRequest.isUnpostedWrite ∧
        s.NoneEligible SlotRequest.isRead ∧ ∀ e ∈ s.pwq, e.phase = .issued)) →
    exec (.issueEvent mrdy) s = .next { s.atEvent with pins := { s.pins.quiet with mrdy := mrdy } }

/-- How the status of a completion is read, by the kind of the request completed (R167). A completion is taken for the
oldest item whatever tag it carries; with nothing in flight it is ignored (R167), and one of an item marked discard leaves
the list and makes nothing but the record of a failure (R175). -/
def Obligations.CompletionIsReadByKind : Prop :=
  (∀ (kind : LinkKind) (word : WordAddr) (c : CompletionLines) (n : Nat), n = (c.mcstat.extractLsb' 2 3).toNat →
    (c.mcstat.extractLsb' 0 2 = 0#2 → completionStatus kind word c = .ok) ∧
    (c.mcstat.extractLsb' 0 2 = 1#2 → (kind = .rdWord ∨ kind = .wrWord) → completionStatus kind word c = .fail) ∧
    (c.mcstat.extractLsb' 0 2 = 1#2 → kind = .rdLine → completionStatus kind word c =
      if 1 ≤ n ∧ n < 8 then .short n else .fail) ∧
    (c.mcstat.extractLsb' 0 2 = 1#2 → kind = .rdRest → completionStatus kind word c =
      if 1 ≤ n ∧ n < 8 - wordIndex word then .short n else .fail) ∧
    (c.mcstat.extractLsb' 0 2 = 2#2 ∨ c.mcstat.extractLsb' 0 2 = 3#2 → completionStatus kind word c = .fail)) ∧
  ∀ (c : CompletionLines) (s : State),
    (s.mlc.inFlight = [] → exec (.mrlCompletion c) s = .next s.atEvent) ∧
    (∀ tag, exec (.mrlCompletion { c with mctag := tag }) s = exec (.mrlCompletion c) s) ∧
    ∀ (i : InFlight) (rest : List InFlight) (m : Master), s.mlc.inFlight = i :: rest → i.discard = true →
      (i.origin = .read m ∨ i.origin = .unposted m ∨ i.origin = .continuation m) →
      exec (.mrlCompletion c) s = .next { s.atEvent with
        mlc := { s.mlc with inFlight := rest }
        mnc := if completionStatus i.kind i.word c = .fail then
            (match i.kind with
              | .rdWord => s.mnc.offered .memReadFail m (some (addrOfWord i.word))
              | .rdLine | .rdRest => s.mnc.offered .memReadFail m (some (addrOfLine (lineOfWord i.word)))
              | .wrWord => s.mnc.offered .memWriteFail m (some (addrOfWord i.word)))
          else s.mnc }

/-- The completion of a word read (R167, R171, R68): WORD with the word delivered, or ERR with its record, and a failed
LOCK-READ's lock released if its master still holds it. -/
def Obligations.WordReadIsAnswered : Prop :=
  ∀ (c : CompletionLines) (t : BitVec 2) (w : WordAddr) (m : Master) (rest : List InFlight) (sl : Slot) (s : State),
    s.mlc.inFlight = ⟨t, .rdWord, w, .read m, false⟩ :: rest → s.rsa.slots.get m = some sl →
    (c.mcstat.extractLsb' 0 2 = 0#2 → exec (.mrlCompletion c) s = .next { s.atEvent with
      mlc := { s.mlc with inFlight := rest }
      rsa := s.rsa.withSlot m (Slot.answered sl.request (.word c.mrd[0]))
      bfe := s.bfe.answering m (.word c.mrd[0]) }) ∧
    (c.mcstat.extractLsb' 0 2 ≠ 0#2 →
      ∀ failed, failed = { s.atEvent with
        mlc := { s.mlc with inFlight := rest }
        rsa := s.rsa.withSlot m (Slot.answered sl.request .err)
        bfe := s.bfe.answering m .err
        mnc := s.mnc.offered .memReadFail m (some (addrOfWord w)) } →
      ((sl.request.isLockRead = true ∧ ∃ k, s.bfe.lock = some k ∧ k.holder = m) →
        exec (.mrlCompletion c) s = .next { failed with
          rsa := failed.rsa.lockFreed, bfe := { failed.bfe with lock := none } }) ∧
      (¬ (sl.request.isLockRead = true ∧ ∃ k, s.bfe.lock = some k ∧ k.holder = m) →
        exec (.mrlCompletion c) s = .next failed))

/-- The completion of a queued write (R84 to R86, R172): the oldest entry leaves, the HELD slots are brought into line, a
failure makes its record and sets the source's flag, and the source's held SYNC is decided if its conditions now
hold. -/
def Obligations.QueuedWriteCompletes : Prop :=
  ∀ (c : CompletionLines) (t : BitVec 2) (w : WordAddr) (src : Master) (rest : List InFlight) (e : QueueEntry)
    (q : List QueueEntry) (s left : State),
    s.mlc.inFlight = ⟨t, .wrWord, w, .queue src, false⟩ :: rest → s.pwq = e :: q →
    left = { s.atEvent with
      mlc := { s.mlc with inFlight := rest }
      pwq := q
      rsa := s.rsa.refreshed q s.mnc.bypassLimit
      mnc := if c.mcstat.extractLsb' 0 2 = 0#2 then s.mnc
        else s.mnc.offered .memWriteFail e.source (some (addrOfWord e.word))
      mau := if c.mcstat.extractLsb' 0 2 = 0#2 then s.atEvent.mau
        else { s.atEvent.mau with writeFailed := s.mau.writeFailed.set e.source true } } →
    ((∃ sl, left.rsa.slots.get e.source = some sl ∧ sl.phase = .held ∧ sl.request = .sync ∧
        (∀ x ∈ q, x.source ≠ e.source) ∧ ∀ x ∈ s.ivt.entries, x.causes.get e.source = false) →
      ∀ a, a = (if left.mau.writeFailed.get e.source = true then Answer.err else Answer.done) →
      exec (.mrlCompletion c) s = .next { left with
        rsa := left.rsa.withSlot e.source (Slot.answered .sync a)
        bfe := s.bfe.answering e.source a }) ∧
    ((∀ sl, left.rsa.slots.get e.source = some sl →
        (sl.request = .sync → sl.phase = .held → (∃ x ∈ q, x.source = e.source) ∨
          ∃ x ∈ s.ivt.entries, x.causes.get e.source = true) ∧
        sl.arrived = none) →
      exec (.mrlCompletion c) s = .next left)

/-- The completion of an unposted write (R102, R112, R172): a DEVICE write is answered; a LOCK-WRITE is answered, and the
lock it still holds released, if its tracker condition holds, and else its completion is marked arrived. A LOCK-WRITE
whose completion has arrived ends the same way when it is examined again at the end of an event (R112; log 14). -/
def Obligations.UnpostedWriteCompletes : Prop :=
  (∀ (c : CompletionLines) (t : BitVec 2) (w : WordAddr) (m : Master) (rest : List InFlight) (sl : Slot)
    (s left : State) (en : Ending),
    s.mlc.inFlight = ⟨t, .wrWord, w, .unposted m, false⟩ :: rest → s.rsa.slots.get m = some sl → sl.phase = .issued →
    en = (if c.mcstat.extractLsb' 0 2 = 0#2 then .ok else .fail) →
    left = { s.atEvent with
      mlc := { s.mlc with inFlight := rest }
      mnc := if en = .ok then s.mnc else s.mnc.offered .memWriteFail m (some (addrOfWord w)) } →
    (∀ x p lanes, sl.request = .write x p lanes → exec (.mrlCompletion c) s = .next { left with
      rsa := s.rsa.withSlot m (Slot.answered sl.request en.answer)
      bfe := s.bfe.answering m en.answer }) ∧
    (∀ x p lanes, sl.request = .lockWrite x p lanes →
      (((∃ st, p = some (.tracked st)) ∧ ∃ e ∈ s.ivt.entries, e.line = lineOfWord x) →
        exec (.mrlCompletion c) s = .next { left with
          rsa := s.rsa.withSlot m { sl with arrived := some en } }) ∧
      (¬ ((∃ st, p = some (.tracked st)) ∧ ∃ e ∈ s.ivt.entries, e.line = lineOfWord x) →
        ∀ ended, ended = { left with
          rsa := s.rsa.withSlot m (Slot.answered sl.request en.answer)
          bfe := s.bfe.answering m en.answer } →
        ((∃ k, s.bfe.lock = some k ∧ k.holder = m) → exec (.mrlCompletion c) s = .next { ended with
          rsa := ended.rsa.lockFreed, bfe := { ended.bfe with lock := none } }) ∧
        ((∀ k, s.bfe.lock = some k → k.holder ≠ m) → exec (.mrlCompletion c) s = .next ended)))) ∧
  ∀ (m : Master) (x : WordAddr) (p : Option Policy) (lanes : Lanes) (ws : WaitReasons) (told : Bool) (s : State)
    (en : Ending), s.rsa.slots.get m = some ⟨.issued, .lockWrite x p lanes, ws, some en, told⟩ →
    (((∃ st, p = some (.tracked st)) ∧ ∃ e ∈ s.ivt.entries, e.line = lineOfWord x) → s.settleSlot m = s) ∧
    (¬ ((∃ st, p = some (.tracked st)) ∧ ∃ e ∈ s.ivt.entries, e.line = lineOfWord x) →
      ∀ ended, ended = { s with
        rsa := s.rsa.withSlot m (Slot.answered (.lockWrite x p lanes) en.answer)
        bfe := s.bfe.answering m en.answer } →
      ((∃ k, s.bfe.lock = some k ∧ k.holder = m) → s.settleSlot m = { ended with
        rsa := ended.rsa.lockFreed, bfe := { ended.bfe with lock := none } }) ∧
      ((∀ k, s.bfe.lock = some k → k.holder ≠ m) → s.settleSlot m = ended))

/-- The completion of a part of a fill (R173, R174, R17, R18): a SHORT adds its words and places a continuation; the part
that brings the eighth word ends the fill with LINE, marked by the directory for a directory fill and NOKEEP for an
uncached one; a failure ends it with ERR and its record. -/
def Obligations.LineReadCompletes : Prop :=
  ∀ (c : CompletionLines) (i : InFlight) (m : Master) (rest : List InFlight) (sl : Slot) (a : Assembly)
    (s left : State),
    s.mlc.inFlight = i :: rest → i.discard = false → (i.origin = .read m ∨ i.origin = .continuation m) →
    (i.kind = .rdLine ∨ i.kind = .rdRest) → s.rsa.slots.get m = some sl → s.mlc.assemblies.get m = some a →
    left = { s.atEvent with mlc := ⟨rest, s.mlc.assemblies.set m none, s.mlc.continuations⟩ } →
    (∀ n, completionStatus i.kind i.word c = .short n → exec (.mrlCompletion c) s = .next { s.atEvent with
      mlc := ⟨rest, s.mlc.assemblies.set m (some { a with words := a.words ++ c.mrd.toList.take n }),
        s.mlc.continuations ++ [m]⟩ }) ∧
    (completionStatus i.kind i.word c = .ok →
      ∀ ws, ws = a.words ++ c.mrd.toList.take (wordsAsked i.kind i.word) →
      (a.mode = .uncached → exec (.mrlCompletion c) s = .next { left with
        rsa := s.rsa.withSlot m (Slot.answered sl.request (.line ws false))
        bfe := s.bfe.answering m (.line ws false) }) ∧
      (a.mode = .directory → exec (.mrlCompletion c) s = .next (State.tellWalker s.atEvent
        { left.endFill m a.line (left.fillKept m a.line) with
          rsa := s.rsa.withSlot m (Slot.answered sl.request (.line ws (left.fillKept m a.line)))
          bfe := s.bfe.answering m (.line ws (left.fillKept m a.line)) }))) ∧
    (completionStatus i.kind i.word c = .fail →
      exec (.mrlCompletion c) s = .next (State.tellWalker s.atEvent
        { (if a.mode = .directory then left.endFill m a.line false else left) with
          rsa := s.rsa.withSlot m (Slot.answered sl.request .err)
          bfe := s.bfe.answering m .err
          mnc := s.mnc.offered .memReadFail m (some (addrOfLine a.line)) }))

/-- When a fill is kept (R17), and what its end does at the record: the item leaves, a kept fill's master joins the
sharers, and a SHARED record left with nothing is freed (R17, R18, R8). -/
def Obligations.FillIsKeptByTheRecord : Prop :=
  ∀ (m : Master) (l : LineAddr) (s : State) (older younger : DirectorySet) (r : LineRecord), DirectoryCanonical s →
    s.pdr.sets.get (setOfLine l) = older ++ r :: younger → r.tag = tagOfLine l →
    (s.fillKept m l = true ↔
      (∃ p ∈ r.pending, p.master = m ∧ p.spoiled = false) ∧ s.mau.attach.get m = .online ∧
        ¬ (r.status = .invalidating ∧ ∃ e, s.liveEntry l = some e ∧ e.targets.get m = true)) ∧
    ∀ (keep : Bool) (ended : LineRecord),
      ended = { r with
        sharers := if keep then r.sharers.set m true else r.sharers
        pending := r.pending.filter fun p => p.master != m } →
      s.endFill m l keep = { s with pdr := { s.pdr with sets := (s.endFill m l keep).pdr.sets } } ∧
      ∀ i, (s.endFill m l keep).pdr.sets.get i = if i = setOfLine l then
        (if ended.status = .shared ∧ ended.sharers.isEmpty = true ∧ ended.pending = [] then older ++ younger
          else older ++ ended :: younger)
        else s.pdr.sets.get i

/-! ### The Invalidation Bus and the tracker (chapter 2) -/

/-- The oldest entry with an unsent target sends one message to all its unsent targets (R37, R38): they become sent,
each gains the line on its list, and a timer starts where the list was empty (R42). With none the bus is idle. -/
def Obligations.OldestUnsentEntrySends : Prop :=
  (∀ (older younger : List TrackerEntry) (e : TrackerEntry) (s : State), s.ivt.entries = older ++ e :: younger →
    (∀ x ∈ older, ∀ m, x.targets.get m = true → x.sent.get m = true) →
    (∀ x ∈ older ++ younger, x.line ≠ e.line) →
    (∃ m, e.targets.get m = true ∧ e.sent.get m = false) →
    ∃ t u, exec .sendEvent s = .next t ∧
      t = { s.atEvent with ivt := t.ivt, pins := { s.pins.quiet with ivb := some ⟨e.line, u⟩ } } ∧
      (∀ m, u.get m = true ↔ e.targets.get m = true ∧ e.sent.get m = false) ∧
      t.ivt.entries = older ++ { e with sent := MasterSet.union e.sent u } :: younger ∧
      ∀ m,
        (u.get m = true → t.ivt.notices.get m = s.ivt.notices.get m ++ [e.line] ∧
          t.ivt.timers.get m = if s.ivt.notices.get m = [] then some (s.clk + s.mnc.invalidationTimeout)
            else s.ivt.timers.get m) ∧
        (u.get m = false → t.ivt.notices.get m = s.ivt.notices.get m ∧ t.ivt.timers.get m = s.ivt.timers.get m)) ∧
  ∀ s : State, (∀ x ∈ s.ivt.entries, ∀ m, x.targets.get m = true → x.sent.get m = true) →
    exec .sendEvent s = .next s.atEvent

/-- An acknowledge of an ONLINE master answers the head of its list (R39): the item leaves, the master joins the acked
set, the timer restarts for a new head or stops (R42), and the entry completes if every target has answered (R45). That the
waiting slots are looked at once, at the end of the event, is the model's reading (log 14). With an empty list nothing is
answered: it makes a STRAY_ACK record for an ONLINE or ISOLATED master, and none for an IN_RESET or ABSENT one (R40). -/
def Obligations.AcknowledgeAnswersTheHead : Prop :=
  (∀ (m : Master) (l : LineAddr) (rest : List LineAddr) (older younger : List TrackerEntry) (e : TrackerEntry)
    (s answered : State), s.atEvent.mau.attach.get m = .online → s.ivt.notices.get m = l :: rest →
    s.ivt.entries = older ++ e :: younger → e.line = l → (∀ x ∈ older ++ younger, x.line ≠ l) →
    answered = { s.atEvent with ivt := ⟨older ++ { e with acked := e.acked.set m true } :: younger,
      s.ivt.notices.set m rest,
      s.ivt.timers.set m (if rest = [] then none else some (s.clk + s.mnc.invalidationTimeout))⟩ } →
    (e.acked.set m true ≠ e.targets →
      ∃ t, exec (.acknowledge m) s = .next t ∧ t = { answered with bfe := t.bfe, rsa := t.rsa } ∧
        t = answered.settleWaiters) ∧
    (e.acked.set m true = e.targets →
      exec (.acknowledge m) s =
        .next (State.tellWalker s.atEvent (answered.completeEntries [{ e with acked := e.acked.set m true }])))) ∧
  ∀ (m : Master) (s : State),
    ((s.atEvent.mau.attach.get m = .online ∨ s.atEvent.mau.attach.get m = .isolated) → s.ivt.notices.get m = [] →
      exec (.acknowledge m) s = .next { s.atEvent with mnc := s.mnc.offered .strayAck m none }) ∧
    ((s.atEvent.mau.attach.get m = .inReset ∨ s.atEvent.mau.attach.get m = .absent) →
      exec (.acknowledge m) s = .next s.atEvent)

/-- What the completion of an entry does at the directory: a WRITE entry's targets leave the sharers and the record is
SHARED, or FREE when nothing is left (R23); an EVICT or WALK entry's record is freed (R24), or its way reinstalled for
the successor at the young end of the install order (R25, R7). The rest of R23, the fills released from LINE_BUSY, is
`State.releaseLine`. -/
def Obligations.CompletionMovesTheRecordOn : Prop :=
  ∀ (e : TrackerEntry) (s : State) (older younger : DirectorySet) (r : LineRecord), DirectoryCanonical s →
    s.pdr.sets.get (setOfLine e.line) = older ++ r :: younger → r.tag = tagOfLine e.line →
    (e.kind = .write →
      ∃ u : State, s.completeAtDirectory e = u.releaseLine e.line ∧
        u = { s with pdr := { s.pdr with sets := u.pdr.sets } } ∧
        ∀ i, u.pdr.sets.get i = if i = setOfLine e.line then
          (if (MasterSet.diff r.sharers e.targets).isEmpty = true ∧ r.pending = [] then older ++ younger
            else older ++ { r with status := .shared, sharers := MasterSet.diff r.sharers e.targets } :: younger)
          else s.pdr.sets.get i) ∧
    (e.kind ≠ .write → r.successor = none →
      ∃ u : State, s.completeAtDirectory e = u ∧ u = { s with pdr := { s.pdr with sets := u.pdr.sets } } ∧
        ∀ i, u.pdr.sets.get i = if i = setOfLine e.line then older ++ younger else s.pdr.sets.get i) ∧
    (∀ su, e.kind ≠ .write → r.successor = some su →
      ∃ u : State, s.completeAtDirectory e = u.endWayWait .joined su.claimants ∧
        u = { s with pdr := { s.pdr with sets := u.pdr.sets } } ∧
        ∀ i, u.pdr.sets.get i = if i = setOfLine e.line then
          older ++ younger ++ [⟨r.way, su.tag, .shared, MasterSet.empty,
            su.claimants.map fun k => ⟨k, .waiting, false⟩⟩]
          else s.pdr.sets.get i)

/-- What the completion of an entry is (R45), in order: the entry leaves the tracker; the directory moves the record on
(R23 to R25, as `Obligations.CompletionMovesTheRecordOn` states), with what that does to the slots and the tracker; every
HELD LOCK-READ in the line, and no other slot, loses LINE_BUSY (R67); a WALK entry is counted, and ends a draining walk
when it is the last (R128); and if the tracker was full, every LOCK-WRITE with TRACKER_WAIT and a walker paused with
NO_ENTRY are told (R36). Everything else is as the directory left it, the notice lists and the timers as they were. The
entries of one event complete one after another, in tracker order, and then the slots that waited are examined (R45,
R46; log 14). -/
def Obligations.CompletionIsReported : Prop :=
  (∀ (es : List TrackerEntry) (s : State),
    s.completeEntries es = (es.foldl (fun u e => u.completeEntry e) s).settleWaiters) ∧
  ∀ (e : TrackerEntry) (s moved t : State) (told : Option Pause), t = s.completeEntry e →
    moved = State.completeAtDirectory e { s with
      ivt := { s.ivt with entries := s.ivt.entries.filter fun k => k.line != e.line } } →
    told = (if 16 ≤ s.ivt.entries.length then
      s.pdr.walker.pause.map fun p => if p.reason = .noEntry then { p with ended := true } else p
      else s.pdr.walker.pause) →
    t = { moved with
      rgt := t.rgt
      rsa := moved.rsa.completionTold e.line (decide (16 ≤ s.ivt.entries.length))
      pdr := { sets := moved.pdr.sets, walker := t.pdr.walker } } ∧
    t.rsa.order = s.rsa.order ∧ t.ivt.notices = s.ivt.notices ∧ t.ivt.timers = s.ivt.timers ∧
    (e.kind ≠ .write → t.ivt.entries = s.ivt.entries.filter fun k => k.line != e.line) ∧
    (e.kind = .write → ∃ younger, t.ivt.entries = (s.ivt.entries.filter fun k => k.line != e.line) ++ younger ∧
      ∀ k ∈ younger, k.kind = .evict) ∧
    (e.kind ≠ .walk → t.pdr.walker = { s.pdr.walker with pause := told } ∧ t.rgt = s.rgt) ∧
    (e.kind = .walk →
      (s.pdr.walker.draining = false ∨ s.pdr.walker.outstanding - 1 ≠ 0 ∨ s.pdr.walker.mode = .idle →
        t.pdr.walker = { s.pdr.walker with outstanding := s.pdr.walker.outstanding - 1, pause := told } ∧
          t.rgt = s.rgt) ∧
      (s.pdr.walker.draining = true → s.pdr.walker.outstanding - 1 = 0 →
        (s.pdr.walker.mode ≠ .idle → t.pdr.walker = Walker.idle) ∧
        (s.pdr.walker.mode = .sweeping → t.rgt = s.rgt) ∧
        ∀ n, s.pdr.walker.mode = .retiring n → t.rgt = s.rgt.set n none))

/-! ### Masters that leave and return (chapter 7) -/

/-- What every passage of m to ISOLATED or IN_RESET leaves (R26, R46, R135, R136): m is no sharer, no claimant and no
target; its list is empty and its timer stopped; it holds no lock and stands on no retry list; and its write-failed
flag, its queued writes and the causes, its own among them, of the entries that stay are as they were. It goes through
the steps of R135 in their order: each record loses m alone, its pending item spoiled on isolation and removed on reset,
and is freed if that leaves it SHARED and empty (R8, R19, R26, R27); a claimant's slot is told DEMOTED (R27, R70); the
entries that m's release completes are completed (R46); a reset empties m's slot (R140); and if m holds the lock, it
becomes free and every HELD LOCK-READ loses LOCK_WAIT (R106, R136). -/
def Obligations.LeavingMasterIsReleased : Prop :=
  ∀ (c : Instr) (m : Master) (s : State) (entered : AttachState),
    (c = .timerExpiry m ∧ entered = .isolated ∧ s.atEvent.mau.attach.get m = .online ∧
        s.ivt.timers.get m ≠ none ∧ s.ivt.notices.get m ≠ [] ∨
      c = .resetNoticeRise m ∧ entered = .inReset ∧
        (s.atEvent.mau.attach.get m = .online ∨ s.atEvent.mau.attach.get m = .isolated) ∨
      (∃ n : Byte, c = .isolate n ∧ n.toNat = m.number) ∧ entered = .isolated ∧
        s.atEvent.mau.attach.get m = .online ∧ s.mnc.port = .receiving) →
    ∃ t, exec c s = .next t ∧ t.mau.attach.get m = entered ∧
      (∀ k, k ≠ m → t.mau.attach.get k = s.atEvent.mau.attach.get k) ∧ t.mau.writeFailed = s.mau.writeFailed ∧
      (∀ i, ∀ r ∈ t.pdr.sets.get i, r.sharers.get m = false ∧ ∀ su, r.successor = some su → m ∉ su.claimants) ∧
      (∀ e ∈ t.ivt.entries, e.targets.get m = false ∧ e.sent.get m = false ∧ e.acked.get m = false) ∧
      t.ivt.notices.get m = [] ∧ t.ivt.timers.get m = none ∧
      (∀ k, k ≠ m → t.ivt.notices.get k = s.ivt.notices.get k ∧ t.ivt.timers.get k = s.ivt.timers.get k) ∧
      (∀ k, t.bfe.lock = some k → k.holder ≠ m) ∧ t.bfe.retryList = s.bfe.retryList.filter (fun k => k != m) ∧
      t.pwq = s.pwq ∧ t.pending = s.pending ∧
      (∀ e ∈ t.ivt.entries, (∃ x ∈ s.ivt.entries, e = x.releasedFrom m) ∨
        (e.kind = .evict ∧ e.sent = MasterSet.empty ∧ e.acked = MasterSet.empty ∧ e.causes = MasterSet.empty)) ∧
      ((s.ivt.entries.map TrackerEntry.line).Nodup → ∀ x ∈ s.ivt.entries,
        (∃ k, k ≠ m ∧ x.targets.get k = true ∧ x.acked.get k = false) → x.releasedFrom m ∈ t.ivt.entries) ∧
      (s.pdr.sets.wf = true → ∃ completed emptied freed : State,
        s.Completes m entered t.clk completed ∧
        emptied = (if entered = .inReset then { completed with
            rsa := ⟨completed.rsa.slots.set m none, completed.rsa.order.filter fun k => k != m⟩
            bfe := { completed.bfe with replies := completed.bfe.replies.filter fun x => x.master != m }
            mlc := t.mlc }
          else completed) ∧
        ((∃ k, completed.bfe.lock = some k ∧ k.holder = m) →
          freed = { emptied with rsa := emptied.rsa.lockFreed, bfe := { emptied.bfe with lock := none } }) ∧
        ((∀ k, completed.bfe.lock = some k → k.holder ≠ m) → freed = emptied) ∧
        t = State.tellWalker s.atEvent { freed with
          mnc := t.mnc
          bfe := { freed.bfe with
            retryList := s.bfe.retryList.filter fun k => k != m
            grant := if entered = .inReset ∧ s.bfe.grant = some m then none else s.bfe.grant } })

/-- An expiry makes INVALIDATION_TIMEOUT with the line at the head of the master's list, then LOCK_BROKEN with the lock
word if the lock's step still finds the master its holder, after the completions that its release made (R43, R135, R136,
R137; log 13). It does so where no LOCK-WRITE of the master has its completion arrived. The clock's new count is the
model's choice (log 2). With its timer stopped or off ONLINE a master cannot expire (R132). -/
def Obligations.ExpiryMakesItsRecords : Prop :=
  ∀ (m : Master) (s : State),
    (∀ d l rest, s.atEvent.mau.attach.get m = .online → s.ivt.timers.get m = some d →
      s.ivt.notices.get m = l :: rest → ∃ t, exec (.timerExpiry m) s = .next t ∧ t.clk = max s.clk d ∧
        ∀ timedOut, timedOut = s.mnc.offered .invalidationTimeout m (some (addrOfLine l)) →
          (s.pdr.sets.wf = true → ∃ completed : State, s.Completes m .isolated t.clk completed ∧
            (∀ k, completed.bfe.lock = some k → k.holder = m →
              s.bfe.lock = some k ∧ t.mnc = timedOut.offered .lockBroken m (some (addrOfWord k.word))) ∧
            ((∀ k, completed.bfe.lock = some k → k.holder ≠ m) → t.mnc = timedOut)) ∧
          ((∀ k, s.bfe.lock = some k → k.holder ≠ m) → t.mnc = timedOut) ∧
          (∀ k, s.bfe.lock = some k → k.holder = m → (∀ sl, s.rsa.slots.get m = some sl → sl.arrived = none) →
            t.mnc = timedOut.offered .lockBroken m (some (addrOfWord k.word)))) ∧
    (s.ivt.timers.get m = none ∨ s.atEvent.mau.attach.get m ≠ .online →
      exec (.timerExpiry m) s = .next s.atEvent)

/-- The rise of a reset notice empties the master's slot, withdraws its reply and its grant, and leaves its requests at
the MLC as discarded items, with no record (R71, R140, R156, R160, R175); on an ABSENT or IN_RESET slot it is only seen
(R132). The fall of the notice returns an IN_RESET master to ONLINE and changes no other state (R141). -/
def Obligations.ResetNoticeEmptiesTheSlot : Prop :=
  ∀ (m : Master) (s : State),
    ((s.atEvent.mau.attach.get m = .online ∨ s.atEvent.mau.attach.get m = .isolated) →
      ∃ t, exec (.resetNoticeRise m) s = .next t ∧ t.mau.resetNotice = s.mau.resetNotice.set m true ∧
        t.rsa.slots.get m = none ∧ m ∉ t.rsa.order ∧ (∀ r ∈ t.bfe.replies, r.master ≠ m) ∧
        t.bfe.grant = (if s.bfe.grant = some m then none else s.bfe.grant) ∧ t.bfe.pointer = s.bfe.pointer ∧
        t.mnc = s.mnc ∧ t.clk = s.clk ∧
        t.mlc.inFlight = s.mlc.inFlight.map (fun i =>
          if i.origin = .read m ∨ i.origin = .unposted m ∨ i.origin = .continuation m then
            { i with discard := true } else i) ∧
        t.mlc.assemblies = s.mlc.assemblies.set m none ∧
        t.mlc.continuations = s.mlc.continuations.filter (fun k => k != m)) ∧
    ((s.atEvent.mau.attach.get m = .absent ∨ s.atEvent.mau.attach.get m = .inReset) →
      exec (.resetNoticeRise m) s = .next { s.atEvent with
        mau := { s.atEvent.mau with resetNotice := s.mau.resetNotice.set m true } }) ∧
    exec (.resetNoticeFall m) s = .next { s.atEvent with
      mau := { s.atEvent.mau with
        resetNotice := s.mau.resetNotice.set m false
        attach := if s.atEvent.mau.attach.get m = .inReset then s.atEvent.mau.attach.set m .online
          else s.atEvent.mau.attach } }

/-! ### The walker (chapter 6) -/

/-- The walker takes its next way, the oldest it has not visited, or after a pause that has ended the way it paused on,
examined afresh, and treats the record there by its state and by whether its line lies in the range of the walk (R124 to
R127, R129). A way that a pause with EVICTING finds FREE is finished with (R126); that one found FREE after another pause
is passed over within the visit is the model's reading (log 11). `finished` and `paused` are the two ends of an
examination; the state given is the event's start with the pause cleared. -/
def Obligations.VisitTreatsTheNextRecord : Prop :=
  (∀ (s : State) (i : Nat) (p : Pause), s.pdr.walker.mode ≠ .idle → s.pdr.walker.draining = false →
    s.pdr.walker.set = some i → s.pdr.walker.pause = some p → p.ended = true → p.reason = .evicting →
    (∀ q ∈ s.pdr.sets.get i, q.way ≠ p.way) →
    exec .walkerVisit s = .next { s.atEvent with pdr := { s.pdr with
      walker := { s.pdr.walker with pause := none, visited := s.pdr.walker.visited ++ [p.way] } } }) ∧
  ∀ (s found : State) (i : Nat) (older younger : DirectorySet) (r : LineRecord) (finished : State → State)
    (paused : PauseReason → State → State),
    s.pdr.walker.mode ≠ .idle → s.pdr.walker.draining = false → s.pdr.walker.set = some i →
    s.pdr.sets.get i = older ++ r :: younger → (∀ q ∈ older ++ younger, q.way ≠ r.way) → s.pdr.sets.wf = true →
    (s.VisitsNextWay i ∧ (∀ q ∈ older, q.way ∈ s.pdr.walker.visited) ∧ r.way ∉ s.pdr.walker.visited ∨
      ∃ p, s.pdr.walker.pause = some p ∧ p.ended = true ∧ p.way = r.way) →
    found = { s.atEvent with pdr := { s.pdr with walker := { s.pdr.walker with pause := none } } } →
    (∀ u, finished u = { u with pdr := { u.pdr with walker := { u.pdr.walker with
      visited := u.pdr.walker.visited ++ [r.way] } } }) →
    (∀ reason u, paused reason u = { u with pdr := { u.pdr with walker := { u.pdr.walker with
      pause := some ⟨r.way, reason, false⟩ } } }) →
    (s.walkCovers (lineOfTag r.tag i) = false → (∀ su, r.status ≠ .evicting su) →
      exec .walkerVisit s = .next (finished found)) ∧
    (s.walkCovers (lineOfTag r.tag i) = true → r.status = .shared → r.pending ≠ [] →
      exec .walkerVisit s = .next (paused .pending ({ found with pdr := { found.pdr with
        sets := s.pdr.sets.put i (older ++ { r with
          pending := r.pending.map fun p => { p with spoiled := true } } :: younger) } } : State))) ∧
    (s.walkCovers (lineOfTag r.tag i) = true → r.status = .shared → r.pending = [] →
      (∃ k, r.sharers.get k = true) →
      (16 ≤ s.ivt.entries.length → exec .walkerVisit s = .next (paused .noEntry found)) ∧
      (s.ivt.entries.length < 16 → ∃ t, exec .walkerVisit s = .next t ∧
        t = { found with
          rsa := s.rsa.lineTaken (lineOfTag r.tag i)
          ivt := { s.ivt with entries := s.ivt.entries ++
            [⟨lineOfTag r.tag i, .walk, r.sharers, MasterSet.empty, MasterSet.empty, MasterSet.empty⟩] }
          pdr := ⟨s.pdr.sets.put i (older ++ { r with status := .evicting none } :: younger),
            { s.pdr.walker with
              pause := none
              outstanding := s.pdr.walker.outstanding + 1
              visited := s.pdr.walker.visited ++ [r.way] }⟩ })) ∧
    (s.walkCovers (lineOfTag r.tag i) = true → r.status = .invalidating →
      exec .walkerVisit s = .next (paused .invalidating found)) ∧
    (r.status = .evicting none → exec .walkerVisit s = .next
      (if s.walkCovers (lineOfTag r.tag i) = true then paused .evicting found else finished found)) ∧
    (∀ su dropped, r.status = .evicting (some su) →
      dropped = (if s.walkCovers (lineOfTag su.tag i) = true then
        State.endWayWait .demoted su.claimants ({ found with pdr := { found.pdr with
          sets := s.pdr.sets.put i (older ++ { r with status := .evicting none } :: younger) } } : State)
        else found) →
      exec .walkerVisit s = .next
        (if s.walkCovers (lineOfTag r.tag i) = true then paused .evicting dropped
          else finished dropped))

/-- With no way left to visit the walker moves to the next set, and after set 1023 it drains; a draining walk with no
WALK entry outstanding ends, a retired entry becoming UNUSED (R124, R128). That a way found FREE after a pause is passed
over within the visit is the model's reading (log 11). Otherwise no visit is made (R127). -/
def Obligations.WalkMovesOnAndEnds : Prop :=
  (∀ (s : State) (i : Nat), s.pdr.walker.mode ≠ .idle → s.pdr.walker.draining = false →
    s.pdr.walker.set = some i → s.VisitsNextWay i →
    (∀ q ∈ s.pdr.sets.get i, q.way ∈ s.pdr.walker.visited) →
    (i < 1023 → exec .walkerVisit s = .next { s.atEvent with pdr := { s.pdr with
      walker := { s.pdr.walker with pause := none, set := some (i + 1), visited := [] } } }) ∧
    (1023 ≤ i → s.pdr.walker.outstanding ≠ 0 → exec .walkerVisit s = .next { s.atEvent with pdr := { s.pdr with
      walker := { s.pdr.walker with pause := none, set := none, visited := [], draining := true } } }) ∧
    (1023 ≤ i → s.pdr.walker.outstanding = 0 → s.pdr.walker.mode = .sweeping →
      exec .walkerVisit s = .next { s.atEvent with pdr := { s.pdr with walker := Walker.idle } }) ∧
    (∀ n : Fin 8, 1023 ≤ i → s.pdr.walker.outstanding = 0 → s.pdr.walker.mode = .retiring n →
      exec .walkerVisit s = .next { s.atEvent with
        pdr := { s.pdr with walker := Walker.idle }, rgt := s.rgt.set n none })) ∧
  ∀ s : State, (s.pdr.walker.mode = .idle ∨ s.pdr.walker.draining = true ∨
      ∃ p, s.pdr.walker.pause = some p ∧ p.ended = false) →
    exec .walkerVisit s = .next s.atEvent

/-- The events that end a pause (R127): for PENDING a pending item that left or a change of the record's state, for
INVALIDATING and EVICTING a change of its state, and for NO_ENTRY a change of its state or of its pending fills. A pause
that ends is marked, and the next visit clears it (log 22). -/
def Obligations.PausesEndByTheirEvents : Prop :=
  ∀ (before after ended : State) (p : Pause) (i : Nat) (b a : Option LineRecord),
    after.pdr.walker.pause = some p → after.pdr.walker.set = some i →
    b = before.pdr.sets.recordAt i p.way → a = after.pdr.sets.recordAt i p.way →
    ended = { after with pdr := { after.pdr with
      walker := { after.pdr.walker with pause := some { p with ended := true } } } } →
    (p.reason = .pending →
      (StateChanged b a ∨ ItemLeft b a → State.tellWalker before after = ended) ∧
      (¬ (StateChanged b a ∨ ItemLeft b a) → State.tellWalker before after = after)) ∧
    (p.reason = .invalidating ∨ p.reason = .evicting →
      (StateChanged b a → State.tellWalker before after = ended) ∧
      (¬ StateChanged b a → State.tellWalker before after = after)) ∧
    (p.reason = .noEntry →
      (StateChanged b a ∨ b.map LineRecord.pending ≠ a.map LineRecord.pending →
        State.tellWalker before after = ended) ∧
      (¬ (StateChanged b a ∨ b.map LineRecord.pending ≠ a.map LineRecord.pending) →
        State.tellWalker before after = after))

/-! ### The maintenance port (chapter 10) -/

/-- The events of a transaction (R177, R183, R184): a fall of SPI_CS_N begins one, the end of the response of a
TAKE-ERROR that returned a record removes the head, clearing the overflow flag with the last record, and the rise ends
the transaction. SPI_SDO carries 0x00 during the command frame, then the response, then 0x00 (R177). Each command taken is
answered with the response of its length, and one not answered OK changes nothing and is followed by zeros (R178).
Outside the command part of a transaction a command is not taken, and a line that is low does not fall (log 8). -/
def Obligations.TransactionRunsThroughItsEvents : Prop :=
  ∀ s : State,
    (s.pins.spiSelected = false → exec .spiSelect s = .next { s.atEvent with
      pins := { s.pins.quiet with spiSelected := true }, mnc := { s.mnc with port := .receiving } }) ∧
    (∀ command frame, s.mnc.port = .responding command frame false → exec .responseEnd s = .next { s.atEvent with
      mnc := { s.mnc with port := .ended } }) ∧
    (∀ command frame x rest, s.mnc.port = .responding command frame true → s.mnc.errors = x :: rest →
      exec .responseEnd s = .next { s.atEvent with mnc := { s.mnc with
        port := .ended, errors := rest, overflow := if rest = [] then false else s.mnc.overflow } }) ∧
    exec .deselect s = .next { s.atEvent with
      pins := { s.pins.quiet with spiSelected := false }, mnc := { s.mnc with port := .idle } } ∧
    (s.pins.spiSelected = true → exec .spiSelect s = .next s.atEvent) ∧
    ((∀ command frame returned, s.mnc.port ≠ .responding command frame returned) →
      exec .responseEnd s = .next s.atEvent) ∧
    (s.mnc.port ≠ .receiving → ∀ c : Instr,
      (c = .getStatus ∨ (∃ n, c = .getRegion n) ∨ (∃ n b p q, c = .setRegion n b p q) ∨ (∃ n, c = .retireRegion n) ∨
        c = .sweep ∨ (∃ i w, c = .getRecord i w) ∨ (∃ a b d, c = .setLimits a b d) ∨ (∃ n, c = .isolate n) ∨
        (∃ n, c = .join n) ∨ c = .takeError ∨ ∃ n, c = .unknownCommand n) →
      exec c s = .next s.atEvent) ∧
    (s.mnc.port = .receiving → ∀ (c : Instr) (code : Byte) (args : List Byte), c.wellFormed = true →
      commandFrame c = code :: args → ∃ t response returned, exec c s = .next t ∧
        t.mnc.port = .responding (code :: args) response returned ∧ response.length = responseLength code ∧
        (response[0]? ≠ some 0 → (∀ b ∈ response.tail, b = 0) ∧
          t = { s.atEvent with mnc := { s.mnc with port := .responding (code :: args) response returned } })) ∧
    (∀ k, (s.mnc.port = .receiving ∨ s.mnc.port = .ended → s.mnc.port.sdo k = some 0) ∧
      ∀ command response returned, s.mnc.port = .responding command response returned →
        (k < command.length → s.mnc.port.sdo k = some 0) ∧
        (k < response.length → s.mnc.port.sdo (command.length + k) = response[k]?) ∧
        (command.length + response.length ≤ k → s.mnc.port.sdo k = some 0))

/-- The commands that read the part answer with the bytes of their layout and change nothing else (R120, R178 to
R180, R183, section 10.2). -/
def Obligations.ReadingCommandsAnswerTheirFrames : Prop :=
  (attachCode .absent = 0 ∧ attachCode .online = 1 ∧ attachCode .isolated = 2 ∧ attachCode .inReset = 3) ∧
  (policyCode .tracked = 0 ∧ policyCode .uncached = 1 ∧ policyCode .device = 2) ∧
  (errorCode .writeParity = 1 ∧ errorCode .requestMalformed = 2 ∧ errorCode .memReadFail = 3 ∧
    errorCode .memWriteFail = 4 ∧ errorCode .invalidationTimeout = 5 ∧ errorCode .strayAck = 6 ∧
    errorCode .lockTimeout = 7 ∧ errorCode .lockBroken = 8) ∧
  ∀ (s : State) (answered : Instr → List Byte → Bool → State), s.mnc.port = .receiving →
    (∀ c frame returned, answered c frame returned =
      { s.atEvent with mnc := { s.mnc with port := .responding (commandFrame c) frame returned } }) →
    (∃ frame, exec .getStatus s = .next (answered .getStatus frame false) ∧ frame.length = 16 ∧ frame[0]? = some 0 ∧
      (∀ m : Master, frame[1 + m.number]? = some (attachCode (s.atEvent.mau.attach.get m))) ∧
      (s.bfe.lock = none → frame[5]? = some 0xFF ∧ (frame.drop 6).take 4 = [0, 0, 0, 0]) ∧
      (∀ k, s.bfe.lock = some k → frame[5]? = some (BitVec.ofNat 8 k.holder.number) ∧
        (frame.drop 6).take 4 = bytes4 (addrOfWord k.word)) ∧
      frame[10]? = some (BitVec.ofNat 8 s.pwq.length) ∧ frame[11]? = some (BitVec.ofNat 8 s.ivt.entries.length) ∧
      (s.pdr.walker.mode = .idle → frame[12]? = some 0 ∧ frame[13]? = some 0) ∧
      (∀ n : Fin 8, s.pdr.walker.mode = .retiring n → frame[12]? = some 1 ∧
        frame[13]? = some (BitVec.ofNat 8 n.val)) ∧
      (s.pdr.walker.mode = .sweeping → frame[12]? = some 2 ∧ frame[13]? = some 0) ∧
      frame[14]? = some (BitVec.ofNat 8 s.mnc.errors.length) ∧
      frame[15]? = some (if s.mnc.overflow then 1 else 0)) ∧
    (∀ n : Byte, 8 ≤ n.toNat →
      exec (.getRegion n) s = .next (answered (.getRegion n) (4 :: List.replicate 10 0) false)) ∧
    (∀ (n : Byte) (h : n.toNat < 8), s.rgt[n.toNat] = none →
      exec (.getRegion n) s = .next (answered (.getRegion n) (List.replicate 10 0 ++ [0xFF]) false)) ∧
    (∀ (n : Byte) (h : n.toNat < 8) (e : Region), s.rgt[n.toNat] = some e →
      exec (.getRegion n) s = .next (answered (.getRegion n) ([0, if e.state = .active then 1 else 2] ++ bytes4 e.base ++
        bytes4 (BitVec.ofNat 32 e.pages) ++ [policyCode e.policy]) false)) ∧
    (∀ (i : BitVec 16) (w : Byte), 1024 ≤ i.toNat ∨ 8 ≤ w.toNat →
      exec (.getRecord i w) s = .next (answered (.getRecord i w) (4 :: List.replicate 34 0) false)) ∧
    (∀ (i : BitVec 16) (w : Byte), i.toNat < 1024 → w.toNat < 8 →
      (∀ r ∈ s.pdr.sets.get i.toNat, r.way.val ≠ w.toNat) →
      exec (.getRecord i w) s = .next (answered (.getRecord i w) (recordFrame i.toNat none) false)) ∧
    (∀ (i : BitVec 16) (w : Byte) (older younger : DirectorySet) (r : LineRecord), i.toNat < 1024 →
      s.pdr.sets.get i.toNat = older ++ r :: younger → r.way.val = w.toNat → (∀ q ∈ older, q.way ≠ r.way) →
      exec (.getRecord i w) s = .next
        (answered (.getRecord i w) (recordFrame i.toNat (some (r, older.length + 1))) false)) ∧
    (s.mnc.errors = [] → exec .takeError s = .next (answered .takeError [0, 0, 0, 0xFF, 0, 0, 0, 0, 0] false)) ∧
    ∀ x rest, s.mnc.errors = x :: rest →
      exec .takeError s = .next (answered .takeError ([0, 1, errorCode x.kind, BitVec.ofNat 8 x.master.number] ++
        (match x.address with
          | some a => 1 :: bytes4 a
          | none => [0, 0, 0, 0, 0])) true)

/-- The bytes of the GET-RECORD response (R29, R180, section 10.2). -/
def Obligations.RecordFrameHasItsLayout : Prop :=
  (∀ set : Nat, recordFrame set none =
    [0, 0, 0, 0, 0, 0] ++ (0 :: List.replicate 4 0xFF) ++ (0 :: List.replicate 12 0xFF) ++ [0] ++
      ([0, 0, 0, 0, 0] ++ (0 :: List.replicate 4 0xFF))) ∧
  ∀ (set rank : Nat) (r : LineRecord) (frame : List Byte), frame = recordFrame set (some (r, rank)) →
    r.pending.length ≤ 4 → (∀ su, r.successor = some su → su.claimants.length ≤ 4) →
    frame.length = 35 ∧ frame[0]? = some 0 ∧
    (r.status = .shared → frame[1]? = some 1) ∧ (r.status = .invalidating → frame[1]? = some 2) ∧
    (∀ su, r.status = .evicting su → frame[1]? = some 3) ∧
    (frame.drop 2).take 4 = bytes4 (addrOfLine (lineOfTag r.tag set)) ∧
    frame[6]? = some (BitVec.ofNat 8 (Master.all.countP fun m => r.sharers.get m)) ∧
    (frame.drop 7).take 4 = (((Master.all.filter fun m => r.sharers.get m).map fun m => BitVec.ofNat 8 m.number) ++
      List.replicate (4 - Master.all.countP fun m => r.sharers.get m) 0xFF) ∧
    frame[11]? = some (BitVec.ofNat 8 r.pending.length) ∧
    (∀ k, k < 4 →
      (∀ p, r.pending[k]? = some p → (frame.drop (12 + 3 * k)).take 3 = [BitVec.ofNat 8 p.master.number,
        if p.phase = .waiting then 0 else 1, if p.spoiled = true then 1 else 0]) ∧
      (r.pending.length ≤ k → (frame.drop (12 + 3 * k)).take 3 = [0xFF, 0xFF, 0xFF])) ∧
    frame[24]? = some (BitVec.ofNat 8 rank) ∧
    (r.successor = none → frame.drop 25 = [0, 0, 0, 0, 0, 0, 0xFF, 0xFF, 0xFF, 0xFF]) ∧
    ∀ su, r.successor = some su → frame.drop 25 = 1 :: bytes4 (addrOfLine (lineOfTag su.tag set)) ++
      (BitVec.ofNat 8 su.claimants.length :: (su.claimants.map fun m => BitVec.ofNat 8 m.number) ++
        List.replicate (4 - su.claimants.length) 0xFF)

/-- SET-REGION makes its checks in their order and makes an UNUSED entry ACTIVE (R118). -/
def Obligations.SetRegionChecksInOrder : Prop :=
  ∀ (n : Byte) (base pages : BitVec 32) (policy : Byte) (s : State) (answered : Byte → State),
    s.mnc.port = .receiving →
    (∀ status, answered status = { s.atEvent with mnc := { s.mnc with
      port := .responding (commandFrame (.setRegion n base pages policy)) [status] false } }) →
    (8 ≤ n.toNat → exec (.setRegion n base pages policy) s = .next (answered 4)) ∧
    ∀ (h : n.toNat < 8) (inRange overlap : Prop),
      (inRange ↔ base.toNat % 4096 = 0 ∧ 1 ≤ pages.toNat ∧ pages.toNat ≤ 1048576 ∧
        base.toNat + pages.toNat * 4096 ≤ 4294967296 ∧ policy.toNat ≤ 2) →
      (overlap ↔ ∃ (k : Fin 8) (e : Region), s.rgt[k] = some e ∧
        base.toNat < e.base.toNat + e.pages * 4096 ∧ e.base.toNat < base.toNat + pages.toNat * 4096) →
      (s.rgt[n.toNat] ≠ none → exec (.setRegion n base pages policy) s = .next (answered 2)) ∧
      (s.rgt[n.toNat] = none → ¬ inRange → exec (.setRegion n base pages policy) s = .next (answered 4)) ∧
      (s.rgt[n.toNat] = none → inRange → overlap → exec (.setRegion n base pages policy) s = .next (answered 3)) ∧
      (s.rgt[n.toNat] = none → inRange → ¬ overlap →
        ∃ p, (p = .tracked ↔ policy = 0) ∧ (p = .uncached ↔ policy = 1) ∧ (p = .device ↔ policy = 2) ∧
          exec (.setRegion n base pages policy) s = .next { answered 0 with
            rgt := s.rgt.set n.toNat (some ⟨.active, base, pages.toNat, p⟩) })

/-- RETIRE-REGION and SWEEP make their checks in their order (R121, R122, R129): an UNCACHED or DEVICE entry becomes
UNUSED, a TRACKED one RETIRING with a walk started at set 0, and a sweep starts there as well. -/
def Obligations.WalksStartAtSetZero : Prop :=
  ∀ (n : Byte) (s : State) (answered : Instr → Byte → State), s.mnc.port = .receiving →
    (∀ c status, answered c status =
      { s.atEvent with mnc := { s.mnc with port := .responding (commandFrame c) [status] false } }) →
    (8 ≤ n.toNat → exec (.retireRegion n) s = .next (answered (.retireRegion n) 4)) ∧
    (n.toNat < 8 → s.pdr.walker.mode ≠ .idle → exec (.retireRegion n) s = .next (answered (.retireRegion n) 1)) ∧
    (∀ h : n.toNat < 8, s.pdr.walker.mode = .idle →
      ((∀ e, s.rgt[n.toNat] = some e → e.state ≠ .active) →
        exec (.retireRegion n) s = .next (answered (.retireRegion n) 2)) ∧
      (∀ e, s.rgt[n.toNat] = some e → e.state = .active → e.policy ≠ .tracked →
        exec (.retireRegion n) s = .next { answered (.retireRegion n) 0 with rgt := s.rgt.set n.toNat none }) ∧
      (∀ e, s.rgt[n.toNat] = some e → e.state = .active → e.policy = .tracked →
        exec (.retireRegion n) s = .next { answered (.retireRegion n) 0 with
          rgt := s.rgt.set n.toNat (some { e with state := .retiring })
          pdr := { s.pdr with walker := ⟨.retiring ⟨n.toNat, h⟩, some 0, [], none, 0, false⟩ } })) ∧
    (s.pdr.walker.mode ≠ .idle → exec .sweep s = .next (answered .sweep 1)) ∧
    (s.pdr.walker.mode = .idle → exec .sweep s = .next { answered .sweep 0 with
      pdr := { s.pdr with walker := ⟨.sweeping, some 0, [], none, 0, false⟩ } })

/-- SET-LIMITS takes all three limits together or none, and the HELD slots are brought into line with the new bypass
limit (R91, R181). Running deadlines are kept. -/
def Obligations.LimitsChangeTogether : Prop :=
  ∀ (invalidation lock : BitVec 16) (bypass : Byte) (s : State), s.mnc.port = .receiving →
    (64 ≤ invalidation.toNat ∧ 64 ≤ lock.toNat ∧ 1 ≤ bypass.toNat ∧ bypass.toNat ≤ 15 →
      exec (.setLimits invalidation lock bypass) s = .next { s.atEvent with
        rsa := s.rsa.refreshed s.pwq bypass.toNat
        mnc := { s.mnc with
          invalidationTimeout := invalidation.toNat
          lockTimeout := lock.toNat
          bypassLimit := bypass.toNat
          port := .responding (commandFrame (.setLimits invalidation lock bypass)) [0] false } }) ∧
    (¬ (64 ≤ invalidation.toNat ∧ 64 ≤ lock.toNat ∧ 1 ≤ bypass.toNat ∧ bypass.toNat ≤ 15) →
      exec (.setLimits invalidation lock bypass) s = .next { s.atEvent with
        mnc := { s.mnc with
          port := .responding (commandFrame (.setLimits invalidation lock bypass)) [4] false } })

/-- ISOLATE and JOIN check the number, then the master's state (R138, R139); a JOIN makes an ISOLATED master ONLINE and
changes no other state, and an ISOLATE that passes is the passage of R135 answered OK. A code that names no command is
answered BAD_ARG (R178). -/
def Obligations.IsolateAndJoinCheckTheMaster : Prop :=
  ∀ (n : Byte) (s : State) (answered : Instr → Byte → State), s.mnc.port = .receiving →
    (∀ c status, answered c status =
      { s.atEvent with mnc := { s.mnc with port := .responding (commandFrame c) [status] false } }) →
    (4 ≤ n.toNat → exec (.isolate n) s = .next (answered (.isolate n) 4) ∧
      exec (.join n) s = .next (answered (.join n) 4)) ∧
    (∀ m : Master, n.toNat = m.number →
      (s.atEvent.mau.attach.get m ≠ .online → exec (.isolate n) s = .next (answered (.isolate n) 2)) ∧
      (s.atEvent.mau.attach.get m = .online → ∃ t, exec (.isolate n) s = .next t ∧
        t.mnc = { s.mnc with port := .responding (commandFrame (.isolate n)) [0] false } ∧
        t.mau.attach = s.atEvent.mau.attach.set m .isolated) ∧
      (s.atEvent.mau.attach.get m ≠ .isolated → exec (.join n) s = .next (answered (.join n) 2)) ∧
      (s.atEvent.mau.attach.get m = .isolated → exec (.join n) s = .next { answered (.join n) 0 with
        mau := { s.atEvent.mau with attach := s.atEvent.mau.attach.set m .online } })) ∧
    (n.toNat = 0 ∨ 11 ≤ n.toNat → exec (.unknownCommand n) s =
      .next (answered (.unknownCommand n) 4))

/-- ALERT_N is asserted exactly while the error queue holds a record or some master is ISOLATED (R143, R185). -/
def Obligations.AlertFollowsItsTwoConditions : Prop :=
  ∀ s : State, s.alert = true ↔ s.mnc.errors ≠ [] ∨ ∃ m, s.mau.attach.get m = .isolated

/-! ### What every step keeps -/

/-- Every invariant below holds at reset. -/
def Obligations.ResetMeetsEveryInvariant : Prop :=
  MaintenanceSound State.reset ∧ QueuesSound State.reset ∧ ArbiterSound State.reset ∧ RegionsSound State.reset ∧
    DirectoryCanonical State.reset ∧ HoldersOnline State.reset ∧ WaitsFollowQueue State.reset ∧
    TrackerAgrees State.reset ∧ OneReplyEach State.reset

/-- The error queue, the limits and the port stay sound (R181 to R184); no two region entries ever cover a common address,
an entry being RETIRING exactly while the walker retires it (R116, R117, R122, R128); the queue and the in-flight list
stay within their bounds and in step (R75, R80, R89, R168); and the acceptance order and the retry preference list stay
as the slots and the grant have them (R57, R144, R159). -/
def Obligations.StepsKeepThePlainTablesSound : Prop :=
  ∀ s t : State, step s = .next t →
    (MaintenanceSound s → MaintenanceSound t) ∧ (RegionsSound s → RegionsSound t) ∧
    (QueuesSound s → QueuesSound t) ∧ (ArbiterSound s → ArbiterSound t)

/-- No line is ever recorded or named as a successor twice (R4, R5). -/
def Obligations.StepsKeepTheDirectoryCanonical : Prop :=
  ∀ s t : State, DirectoryCanonical s → step s = .next t → DirectoryCanonical t

/-- Every sharer, claimant and target stays an ONLINE master (R26, R32, R134), while the directory is canonical, as every
step keeps it. -/
def Obligations.StepsKeepHoldersOnline : Prop :=
  ∀ s t : State, DirectoryCanonical s → HoldersOnline s → step s = .next t → HoldersOnline t

/-- Every HELD slot's queue waits stay exactly their conditions, and no bypass count passes 15 (R59, R60, R91). -/
def Obligations.StepsKeepWaitsInLine : Prop :=
  ∀ s t : State, WaitsFollowQueue s → step s = .next t → WaitsFollowQueue t

/-- A record is INVALIDATING or EVICTING exactly when the tracker holds an entry for its line, and the lists and timers
agree with the entries (R6, R31, R41, R42, R45). -/
def Obligations.StepsKeepTrackerAndDirectoryAgreeing : Prop :=
  ∀ s t : State, TrackerAgrees s → step s = .next t → TrackerAgrees t

/-- Each request stands in one place from its acceptance to its one reply (R55, R154, R168). -/
def Obligations.StepsKeepOneReplyForEachRequest : Prop :=
  ∀ s t : State, OneReplyEach s → step s = .next t → OneReplyEach t
end

