-- ==== Sys2Proof/Laws/Directory.lean ====
section
/-! SUPPORT. The directory as a store of sets: reading after writing, and the canonical form that every operation
keeps. -/

namespace Sys2Proof.Machine

/-- Every listed set number is above a bound. -/
def Directory.Above (k : Nat) (d : Directory) : Prop := ∀ e ∈ d, k < e.1

theorem Directory.wf_cons_iff (k : Nat) (v : DirectorySet) (d : Directory) :
    Directory.wf ((k, v) :: d) = true ↔
      k < Config.directorySets ∧ v ≠ [] ∧ Directory.Above k d ∧ Directory.wf d = true := by
  simp [Directory.wf, Directory.Above, and_assoc]

theorem Directory.get_cons (k : Nat) (v : DirectorySet) (d : Directory) (i : Nat) :
    Directory.get ((k, v) :: d) i = if k = i then v else d.get i := rfl

theorem Directory.get_of_above {k : Nat} {d : Directory} (h : Directory.Above k d) {i : Nat} (hi : i ≤ k) :
    d.get i = [] := by
  induction d with
  | nil => rfl
  | cons e d ih =>
    obtain ⟨a, v⟩ := e
    have ha : k < a := h (a, v) (by simp)
    have hne : a ≠ i := by omega
    rw [Directory.get_cons, if_neg hne]
    exact ih fun e he => h e (by simp [he])

theorem Directory.get_put_self {d : Directory} (h : d.wf = true) (i : Nat) (v : DirectorySet) :
    (d.put i v).get i = v := by
  induction d with
  | nil =>
    by_cases hv : v.isEmpty = true
    · simp [Directory.put, Directory.get, List.isEmpty_iff.1 hv]
    · simp [Directory.put, Directory.get, hv]
  | cons e d ih =>
    obtain ⟨k, u⟩ := e
    obtain ⟨-, -, ha, hw⟩ := (Directory.wf_cons_iff k u d).1 h
    unfold Directory.put
    split
    · rename_i hlt
      have hne : k ≠ i := by omega
      split
      · rename_i hv
        rw [Directory.get_cons, if_neg hne, Directory.get_of_above ha (by omega), List.isEmpty_iff.1 hv]
      · simp [Directory.get]
    · split
      · rename_i heq
        split
        · rename_i hv
          rw [Directory.get_of_above ha (by omega), List.isEmpty_iff.1 hv]
        · simp [Directory.get]
      · rename_i hne
        rw [Directory.get_cons, if_neg fun he => hne he.symm]
        exact ih hw

theorem Directory.get_put_ne (d : Directory) {i j : Nat} (v : DirectorySet) (h : j ≠ i) :
    (d.put i v).get j = d.get j := by
  induction d with
  | nil =>
    unfold Directory.put
    split
    · rfl
    · exact if_neg fun he => h he.symm
  | cons e d ih =>
    obtain ⟨k, u⟩ := e
    unfold Directory.put
    split
    · split
      · rfl
      · rw [Directory.get_cons, if_neg fun he => h he.symm]
    · split
      · rename_i heq
        subst heq
        split
        · rw [Directory.get_cons, if_neg fun he => h he.symm]
        · rw [Directory.get_cons, if_neg fun he => h he.symm, Directory.get_cons, if_neg fun he => h he.symm]
      · rw [Directory.get_cons, Directory.get_cons]
        split
        · rfl
        · exact ih

theorem Directory.get_put {d : Directory} (h : d.wf = true) (i j : Nat) (v : DirectorySet) :
    (d.put i v).get j = if j = i then v else d.get j := by
  by_cases hj : j = i
  · subst hj
    rw [if_pos rfl, Directory.get_put_self h]
  · rw [if_neg hj, Directory.get_put_ne d v hj]

theorem Directory.above_put {d : Directory} {k i : Nat} {v : DirectorySet} (h : Directory.Above k d) (hi : k < i) :
    Directory.Above k (d.put i v) := by
  induction d with
  | nil =>
    unfold Directory.put
    split
    · exact h
    · intro e he
      simp only [List.mem_singleton] at he
      subst he
      exact hi
  | cons e d ih =>
    obtain ⟨a, u⟩ := e
    have ha : k < a := h (a, u) (by simp)
    have hd : Directory.Above k d := fun e he => h e (by simp [he])
    unfold Directory.put
    intro e he
    split at he
    · split at he
      · exact h e he
      · rcases List.mem_cons.1 he with rfl | he
        · exact hi
        · exact h e he
    · split at he
      · split at he
        · exact hd e he
        · rcases List.mem_cons.1 he with rfl | he
          · exact hi
          · exact hd e he
      · rcases List.mem_cons.1 he with rfl | he
        · exact ha
        · exact ih hd e he

/-- A set replaced keeps the canonical form. -/
theorem Directory.wf_put {d : Directory} (h : d.wf = true) {i : Nat} (hi : i < Config.directorySets)
    (v : DirectorySet) : (d.put i v).wf = true := by
  induction d with
  | nil =>
    unfold Directory.put
    split
    · rfl
    · rename_i hv
      rw [Directory.wf_cons_iff]
      exact ⟨hi, fun hn => hv (by simp [hn]), by simp [Directory.Above], rfl⟩
  | cons e d ih =>
    obtain ⟨k, u⟩ := e
    obtain ⟨hk, hu, ha, hw⟩ := (Directory.wf_cons_iff k u d).1 h
    unfold Directory.put
    split
    · rename_i hlt
      split
      · exact h
      · rename_i hv
        rw [Directory.wf_cons_iff]
        refine ⟨hi, fun hn => hv (by simp [hn]), ?_, h⟩
        intro e he
        rcases List.mem_cons.1 he with rfl | he
        · exact hlt
        · exact Nat.lt_trans hlt (ha e he)
    · split
      · rename_i heq
        subst heq
        split
        · exact hw
        · rename_i hv
          rw [Directory.wf_cons_iff]
          exact ⟨hi, fun hn => hv (by simp [hn]), ha, hw⟩
      · rw [Directory.wf_cons_iff]
        exact ⟨hk, hu, Directory.above_put ha (by omega), ih hw⟩

theorem Directory.above_mapRecords {f : LineRecord → Option LineRecord} {k : Nat} {d : Directory}
    (h : Directory.Above k d) : Directory.Above k (Directory.mapRecords f d) := by
  intro e he
  simp only [Directory.mapRecords, List.mem_filter, List.mem_map] at he
  obtain ⟨⟨a, ha, rfl⟩, -⟩ := he
  exact h a ha

theorem Directory.mapRecords_cons (f : LineRecord → Option LineRecord) (k : Nat) (v : DirectorySet) (d : Directory) :
    Directory.mapRecords f ((k, v) :: d) =
      if (v.filterMap f).isEmpty then Directory.mapRecords f d
      else (k, v.filterMap f) :: Directory.mapRecords f d := by
  unfold Directory.mapRecords
  rw [List.map_cons, List.filter_cons]
  by_cases h : (v.filterMap f).isEmpty = true <;> simp [h]

/-- Every record replaced or freed keeps the canonical form. -/
theorem Directory.wf_mapRecords (f : LineRecord → Option LineRecord) {d : Directory} (h : d.wf = true) :
    (Directory.mapRecords f d).wf = true := by
  induction d with
  | nil => rfl
  | cons e d ih =>
    obtain ⟨k, v⟩ := e
    obtain ⟨hk, -, ha, hw⟩ := (Directory.wf_cons_iff k v d).1 h
    rw [Directory.mapRecords_cons]
    split
    · exact ih hw
    · rename_i hv
      rw [Directory.wf_cons_iff]
      exact ⟨hk, fun hn => hv (by simp [hn]), Directory.above_mapRecords ha, ih hw⟩

theorem Directory.get_mapRecords (f : LineRecord → Option LineRecord) {d : Directory} (h : d.wf = true) (i : Nat) :
    (Directory.mapRecords f d).get i = (d.get i).filterMap f := by
  induction d with
  | nil => rfl
  | cons e d ih =>
    obtain ⟨k, v⟩ := e
    obtain ⟨-, -, ha, hw⟩ := (Directory.wf_cons_iff k v d).1 h
    rw [Directory.mapRecords_cons]
    by_cases hk : k = i
    · subst hk
      rw [Directory.get_cons, if_pos rfl]
      split
      · rename_i hv
        rw [Directory.get_of_above (Directory.above_mapRecords ha) (Nat.le_refl _), List.isEmpty_iff.1 hv]
      · rw [Directory.get_cons, if_pos rfl]
    · rw [Directory.get_cons, if_neg hk]
      split
      · exact ih hw
      · rw [Directory.get_cons, if_neg hk]
        exact ih hw

theorem Directory.wf_nil : Directory.wf [] = true := rfl

/-- A directory in canonical form is unchanged by writing a set as it stands. -/
theorem Directory.put_get_self {d : Directory} (h : d.wf = true) (i : Nat) : d.put i (d.get i) = d := by
  induction d with
  | nil => rfl
  | cons e d ih =>
    obtain ⟨k, v⟩ := e
    obtain ⟨-, hv, ha, hw⟩ := (Directory.wf_cons_iff k v d).1 h
    unfold Directory.put
    split
    · rename_i hlt
      have hg : Directory.get ((k, v) :: d) i = [] := by
        rw [Directory.get_cons, if_neg (by omega), Directory.get_of_above ha (by omega)]
      simp [hg]
    · split
      · rename_i heq
        subst heq
        have hg : Directory.get ((i, v) :: d) i = v := by simp [Directory.get]
        rw [hg, if_neg (by simpa [List.isEmpty_iff] using hv)]
      · rename_i hne
        rw [Directory.get_cons, if_neg fun he => hne he.symm, ih hw]

/-! ### The operations on State -/

@[simp] theorem State.setRecords_walker (i : Nat) (rs : DirectorySet) (s : State) :
    (s.setRecords i rs).pdr.walker = s.pdr.walker := rfl

theorem State.setRecords_get {s : State} (h : s.pdr.sets.wf = true) (i j : Nat) (rs : DirectorySet) :
    (s.setRecords i rs).pdr.sets.get j = if j = i then rs else s.pdr.sets.get j :=
  Directory.get_put h i j rs

theorem State.setRecords_wf {s : State} (h : s.pdr.sets.wf = true) {i : Nat} (hi : i < Config.directorySets)
    (rs : DirectorySet) : (s.setRecords i rs).pdr.sets.wf = true := Directory.wf_put h hi rs

theorem setOfLine_lt (l : LineAddr) : setOfLine l < Config.directorySets := (l.extractLsb' 0 10).isLt

@[simp] theorem setOfLine_lineOfTag (t : Tag) {i : Nat} (h : i < Config.directorySets) :
    setOfLine (lineOfTag t i) = i := by
  have hi : i < 1024 := h
  simp only [setOfLine, lineOfTag, BitVec.extractLsb'_toNat, BitVec.toNat_append, BitVec.toNat_ofNat]
  rw [Nat.shiftRight_zero, Nat.or_mod_two_pow, Nat.shiftLeft_eq]
  simp
  omega

@[simp] theorem tagOfLine_lineOfTag (t : Tag) (i : Nat) : tagOfLine (lineOfTag t i) = t := by
  apply BitVec.eq_of_getLsbD_eq
  intro k hk
  simp only [tagOfLine, lineOfTag, BitVec.getLsbD_extractLsb', BitVec.getLsbD_append]
  simp [hk]

/-- A line is named by its tag and its set (R1). -/
@[simp] theorem lineOfTag_tagOfLine (l : LineAddr) : lineOfTag (tagOfLine l) (setOfLine l) = l := by
  apply BitVec.eq_of_getLsbD_eq
  intro k hk
  simp only [tagOfLine, lineOfTag, setOfLine, BitVec.getLsbD_append, BitVec.ofNat_toNat, BitVec.getLsbD_extractLsb',
    BitVec.setWidth_eq]
  by_cases h : k < 10
  · simp [h]
  · have : k - 10 < 17 := by omega
    simp [h, this, show 10 + (k - 10) = k by omega]

theorem State.updateRecord_get {s : State} (h : s.pdr.sets.wf = true) (l : LineAddr)
    (f : LineRecord → Option LineRecord) (j : Nat) :
    (s.updateRecord l f).pdr.sets.get j =
      if j = setOfLine l then DirectorySet.update (s.pdr.sets.get j) (tagOfLine l) f else s.pdr.sets.get j := by
  unfold State.updateRecord
  rw [State.setRecords_get h]
  split
  · rename_i hj
    rw [hj]
  · rfl

theorem State.updateRecord_wf {s : State} (h : s.pdr.sets.wf = true) (l : LineAddr)
    (f : LineRecord → Option LineRecord) : (s.updateRecord l f).pdr.sets.wf = true :=
  State.setRecords_wf h (setOfLine_lt l) _

theorem State.changeNothing_updateRecord {s : State} (h : s.pdr.sets.wf = true) (l : LineAddr) :
    s.updateRecord l some = s := by
  have hu : DirectorySet.update (s.pdr.sets.get (setOfLine l)) (tagOfLine l) some =
      s.pdr.sets.get (setOfLine l) := by
    unfold DirectorySet.update
    rw [show (fun r : LineRecord => if r.tag = tagOfLine l then some r else some r) = some from
      funext fun r => ite_self _]
    exact List.filterMap_some
  unfold State.updateRecord State.setRecords
  rw [hu, Directory.put_get_self h]
  rfl

end Sys2Proof.Machine
end

