-- ==== Sys2Proof/Laws/State.lean ====
section
/-! SUPPORT. Reading one block after another was replaced, and reading what is held once for each master. -/

namespace Sys2Proof

/-! ### One value for each master -/

theorem PerMaster.ext_get {α : Type} {p q : PerMaster α} (h : ∀ m, p.get m = q.get m) : p = q := by
  have h0 : p.m0 = q.m0 := h .m0
  have h1 : p.m1 = q.m1 := h .m1
  have h2 : p.m2 = q.m2 := h .m2
  have h3 : p.m3 = q.m3 := h .m3
  cases p
  cases q
  simp_all

@[simp] theorem PerMaster.get_of {α : Type} (f : Master → α) (m : Master) : (PerMaster.of f).get m = f m := by
  cases m <;> rfl

@[simp] theorem PerMaster.get_set_self {α : Type} (p : PerMaster α) (m : Master) (x : α) : (p.set m x).get m = x := by
  cases m <;> rfl

theorem PerMaster.get_set_ne {α : Type} (p : PerMaster α) {m k : Master} (x : α) (h : k ≠ m) :
    (p.set m x).get k = p.get k := by
  cases m <;> cases k <;> first | rfl | exact absurd rfl h

theorem PerMaster.get_set {α : Type} (p : PerMaster α) (m k : Master) (x : α) :
    (p.set m x).get k = if k = m then x else p.get k := by
  by_cases h : k = m
  · subst h
    simp
  · rw [PerMaster.get_set_ne p x h, if_neg h]

@[simp] theorem Master.mem_all (m : Master) : m ∈ Master.all := by cases m <;> decide

/-! ### Master sets -/

@[simp] theorem MasterSet.get_empty (m : Master) : MasterSet.empty.get m = false := by cases m <;> rfl

theorem MasterSet.get_single (m k : Master) : (MasterSet.single m).get k = (k == m) := PerMaster.get_of _ k

theorem MasterSet.get_insert (x : MasterSet) (m k : Master) : (x.insert m).get k = if k = m then true else x.get k :=
  PerMaster.get_set x m k true

theorem MasterSet.get_erase (x : MasterSet) (m k : Master) : (x.erase m).get k = if k = m then false else x.get k :=
  PerMaster.get_set x m k false

@[simp] theorem MasterSet.get_union (x y : MasterSet) (m : Master) :
    (MasterSet.union x y).get m = (x.get m || y.get m) := PerMaster.get_of _ m

@[simp] theorem MasterSet.get_diff (x y : MasterSet) (m : Master) :
    (MasterSet.diff x y).get m = (x.get m && !y.get m) := PerMaster.get_of _ m

theorem MasterSet.isEmpty_iff (x : MasterSet) : x.isEmpty = true ↔ ∀ m, x.get m = false := by
  constructor
  · intro h m
    simp only [MasterSet.isEmpty, Bool.and_eq_true, Bool.not_eq_true'] at h
    cases m
    · exact h.1.1.1
    · exact h.1.1.2
    · exact h.1.2
    · exact h.2
  · intro h
    have h0 : x.m0 = false := h .m0
    have h1 : x.m1 = false := h .m1
    have h2 : x.m2 = false := h .m2
    have h3 : x.m3 = false := h .m3
    simp [MasterSet.isEmpty, h0, h1, h2, h3]

@[simp] theorem MasterSet.mem_toList (x : MasterSet) (m : Master) : m ∈ x.toList ↔ x.get m = true := by
  simp [MasterSet.toList]

end Sys2Proof

namespace Sys2Proof.Machine

/-! ### Each block after each replacement -/

@[simp] theorem State.withBfe_bfe (s : State) (x : Bfe) : (s.withBfe x).bfe = x := rfl
@[simp] theorem State.withBfe_rsa (s : State) (x : Bfe) : (s.withBfe x).rsa = s.rsa := rfl
@[simp] theorem State.withBfe_rgt (s : State) (x : Bfe) : (s.withBfe x).rgt = s.rgt := rfl
@[simp] theorem State.withBfe_pdr (s : State) (x : Bfe) : (s.withBfe x).pdr = s.pdr := rfl
@[simp] theorem State.withBfe_ivt (s : State) (x : Bfe) : (s.withBfe x).ivt = s.ivt := rfl
@[simp] theorem State.withBfe_pwq (s : State) (x : Bfe) : (s.withBfe x).pwq = s.pwq := rfl
@[simp] theorem State.withBfe_mlc (s : State) (x : Bfe) : (s.withBfe x).mlc = s.mlc := rfl
@[simp] theorem State.withBfe_mau (s : State) (x : Bfe) : (s.withBfe x).mau = s.mau := rfl
@[simp] theorem State.withBfe_mnc (s : State) (x : Bfe) : (s.withBfe x).mnc = s.mnc := rfl
@[simp] theorem State.withBfe_pins (s : State) (x : Bfe) : (s.withBfe x).pins = s.pins := rfl
@[simp] theorem State.withBfe_clk (s : State) (x : Bfe) : (s.withBfe x).clk = s.clk := rfl
@[simp] theorem State.withBfe_pending (s : State) (x : Bfe) : (s.withBfe x).pending = s.pending := rfl

@[simp] theorem State.withRsa_bfe (s : State) (x : Rsa) : (s.withRsa x).bfe = s.bfe := rfl
@[simp] theorem State.withRsa_rsa (s : State) (x : Rsa) : (s.withRsa x).rsa = x := rfl
@[simp] theorem State.withRsa_rgt (s : State) (x : Rsa) : (s.withRsa x).rgt = s.rgt := rfl
@[simp] theorem State.withRsa_pdr (s : State) (x : Rsa) : (s.withRsa x).pdr = s.pdr := rfl
@[simp] theorem State.withRsa_ivt (s : State) (x : Rsa) : (s.withRsa x).ivt = s.ivt := rfl
@[simp] theorem State.withRsa_pwq (s : State) (x : Rsa) : (s.withRsa x).pwq = s.pwq := rfl
@[simp] theorem State.withRsa_mlc (s : State) (x : Rsa) : (s.withRsa x).mlc = s.mlc := rfl
@[simp] theorem State.withRsa_mau (s : State) (x : Rsa) : (s.withRsa x).mau = s.mau := rfl
@[simp] theorem State.withRsa_mnc (s : State) (x : Rsa) : (s.withRsa x).mnc = s.mnc := rfl
@[simp] theorem State.withRsa_pins (s : State) (x : Rsa) : (s.withRsa x).pins = s.pins := rfl
@[simp] theorem State.withRsa_clk (s : State) (x : Rsa) : (s.withRsa x).clk = s.clk := rfl
@[simp] theorem State.withRsa_pending (s : State) (x : Rsa) : (s.withRsa x).pending = s.pending := rfl

@[simp] theorem State.withRgt_bfe (s : State) (x : RegionTable) : (s.withRgt x).bfe = s.bfe := rfl
@[simp] theorem State.withRgt_rsa (s : State) (x : RegionTable) : (s.withRgt x).rsa = s.rsa := rfl
@[simp] theorem State.withRgt_rgt (s : State) (x : RegionTable) : (s.withRgt x).rgt = x := rfl
@[simp] theorem State.withRgt_pdr (s : State) (x : RegionTable) : (s.withRgt x).pdr = s.pdr := rfl
@[simp] theorem State.withRgt_ivt (s : State) (x : RegionTable) : (s.withRgt x).ivt = s.ivt := rfl
@[simp] theorem State.withRgt_pwq (s : State) (x : RegionTable) : (s.withRgt x).pwq = s.pwq := rfl
@[simp] theorem State.withRgt_mlc (s : State) (x : RegionTable) : (s.withRgt x).mlc = s.mlc := rfl
@[simp] theorem State.withRgt_mau (s : State) (x : RegionTable) : (s.withRgt x).mau = s.mau := rfl
@[simp] theorem State.withRgt_mnc (s : State) (x : RegionTable) : (s.withRgt x).mnc = s.mnc := rfl
@[simp] theorem State.withRgt_pins (s : State) (x : RegionTable) : (s.withRgt x).pins = s.pins := rfl
@[simp] theorem State.withRgt_clk (s : State) (x : RegionTable) : (s.withRgt x).clk = s.clk := rfl
@[simp] theorem State.withRgt_pending (s : State) (x : RegionTable) : (s.withRgt x).pending = s.pending := rfl

@[simp] theorem State.withPdr_bfe (s : State) (x : Pdr) : (s.withPdr x).bfe = s.bfe := rfl
@[simp] theorem State.withPdr_rsa (s : State) (x : Pdr) : (s.withPdr x).rsa = s.rsa := rfl
@[simp] theorem State.withPdr_rgt (s : State) (x : Pdr) : (s.withPdr x).rgt = s.rgt := rfl
@[simp] theorem State.withPdr_pdr (s : State) (x : Pdr) : (s.withPdr x).pdr = x := rfl
@[simp] theorem State.withPdr_ivt (s : State) (x : Pdr) : (s.withPdr x).ivt = s.ivt := rfl
@[simp] theorem State.withPdr_pwq (s : State) (x : Pdr) : (s.withPdr x).pwq = s.pwq := rfl
@[simp] theorem State.withPdr_mlc (s : State) (x : Pdr) : (s.withPdr x).mlc = s.mlc := rfl
@[simp] theorem State.withPdr_mau (s : State) (x : Pdr) : (s.withPdr x).mau = s.mau := rfl
@[simp] theorem State.withPdr_mnc (s : State) (x : Pdr) : (s.withPdr x).mnc = s.mnc := rfl
@[simp] theorem State.withPdr_pins (s : State) (x : Pdr) : (s.withPdr x).pins = s.pins := rfl
@[simp] theorem State.withPdr_clk (s : State) (x : Pdr) : (s.withPdr x).clk = s.clk := rfl
@[simp] theorem State.withPdr_pending (s : State) (x : Pdr) : (s.withPdr x).pending = s.pending := rfl

@[simp] theorem State.withIvt_bfe (s : State) (x : Ivt) : (s.withIvt x).bfe = s.bfe := rfl
@[simp] theorem State.withIvt_rsa (s : State) (x : Ivt) : (s.withIvt x).rsa = s.rsa := rfl
@[simp] theorem State.withIvt_rgt (s : State) (x : Ivt) : (s.withIvt x).rgt = s.rgt := rfl
@[simp] theorem State.withIvt_pdr (s : State) (x : Ivt) : (s.withIvt x).pdr = s.pdr := rfl
@[simp] theorem State.withIvt_ivt (s : State) (x : Ivt) : (s.withIvt x).ivt = x := rfl
@[simp] theorem State.withIvt_pwq (s : State) (x : Ivt) : (s.withIvt x).pwq = s.pwq := rfl
@[simp] theorem State.withIvt_mlc (s : State) (x : Ivt) : (s.withIvt x).mlc = s.mlc := rfl
@[simp] theorem State.withIvt_mau (s : State) (x : Ivt) : (s.withIvt x).mau = s.mau := rfl
@[simp] theorem State.withIvt_mnc (s : State) (x : Ivt) : (s.withIvt x).mnc = s.mnc := rfl
@[simp] theorem State.withIvt_pins (s : State) (x : Ivt) : (s.withIvt x).pins = s.pins := rfl
@[simp] theorem State.withIvt_clk (s : State) (x : Ivt) : (s.withIvt x).clk = s.clk := rfl
@[simp] theorem State.withIvt_pending (s : State) (x : Ivt) : (s.withIvt x).pending = s.pending := rfl

@[simp] theorem State.withPwq_bfe (s : State) (x : List QueueEntry) : (s.withPwq x).bfe = s.bfe := rfl
@[simp] theorem State.withPwq_rsa (s : State) (x : List QueueEntry) : (s.withPwq x).rsa = s.rsa := rfl
@[simp] theorem State.withPwq_rgt (s : State) (x : List QueueEntry) : (s.withPwq x).rgt = s.rgt := rfl
@[simp] theorem State.withPwq_pdr (s : State) (x : List QueueEntry) : (s.withPwq x).pdr = s.pdr := rfl
@[simp] theorem State.withPwq_ivt (s : State) (x : List QueueEntry) : (s.withPwq x).ivt = s.ivt := rfl
@[simp] theorem State.withPwq_pwq (s : State) (x : List QueueEntry) : (s.withPwq x).pwq = x := rfl
@[simp] theorem State.withPwq_mlc (s : State) (x : List QueueEntry) : (s.withPwq x).mlc = s.mlc := rfl
@[simp] theorem State.withPwq_mau (s : State) (x : List QueueEntry) : (s.withPwq x).mau = s.mau := rfl
@[simp] theorem State.withPwq_mnc (s : State) (x : List QueueEntry) : (s.withPwq x).mnc = s.mnc := rfl
@[simp] theorem State.withPwq_pins (s : State) (x : List QueueEntry) : (s.withPwq x).pins = s.pins := rfl
@[simp] theorem State.withPwq_clk (s : State) (x : List QueueEntry) : (s.withPwq x).clk = s.clk := rfl
@[simp] theorem State.withPwq_pending (s : State) (x : List QueueEntry) : (s.withPwq x).pending = s.pending := rfl

@[simp] theorem State.withMlc_bfe (s : State) (x : Mlc) : (s.withMlc x).bfe = s.bfe := rfl
@[simp] theorem State.withMlc_rsa (s : State) (x : Mlc) : (s.withMlc x).rsa = s.rsa := rfl
@[simp] theorem State.withMlc_rgt (s : State) (x : Mlc) : (s.withMlc x).rgt = s.rgt := rfl
@[simp] theorem State.withMlc_pdr (s : State) (x : Mlc) : (s.withMlc x).pdr = s.pdr := rfl
@[simp] theorem State.withMlc_ivt (s : State) (x : Mlc) : (s.withMlc x).ivt = s.ivt := rfl
@[simp] theorem State.withMlc_pwq (s : State) (x : Mlc) : (s.withMlc x).pwq = s.pwq := rfl
@[simp] theorem State.withMlc_mlc (s : State) (x : Mlc) : (s.withMlc x).mlc = x := rfl
@[simp] theorem State.withMlc_mau (s : State) (x : Mlc) : (s.withMlc x).mau = s.mau := rfl
@[simp] theorem State.withMlc_mnc (s : State) (x : Mlc) : (s.withMlc x).mnc = s.mnc := rfl
@[simp] theorem State.withMlc_pins (s : State) (x : Mlc) : (s.withMlc x).pins = s.pins := rfl
@[simp] theorem State.withMlc_clk (s : State) (x : Mlc) : (s.withMlc x).clk = s.clk := rfl
@[simp] theorem State.withMlc_pending (s : State) (x : Mlc) : (s.withMlc x).pending = s.pending := rfl

@[simp] theorem State.withMau_bfe (s : State) (x : Mau) : (s.withMau x).bfe = s.bfe := rfl
@[simp] theorem State.withMau_rsa (s : State) (x : Mau) : (s.withMau x).rsa = s.rsa := rfl
@[simp] theorem State.withMau_rgt (s : State) (x : Mau) : (s.withMau x).rgt = s.rgt := rfl
@[simp] theorem State.withMau_pdr (s : State) (x : Mau) : (s.withMau x).pdr = s.pdr := rfl
@[simp] theorem State.withMau_ivt (s : State) (x : Mau) : (s.withMau x).ivt = s.ivt := rfl
@[simp] theorem State.withMau_pwq (s : State) (x : Mau) : (s.withMau x).pwq = s.pwq := rfl
@[simp] theorem State.withMau_mlc (s : State) (x : Mau) : (s.withMau x).mlc = s.mlc := rfl
@[simp] theorem State.withMau_mau (s : State) (x : Mau) : (s.withMau x).mau = x := rfl
@[simp] theorem State.withMau_mnc (s : State) (x : Mau) : (s.withMau x).mnc = s.mnc := rfl
@[simp] theorem State.withMau_pins (s : State) (x : Mau) : (s.withMau x).pins = s.pins := rfl
@[simp] theorem State.withMau_clk (s : State) (x : Mau) : (s.withMau x).clk = s.clk := rfl
@[simp] theorem State.withMau_pending (s : State) (x : Mau) : (s.withMau x).pending = s.pending := rfl

@[simp] theorem State.withMnc_bfe (s : State) (x : Mnc) : (s.withMnc x).bfe = s.bfe := rfl
@[simp] theorem State.withMnc_rsa (s : State) (x : Mnc) : (s.withMnc x).rsa = s.rsa := rfl
@[simp] theorem State.withMnc_rgt (s : State) (x : Mnc) : (s.withMnc x).rgt = s.rgt := rfl
@[simp] theorem State.withMnc_pdr (s : State) (x : Mnc) : (s.withMnc x).pdr = s.pdr := rfl
@[simp] theorem State.withMnc_ivt (s : State) (x : Mnc) : (s.withMnc x).ivt = s.ivt := rfl
@[simp] theorem State.withMnc_pwq (s : State) (x : Mnc) : (s.withMnc x).pwq = s.pwq := rfl
@[simp] theorem State.withMnc_mlc (s : State) (x : Mnc) : (s.withMnc x).mlc = s.mlc := rfl
@[simp] theorem State.withMnc_mau (s : State) (x : Mnc) : (s.withMnc x).mau = s.mau := rfl
@[simp] theorem State.withMnc_mnc (s : State) (x : Mnc) : (s.withMnc x).mnc = x := rfl
@[simp] theorem State.withMnc_pins (s : State) (x : Mnc) : (s.withMnc x).pins = s.pins := rfl
@[simp] theorem State.withMnc_clk (s : State) (x : Mnc) : (s.withMnc x).clk = s.clk := rfl
@[simp] theorem State.withMnc_pending (s : State) (x : Mnc) : (s.withMnc x).pending = s.pending := rfl

@[simp] theorem State.withPins_bfe (s : State) (x : Pins) : (s.withPins x).bfe = s.bfe := rfl
@[simp] theorem State.withPins_rsa (s : State) (x : Pins) : (s.withPins x).rsa = s.rsa := rfl
@[simp] theorem State.withPins_rgt (s : State) (x : Pins) : (s.withPins x).rgt = s.rgt := rfl
@[simp] theorem State.withPins_pdr (s : State) (x : Pins) : (s.withPins x).pdr = s.pdr := rfl
@[simp] theorem State.withPins_ivt (s : State) (x : Pins) : (s.withPins x).ivt = s.ivt := rfl
@[simp] theorem State.withPins_pwq (s : State) (x : Pins) : (s.withPins x).pwq = s.pwq := rfl
@[simp] theorem State.withPins_mlc (s : State) (x : Pins) : (s.withPins x).mlc = s.mlc := rfl
@[simp] theorem State.withPins_mau (s : State) (x : Pins) : (s.withPins x).mau = s.mau := rfl
@[simp] theorem State.withPins_mnc (s : State) (x : Pins) : (s.withPins x).mnc = s.mnc := rfl
@[simp] theorem State.withPins_pins (s : State) (x : Pins) : (s.withPins x).pins = x := rfl
@[simp] theorem State.withPins_clk (s : State) (x : Pins) : (s.withPins x).clk = s.clk := rfl
@[simp] theorem State.withPins_pending (s : State) (x : Pins) : (s.withPins x).pending = s.pending := rfl

@[simp] theorem State.withClk_bfe (s : State) (x : Nat) : (s.withClk x).bfe = s.bfe := rfl
@[simp] theorem State.withClk_rsa (s : State) (x : Nat) : (s.withClk x).rsa = s.rsa := rfl
@[simp] theorem State.withClk_rgt (s : State) (x : Nat) : (s.withClk x).rgt = s.rgt := rfl
@[simp] theorem State.withClk_pdr (s : State) (x : Nat) : (s.withClk x).pdr = s.pdr := rfl
@[simp] theorem State.withClk_ivt (s : State) (x : Nat) : (s.withClk x).ivt = s.ivt := rfl
@[simp] theorem State.withClk_pwq (s : State) (x : Nat) : (s.withClk x).pwq = s.pwq := rfl
@[simp] theorem State.withClk_mlc (s : State) (x : Nat) : (s.withClk x).mlc = s.mlc := rfl
@[simp] theorem State.withClk_mau (s : State) (x : Nat) : (s.withClk x).mau = s.mau := rfl
@[simp] theorem State.withClk_mnc (s : State) (x : Nat) : (s.withClk x).mnc = s.mnc := rfl
@[simp] theorem State.withClk_pins (s : State) (x : Nat) : (s.withClk x).pins = s.pins := rfl
@[simp] theorem State.withClk_clk (s : State) (x : Nat) : (s.withClk x).clk = x := rfl
@[simp] theorem State.withClk_pending (s : State) (x : Nat) : (s.withClk x).pending = s.pending := rfl

@[simp] theorem State.withPending_bfe (s : State) (x : List Instr) : (s.withPending x).bfe = s.bfe := rfl
@[simp] theorem State.withPending_rsa (s : State) (x : List Instr) : (s.withPending x).rsa = s.rsa := rfl
@[simp] theorem State.withPending_rgt (s : State) (x : List Instr) : (s.withPending x).rgt = s.rgt := rfl
@[simp] theorem State.withPending_pdr (s : State) (x : List Instr) : (s.withPending x).pdr = s.pdr := rfl
@[simp] theorem State.withPending_ivt (s : State) (x : List Instr) : (s.withPending x).ivt = s.ivt := rfl
@[simp] theorem State.withPending_pwq (s : State) (x : List Instr) : (s.withPending x).pwq = s.pwq := rfl
@[simp] theorem State.withPending_mlc (s : State) (x : List Instr) : (s.withPending x).mlc = s.mlc := rfl
@[simp] theorem State.withPending_mau (s : State) (x : List Instr) : (s.withPending x).mau = s.mau := rfl
@[simp] theorem State.withPending_mnc (s : State) (x : List Instr) : (s.withPending x).mnc = s.mnc := rfl
@[simp] theorem State.withPending_pins (s : State) (x : List Instr) : (s.withPending x).pins = s.pins := rfl
@[simp] theorem State.withPending_clk (s : State) (x : List Instr) : (s.withPending x).clk = s.clk := rfl
@[simp] theorem State.withPending_pending (s : State) (x : List Instr) : (s.withPending x).pending = x := rfl

/-! ### The same block replaced twice -/

@[simp] theorem State.withBfe_withBfe (s : State) (x y : Bfe) : (s.withBfe x).withBfe y = s.withBfe y := rfl
@[simp] theorem State.withRsa_withRsa (s : State) (x y : Rsa) : (s.withRsa x).withRsa y = s.withRsa y := rfl
@[simp] theorem State.withRgt_withRgt (s : State) (x y : RegionTable) : (s.withRgt x).withRgt y = s.withRgt y := rfl
@[simp] theorem State.withPdr_withPdr (s : State) (x y : Pdr) : (s.withPdr x).withPdr y = s.withPdr y := rfl
@[simp] theorem State.withIvt_withIvt (s : State) (x y : Ivt) : (s.withIvt x).withIvt y = s.withIvt y := rfl
@[simp] theorem State.withPwq_withPwq (s : State) (x y : List QueueEntry) : (s.withPwq x).withPwq y = s.withPwq y := rfl
@[simp] theorem State.withMlc_withMlc (s : State) (x y : Mlc) : (s.withMlc x).withMlc y = s.withMlc y := rfl
@[simp] theorem State.withMau_withMau (s : State) (x y : Mau) : (s.withMau x).withMau y = s.withMau y := rfl
@[simp] theorem State.withMnc_withMnc (s : State) (x y : Mnc) : (s.withMnc x).withMnc y = s.withMnc y := rfl
@[simp] theorem State.withPins_withPins (s : State) (x y : Pins) : (s.withPins x).withPins y = s.withPins y := rfl
@[simp] theorem State.withClk_withClk (s : State) (x y : Nat) : (s.withClk x).withClk y = s.withClk y := rfl
@[simp] theorem State.withPending_withPending (s : State) (x y : List Instr) : (s.withPending x).withPending y = s.withPending y := rfl

end Sys2Proof.Machine
end

