-- ==== Sys2Proof/Laws/Ops.lean ====
section
/-! SUPPORT. What each shared operation leaves as it was: for every operation one statement that names the blocks it
does not touch, and for those that answer a value what that value is. -/

namespace Sys2Proof.Machine

/-- An operation repeated over a list leaves as it was whatever one application leaves as it was. -/
theorem foldl_keeps {α β γ : Type} (f : β → α → β) (g : β → γ) (h : ∀ b a, g (f b a) = g b) (l : List α) (b : β) :
    g (l.foldl f b) = g b := by
  induction l generalizing b with
  | nil => rfl
  | cons a l ih => rw [List.foldl_cons, ih, h]

/-- A predicate that every application keeps holds at the end. -/
theorem foldl_holds {α β : Type} (f : β → α → β) (P : β → Prop) (h : ∀ b a, P b → P (f b a)) (l : List α) (b : β)
    (hb : P b) : P (l.foldl f b) := by
  induction l generalizing b with
  | nil => exact hb
  | cons a l ih => exact ih _ (h b a hb)

/-- The blocks of two states agree but for the directory, the tracker, the slots, the region table and the BFE. -/
def State.SameOutside (s t : State) : Prop :=
  t.pwq = s.pwq ∧ t.mlc = s.mlc ∧ t.mau = s.mau ∧ t.mnc = s.mnc ∧ t.pins = s.pins ∧ t.clk = s.clk ∧
    t.pending = s.pending

/-! ### The start of an event -/

@[simp] theorem State.atEvent_frame (s : State) :
    (s.atEvent).bfe = s.bfe ∧ (s.atEvent).rsa = s.rsa ∧ (s.atEvent).rgt = s.rgt ∧ (s.atEvent).pdr = s.pdr ∧
      (s.atEvent).ivt = s.ivt ∧ (s.atEvent).pwq = s.pwq ∧ (s.atEvent).mlc = s.mlc ∧ (s.atEvent).mnc = s.mnc ∧
      (s.atEvent).clk = s.clk ∧ (s.atEvent).pending = s.pending ∧ s.atEvent.mau.writeFailed = s.mau.writeFailed ∧
      s.atEvent.mau.resetNotice = s.mau.resetNotice ∧ s.atEvent.pins.sreq = s.pins.sreq ∧
      s.atEvent.pins.mrdy = s.pins.mrdy ∧ s.atEvent.pins.spiSelected = s.pins.spiSelected := by
  exact ⟨rfl, rfl, rfl, rfl, rfl, rfl, rfl, rfl, rfl, rfl, rfl, rfl, rfl, rfl, rfl⟩

theorem State.atEvent_attach (s : State) (m : Master) :
    s.atEvent.mau.attach.get m =
      if s.mau.resetNotice.get m = true ∧ s.mau.attach.get m = .online then .inReset else s.mau.attach.get m := by
  simp [State.atEvent, Mau.takeStandingNotices]

/-- At an event no ONLINE master's notice stands. -/
theorem State.atEvent_online {s : State} {m : Master} (h : s.atEvent.mau.attach.get m = .online) :
    s.mau.attach.get m = .online ∧ s.mau.resetNotice.get m = false := by
  rw [State.atEvent_attach] at h
  split at h
  · exact absurd h (by decide)
  · rename_i hn
    refine ⟨h, ?_⟩
    cases hr : s.mau.resetNotice.get m
    · rfl
    · exact absurd ⟨hr, h⟩ hn

@[simp] theorem State.atEvent_atEvent (s : State) : s.atEvent.atEvent = s.atEvent := by
  have hm : s.atEvent.mau.takeStandingNotices = s.atEvent.mau := by
    have hg : ∀ m, s.atEvent.mau.takeStandingNotices.attach.get m = s.atEvent.mau.attach.get m := by
      intro m
      simp only [Mau.takeStandingNotices, PerMaster.get_of]
      split
      · rename_i h
        simp only [Bool.and_eq_true, beq_iff_eq] at h
        have h1 : s.mau.resetNotice.get m = true := h.1
        have h2 := (State.atEvent_online h.2).2
        rw [h1] at h2
        exact absurd h2 (by decide)
      · rfl
    have ha := PerMaster.ext_get hg
    calc s.atEvent.mau.takeStandingNotices
        = { s.atEvent.mau with attach := s.atEvent.mau.takeStandingNotices.attach } := rfl
      _ = s.atEvent.mau := by rw [ha]
  calc s.atEvent.atEvent = (s.atEvent.withPins s.atEvent.pins.quiet).withMau s.atEvent.mau.takeStandingNotices := rfl
    _ = (s.atEvent.withPins s.atEvent.pins.quiet).withMau s.atEvent.mau := by rw [hm]
    _ = s.atEvent := rfl

/-! ### Error records and slots -/

@[simp] theorem State.pushError_frame (kind : ErrorKind) (m : Master) (a : Option Addr) (s : State) :
    (s.pushError kind m a).bfe = s.bfe ∧ (s.pushError kind m a).rsa = s.rsa ∧ (s.pushError kind m a).rgt = s.rgt ∧
      (s.pushError kind m a).pdr = s.pdr ∧ (s.pushError kind m a).ivt = s.ivt ∧
      (s.pushError kind m a).pwq = s.pwq ∧ (s.pushError kind m a).mlc = s.mlc ∧
      (s.pushError kind m a).mau = s.mau ∧ (s.pushError kind m a).pins = s.pins ∧
      (s.pushError kind m a).clk = s.clk ∧ (s.pushError kind m a).pending = s.pending := by
  unfold State.pushError
  split <;> exact ⟨rfl, rfl, rfl, rfl, rfl, rfl, rfl, rfl, rfl, rfl, rfl⟩

@[simp] theorem State.setSlot_frame (m : Master) (sl : Option Slot) (s : State) :
    (s.setSlot m sl).bfe = s.bfe ∧ (s.setSlot m sl).rgt = s.rgt ∧ (s.setSlot m sl).pdr = s.pdr ∧
      (s.setSlot m sl).ivt = s.ivt ∧ (s.setSlot m sl).pwq = s.pwq ∧ (s.setSlot m sl).mlc = s.mlc ∧
      (s.setSlot m sl).mau = s.mau ∧ (s.setSlot m sl).mnc = s.mnc ∧ (s.setSlot m sl).pins = s.pins ∧
      (s.setSlot m sl).clk = s.clk ∧ (s.setSlot m sl).pending = s.pending ∧ (s.setSlot m sl).rsa.order = s.rsa.order := by
  exact ⟨rfl, rfl, rfl, rfl, rfl, rfl, rfl, rfl, rfl, rfl, rfl, rfl⟩

@[simp] theorem State.enterSlot_frame (m : Master) (sl : Slot) (s : State) :
    (s.enterSlot m sl).bfe = s.bfe ∧ (s.enterSlot m sl).rgt = s.rgt ∧ (s.enterSlot m sl).pdr = s.pdr ∧
      (s.enterSlot m sl).ivt = s.ivt ∧ (s.enterSlot m sl).pwq = s.pwq ∧ (s.enterSlot m sl).mlc = s.mlc ∧
      (s.enterSlot m sl).mau = s.mau ∧ (s.enterSlot m sl).mnc = s.mnc ∧ (s.enterSlot m sl).pins = s.pins ∧
      (s.enterSlot m sl).clk = s.clk ∧ (s.enterSlot m sl).pending = s.pending := by
  exact ⟨rfl, rfl, rfl, rfl, rfl, rfl, rfl, rfl, rfl, rfl, rfl⟩

@[simp] theorem State.emptySlot_frame (m : Master) (s : State) :
    (s.emptySlot m).bfe = s.bfe ∧ (s.emptySlot m).rgt = s.rgt ∧ (s.emptySlot m).pdr = s.pdr ∧
      (s.emptySlot m).ivt = s.ivt ∧ (s.emptySlot m).pwq = s.pwq ∧ (s.emptySlot m).mlc = s.mlc ∧
      (s.emptySlot m).mau = s.mau ∧ (s.emptySlot m).mnc = s.mnc ∧ (s.emptySlot m).pins = s.pins ∧
      (s.emptySlot m).clk = s.clk ∧ (s.emptySlot m).pending = s.pending := by
  exact ⟨rfl, rfl, rfl, rfl, rfl, rfl, rfl, rfl, rfl, rfl, rfl⟩

@[simp] theorem State.modifySlot_frame (m : Master) (f : Slot → Slot) (s : State) :
    (s.modifySlot m f).bfe = s.bfe ∧ (s.modifySlot m f).rgt = s.rgt ∧ (s.modifySlot m f).pdr = s.pdr ∧
      (s.modifySlot m f).ivt = s.ivt ∧ (s.modifySlot m f).pwq = s.pwq ∧ (s.modifySlot m f).mlc = s.mlc ∧
      (s.modifySlot m f).mau = s.mau ∧ (s.modifySlot m f).mnc = s.mnc ∧ (s.modifySlot m f).pins = s.pins ∧
      (s.modifySlot m f).clk = s.clk ∧ (s.modifySlot m f).pending = s.pending ∧
      (s.modifySlot m f).rsa.order = s.rsa.order := by
  exact ⟨rfl, rfl, rfl, rfl, rfl, rfl, rfl, rfl, rfl, rfl, rfl, rfl⟩

@[simp] theorem State.modifyHeld_frame (f : Master → Slot → Slot) (s : State) :
    (s.modifyHeld f).bfe = s.bfe ∧ (s.modifyHeld f).rgt = s.rgt ∧ (s.modifyHeld f).pdr = s.pdr ∧
      (s.modifyHeld f).ivt = s.ivt ∧ (s.modifyHeld f).pwq = s.pwq ∧ (s.modifyHeld f).mlc = s.mlc ∧
      (s.modifyHeld f).mau = s.mau ∧ (s.modifyHeld f).mnc = s.mnc ∧ (s.modifyHeld f).pins = s.pins ∧
      (s.modifyHeld f).clk = s.clk ∧ (s.modifyHeld f).pending = s.pending ∧ (s.modifyHeld f).rsa.order = s.rsa.order := by
  exact ⟨rfl, rfl, rfl, rfl, rfl, rfl, rfl, rfl, rfl, rfl, rfl, rfl⟩

@[simp] theorem State.refreshQueueWaits_frame (s : State) :
    (s.refreshQueueWaits).bfe = s.bfe ∧ (s.refreshQueueWaits).rgt = s.rgt ∧ (s.refreshQueueWaits).pdr = s.pdr ∧
      (s.refreshQueueWaits).ivt = s.ivt ∧ (s.refreshQueueWaits).pwq = s.pwq ∧ (s.refreshQueueWaits).mlc = s.mlc ∧
      (s.refreshQueueWaits).mau = s.mau ∧ (s.refreshQueueWaits).mnc = s.mnc ∧ (s.refreshQueueWaits).pins = s.pins ∧
      (s.refreshQueueWaits).clk = s.clk ∧ (s.refreshQueueWaits).pending = s.pending ∧
      (s.refreshQueueWaits).rsa.order = s.rsa.order := by
  exact ⟨rfl, rfl, rfl, rfl, rfl, rfl, rfl, rfl, rfl, rfl, rfl, rfl⟩

@[simp] theorem State.lockReadsReleased_frame (l : LineAddr) (s : State) :
    (s.lockReadsReleased l).bfe = s.bfe ∧ (s.lockReadsReleased l).rgt = s.rgt ∧
      (s.lockReadsReleased l).pdr = s.pdr ∧ (s.lockReadsReleased l).ivt = s.ivt ∧
      (s.lockReadsReleased l).pwq = s.pwq ∧ (s.lockReadsReleased l).mlc = s.mlc ∧
      (s.lockReadsReleased l).mau = s.mau ∧ (s.lockReadsReleased l).mnc = s.mnc ∧
      (s.lockReadsReleased l).pins = s.pins ∧ (s.lockReadsReleased l).clk = s.clk ∧
      (s.lockReadsReleased l).pending = s.pending ∧ (s.lockReadsReleased l).rsa.order = s.rsa.order := by
  exact ⟨rfl, rfl, rfl, rfl, rfl, rfl, rfl, rfl, rfl, rfl, rfl, rfl⟩

theorem State.modifySlot_get (m k : Master) (f : Slot → Slot) (s : State) :
    (s.modifySlot m f).rsa.slots.get k = if k = m then (s.rsa.slots.get m).map f else s.rsa.slots.get k :=
  PerMaster.get_set s.rsa.slots m k _

theorem State.modifyHeld_get (f : Master → Slot → Slot) (s : State) (k : Master) :
    (s.modifyHeld f).rsa.slots.get k =
      (s.rsa.slots.get k).map fun sl => if sl.phase = .held then f k sl else sl := PerMaster.get_of _ k

theorem State.enterSlot_get (m k : Master) (sl : Slot) (s : State) :
    (s.enterSlot m sl).rsa.slots.get k = if k = m then some sl else s.rsa.slots.get k :=
  PerMaster.get_set s.rsa.slots m k _

theorem State.emptySlot_get (m k : Master) (s : State) :
    (s.emptySlot m).rsa.slots.get k = if k = m then none else s.rsa.slots.get k :=
  PerMaster.get_set s.rsa.slots m k _

/-! ### Replies and the lock -/

@[simp] theorem State.makeReply_frame (m : Master) (a : Answer) (s : State) :
    (s.makeReply m a).rgt = s.rgt ∧ (s.makeReply m a).pdr = s.pdr ∧ (s.makeReply m a).ivt = s.ivt ∧
      (s.makeReply m a).pwq = s.pwq ∧ (s.makeReply m a).mlc = s.mlc ∧ (s.makeReply m a).mau = s.mau ∧
      (s.makeReply m a).mnc = s.mnc ∧ (s.makeReply m a).pins = s.pins ∧ (s.makeReply m a).clk = s.clk ∧
      (s.makeReply m a).pending = s.pending ∧ (s.makeReply m a).rsa.order = s.rsa.order ∧
      (s.makeReply m a).bfe.grant = s.bfe.grant ∧ (s.makeReply m a).bfe.lock = s.bfe.lock ∧
      (s.makeReply m a).bfe.retryList = s.bfe.retryList := by
  exact ⟨rfl, rfl, rfl, rfl, rfl, rfl, rfl, rfl, rfl, rfl, rfl, rfl, rfl, rfl⟩

theorem State.makeReply_replies (m : Master) (a : Answer) (s : State) :
    (s.makeReply m a).bfe.replies = s.bfe.replies ++ [⟨m, .answer a⟩] := rfl

@[simp] theorem State.decideAtOnce_frame (m : Master) (q : SlotRequest) (a : Answer) (s : State) :
    (s.decideAtOnce m q a).rgt = s.rgt ∧ (s.decideAtOnce m q a).pdr = s.pdr ∧ (s.decideAtOnce m q a).ivt = s.ivt ∧
      (s.decideAtOnce m q a).pwq = s.pwq ∧ (s.decideAtOnce m q a).mlc = s.mlc ∧
      (s.decideAtOnce m q a).mau = s.mau ∧ (s.decideAtOnce m q a).mnc = s.mnc ∧
      (s.decideAtOnce m q a).pins = s.pins ∧ (s.decideAtOnce m q a).clk = s.clk ∧
      (s.decideAtOnce m q a).pending = s.pending := by
  exact ⟨rfl, rfl, rfl, rfl, rfl, rfl, rfl, rfl, rfl, rfl⟩

@[simp] theorem State.releaseLock_frame (s : State) :
    (s.releaseLock).rgt = s.rgt ∧ (s.releaseLock).pdr = s.pdr ∧ (s.releaseLock).ivt = s.ivt ∧
      (s.releaseLock).pwq = s.pwq ∧ (s.releaseLock).mlc = s.mlc ∧ (s.releaseLock).mau = s.mau ∧
      (s.releaseLock).mnc = s.mnc ∧ (s.releaseLock).pins = s.pins ∧ (s.releaseLock).clk = s.clk ∧
      (s.releaseLock).pending = s.pending ∧ (s.releaseLock).rsa.order = s.rsa.order ∧
      (s.releaseLock).bfe.grant = s.bfe.grant ∧ (s.releaseLock).bfe.replies = s.bfe.replies ∧
      (s.releaseLock).bfe.retryList = s.bfe.retryList := by
  exact ⟨rfl, rfl, rfl, rfl, rfl, rfl, rfl, rfl, rfl, rfl, rfl, rfl, rfl, rfl⟩

@[simp] theorem State.releaseLockOf_frame (m : Master) (s : State) :
    (s.releaseLockOf m).rgt = s.rgt ∧ (s.releaseLockOf m).pdr = s.pdr ∧ (s.releaseLockOf m).ivt = s.ivt ∧
      (s.releaseLockOf m).pwq = s.pwq ∧ (s.releaseLockOf m).mlc = s.mlc ∧ (s.releaseLockOf m).mau = s.mau ∧
      (s.releaseLockOf m).mnc = s.mnc ∧ (s.releaseLockOf m).pins = s.pins ∧ (s.releaseLockOf m).clk = s.clk ∧
      (s.releaseLockOf m).pending = s.pending ∧ (s.releaseLockOf m).rsa.order = s.rsa.order ∧
      (s.releaseLockOf m).bfe.grant = s.bfe.grant ∧ (s.releaseLockOf m).bfe.replies = s.bfe.replies ∧
      (s.releaseLockOf m).bfe.retryList = s.bfe.retryList := by
  unfold State.releaseLockOf
  split
  · split
    · exact ⟨rfl, rfl, rfl, rfl, rfl, rfl, rfl, rfl, rfl, rfl, rfl, rfl, rfl, rfl⟩
    · exact ⟨rfl, rfl, rfl, rfl, rfl, rfl, rfl, rfl, rfl, rfl, rfl, rfl, rfl, rfl⟩
  · exact ⟨rfl, rfl, rfl, rfl, rfl, rfl, rfl, rfl, rfl, rfl, rfl, rfl, rfl, rfl⟩

@[simp] theorem State.takeLock_frame (m : Master) (w : WordAddr) (s : State) :
    (s.takeLock m w).rgt = s.rgt ∧ (s.takeLock m w).pdr = s.pdr ∧ (s.takeLock m w).ivt = s.ivt ∧
      (s.takeLock m w).pwq = s.pwq ∧ (s.takeLock m w).mlc = s.mlc ∧ (s.takeLock m w).mau = s.mau ∧
      (s.takeLock m w).mnc = s.mnc ∧ (s.takeLock m w).pins = s.pins ∧ (s.takeLock m w).clk = s.clk ∧
      (s.takeLock m w).pending = s.pending ∧ (s.takeLock m w).rsa.order = s.rsa.order ∧
      (s.takeLock m w).bfe.grant = s.bfe.grant ∧ (s.takeLock m w).bfe.replies = s.bfe.replies ∧
      (s.takeLock m w).bfe.retryList = s.bfe.retryList := by
  exact ⟨rfl, rfl, rfl, rfl, rfl, rfl, rfl, rfl, rfl, rfl, rfl, rfl, rfl, rfl⟩

@[simp] theorem State.breakLock_frame (k : BusLock) (s : State) :
    (s.breakLock k).rgt = s.rgt ∧ (s.breakLock k).pdr = s.pdr ∧ (s.breakLock k).ivt = s.ivt ∧
      (s.breakLock k).pwq = s.pwq ∧ (s.breakLock k).mlc = s.mlc ∧ (s.breakLock k).mau = s.mau ∧
      (s.breakLock k).pins = s.pins ∧ (s.breakLock k).clk = s.clk ∧ (s.breakLock k).pending = s.pending := by
  unfold State.breakLock
  simp

@[simp] theorem State.refuse_frame (m : Master) (s : State) :
    (s.refuse m).rsa = s.rsa ∧ (s.refuse m).rgt = s.rgt ∧ (s.refuse m).pdr = s.pdr ∧ (s.refuse m).ivt = s.ivt ∧
      (s.refuse m).pwq = s.pwq ∧ (s.refuse m).mlc = s.mlc ∧ (s.refuse m).mau = s.mau ∧ (s.refuse m).mnc = s.mnc ∧
      (s.refuse m).pins = s.pins ∧ (s.refuse m).clk = s.clk ∧ (s.refuse m).pending = s.pending := by
  exact ⟨rfl, rfl, rfl, rfl, rfl, rfl, rfl, rfl, rfl, rfl, rfl⟩

/-! ### The tracker -/

/-- A granted create request changes the tracker and the slots alone, and the entry takes the young end (R33). -/
theorem State.createEntry_some {l : LineAddr} {kind : EntryKind} {t c : MasterSet} {s s' : State}
    (h : s.createEntry l kind t c = some s') :
    s.ivt.entries.length < Config.trackerEntries ∧
      s'.ivt = { s.ivt with entries :=
        s.ivt.entries ++ [⟨l, kind, t, MasterSet.empty, MasterSet.empty, c⟩] } ∧
      s'.rsa.order = s.rsa.order ∧ s'.bfe = s.bfe ∧ s'.rgt = s.rgt ∧ s'.pdr = s.pdr ∧ State.SameOutside s s' := by
  unfold State.createEntry State.trackerFull at h
  split at h
  · exact absurd h (by simp)
  · rename_i hf
    simp only [Option.some.injEq] at h
    subst h
    refine ⟨by simpa using hf, ?_⟩
    exact ⟨rfl, rfl, rfl, rfl, rfl, rfl, rfl, rfl, rfl, rfl, rfl, rfl⟩

/-- A create request is refused exactly when the tracker is full (R33). -/
theorem State.createEntry_none_iff {l : LineAddr} {kind : EntryKind} {t c : MasterSet} {s : State} :
    s.createEntry l kind t c = none ↔ Config.trackerEntries ≤ s.ivt.entries.length := by
  unfold State.createEntry State.trackerFull
  simp

@[simp] theorem State.modifyEntry_frame (l : LineAddr) (f : TrackerEntry → TrackerEntry) (s : State) :
    (s.modifyEntry l f).bfe = s.bfe ∧ (s.modifyEntry l f).rsa = s.rsa ∧ (s.modifyEntry l f).rgt = s.rgt ∧
      (s.modifyEntry l f).pdr = s.pdr ∧ (s.modifyEntry l f).pwq = s.pwq ∧ (s.modifyEntry l f).mlc = s.mlc ∧
      (s.modifyEntry l f).mau = s.mau ∧ (s.modifyEntry l f).mnc = s.mnc ∧ (s.modifyEntry l f).pins = s.pins ∧
      (s.modifyEntry l f).clk = s.clk ∧ (s.modifyEntry l f).pending = s.pending ∧
      (s.modifyEntry l f).ivt.notices = s.ivt.notices ∧ (s.modifyEntry l f).ivt.timers = s.ivt.timers := by
  exact ⟨rfl, rfl, rfl, rfl, rfl, rfl, rfl, rfl, rfl, rfl, rfl, rfl, rfl⟩

@[simp] theorem State.enlargeEntry_frame (l : LineAddr) (t : MasterSet) (a : Master) (s : State) :
    (s.enlargeEntry l t a).bfe = s.bfe ∧ (s.enlargeEntry l t a).rsa = s.rsa ∧ (s.enlargeEntry l t a).rgt = s.rgt ∧
      (s.enlargeEntry l t a).pdr = s.pdr ∧ (s.enlargeEntry l t a).pwq = s.pwq ∧
      (s.enlargeEntry l t a).mlc = s.mlc ∧ (s.enlargeEntry l t a).mau = s.mau ∧
      (s.enlargeEntry l t a).mnc = s.mnc ∧ (s.enlargeEntry l t a).pins = s.pins ∧
      (s.enlargeEntry l t a).clk = s.clk ∧ (s.enlargeEntry l t a).pending = s.pending ∧
      (s.enlargeEntry l t a).ivt.notices = s.ivt.notices ∧ (s.enlargeEntry l t a).ivt.timers = s.ivt.timers := by
  exact ⟨rfl, rfl, rfl, rfl, rfl, rfl, rfl, rfl, rfl, rfl, rfl, rfl, rfl⟩

@[simp] theorem State.addCause_frame (l : LineAddr) (a : Master) (s : State) :
    (s.addCause l a).bfe = s.bfe ∧ (s.addCause l a).rsa = s.rsa ∧ (s.addCause l a).rgt = s.rgt ∧
      (s.addCause l a).pdr = s.pdr ∧ (s.addCause l a).pwq = s.pwq ∧ (s.addCause l a).mlc = s.mlc ∧
      (s.addCause l a).mau = s.mau ∧ (s.addCause l a).mnc = s.mnc ∧ (s.addCause l a).pins = s.pins ∧
      (s.addCause l a).clk = s.clk ∧ (s.addCause l a).pending = s.pending ∧
      (s.addCause l a).ivt.notices = s.ivt.notices ∧ (s.addCause l a).ivt.timers = s.ivt.timers := by
  exact ⟨rfl, rfl, rfl, rfl, rfl, rfl, rfl, rfl, rfl, rfl, rfl, rfl, rfl⟩

/-! ### The directory -/

@[simp] theorem State.setRecords_frame (i : Nat) (rs : DirectorySet) (s : State) :
    (s.setRecords i rs).bfe = s.bfe ∧ (s.setRecords i rs).rsa = s.rsa ∧ (s.setRecords i rs).rgt = s.rgt ∧
      (s.setRecords i rs).ivt = s.ivt ∧ (s.setRecords i rs).pwq = s.pwq ∧ (s.setRecords i rs).mlc = s.mlc ∧
      (s.setRecords i rs).mau = s.mau ∧ (s.setRecords i rs).mnc = s.mnc ∧ (s.setRecords i rs).pins = s.pins ∧
      (s.setRecords i rs).clk = s.clk ∧ (s.setRecords i rs).pending = s.pending ∧
      (s.setRecords i rs).pdr.walker = s.pdr.walker := by
  exact ⟨rfl, rfl, rfl, rfl, rfl, rfl, rfl, rfl, rfl, rfl, rfl, rfl⟩

@[simp] theorem State.updateRecord_frame (l : LineAddr) (f : LineRecord → Option LineRecord) (s : State) :
    (s.updateRecord l f).bfe = s.bfe ∧ (s.updateRecord l f).rsa = s.rsa ∧ (s.updateRecord l f).rgt = s.rgt ∧
      (s.updateRecord l f).ivt = s.ivt ∧ (s.updateRecord l f).pwq = s.pwq ∧ (s.updateRecord l f).mlc = s.mlc ∧
      (s.updateRecord l f).mau = s.mau ∧ (s.updateRecord l f).mnc = s.mnc ∧ (s.updateRecord l f).pins = s.pins ∧
      (s.updateRecord l f).clk = s.clk ∧ (s.updateRecord l f).pending = s.pending ∧
      (s.updateRecord l f).pdr.walker = s.pdr.walker := by
  exact ⟨rfl, rfl, rfl, rfl, rfl, rfl, rfl, rfl, rfl, rfl, rfl, rfl⟩

@[simp] theorem State.fillIssued_frame (m : Master) (l : LineAddr) (s : State) :
    (s.fillIssued m l).bfe = s.bfe ∧ (s.fillIssued m l).rsa = s.rsa ∧ (s.fillIssued m l).rgt = s.rgt ∧
      (s.fillIssued m l).ivt = s.ivt ∧ (s.fillIssued m l).pwq = s.pwq ∧ (s.fillIssued m l).mlc = s.mlc ∧
      (s.fillIssued m l).mau = s.mau ∧ (s.fillIssued m l).mnc = s.mnc ∧ (s.fillIssued m l).pins = s.pins ∧
      (s.fillIssued m l).clk = s.clk ∧ (s.fillIssued m l).pending = s.pending ∧
      (s.fillIssued m l).pdr.walker = s.pdr.walker := by
  exact ⟨rfl, rfl, rfl, rfl, rfl, rfl, rfl, rfl, rfl, rfl, rfl, rfl⟩

@[simp] theorem State.endFill_frame (m : Master) (l : LineAddr) (keep : Bool) (s : State) :
    (s.endFill m l keep).bfe = s.bfe ∧ (s.endFill m l keep).rsa = s.rsa ∧ (s.endFill m l keep).rgt = s.rgt ∧
      (s.endFill m l keep).ivt = s.ivt ∧ (s.endFill m l keep).pwq = s.pwq ∧ (s.endFill m l keep).mlc = s.mlc ∧
      (s.endFill m l keep).mau = s.mau ∧ (s.endFill m l keep).mnc = s.mnc ∧ (s.endFill m l keep).pins = s.pins ∧
      (s.endFill m l keep).clk = s.clk ∧ (s.endFill m l keep).pending = s.pending ∧
      (s.endFill m l keep).pdr.walker = s.pdr.walker := by
  exact ⟨rfl, rfl, rfl, rfl, rfl, rfl, rfl, rfl, rfl, rfl, rfl, rfl⟩

/-- The blocks that a fill lookup, a write step or a release leaves as they were. -/
def State.DirectoryWork (s t : State) : Prop :=
  t.bfe = s.bfe ∧ t.rgt = s.rgt ∧ t.rsa.order = s.rsa.order ∧ t.pdr.walker = s.pdr.walker ∧
    t.ivt.notices = s.ivt.notices ∧ t.ivt.timers = s.ivt.timers ∧ State.SameOutside s t

theorem State.DirectoryWork.refl (s : State) : State.DirectoryWork s s :=
  ⟨rfl, rfl, rfl, rfl, rfl, rfl, rfl, rfl, rfl, rfl, rfl, rfl, rfl⟩

theorem State.DirectoryWork.trans {s t u : State} (h : State.DirectoryWork s t) (k : State.DirectoryWork t u) :
    State.DirectoryWork s u := by
  obtain ⟨a1, a2, a3, a4, a5, a6, a7, a8, a9, a10, a11, a12, a13⟩ := h
  obtain ⟨b1, b2, b3, b4, b5, b6, b7, b8, b9, b10, b11, b12, b13⟩ := k
  exact ⟨b1.trans a1, b2.trans a2, b3.trans a3, b4.trans a4, b5.trans a5, b6.trans a6, b7.trans a7, b8.trans a8,
    b9.trans a9, b10.trans a10, b11.trans a11, b12.trans a12, b13.trans a13⟩

theorem State.createEntry_work {l : LineAddr} {kind : EntryKind} {t c : MasterSet} {s s' : State}
    (h : s.createEntry l kind t c = some s') : State.DirectoryWork s s' := by
  obtain ⟨-, h1, h2, h3, h4, h5, h6⟩ := State.createEntry_some h
  exact ⟨h3, h4, h2, by rw [h5], by rw [h1], by rw [h1], h6⟩

theorem State.setRecords_work (i : Nat) (rs : DirectorySet) (s : State) :
    State.DirectoryWork s (s.setRecords i rs) :=
  ⟨rfl, rfl, rfl, rfl, rfl, rfl, rfl, rfl, rfl, rfl, rfl, rfl, rfl⟩

theorem State.updateRecord_work (l : LineAddr) (f : LineRecord → Option LineRecord) (s : State) :
    State.DirectoryWork s (s.updateRecord l f) := State.setRecords_work _ _ s

theorem State.modifySlot_work (m : Master) (f : Slot → Slot) (s : State) :
    State.DirectoryWork s (s.modifySlot m f) :=
  ⟨rfl, rfl, rfl, rfl, rfl, rfl, rfl, rfl, rfl, rfl, rfl, rfl, rfl⟩

theorem State.modifyHeld_work (f : Master → Slot → Slot) (s : State) : State.DirectoryWork s (s.modifyHeld f) :=
  ⟨rfl, rfl, rfl, rfl, rfl, rfl, rfl, rfl, rfl, rfl, rfl, rfl, rfl⟩

theorem State.modifyEntry_work (l : LineAddr) (f : TrackerEntry → TrackerEntry) (s : State) :
    State.DirectoryWork s (s.modifyEntry l f) :=
  ⟨rfl, rfl, rfl, rfl, rfl, rfl, rfl, rfl, rfl, rfl, rfl, rfl, rfl⟩

theorem State.useVictim_work (m : Master) (l : LineAddr) (v : LineRecord) (s : State) :
    State.DirectoryWork s (s.useVictim m l v).1 := by
  unfold State.useVictim
  dsimp only
  split
  · exact State.setRecords_work _ _ s
  · split
    · exact State.DirectoryWork.refl s
    · rename_i h
      exact (State.createEntry_work h).trans (State.setRecords_work _ _ _)

/-- A fill lookup touches the directory, the tracker's entries and the waits of the slots alone (R9). -/
theorem State.fillLookup_work (m : Master) (l : LineAddr) (s : State) :
    State.DirectoryWork s (s.fillLookup m l).1 := by
  unfold State.fillLookup
  dsimp only
  split
  · split
    · exact State.setRecords_work _ _ s
    · exact State.DirectoryWork.refl s
    · exact State.DirectoryWork.refl s
  · split
    · exact State.setRecords_work _ _ s
    · split
      · exact State.setRecords_work _ _ s
      · split
        · exact State.DirectoryWork.refl s
        · exact State.useVictim_work _ _ _ s

theorem State.endWayWait_work (o : LookupOutcome) (ms : List Master) (s : State) :
    State.DirectoryWork s (s.endWayWait o ms) :=
  foldl_holds _ (State.DirectoryWork s) (fun _ _ h => h.trans (State.modifySlot_work _ _ _)) ms s
    (State.DirectoryWork.refl s)

theorem State.releaseFill_work (l : LineAddr) (s : State) (m : Master) :
    State.DirectoryWork s (s.releaseFill l m) := by
  unfold State.releaseFill
  dsimp only
  repeat' split
  all_goals first
    | exact State.DirectoryWork.refl s
    | exact State.modifySlot_work _ _ s
    | exact (State.fillLookup_work m l s).trans (State.modifySlot_work _ _ _)

theorem State.releaseLine_work (l : LineAddr) (s : State) : State.DirectoryWork s (s.releaseLine l) :=
  foldl_holds _ (State.DirectoryWork s) (fun _ _ h => h.trans (State.releaseFill_work l _ _)) _ s
    (State.DirectoryWork.refl s)

theorem State.writeTracker_work {a : Master} {l : LineAddr} {s s' : State} (h : s.writeTracker a l = some s') :
    State.DirectoryWork s s' := by
  unfold State.writeTracker at h
  dsimp only at h
  split at h
  · cases h
    exact State.DirectoryWork.refl s
  · split at h
    · split at h
      · cases h
        exact State.DirectoryWork.refl s
      · obtain ⟨u, hu, rfl⟩ := Option.map_eq_some_iff.1 h
        exact (State.createEntry_work hu).trans (State.updateRecord_work _ _ _)
    all_goals
      split at h
      · cases h
        exact State.modifyEntry_work _ _ s
      · split at h
        · split at h
          · cases h
            exact State.DirectoryWork.refl s
          · cases h
            exact State.modifyEntry_work _ _ s
        · cases h
          exact State.DirectoryWork.refl s

/-- A write step taken touches the directory, the tracker's entries and the waits of the slots alone (R20 to R22). -/
theorem State.writeStep_work {a : Master} {l : LineAddr} {s s' : State} (h : s.writeStep a l = some s') :
    State.DirectoryWork s s' := by
  obtain ⟨u, hu, rfl⟩ := Option.map_eq_some_iff.1 h
  exact (State.writeTracker_work hu).trans (State.updateRecord_work _ _ _)

theorem State.completeAtDirectory_work (e : TrackerEntry) (s : State) :
    State.DirectoryWork s (s.completeAtDirectory e) := by
  unfold State.completeAtDirectory
  dsimp only
  split
  · exact (State.updateRecord_work _ _ s).trans (State.releaseLine_work _ _)
  all_goals
    split
    · exact State.DirectoryWork.refl s
    · split
      · exact State.setRecords_work _ _ s
      · exact (State.setRecords_work _ _ s).trans (State.endWayWait_work _ _ _)

/-! ### The walker -/

@[simp] theorem State.withWalker_frame (w : Walker) (s : State) :
    (s.withWalker w).bfe = s.bfe ∧ (s.withWalker w).rsa = s.rsa ∧ (s.withWalker w).rgt = s.rgt ∧
      (s.withWalker w).ivt = s.ivt ∧ (s.withWalker w).pwq = s.pwq ∧ (s.withWalker w).mlc = s.mlc ∧
      (s.withWalker w).mau = s.mau ∧ (s.withWalker w).mnc = s.mnc ∧ (s.withWalker w).pins = s.pins ∧
      (s.withWalker w).clk = s.clk ∧ (s.withWalker w).pending = s.pending ∧
      (s.withWalker w).pdr.sets = s.pdr.sets ∧ (s.withWalker w).pdr.walker = w := by
  exact ⟨rfl, rfl, rfl, rfl, rfl, rfl, rfl, rfl, rfl, rfl, rfl, rfl, rfl⟩

@[simp] theorem State.endWalkIfDone_frame (s : State) :
    (s.endWalkIfDone).bfe = s.bfe ∧ (s.endWalkIfDone).rsa = s.rsa ∧ (s.endWalkIfDone).ivt = s.ivt ∧
      (s.endWalkIfDone).pwq = s.pwq ∧ (s.endWalkIfDone).mlc = s.mlc ∧ (s.endWalkIfDone).mau = s.mau ∧
      (s.endWalkIfDone).mnc = s.mnc ∧ (s.endWalkIfDone).pins = s.pins ∧ (s.endWalkIfDone).clk = s.clk ∧
      (s.endWalkIfDone).pending = s.pending ∧ (s.endWalkIfDone).pdr.sets = s.pdr.sets := by
  unfold State.endWalkIfDone
  split
  · split
    · exact ⟨rfl, rfl, rfl, rfl, rfl, rfl, rfl, rfl, rfl, rfl, rfl⟩
    · exact ⟨rfl, rfl, rfl, rfl, rfl, rfl, rfl, rfl, rfl, rfl, rfl⟩
    · exact ⟨rfl, rfl, rfl, rfl, rfl, rfl, rfl, rfl, rfl, rfl, rfl⟩
  · exact ⟨rfl, rfl, rfl, rfl, rfl, rfl, rfl, rfl, rfl, rfl, rfl⟩

@[simp] theorem State.countWalkEntry_frame (s : State) :
    (s.countWalkEntry).bfe = s.bfe ∧ (s.countWalkEntry).rsa = s.rsa ∧ (s.countWalkEntry).ivt = s.ivt ∧
      (s.countWalkEntry).pwq = s.pwq ∧ (s.countWalkEntry).mlc = s.mlc ∧ (s.countWalkEntry).mau = s.mau ∧
      (s.countWalkEntry).mnc = s.mnc ∧ (s.countWalkEntry).pins = s.pins ∧ (s.countWalkEntry).clk = s.clk ∧
      (s.countWalkEntry).pending = s.pending ∧ (s.countWalkEntry).pdr.sets = s.pdr.sets := by
  unfold State.countWalkEntry
  simp

@[simp] theorem State.tellWalker_frame (before s : State) :
    (State.tellWalker before s).bfe = s.bfe ∧ (State.tellWalker before s).rsa = s.rsa ∧
      (State.tellWalker before s).rgt = s.rgt ∧ (State.tellWalker before s).pdr.sets = s.pdr.sets ∧
      (State.tellWalker before s).ivt = s.ivt ∧ (State.tellWalker before s).pwq = s.pwq ∧
      (State.tellWalker before s).mlc = s.mlc ∧ (State.tellWalker before s).mau = s.mau ∧
      (State.tellWalker before s).mnc = s.mnc ∧ (State.tellWalker before s).pins = s.pins ∧
      (State.tellWalker before s).clk = s.clk ∧ (State.tellWalker before s).pending = s.pending := by
  unfold State.tellWalker
  split
  · split
    · exact ⟨rfl, rfl, rfl, rfl, rfl, rfl, rfl, rfl, rfl, rfl, rfl, rfl⟩
    · exact ⟨rfl, rfl, rfl, rfl, rfl, rfl, rfl, rfl, rfl, rfl, rfl, rfl⟩
  · exact ⟨rfl, rfl, rfl, rfl, rfl, rfl, rfl, rfl, rfl, rfl, rfl, rfl⟩

/-- A record that has not changed ends no pause. -/
theorem endsPause_self (reason : PauseReason) (r : Option LineRecord) : endsPause reason r r = false := by
  have h1 : stateChanged r r = false := by
    cases r with
    | none => rfl
    | some a =>
      simp only [stateChanged, LineRecord.sameState]
      cases a.status <;> simp
  have h2 : itemLeft r r = false := by
    cases r with
    | none => rfl
    | some a =>
      simp only [itemLeft, List.any_eq_false, Bool.not_eq_true, Bool.not_eq_false']
      intro p hp
      exact List.any_eq_true.2 ⟨p, hp, beq_self_eq_true _⟩
  have h3 : pendingChanged r r = false := by simp [pendingChanged]
  cases reason <;> simp [endsPause, h1, h2, h3]

/-- An event that leaves the directory's sets as they were tells the walker nothing. -/
theorem State.tellWalker_of_same {before s : State} (h : before.pdr.sets = s.pdr.sets) :
    State.tellWalker before s = s := by
  unfold State.tellWalker
  split
  · rw [h, if_neg (by simp [endsPause_self])]
  · rfl

theorem State.tellFreeEntry_order (s : State) : s.tellFreeEntry.rsa.order = s.rsa.order := by
  unfold State.tellFreeEntry
  dsimp only
  split
  · split <;> rfl
  · rfl

@[simp] theorem State.tellFreeEntry_frame (s : State) :
    (s.tellFreeEntry).bfe = s.bfe ∧ (s.tellFreeEntry).rgt = s.rgt ∧ (s.tellFreeEntry).ivt = s.ivt ∧
      (s.tellFreeEntry).pwq = s.pwq ∧ (s.tellFreeEntry).mlc = s.mlc ∧ (s.tellFreeEntry).mau = s.mau ∧
      (s.tellFreeEntry).mnc = s.mnc ∧ (s.tellFreeEntry).pins = s.pins ∧ (s.tellFreeEntry).clk = s.clk ∧
      (s.tellFreeEntry).pending = s.pending ∧ (s.tellFreeEntry).pdr.sets = s.pdr.sets := by
  unfold State.tellFreeEntry
  dsimp only
  split
  · split
    · exact ⟨rfl, rfl, rfl, rfl, rfl, rfl, rfl, rfl, rfl, rfl, rfl⟩
    · exact ⟨rfl, rfl, rfl, rfl, rfl, rfl, rfl, rfl, rfl, rfl, rfl⟩
  · exact ⟨rfl, rfl, rfl, rfl, rfl, rfl, rfl, rfl, rfl, rfl, rfl⟩

/-! ### Completions -/

/-- The blocks that the completion of a tracker entry leaves as they were (R45). -/
theorem State.completeEntry_keeps (s : State) (e : TrackerEntry) :
    (s.completeEntry e).bfe = s.bfe ∧ (s.completeEntry e).rsa.order = s.rsa.order ∧
      (s.completeEntry e).ivt.notices = s.ivt.notices ∧ (s.completeEntry e).ivt.timers = s.ivt.timers ∧
      State.SameOutside s (s.completeEntry e) := by
  have hw := State.completeAtDirectory_work e
    (s.withIvt { s.ivt with entries := s.ivt.entries.filter fun k => k.line != e.line })
  obtain ⟨h1, h2, h3, h4, h5, h6, h7, h8, h9, h10, h11, h12, h13⟩ := hw
  unfold State.completeEntry State.SameOutside
  dsimp only
  split <;> split <;> simp_all [State.tellFreeEntry_order]

@[simp] theorem State.settleSlot_frame (s : State) (m : Master) :
    (s.settleSlot m).rgt = s.rgt ∧ (s.settleSlot m).pdr = s.pdr ∧ (s.settleSlot m).ivt = s.ivt ∧
      (s.settleSlot m).pwq = s.pwq ∧ (s.settleSlot m).mlc = s.mlc ∧ (s.settleSlot m).mau = s.mau ∧
      (s.settleSlot m).mnc = s.mnc ∧ (s.settleSlot m).pins = s.pins ∧ (s.settleSlot m).clk = s.clk ∧
      (s.settleSlot m).pending = s.pending ∧ (s.settleSlot m).rsa.order = s.rsa.order ∧
      (s.settleSlot m).bfe.grant = s.bfe.grant ∧ (s.settleSlot m).bfe.retryList = s.bfe.retryList := by
  unfold State.settleSlot
  repeat' split
  all_goals simp

theorem State.settleWaiters_keeps (s : State) :
    s.settleWaiters.rgt = s.rgt ∧ s.settleWaiters.pdr = s.pdr ∧ s.settleWaiters.ivt = s.ivt ∧
      s.settleWaiters.rsa.order = s.rsa.order ∧ s.settleWaiters.bfe.grant = s.bfe.grant ∧
      s.settleWaiters.bfe.retryList = s.bfe.retryList ∧ State.SameOutside s s.settleWaiters := by
  unfold State.settleWaiters State.SameOutside
  refine ⟨?_, ?_, ?_, ?_, ?_, ?_, ?_, ?_, ?_, ?_, ?_, ?_, ?_⟩
  · exact foldl_keeps State.settleSlot State.rgt (by simp) _ s
  · exact foldl_keeps State.settleSlot State.pdr (by simp) _ s
  · exact foldl_keeps State.settleSlot State.ivt (by simp) _ s
  · exact foldl_keeps State.settleSlot (fun s => s.rsa.order) (by simp) _ s
  · exact foldl_keeps State.settleSlot (fun s => s.bfe.grant) (by simp) _ s
  · exact foldl_keeps State.settleSlot (fun s => s.bfe.retryList) (by simp) _ s
  · exact foldl_keeps State.settleSlot State.pwq (by simp) _ s
  · exact foldl_keeps State.settleSlot State.mlc (by simp) _ s
  · exact foldl_keeps State.settleSlot State.mau (by simp) _ s
  · exact foldl_keeps State.settleSlot State.mnc (by simp) _ s
  · exact foldl_keeps State.settleSlot State.pins (by simp) _ s
  · exact foldl_keeps State.settleSlot State.clk (by simp) _ s
  · exact foldl_keeps State.settleSlot State.pending (by simp) _ s

/-- The blocks that the completions of one event leave as they were (R45, R46). -/
theorem State.completeEntries_keeps (es : List TrackerEntry) (s : State) :
    (s.completeEntries es).rsa.order = s.rsa.order ∧ (s.completeEntries es).bfe.grant = s.bfe.grant ∧
      (s.completeEntries es).bfe.retryList = s.bfe.retryList ∧
      (s.completeEntries es).ivt.notices = s.ivt.notices ∧ (s.completeEntries es).ivt.timers = s.ivt.timers ∧
      State.SameOutside s (s.completeEntries es) := by
  have hk := State.completeEntry_keeps
  have f1 := foldl_keeps State.completeEntry State.bfe (fun s e => (hk s e).1) es s
  have f2 := foldl_keeps State.completeEntry (fun s => s.rsa.order) (fun s e => (hk s e).2.1) es s
  have f3 := foldl_keeps State.completeEntry (fun s => s.ivt.notices) (fun s e => (hk s e).2.2.1) es s
  have f4 := foldl_keeps State.completeEntry (fun s => s.ivt.timers) (fun s e => (hk s e).2.2.2.1) es s
  have g1 := foldl_keeps State.completeEntry State.pwq (fun s e => (hk s e).2.2.2.2.1) es s
  have g2 := foldl_keeps State.completeEntry State.mlc (fun s e => (hk s e).2.2.2.2.2.1) es s
  have g3 := foldl_keeps State.completeEntry State.mau (fun s e => (hk s e).2.2.2.2.2.2.1) es s
  have g4 := foldl_keeps State.completeEntry State.mnc (fun s e => (hk s e).2.2.2.2.2.2.2.1) es s
  have g5 := foldl_keeps State.completeEntry State.pins (fun s e => (hk s e).2.2.2.2.2.2.2.2.1) es s
  have g6 := foldl_keeps State.completeEntry State.clk (fun s e => (hk s e).2.2.2.2.2.2.2.2.2.1) es s
  have g7 := foldl_keeps State.completeEntry State.pending (fun s e => (hk s e).2.2.2.2.2.2.2.2.2.2) es s
  obtain ⟨-, -, w3, w4, w5, w6, w7, w8, w9, w10, w11, w12, w13⟩ :=
    State.settleWaiters_keeps (es.foldl State.completeEntry s)
  unfold State.completeEntries State.SameOutside
  exact ⟨w4.trans f2, w5.trans (congrArg Bfe.grant f1), w6.trans (congrArg Bfe.retryList f1),
    (congrArg Ivt.notices w3).trans f3, (congrArg Ivt.timers w3).trans f4, w7.trans g1, w8.trans g2, w9.trans g3,
    w10.trans g4, w11.trans g5, w12.trans g6, w13.trans g7⟩

/-! ### The queue and the release of a master -/

@[simp] theorem State.placeWrite_frame (m : Master) (w : WordAddr) (lanes : Lanes) (ans : QueueAnswer) (s : State) :
    (s.placeWrite m w lanes ans).bfe = s.bfe ∧ (s.placeWrite m w lanes ans).rgt = s.rgt ∧
      (s.placeWrite m w lanes ans).pdr = s.pdr ∧ (s.placeWrite m w lanes ans).ivt = s.ivt ∧
      (s.placeWrite m w lanes ans).mlc = s.mlc ∧ (s.placeWrite m w lanes ans).mau = s.mau ∧
      (s.placeWrite m w lanes ans).mnc = s.mnc ∧ (s.placeWrite m w lanes ans).pins = s.pins ∧
      (s.placeWrite m w lanes ans).clk = s.clk ∧ (s.placeWrite m w lanes ans).pending = s.pending ∧
      (s.placeWrite m w lanes ans).rsa.order = s.rsa.order := by
  cases ans <;> exact ⟨rfl, rfl, rfl, rfl, rfl, rfl, rfl, rfl, rfl, rfl, rfl⟩

@[simp] theorem State.setAttach_frame (m : Master) (a : AttachState) (s : State) :
    (s.setAttach m a).bfe = s.bfe ∧ (s.setAttach m a).rsa = s.rsa ∧ (s.setAttach m a).rgt = s.rgt ∧
      (s.setAttach m a).pdr = s.pdr ∧ (s.setAttach m a).ivt = s.ivt ∧ (s.setAttach m a).pwq = s.pwq ∧
      (s.setAttach m a).mlc = s.mlc ∧ (s.setAttach m a).mnc = s.mnc ∧ (s.setAttach m a).pins = s.pins ∧
      (s.setAttach m a).clk = s.clk ∧ (s.setAttach m a).pending = s.pending := by
  exact ⟨rfl, rfl, rfl, rfl, rfl, rfl, rfl, rfl, rfl, rfl, rfl⟩

@[simp] theorem State.leaveRetryList_frame (m : Master) (s : State) :
    (s.leaveRetryList m).rsa = s.rsa ∧ (s.leaveRetryList m).rgt = s.rgt ∧ (s.leaveRetryList m).pdr = s.pdr ∧
      (s.leaveRetryList m).ivt = s.ivt ∧ (s.leaveRetryList m).pwq = s.pwq ∧ (s.leaveRetryList m).mlc = s.mlc ∧
      (s.leaveRetryList m).mau = s.mau ∧ (s.leaveRetryList m).mnc = s.mnc ∧ (s.leaveRetryList m).pins = s.pins ∧
      (s.leaveRetryList m).clk = s.clk ∧ (s.leaveRetryList m).pending = s.pending := by
  exact ⟨rfl, rfl, rfl, rfl, rfl, rfl, rfl, rfl, rfl, rfl, rfl⟩

@[simp] theorem State.withdrawGrant_frame (m : Master) (s : State) :
    (s.withdrawGrant m).rsa = s.rsa ∧ (s.withdrawGrant m).rgt = s.rgt ∧ (s.withdrawGrant m).pdr = s.pdr ∧
      (s.withdrawGrant m).ivt = s.ivt ∧ (s.withdrawGrant m).pwq = s.pwq ∧ (s.withdrawGrant m).mlc = s.mlc ∧
      (s.withdrawGrant m).mau = s.mau ∧ (s.withdrawGrant m).mnc = s.mnc ∧ (s.withdrawGrant m).pins = s.pins ∧
      (s.withdrawGrant m).clk = s.clk ∧ (s.withdrawGrant m).pending = s.pending := by
  unfold State.withdrawGrant
  split <;> exact ⟨rfl, rfl, rfl, rfl, rfl, rfl, rfl, rfl, rfl, rfl, rfl⟩

@[simp] theorem State.abandonSlot_frame (m : Master) (s : State) :
    (s.abandonSlot m).rgt = s.rgt ∧ (s.abandonSlot m).pdr = s.pdr ∧ (s.abandonSlot m).ivt = s.ivt ∧
      (s.abandonSlot m).pwq = s.pwq ∧ (s.abandonSlot m).mau = s.mau ∧ (s.abandonSlot m).mnc = s.mnc ∧
      (s.abandonSlot m).pins = s.pins ∧ (s.abandonSlot m).clk = s.clk ∧ (s.abandonSlot m).pending = s.pending := by
  exact ⟨rfl, rfl, rfl, rfl, rfl, rfl, rfl, rfl, rfl⟩

@[simp] theorem State.removeFromDirectory_frame (m : Master) (a : AttachState) (s : State) :
    (s.removeFromDirectory m a).bfe = s.bfe ∧ (s.removeFromDirectory m a).rgt = s.rgt ∧
      (s.removeFromDirectory m a).ivt = s.ivt ∧ (s.removeFromDirectory m a).pwq = s.pwq ∧
      (s.removeFromDirectory m a).mlc = s.mlc ∧ (s.removeFromDirectory m a).mau = s.mau ∧
      (s.removeFromDirectory m a).mnc = s.mnc ∧ (s.removeFromDirectory m a).pins = s.pins ∧
      (s.removeFromDirectory m a).clk = s.clk ∧ (s.removeFromDirectory m a).pending = s.pending ∧
      (s.removeFromDirectory m a).rsa.order = s.rsa.order ∧ (s.removeFromDirectory m a).pdr.walker = s.pdr.walker := by
  unfold State.removeFromDirectory
  dsimp only
  split <;> exact ⟨rfl, rfl, rfl, rfl, rfl, rfl, rfl, rfl, rfl, rfl, rfl, rfl⟩

theorem State.removeFromDirectory_sets (m : Master) (a : AttachState) (s : State) :
    (s.removeFromDirectory m a).pdr.sets = s.pdr.sets.mapRecords (LineRecord.withoutMaster m a) := by
  unfold State.removeFromDirectory
  dsimp only
  split <;> rfl

/-- m's list is empty and its timer stopped after its release from the tracker (R46). -/
theorem State.releaseFromTracker_own (m : Master) (s : State) :
    (s.releaseFromTracker m).ivt.notices = s.ivt.notices.set m [] ∧
      (s.releaseFromTracker m).ivt.timers = s.ivt.timers.set m none := by
  unfold State.releaseFromTracker
  have h := State.completeEntries_keeps
    ((s.ivt.entries.map fun e : TrackerEntry =>
      { e with targets := e.targets.erase m, sent := e.sent.erase m, acked := e.acked.erase m }).filter
        fun e => e.complete)
    (s.withIvt ⟨s.ivt.entries.map fun e : TrackerEntry =>
      { e with targets := e.targets.erase m, sent := e.sent.erase m, acked := e.acked.erase m },
      s.ivt.notices.set m [], s.ivt.timers.set m none⟩)
  exact ⟨h.2.2.2.1, h.2.2.2.2.1⟩

end Sys2Proof.Machine
end

