-- ==== Sys2Proof/Laws/Wires.lean ====
section
/-! SUPPORT. The fields and bytes of frames: writing a field as bytes and reading bytes as a field undo each other, and so
do the bits of a byte. The frame of a command names that command. -/

namespace Sys2Proof

/-- A bit of a field of two bytes is a bit of one of its bytes. -/
theorem getLsbD_field2 (b1 b0 : Byte) (i : Nat) :
    (field2 b1 b0).getLsbD i = if i < 8 then b0.getLsbD i else b1.getLsbD (i - 8) := by
  exact BitVec.getLsbD_append (x := b1) (y := b0)

/-- A bit of a field of four bytes is a bit of one of its bytes. -/
theorem getLsbD_field4 (b3 b2 b1 b0 : Byte) (i : Nat) :
    (field4 b3 b2 b1 b0).getLsbD i =
      if i < 8 then b0.getLsbD i else if i < 16 then b1.getLsbD (i - 8)
      else if i < 24 then b2.getLsbD (i - 16) else b3.getLsbD (i - 24) := by
  refine (BitVec.getLsbD_append (x := b3 ++ b2 ++ b1) (y := b0)).trans ?_
  split
  · rfl
  · refine (BitVec.getLsbD_append (x := b3 ++ b2) (y := b1)).trans ?_
    by_cases h : i < 16
    · rw [if_pos (by omega), if_pos h]
    · rw [if_neg (by omega), if_neg h]
      refine (BitVec.getLsbD_append (x := b3) (y := b2)).trans ?_
      by_cases k : i < 24
      · rw [if_pos (by omega), if_pos k]; congr 1
      · rw [if_neg (by omega), if_neg k]; congr 1

/-- The bytes of a field of 16 bits make it again. -/
theorem field2_bytes2 (w : BitVec 16) : field2 (w.extractLsb' 8 8) (w.extractLsb' 0 8) = w := by
  refine BitVec.eq_of_getLsbD_eq fun i hi => ?_
  rw [getLsbD_field2]
  simp only [BitVec.getLsbD_extractLsb']
  split
  · simp [*]
  · have : i - 8 < 8 := by omega
    have h : 8 + (i - 8) = i := by omega
    simp [this, h]

/-- The bytes of a field of 32 bits make it again. -/
theorem field4_bytes4 (w : BitVec 32) :
    field4 (w.extractLsb' 24 8) (w.extractLsb' 16 8) (w.extractLsb' 8 8) (w.extractLsb' 0 8) = w := by
  refine BitVec.eq_of_getLsbD_eq fun i hi => ?_
  rw [getLsbD_field4]
  simp only [BitVec.getLsbD_extractLsb']
  split
  · simp [*]
  · split
    · have : i - 8 < 8 := by omega
      have h : 8 + (i - 8) = i := by omega
      simp [this, h]
    · split
      · have : i - 16 < 8 := by omega
        have h : 16 + (i - 16) = i := by omega
        simp [this, h]
      · have : i - 24 < 8 := by omega
        have h : 24 + (i - 24) = i := by omega
        simp [this, h]

/-- The field that two bytes make has those bytes. -/
theorem bytes2_field2 (b1 b0 : Byte) : bytes2 (field2 b1 b0) = [b1, b0] := by
  unfold bytes2
  congr 1
  · refine BitVec.eq_of_getLsbD_eq fun i hi => ?_
    rw [BitVec.getLsbD_extractLsb', getLsbD_field2, if_neg (by omega)]
    simp [hi]
  · congr 1
    refine BitVec.eq_of_getLsbD_eq fun i hi => ?_
    rw [BitVec.getLsbD_extractLsb', getLsbD_field2, if_pos (by omega)]
    simp [hi]

/-- The field that four bytes make has those bytes. -/
theorem bytes4_field4 (b3 b2 b1 b0 : Byte) : bytes4 (field4 b3 b2 b1 b0) = [b3, b2, b1, b0] := by
  unfold bytes4
  simp only [List.cons.injEq, and_true]
  refine ⟨?_, ?_, ?_, ?_⟩ <;>
    (refine BitVec.eq_of_getLsbD_eq fun i hi => ?_
     rw [BitVec.getLsbD_extractLsb', getLsbD_field4])
  · rw [if_neg (by omega), if_neg (by omega), if_neg (by omega)]; simp [hi]
  · rw [if_neg (by omega), if_neg (by omega), if_pos (by omega)]; simp [hi]
  · rw [if_neg (by omega), if_pos (by omega)]; simp [hi]
  · rw [if_pos (by omega)]; simp [hi]

/-- The bits of a byte, clocked in first, make that byte, and the bits after it make the rest. -/
theorem bytesOfBits_bitsOfByte (b : Byte) (bits : List Bool) :
    bytesOfBits (bitsOfByte b ++ bits) = b :: bytesOfBits bits := by
  unfold bitsOfByte
  simp only [List.cons_append, List.nil_append, bytesOfBits]
  congr 1
  revert b; decide +kernel

/-! ### Command frames -/

/-- A code outside 0x01 to 0x0A names no command: its frame is one byte (R178). -/
theorem commandWith_unknown {code : Byte} (h : codeNamesCommand code = false) (args : List Byte) :
    commandWith code args = some (.unknownCommand code) ∧ commandLength code = 1 := by
  have hc : ∀ k : Byte, codeNamesCommand k = true → code ≠ k := by
    rintro k hk rfl
    rw [h] at hk
    cases hk
  have h1 := hc 0x01 (by decide)
  have h2 := hc 0x02 (by decide)
  have h3 := hc 0x03 (by decide)
  have h4 := hc 0x04 (by decide)
  have h5 := hc 0x05 (by decide)
  have h6 := hc 0x06 (by decide)
  have h7 := hc 0x07 (by decide)
  have h8 := hc 0x08 (by decide)
  have h9 := hc 0x09 (by decide)
  have h10 := hc 0x0A (by decide)
  have hs : ¬ (code = 0x02 ∨ code = 0x04 ∨ code = 0x08 ∨ code = 0x09) := by
    rintro (h | h | h | h) <;> contradiction
  unfold commandWith commandLength
  rw [if_neg h1, if_neg h5, if_neg h10, if_neg hs, if_neg h3, if_neg h6, if_neg h7, if_neg hs, if_neg h3, if_neg h6,
    if_neg h7]
  exact ⟨rfl, rfl⟩

/-- The frame of a command names it, whatever bytes come after the frame (R177, R178). -/
theorem commandOfBytes_commandFrame {c : Instr} (hw : c.wellFormed = true) (hf : commandFrame c ≠ [])
    (extra : List Byte) : commandOfBytes (commandFrame c ++ extra) = some c := by
  cases c <;> first | exact absurd rfl hf | skip
  case unknownCommand code => exact (commandWith_unknown (by simpa [Instr.wellFormed] using hw) extra).1
  all_goals simp [commandFrame, commandOfBytes, commandWith, bytes4, bytes2, field4_bytes4, field2_bytes2]

/-- The code of a frame gives its length (R178). -/
theorem commandFrame_length {c : Instr} {code : Byte} {args : List Byte} (hw : c.wellFormed = true)
    (hf : commandFrame c = code :: args) : (code :: args).length = commandLength code := by
  cases c <;> simp only [commandFrame] at hf <;> try cases hf
  all_goals first | rfl | skip
  exact (commandWith_unknown (by simpa [Instr.wellFormed] using hw) []).2.symm

end Sys2Proof
end

