-- ==== Sys2Proof/Laws/Statements.lean ====
section
/-! SUPPORT. What the operations do, said in the words that the statements use (Sys2Proof/Safety.lean). -/

namespace Sys2Proof.Machine

/-- A granted create request: the entry takes the young end, and every HELD LOCK-READ in the line gains LINE_BUSY (R33,
R67). -/
theorem State.createEntry_eq (l : LineAddr) (kind : EntryKind) (t c : MasterSet) (s : State)
    (h : s.ivt.entries.length < Config.trackerEntries) :
    s.createEntry l kind t c = some { s with
      ivt := { s.ivt with entries := s.ivt.entries ++ [⟨l, kind, t, MasterSet.empty, MasterSet.empty, c⟩] }
      rsa := s.rsa.lineTaken l } := by
  have hg : (fun (_ : Master) (sl : Slot) => if sl.phase = .held then
        (if sl.request.isLockReadIn l then { sl with waits := { sl.waits with lineBusy := true } } else sl) else sl) =
      fun _ sl => match sl.phase, sl.request with
      | .held, .lockRead w _ =>
        if lineOfWord w = l then { sl with waits := { sl.waits with lineBusy := true } } else sl
      | _, _ => sl := by
    funext _ sl
    rcases sl with ⟨ph, rq, w, a, f⟩
    cases ph <;> cases rq <;> simp [SlotRequest.isLockReadIn]
  have hf : s.trackerFull = false := by
    unfold State.trackerFull; simpa using h
  unfold State.createEntry
  rw [hf]
  exact congrArg (fun (g : Master → Slot → Slot) => some ({ s with
    ivt := { s.ivt with entries := s.ivt.entries ++ [⟨l, kind, t, MasterSet.empty, MasterSet.empty, c⟩] }
    rsa := { s.rsa with slots := PerMaster.of fun m => (s.rsa.slots.get m).map (g m) } } : State)) hg

/-! ### The completion of an entry -/

/-- HELD LOCK-READs in the line lose LINE_BUSY, and no other slot changes (R67). -/
theorem State.lockReadsReleased_eq (l : LineAddr) (s : State) :
    s.lockReadsReleased l = { s with rsa := s.rsa.completionTold l false } := by
  have hr : (s.lockReadsReleased l).rsa.slots = (s.rsa.completionTold l false).slots := by
    refine PerMaster.ext_get fun m => ?_
    unfold State.lockReadsReleased Rsa.completionTold
    rw [State.modifyHeld_get, PerMaster.get_of]
    cases h : s.rsa.slots.get m with
    | none => rfl
    | some sl =>
      rcases sl with ⟨ph, rq, w, a, f⟩
      cases ph <;> cases rq <;> simp [SlotRequest.isLockReadIn]
      split <;> rfl
  calc s.lockReadsReleased l = { s with rsa := { s.rsa with slots := (s.lockReadsReleased l).rsa.slots } } := rfl
    _ = _ := by rw [hr]; rfl

/-- The same after a full tracker, with the LOCK-WRITEs that wait for an entry told (R36). -/
theorem State.lockReadsReleased_told (l : LineAddr) (s : State) :
    ((s.lockReadsReleased l).modifyHeld fun _ sl =>
      if sl.waits.trackerWait then { sl with freeEntryTold := true } else sl) =
      { s with rsa := s.rsa.completionTold l true } := by
  have hr : ((s.lockReadsReleased l).modifyHeld fun _ sl =>
      if sl.waits.trackerWait then { sl with freeEntryTold := true } else sl).rsa.slots =
      (s.rsa.completionTold l true).slots := by
    refine PerMaster.ext_get fun m => ?_
    rw [State.modifyHeld_get, State.lockReadsReleased_eq]
    unfold Rsa.completionTold
    rw [PerMaster.get_of, PerMaster.get_of]
    cases h : s.rsa.slots.get m with
    | none => rfl
    | some sl =>
      rcases sl with ⟨ph, rq, w, a, f⟩
      cases ph <;> cases rq <;> cases hw : w.trackerWait <;> simp [hw]
      all_goals (split <;> simp [hw])
  calc _ = { s with rsa := { s.rsa with slots := ((s.lockReadsReleased l).modifyHeld fun _ sl =>
      if sl.waits.trackerWait then { sl with freeEntryTold := true } else sl).rsa.slots } } := rfl
    _ = _ := by rw [hr]; rfl

/-! ### A master that leaves -/

theorem MasterSet.isEmpty_iff_all (v : MasterSet) : v.isEmpty = true ↔ ∀ k ∈ Master.all, v.get k = false := by
  rw [MasterSet.isEmpty_iff]
  exact ⟨fun h k _ => h k, fun h k => h k (Master.mem_all k)⟩

/-- What a record is without m is what it is after m has left (R8, R19, R26, R27). -/
theorem LineRecord.withoutMaster_eq (m : Master) (a : AttachState) :
    LineRecord.withoutMaster m a = LineRecord.afterLeaving m a := by
  funext r
  have hp : pendingWithout m a r.pending = if a = .inReset then r.pending.filter fun p => p.master != m
      else r.pending.map fun p => if p.master = m then { p with spoiled := true } else p := rfl
  have hst : r.status.withoutClaimant m = (match r.status with
      | .evicting (some su) =>
        .evicting (if ∀ k ∈ su.claimants, k = m then none
          else some { su with claimants := su.claimants.filter fun k => k != m })
      | st => st) := by
    cases r.status with
    | shared => rfl
    | invalidating => rfl
    | evicting su =>
      cases su with
      | none => rfl
      | some su =>
        unfold RecordStatus.withoutClaimant
        dsimp only
        by_cases h : ∀ k ∈ su.claimants, k = m
        · rw [if_pos h, if_pos]
          simpa [List.isEmpty_iff] using h
        · rw [if_neg h, if_neg]
          simpa [List.isEmpty_iff] using h
  unfold LineRecord.withoutMaster LineRecord.afterLeaving LineRecord.unlessEmpty
  dsimp only
  rw [hp, hst]
  congr 1
  simp only [LineRecord.isLeftEmpty, Bool.and_eq_true, MasterSet.isEmpty_iff_all, beq_iff_eq, List.isEmpty_iff,
    and_assoc]
  rfl

/-- A claimant's slot told of its demotion (R27, R70). -/
theorem State.modifySlot_claimantTold (m : Master) (s : State) :
    (s.modifySlot m fun sl =>
      if sl.phase = .held ∧ sl.waits.wayWait = true then Slot.afterLookup .demoted sl else sl) =
      { s with rsa := s.rsa.claimantTold m } := by
  have h : (fun sl : Slot => if sl.phase = .held ∧ sl.waits.wayWait = true then Slot.afterLookup .demoted sl else sl) =
      fun sl => if sl.phase = .held ∧ sl.waits.wayWait = true then { sl with
          request :=
            match sl.request with
            | .readLine l p _ => .readLine l p .uncached
            | q => q
          waits := { sl.waits with lineBusy := false, wayWait := false } }
        else sl := by
    funext sl
    split
    · unfold Slot.afterLookup
      rcases sl with ⟨_, rq, _, _, _⟩
      cases rq <;> rfl
    · rfl
  rw [h]
  rfl

/-- The directory's part of the passage of m to ISOLATED or IN_RESET (R26, R27). -/
theorem State.removeFromDirectory_eq (m : Master) (a : AttachState) (s : State)
    (ha : a = .isolated ∨ a = .inReset) :
    s.removeFromDirectory m a = { s with
      pdr := { s.pdr with sets := s.pdr.sets.mapRecords fun r => r.afterLeaving m a }
      rsa := if a = .isolated then s.rsa.claimantTold m else s.rsa } := by
  unfold State.removeFromDirectory
  dsimp only
  rw [LineRecord.withoutMaster_eq]
  rcases ha with rfl | rfl
  · rw [if_pos rfl, if_pos rfl, State.modifySlot_claimantTold]
    rfl
  · rw [if_neg (by decide), if_neg (by decide)]
    rfl

/-- The lock that m holds becomes free (R106, R136). -/
theorem State.releaseLockOf_held {m : Master} {k : BusLock} {s : State} (h : s.bfe.lock = some k) (hm : k.holder = m) :
    s.releaseLockOf m = { s with rsa := s.rsa.lockFreed, bfe := { s.bfe with lock := none } } := by
  unfold State.releaseLockOf
  rw [h]
  dsimp only
  rw [if_pos hm]
  rfl

theorem State.releaseLockOf_free {m : Master} {s : State} (h : ∀ k, s.bfe.lock = some k → k.holder ≠ m) :
    s.releaseLockOf m = s := by
  unfold State.releaseLockOf
  split
  · rename_i k hk
    rw [if_neg (h k hk)]
  · rfl

/-! ### The visits of the walker -/

/-- A visit after a pause examines the way it paused on, as it then stands (R127). -/
theorem State.visitPaused_found {i : Nat} {p : Pause} {r : LineRecord} {s : State}
    (h : s.pdr.sets.recordAt i p.way = some r) : s.visitPaused i p = s.examine i r := by
  unfold State.visitPaused
  rw [h]

/-- A way that a pause with EVICTING finds FREE is finished with (R126). -/
theorem State.visitPaused_freed {i : Nat} {p : Pause} {s : State} (h : s.pdr.sets.recordAt i p.way = none)
    (hr : p.reason = .evicting) : s.visitPaused i p = s.finishWay p.way := by
  unfold State.visitPaused
  rw [h]
  dsimp only
  rw [if_pos hr]

/-- One found FREE after another pause is passed over (log 11). -/
theorem State.visitPaused_passed {i : Nat} {p : Pause} {s : State} (h : s.pdr.sets.recordAt i p.way = none)
    (hr : p.reason ≠ .evicting) : s.visitPaused i p = s.visitNext i := by
  unfold State.visitPaused
  rw [h]
  dsimp only
  rw [if_neg hr]

/-! ### The maintenance port -/

/-- A well-formed command with a frame is taken exactly while a command frame is being shifted in (R177, R178). -/
theorem State.takes_iff {c : Instr} (hw : c.wellFormed = true) (hf : commandFrame c ≠ []) (s : State) :
    s.takes c = true ↔ s.mnc.port = .receiving := by
  have h := commandOfBytes_commandFrame hw hf []
  rw [List.append_nil] at h
  simp [State.takes, h]

/-- A command taken: its effect, and its response in the port (R177). -/
theorem State.takeCommand_taken {c : Instr} {f : State → State × List Byte} {s : State} (hw : c.wellFormed = true)
    (hf : commandFrame c ≠ []) (hp : s.mnc.port = .receiving) :
    s.takeCommand c f =
      .next ((f s.atEvent).1.setPort (.responding (commandFrame c) (f s.atEvent).2 false)) := by
  unfold State.takeCommand
  dsimp only
  rw [if_pos (show s.atEvent.takes c = true from (State.takes_iff hw hf _).2 hp)]

/-- Outside the command part of a transaction nothing is taken (R177; log 8). -/
theorem State.takeCommand_ignored {c : Instr} {f : State → State × List Byte} {s : State}
    (hp : s.mnc.port ≠ .receiving) : s.takeCommand c f = .next s.atEvent := by
  unfold State.takeCommand State.takes
  dsimp only
  rw [if_neg]
  intro h
  simp only [Bool.and_eq_true, beq_iff_eq] at h
  exact hp h.1

/-- A command whose code names another command is not taken as this one (R178; log 18). -/
theorem State.takeCommand_misnamed {c : Instr} {f : State → State × List Byte} {s : State}
    (h : commandOfBytes (commandFrame c) ≠ some c) : s.takeCommand c f = .next s.atEvent := by
  unfold State.takeCommand State.takes
  dsimp only
  rw [if_neg]
  intro k
  simp only [Bool.and_eq_true, beq_iff_eq] at k
  exact h k.2

end Sys2Proof.Machine
end

