-- ==== Sys2Proof/Tests/Slice0.lean ====
section
/-! SUPPORT. The model's own tests: ill-formed terms, one or two steps of each command on a small state, and for each
obligation with premises a theorem that shows concrete values that meet them. -/

namespace Sys2Proof.Tests

open Sys2Proof.Machine

/-! ### Ill-formed terms -/

/-- A request with nothing but an address and a raised request line. -/
def req (sa : Addr) : RequestLines := ⟨true, sa, 0#4, 0#32, 0#4⟩

/-- A write of byte position 0. -/
def byteWrite (sa : Addr) (b : Byte) (parity : Bool) : RequestLines :=
  ⟨true, sa, 1#4, b.setWidth 32, if parity then 1#4 else 0#4⟩

theorem test_malformedRequest_of_a_kind_is_illFormed :
    (Instr.malformedRequest 0#3 (req 0)).wellFormed = false ∧ (Instr.malformedRequest 5#3 (req 0)).wellFormed = false ∧
      (Instr.malformedRequest 6#3 (req 0)).wellFormed = true ∧
      (Instr.malformedRequest 7#3 (req 0)).wellFormed = true := by decide

theorem test_unknownCommand_of_a_command_is_illFormed :
    (Instr.unknownCommand 1).wellFormed = false ∧ (Instr.unknownCommand 10).wellFormed = false ∧
      (Instr.unknownCommand 0).wellFormed = true ∧ (Instr.unknownCommand 11).wellFormed = true := by decide

/-- Words written out from section 10.2: byte 0 lowest, fields most significant byte first. -/
theorem test_words_spell_their_commands :
    decodeTableWord 8 0x01 = some .getStatus ∧ decodeTableWord 16 0x0702 = some (.getRegion 7) ∧
      decodeTableWord 88 0x01_02000000_00100000_0703 = some (.setRegion 7 0x1000 2 1) ∧
      decodeTableWord 16 0x0304 = some (.retireRegion 3) ∧ decodeTableWord 8 0x05 = some .sweep ∧
      decodeTableWord 32 0x05_FF03_06 = some (.getRecord 0x3FF 5) ∧
      decodeTableWord 48 0x04_0002_0040_07 = some (.setLimits 0x4000 0x0200 4) ∧
      decodeTableWord 16 0x0208 = some (.isolate 2) ∧ decodeTableWord 16 0x0309 = some (.join 3) ∧
      decodeTableWord 8 0x0A = some .takeError ∧ decodeTableWord 8 0x00 = some (.unknownCommand 0) ∧
      decodeTableWord 8 0xFF = some (.unknownCommand 0xFF) := by decide

/-- No bits, part of a byte, and fewer or more bytes than the frame has spell nothing. -/
theorem test_words_that_are_no_frame :
    decodeTableWord 8 0x02 = none ∧ decodeTableWord 8 0x08 = none ∧ decodeTableWord 16 0x0006 = none ∧
      decodeTableWord 24 0x000008 = none ∧ State.reset.withFetchWord 8 0x08 = State.reset ∧ decodeTableWord 0 0x01 = none ∧
      decodeTableWord 4 0x01 = none ∧
      decodeTableWord 12 0x001 = none ∧ decodeTableWord 16 0x0001 = none ∧
      State.reset.withFetchWord 16 0x0001 = State.reset ∧
      (State.reset.withFetchWord 8 0x01).pending = [.getStatus] := by decide

/-! ### Small states -/

/-- The next state, where there is one. -/
def nextOf (o : Host.Outcome State Fault Refusal) : Option State :=
  match o with
  | .next t => some t
  | .fault _ | .refused _ => none

def start : State := State.reset

def granted (m : Master) (s : State) : State := { s with bfe := { s.bfe with grant := some m } }

def locked (m : Master) (w : WordAddr) (d : Option Nat) (s : State) : State :=
  { s with bfe := { s.bfe with lock := some ⟨m, w, d⟩ } }

def holding (m : Master) (sl : Slot) (s : State) : State :=
  { s with rsa := ⟨s.rsa.slots.set m (some sl), s.rsa.order ++ [m]⟩ }

def region (n : Fin 8) (r : Region) (s : State) : State := { s with rgt := s.rgt.set n (some r) }

/-- A tracked region of the first page. -/
def tracked (s : State) : State := region 0 ⟨.active, 0, 1, .tracked⟩ s

def device (s : State) : State := region 0 ⟨.active, 0, 1, .device⟩ s

def recording (rs : DirectorySet) (s : State) : State := { s with pdr := { s.pdr with sets := [(0, rs)] } }

def noticing (es : List TrackerEntry) (s : State) : State := { s with ivt := { s.ivt with entries := es } }

def queued (q : List QueueEntry) (s : State) : State := { s with pwq := q }

def flying (l : List InFlight) (s : State) : State := { s with mlc := { s.mlc with inFlight := l } }

def attached (m : Master) (a : AttachState) (s : State) : State :=
  { s with mau := { s.mau with attach := s.mau.attach.set m a } }

def selected (s : State) : State := { s with mnc := { s.mnc with port := .receiving } }

def walking (w : Walker) (s : State) : State := { s with pdr := { s.pdr with walker := w } }

def replying (rs : List Reply) (s : State) : State := { s with bfe := { s.bfe with replies := rs } }

def only (m : Master) : MasterSet := MasterSet.single m

def noBytes : Lanes := ⟨none, none, none, none⟩

/-- A record of line 32 × 1024 × tag in set 0. -/
def aRecord (way : Way) (tag : Tag) (st : RecordStatus) (sh : MasterSet) (ps : List PendingFill) : LineRecord :=
  ⟨way, tag, st, sh, ps⟩

/-- A tracker entry for the line of a tag in set 0. -/
def entry (tag : Tag) (k : EntryKind) (targets : MasterSet) : TrackerEntry :=
  ⟨lineOfTag tag 0, k, targets, MasterSet.empty, MasterSet.empty, MasterSet.empty⟩

/-- Sixteen entries for lines of set 0 that hold no record in these tests. -/
def fullTracker : List TrackerEntry :=
  (List.range 16).map fun k => entry (BitVec.ofNat 17 (100 + k)) .evict (only .m3)

/-- A full set of records of tags 0 to 7, each treated by a function of its way. -/
def fullSet (st : RecordStatus) (sh : MasterSet) (ps : List PendingFill) : DirectorySet :=
  ([0, 1, 2, 3, 4, 5, 6, 7] : List Way).map fun w => ⟨w, BitVec.ofNat 17 w.val, st, sh, ps⟩

def completion (stat : BitVec 5) : CompletionLines := ⟨0#2, stat, Vector.replicate 8 7#32⟩

/-! ### One step of each command -/

theorem test_step_takes_the_front_command :
    (nextOf (step { start with pending := [.spiSelect, .sendEvent] })).map (fun t => (t.pending, t.mnc.port)) =
      some ([.sendEvent], .receiving) := by decide

theorem test_step_idles : (nextOf (step start)).map State.clk = some 1 := by decide

theorem test_chipReset :
    (nextOf (exec (.chipReset ⟨true, false, true, true⟩ ⟨false, false, true, false⟩) (granted .m1 start))).map
      (fun t => (t.bfe.grant, t.mau.attach, t.atEvent.mau.attach.get .m2)) =
      some (none, ⟨.online, .absent, .online, .online⟩, .inReset) := by decide

theorem test_grant_rotates :
    (nextOf (exec (.grant ⟨true, false, true, false⟩) { start with bfe := { start.bfe with pointer := .m0 } })).map
      (fun t => (t.bfe.grant, t.bfe.pointer)) = some (some .m2, .m2) := by decide

theorem test_grant_prefers_the_refused :
    (nextOf (exec (.grant ⟨true, false, true, false⟩)
      { start with bfe := { start.bfe with pointer := .m0, retryList := [.m3, .m0] } })).map
      (fun t => (t.bfe.grant, t.bfe.retryList)) = some (some .m0, [.m3]) := by decide

theorem test_read_is_held :
    (nextOf (exec (.read (req 7)) (granted .m1 start))).map (fun t => (t.rsa.slots.get .m1, t.rsa.order)) =
      some (some ⟨.held, .read 1 .uncached, WaitReasons.none, none, false⟩, [.m1]) := by decide

theorem test_readLine_installs_way_0 :
    (nextOf (exec (.readLine (req 31)) (granted .m1 (tracked start)))).map (fun t => t.pdr.sets) =
      some [(0, [⟨0, 0, .shared, MasterSet.empty, [⟨.m1, .waiting, false⟩]⟩])] := by decide

theorem test_write_is_posted :
    (nextOf (exec (.write (byteWrite 4 3#8 false)) (granted .m1 start))).map (fun t => (t.pwq, t.bfe.replies)) =
      some ([⟨1, ⟨some 3#8, none, none, none⟩, .m1, .waiting, 0⟩], [⟨.m1, .answer .done⟩]) := by decide

theorem test_write_of_bad_parity_is_recorded :
    (nextOf (exec (.write (byteWrite 4 3#8 true)) (granted .m1 start))).map (fun t => (t.pwq, t.mnc.errors)) =
      some ([], [⟨.writeParity, .m1, some 4⟩]) := by decide

theorem test_lockRead_is_held :
    (nextOf (exec (.lockRead (req 4)) (granted .m1 start))).map (fun t => t.rsa.slots.get .m1) =
      some (some ⟨.held, .lockRead 1 .uncached, WaitReasons.none, none, false⟩) := by decide

theorem test_lockWrite_joins_the_pair :
    (nextOf (exec (.lockWrite (byteWrite 4 3#8 false)) (granted .m1 (locked .m1 1 (some 9) start)))).map
      (fun t => (t.bfe.lock, (t.rsa.slots.get .m1).map Slot.phase)) =
      some (some ⟨.m1, 1, none⟩, some .held) := by decide

theorem test_lockWrite_of_another_word_breaks_the_lock :
    (nextOf (exec (.lockWrite (byteWrite 8 3#8 false)) (granted .m1 (locked .m1 1 (some 9) start)))).map
      (fun t => (t.bfe.lock, t.mnc.errors)) = some (none, [⟨.lockBroken, .m1, some 4⟩]) := by decide

theorem test_sync_waits_for_the_entry_of_its_master :
    (nextOf (exec (.sync (req 0)) (granted .m1 (queued [⟨1, noBytes, .m1, .waiting, 0⟩] start)))).map
      (fun t => (t.rsa.slots.get .m1).map fun sl => (sl.phase, sl.waits.syncWait)) =
      some (some (.held, true)) := by decide

theorem test_malformedRequest_is_answered_err :
    (nextOf (exec (.malformedRequest 6#3 (req 6)) (granted .m1 start))).map (fun t => (t.bfe.replies, t.mnc.errors)) =
      some ([⟨.m1, .answer .err⟩], [⟨.requestMalformed, .m1, some 4⟩]) := by decide

theorem test_requestLineFall_withdraws_the_grant :
    (nextOf (exec (.requestLineFall .m1) (granted .m1 start))).map (fun t => t.bfe.grant) = some none := by decide

theorem test_replySend_drives_the_word_with_parity :
    (nextOf (exec .replySend (replying [⟨.m1, .answer (.word 0x00000101)⟩] start))).map (fun t => t.pins.srb) =
      some (some ⟨.m1, 0, none, [(0x00000101, 3#4)]⟩) := by decide

theorem test_issueEvent_prefers_a_read :
    (nextOf (exec (.issueEvent true) (holding .m1 (Slot.held (.read 1 .uncached) WaitReasons.none)
      (queued [⟨2, noBytes, .m0, .waiting, 0⟩] start)))).map
      (fun t => (t.mlc.inFlight, t.pwq.map QueueEntry.count)) =
      some ([⟨0, .rdWord, 1, .read .m1, false⟩], [1]) := by decide

theorem test_issueEvent_without_mrdy :
    (nextOf (exec (.issueEvent false) (queued [⟨2, noBytes, .m0, .waiting, 0⟩] start))).map
      (fun t => t.mlc.inFlight) = some [] := by decide

theorem test_mrlCompletion_of_a_short_word_read_fails :
    (nextOf (exec (.mrlCompletion (completion 5#5)) (holding .m1 ⟨.issued, .read 1 .uncached, WaitReasons.none, none,
      false⟩ (flying [⟨0, .rdWord, 1, .read .m1, false⟩] start)))).map (fun t => (t.bfe.replies, t.mnc.errors)) =
      some ([⟨.m1, .answer .err⟩], [⟨.memReadFail, .m1, some 4⟩]) := by decide

theorem test_mrlCompletion_of_a_queued_write :
    (nextOf (exec (.mrlCompletion (completion 0#5)) (queued [⟨2, noBytes, .m0, .issued, 0⟩]
      (flying [⟨0, .wrWord, 2, .queue .m0, false⟩] start)))).map (fun t => (t.pwq, t.mlc.inFlight)) =
      some ([], []) := by decide

theorem test_sendEvent_starts_the_timer :
    (nextOf (exec .sendEvent (noticing [entry 1 .write (only .m2)] start))).map
      (fun t => (t.ivt.notices.get .m2, t.ivt.timers.get .m2)) =
      some ([lineOfTag 1 0], some 4096) := by decide

theorem test_acknowledge_completes_the_entry :
    (nextOf (exec (.acknowledge .m2) (recording [aRecord 0 1 .invalidating (only .m2) []]
      { start with ivt := ⟨[{ entry 1 .write (only .m2) with sent := only .m2 }],
        start.ivt.notices.set .m2 [lineOfTag 1 0], start.ivt.timers.set .m2 (some 5)⟩ }))).map
      (fun t => (t.ivt.entries, t.pdr.sets, t.ivt.timers.get .m2)) = some ([], [], none) := by decide

theorem test_stray_acknowledge :
    (nextOf (exec (.acknowledge .m2) start)).map (fun t => t.mnc.errors) = some [⟨.strayAck, .m2, none⟩] := by decide

theorem test_timerExpiry_isolates :
    (nextOf (exec (.timerExpiry .m2)
      { start with ivt := ⟨[{ entry 1 .evict (only .m2) with sent := only .m2 }],
        start.ivt.notices.set .m2 [lineOfTag 1 0], start.ivt.timers.set .m2 (some 5)⟩ })).map
      (fun t => (t.mau.attach.get .m2, t.mnc.errors, t.ivt.entries, t.clk)) =
      some (.isolated, [⟨.invalidationTimeout, .m2, some 0x8000⟩], [], 5) := by decide

theorem test_lockTimeout :
    (nextOf (exec .lockTimeout (locked .m1 1 (some 9) start))).map (fun t => (t.bfe.lock, t.mnc.errors)) =
      some (none, [⟨.lockTimeout, .m1, some 4⟩]) := by decide

theorem test_resetNoticeRise_empties_the_slot :
    (nextOf (exec (.resetNoticeRise .m1) (holding .m1 (Slot.held .sync WaitReasons.none) start))).map
      (fun t => (t.mau.attach.get .m1, t.rsa.slots.get .m1, t.rsa.order)) = some (.inReset, none, []) := by decide

theorem test_resetNoticeFall :
    (nextOf (exec (.resetNoticeFall .m1) (attached .m1 .inReset start))).map (fun t => t.mau.attach.get .m1) =
      some .online := by decide

theorem test_walkerVisit_evicts :
    (nextOf (exec .walkerVisit (walking ⟨.sweeping, some 0, [], none, 0, false⟩
      (recording [aRecord 3 1 .shared (only .m2) []] start)))).map
      (fun t => (t.ivt.entries, t.pdr.walker.outstanding, t.pdr.walker.visited)) =
      some ([entry 1 .walk (only .m2)], 1, [3]) := by decide

theorem test_trackerWaitRetry :
    (nextOf (exec (.trackerWaitRetry .m1) (holding .m1 ⟨.held, .lockWrite 1 (some (.tracked .active)) noBytes,
      { WaitReasons.none with trackerWait := true }, none, true⟩ start))).map
      (fun t => (t.rsa.slots.get .m1).map fun sl => (sl.waits, sl.freeEntryTold)) =
      some (some (WaitReasons.none, false)) := by decide

theorem test_spiSelect_and_deselect :
    (nextOf (exec .spiSelect start)).map (fun t => t.mnc.port) = some .receiving ∧
      (nextOf (exec .deselect (selected start))).map (fun t => t.mnc.port) = some .idle := by decide

theorem test_responseEnd_removes_the_record :
    (nextOf (exec .responseEnd { start with mnc := { start.mnc with
      errors := [⟨.strayAck, .m0, none⟩], overflow := true, port := .responding [0x0A] [0] true } })).map
      (fun t => (t.mnc.errors, t.mnc.overflow, t.mnc.port)) = some ([], false, .ended) := by decide

theorem test_getStatus_after_reset :
    (nextOf (exec .getStatus (selected start))).map (fun t => t.mnc.port) =
      some (.responding [1] [0, 1, 1, 1, 1, 0xFF, 0, 0, 0, 0, 0, 0, 0, 0, 0, 0] false) := by decide

theorem test_getRegion :
    (nextOf (exec (.getRegion 0) (selected (device start)))).map (fun t => t.mnc.port) =
      some (.responding [2, 0] [0, 1, 0, 0, 0, 0, 0, 0, 0, 1, 2] false) := by decide

theorem test_setRegion :
    (nextOf (exec (.setRegion 7 0x1000 2 1) (selected start))).map (fun t => (t.mnc.port, t.rgt[7])) =
      some (.responding [3, 7, 0, 0, 0x10, 0, 0, 0, 0, 2, 1] [0] false, some ⟨.active, 0x1000, 2, .uncached⟩) := by decide

theorem test_setRegion_overlap :
    (nextOf (exec (.setRegion 7 0 1 1) (selected (tracked start)))).map (fun t => (t.mnc.port, t.rgt[7])) =
      some (.responding [3, 7, 0, 0, 0, 0, 0, 0, 0, 1, 1] [3] false, none) := by decide

theorem test_retireRegion :
    (nextOf (exec (.retireRegion 0) (selected (tracked start)))).map (fun t => (t.mnc.port, t.pdr.walker.mode)) =
      some (.responding [4, 0] [0] false, .retiring 0) := by decide

theorem test_sweep :
    (nextOf (exec .sweep (selected start))).map (fun t => (t.mnc.port, t.pdr.walker.set)) =
      some (.responding [5] [0] false, some 0) := by decide

theorem test_getRecord :
    (nextOf (exec (.getRecord 0 3) (selected (recording [aRecord 3 1 .shared (only .m2) []] start)))).map
      (fun t => t.mnc.port) =
      some (.responding [6, 0, 0, 3] ([0, 1, 0, 0, 0x80, 0, 1, 2, 0xFF, 0xFF, 0xFF, 0] ++ List.replicate 12 0xFF ++
        [1, 0, 0, 0, 0, 0, 0, 0xFF, 0xFF, 0xFF, 0xFF]) false) := by decide

theorem test_getRecord_of_a_free_way :
    (nextOf (exec (.getRecord 1023 7) (selected start))).map (fun t => t.mnc.port) =
      some (.responding [6, 3, 0xFF, 7] ([0, 0, 0, 0, 0, 0, 0, 0xFF, 0xFF, 0xFF, 0xFF, 0] ++ List.replicate 12 0xFF ++
        [0, 0, 0, 0, 0, 0, 0, 0xFF, 0xFF, 0xFF, 0xFF]) false) := by decide

theorem test_setLimits :
    (nextOf (exec (.setLimits 64 65535 15) (selected start))).map
      (fun t => (t.mnc.port, t.mnc.invalidationTimeout, t.mnc.lockTimeout, t.mnc.bypassLimit)) =
      some (.responding [7, 0, 64, 0xFF, 0xFF, 15] [0] false, 64, 65535, 15) := by decide

theorem test_isolate :
    (nextOf (exec (.isolate 3) (selected start))).map (fun t => (t.mnc.port, t.mau.attach.get .m3)) =
      some (.responding [8, 3] [0] false, .isolated) := by decide

theorem test_join :
    (nextOf (exec (.join 3) (selected (attached .m3 .isolated start)))).map
      (fun t => (t.mnc.port, t.mau.attach.get .m3)) = some (.responding [9, 3] [0] false, .online) := by decide

theorem test_takeError :
    (nextOf (exec .takeError { (selected start) with mnc := { (selected start).mnc with
      errors := [⟨.lockTimeout, .m3, some 0x10203040⟩] } })).map (fun t => (t.mnc.port, t.mnc.errors.length)) =
      some (.responding [10] [0, 1, 7, 3, 1, 0x10, 0x20, 0x30, 0x40] true, 1) := by decide

theorem test_unknownCommand :
    (nextOf (exec (.unknownCommand 11) (selected start))).map (fun t => t.mnc.port) =
      some (.responding [11] [4] false) := by decide

/-! ### The wires -/

/-- The bits of a SET-LIMITS frame and of the byte that its response takes, and a frame cut short. -/
theorem test_bits_spell_a_transaction :
    transactionCommands (([7, 0, 64, 0xFF, 0xFF, 15, 0] : List Byte).flatMap bitsOfByte) =
        [.spiSelect, .setLimits 64 0xFFFF 15, .responseEnd, .deselect] ∧
      transactionCommands (([7, 0, 64, 0xFF, 0xFF] : List Byte).flatMap bitsOfByte) = [.spiSelect, .deselect] := by
  decide

/-- The byte 0x02 as it crosses SPI_SDI. -/
theorem test_bits_stand_most_significant_first :
    bytesOfBits [false, false, false, false, false, false, true, false] = [2] := by decide

theorem test_skind_names_the_kind (r : RequestLines) :
    requestCommand 3#3 r = .lockRead r ∧ (Instr.lockRead r).skind = some 3#3 := ⟨rfl, rfl⟩

/-- Byte positions 0 and 2 of a WR-WORD. -/
theorem test_linkRequest_lays_out_its_bytes :
    (linkRequest 1#2 .wrWord 5 (some ⟨some 0x81, none, some 1, none⟩)).mkind = 3#2 ∧
      (linkRequest 1#2 .wrWord 5 (some ⟨some 0x81, none, some 1, none⟩)).mben = some 5#4 ∧
      ((linkRequest 1#2 .wrWord 5 (some ⟨some 0x81, none, some 1, none⟩)).mwd.map fun d =>
        [d[0], d[1], d[7], d[8], d[16], d[17]]) =
        some [some true, some false, some true, none, some true, some false] := by decide

/-- SPI_SDO over a SWEEP: its frame, its response, and what is clocked after it. -/
theorem test_sdo : ([0, 1, 2].map (Port.responding [5] [1] false).sdo) = [some 0, some 1, some 0] := by decide

/-! ### Visits after a pause -/

/-- A sweep that waited for way 3: it is examined first though way 1 is older; FREE, it is finished with after a pause with
EVICTING, and passed over after one with PENDING. -/
theorem test_visit_after_a_pause :
    let s (reason : PauseReason) (rs : DirectorySet) : State :=
      walking ⟨.sweeping, some 0, [], some ⟨3, reason, true⟩, 0, false⟩ (recording rs start)
    let a := aRecord 1 1 .shared (only .m2) []
    let b := aRecord 3 2 .shared (only .m1) []
    (nextOf (exec .walkerVisit (s .evicting [a, b]))).map (fun t => (t.pdr.walker.visited, t.ivt.entries)) =
        some ([3], [entry 2 .walk (only .m1)]) ∧
      (nextOf (exec .walkerVisit (s .evicting [a]))).map (fun t => (t.pdr.walker.visited, t.ivt.entries)) =
        some ([3], []) ∧
      (nextOf (exec .walkerVisit (s .pending [a]))).map (fun t => (t.pdr.walker.visited, t.ivt.entries)) =
        some ([1], [entry 1 .walk (only .m2)]) := by decide

/-! ### Concrete values that meet the premises of the obligations -/

theorem start_presents (m : Master) (s : State) (h : s.bfe.lock = none) (sa : Addr) :
    (granted m s).Presents m (req sa) := ⟨rfl, rfl, h⟩

theorem write_presents (m : Master) (s : State) (h : s.bfe.lock = none) (sa : Addr) (b : Byte) (p : Bool) :
    (granted m s).Presents m (byteWrite sa b p) := ⟨rfl, rfl, h⟩

theorem byte3_good : (byteWrite 4 3#8 false).Good ∧ (byteWrite 4 3#8 false).sben ≠ 0#4 := by
  refine ⟨?_, by decide⟩
  intro k hk h
  have hk' : k = 0 ∨ k = 1 ∨ k = 2 ∨ k = 3 := by omega
  rcases hk' with rfl | rfl | rfl | rfl
  · unfold RequestLines.GoodAt
    decide
  all_goals exact absurd h (by decide)

theorem byte3_bad : ¬ (byteWrite 4 3#8 true).Good := by
  intro h
  have h0 := h 0 (by omega) (by decide)
  unfold RequestLines.GoodAt at h0
  exact absurd h0 (by decide)

/-- A set alone in the directory is the canonical form when its own records are. -/
theorem recording_canonical (s : State) (rs : DirectorySet) (hne : rs ≠ []) (hw : (rs.map LineRecord.way).Nodup)
    (ht : (rs.map LineRecord.tag ++ rs.filterMap fun r => r.successor.map Successor.tag).Nodup) :
    DirectoryCanonical (recording rs s) := by
  refine ⟨?_, ?_⟩
  · show Directory.wf [(0, rs)] = true
    rw [Directory.wf_cons_iff]
    exact ⟨by decide, hne, by simp [Directory.Above], rfl⟩
  · intro i
    show ((Directory.get [(0, rs)] i).map LineRecord.way).Nodup ∧ _
    rw [show (recording rs s).pdr.sets.get i = Directory.get [(0, rs)] i from rfl, Directory.get_cons]
    split
    · exact ⟨hw, ht⟩
    · exact ⟨by simp [Directory.get], by simp [Directory.get]⟩

theorem witness_StepRunsTheFrontCommand :
    ({ start with pending := [.sweep] } : State).pending = .sweep :: [] ∧ start.pending = [] := ⟨rfl, rfl⟩

/-- A grantable master by rotation, one from the list, and none. -/
theorem witness_GrantGoesToTheChosenMaster :
    GrantChoice { start.atEvent with pins := { start.pins.quiet with sreq := only .m1 } } .m1 ∧
      GrantChoice { start.atEvent with
        bfe := { start.bfe with retryList := [.m2] }, pins := { start.pins.quiet with sreq := only .m2 } } .m2 ∧
      (∀ m, ¬ Grantable { start.atEvent with pins := { start.pins.quiet with sreq := MasterSet.empty } } m) ∧
      start.bfe.grant = none ∧ (granted .m0 start).bfe.grant ≠ none := by
  refine ⟨Or.inr ⟨(fun _ hk => nomatch hk), ?_⟩, Or.inl ?_, ?_, rfl, by decide⟩
  · refine ⟨⟨rfl, rfl, (fun _ hr => nomatch hr), Or.inl rfl, fun _ hk => nomatch hk⟩, [.m0],
      [.m2, .m3], rfl, ?_⟩
    intro k hk h
    have hk' : k = .m0 := by simpa using hk
    subst hk'
    exact absurd h.1 (by decide)
  · exact ⟨⟨rfl, rfl, (fun _ hr => nomatch hr), Or.inl rfl, fun _ hk => nomatch hk⟩, [], [], rfl,
      fun _ hk => nomatch hk⟩
  · intro m h
    cases m <;> exact absurd h.1 (by decide)

/-- No grant; a grant whose line fell; another master's lock. -/
theorem witness_TransferNeedsGrantAndLock :
    (Instr.sync (req 0)).requestLines = some (req 0) ∧ (Instr.sync (req 0)).wellFormed = true ∧
      start.bfe.grant = none ∧ (granted .m0 start).bfe.grant = some .m0 ∧
      (Instr.sync ⟨false, 0, 0, 0, 0⟩).requestLines = some ⟨false, 0, 0, 0, 0⟩ ∧
      (granted .m0 (locked .m1 1 none start)).bfe.lock = some ⟨.m1, 1, none⟩ ∧ Master.m1 ≠ .m0 := by decide

theorem witness_HoldersOtherRequestBreaksTheLock :
    (Instr.read (req 4)).requestLines = some (req 4) ∧ (Instr.read (req 4)).wellFormed = true ∧
      (∀ q, Instr.read (req 4) ≠ .lockWrite q) ∧ (granted .m1 (locked .m1 1 (some 9) start)).bfe.grant = some .m1 ∧
      (req 4).sreq = true ∧ (granted .m1 (locked .m1 1 (some 9) start)).bfe.lock = some ⟨.m1, 1, some 9⟩ :=
  ⟨rfl, rfl, (fun _ h => nomatch h), rfl, rfl, rfl⟩

/-- One region entry, of one page at 0, is a sound table. -/
theorem tracked_sound (s : State) (h : s.rgt = start.rgt) (hw : s.pdr.walker.mode = .idle) :
    RegionsSound (tracked s) := by
  have hr : (tracked s).rgt = start.rgt.set 0 (some ⟨.active, 0, 1, .tracked⟩) := by
    show s.rgt.set 0 _ = _
    rw [h]
  have hg : ∀ n : Fin 8, (tracked s).rgt[n] = if n = 0 then some ⟨.active, 0, 1, .tracked⟩ else none := by
    rw [hr]
    decide
  refine ⟨?_, ?_, ?_⟩
  · intro n r hn
    rw [hg] at hn
    split at hn
    · cases hn
      exact ⟨by decide, by decide, by decide, by decide, by intro h; cases h⟩
    · cases hn
  · intro n k hnk r q hn hk
    rw [hg] at hn hk
    split at hn
    · split at hk
      · rename_i h1 h2
        exact absurd (h1.trans h2.symm) hnk
      · cases hk
    · cases hn
  · intro n
    constructor
    · rintro ⟨r, hn, hs⟩
      rw [hg] at hn
      split at hn
      · cases hn
        cases hs
      · cases hn
    · intro hm
      rw [show (tracked s).pdr.walker.mode = s.pdr.walker.mode from rfl, hw] at hm
      cases hm

/-- The last address of a page, and the first one above it. -/
theorem witness_LookupGivesTheCoveringEntrysPolicy :
    RegionsSound (tracked start) ∧ (tracked start).rgt[(0 : Fin 8)] = some ⟨.active, 0, 1, .tracked⟩ ∧
      (0 : Nat) ≤ (4095 : Addr).toNat ∧ (4095 : Addr).toNat < 0 + 1 * 4096 ∧
      ∀ (n : Fin 8) (e : Region), (tracked start).rgt[n] = some e →
        ¬ (e.base.toNat ≤ (4096 : Addr).toNat ∧ (4096 : Addr).toNat < e.base.toNat + e.pages * 4096) := by
  refine ⟨tracked_sound start rfl rfl, by decide, by decide, by decide, ?_⟩
  intro n e hn
  have hg : ∀ n : Fin 8, (tracked start).rgt[n] = if n = 0 then some ⟨.active, 0, 1, .tracked⟩ else none := by decide
  rw [hg] at hn
  split at hn
  · cases hn
    decide
  · cases hn

/-- A command of each wire, and frames one byte short of their length and at it. -/
theorem witness_WiresSpellTheirCommands :
    (Instr.sync (req 0)).requestLines = some (req 0) ∧ (Instr.sync (req 0)).wellFormed = true ∧
      (Instr.malformedRequest 7#3 (req 0)).requestLines = some (req 0) ∧
      (Instr.malformedRequest 7#3 (req 0)).wellFormed = true ∧ (Instr.join 3).wellFormed = true ∧
      commandFrame (.join 3) = 9 :: [3] ∧ commandOfBytes [9, 3, 7] = some (.join 3) ∧
      ([9] : List Byte).length < commandLength 9 ∧ ¬ ([9, 3] : List Byte).length < commandLength 9 ∧
      ([false, false, false, false, false, false, false] : List Bool).length < 8 ∧
      (9 : Byte) = BitVec.ofNat 8 (0x0309 / 2 ^ (8 * 0)) ∧ (3 : Byte) = BitVec.ofNat 8 (0x0309 / 2 ^ (8 * 1)) ∧
      responseLength 9 ≤ ([0] : List Byte).length ∧ ¬ responseLength 1 ≤ (List.replicate 15 (0 : Byte)).length := by
  decide

/-- A selected byte position and one that is not. -/
theorem witness_LinkRequestHasItsLayout :
    (3, some (0x81 : Byte)) ∈ [(0, none), (1, none), (2, none), (3, some (0x81 : Byte))] ∧
      (0, (none : Option Byte)) ∈ [(0, none), (1, none), (2, none), (3, some (0x81 : Byte))] := by decide

theorem witness_WordReadIsHeld : (granted .m1 start).Presents .m1 (req 5) ∧ wordOfAddr (req 5).sa = 1 :=
  ⟨start_presents _ _ rfl _, by decide⟩

/-- A line outside the tracked page, and the last line inside it. -/
theorem witness_FillIsLookedUpOrUncached :
    (granted .m1 (tracked start)).Presents .m1 (req 4096) ∧
      regionLookup (tracked start).rgt (addrOfLine (lineOfAddr 4096)) ≠ .tracked .active ∧
      (granted .m1 (tracked start)).Presents .m1 (req 4095) ∧
      regionLookup (tracked start).rgt (addrOfLine (lineOfAddr 4095)) = .tracked .active ∧
      (granted .m1 (tracked start)).atEvent.mau.attach.get .m1 = .online ∧
      (tracked start).pdr.walker.mode ≠ .sweeping :=
  ⟨start_presents _ _ rfl _, by decide, start_presents _ _ rfl _, by decide, by decide, by decide⟩

/-- A record in each state, and one with the line as its successor, in the middle of a set. -/
theorem witness_LookupMeetsTheRecord (st : RecordStatus)
    (hst : st = .shared ∨ st = .invalidating ∨ st = .evicting none ∨ st = .evicting (some ⟨9, [.m3]⟩)) :
    DirectoryCanonical (recording [aRecord 2 4 .shared (only .m0) [], aRecord 0 1 st (only .m2) []] start) ∧
      (1 : Tag) = tagOfLine (lineOfTag 1 0) ∧ (9 : Tag) = tagOfLine (lineOfTag 9 0) ∧
      setOfLine (lineOfTag 1 0) = 0 ∧ setOfLine (lineOfTag 9 0) = 0 := by
  refine ⟨recording_canonical _ _ (by simp) (by simp [aRecord]) ?_, by decide, by decide, by decide, by decide⟩
  rcases hst with rfl | rfl | rfl | rfl <;> decide

/-- The empty set, and a set whose one FREE way is the last. -/
theorem witness_MissInstallsTheLowestFreeWay :
    (start.pdr.sets.wf = true ∧ start.pdr.sets.get (setOfLine (lineOfTag 9 0)) = []) ∧
      (recording ((fullSet .shared (only .m0) []).take 7) start).pdr.sets.wf = true ∧
      (∀ r ∈ (fullSet .shared (only .m0) []).take 7, r.tag ≠ tagOfLine (lineOfTag 9 0) ∧ r.successor = none) ∧
      (∀ r ∈ (fullSet .shared (only .m0) []).take 7, r.way ≠ 7) ∧
      (∀ v : Way, v < 7 → ∃ r ∈ (fullSet .shared (only .m0) []).take 7, r.way = v) := by decide

theorem full_canonical (s : State) (sh : MasterSet) (ps : List PendingFill) :
    DirectoryCanonical (recording (fullSet .shared sh ps) s) := by
  refine recording_canonical _ _ (by simp [fullSet]) ?_ ?_
  · have h : (fullSet .shared sh ps).map LineRecord.way = [0, 1, 2, 3, 4, 5, 6, 7] := rfl
    rw [h]
    decide
  · have h : ((fullSet .shared sh ps).map LineRecord.tag ++
        (fullSet .shared sh ps).filterMap fun r => r.successor.map Successor.tag) =
        ([0, 1, 2, 3, 4, 5, 6, 7] : List Tag) := rfl
    rw [h]
    decide

/-- A full set with no victim, with a victim that nobody shares, and with a shared one and 15 or 16 live entries. -/
theorem witness_FullSetChoosesAVictim :
    (∀ w : Way, ∃ r ∈ fullSet .shared (only .m0) [], r.way = w) ∧
      (∀ r ∈ fullSet .shared (only .m0) [], r.tag ≠ tagOfLine (lineOfTag 9 0) ∧ r.successor = none) ∧
      (∀ r ∈ fullSet .shared (only .m0) [⟨.m1, .waiting, false⟩], ¬ (r.status = .shared ∧ r.pending = [])) ∧
      (DirectoryCanonical (recording (fullSet .shared MasterSet.empty []) start) ∧
        MasterSet.empty = (⟨false, false, false, false⟩ : MasterSet)) ∧
      fullSet .shared (only .m0) [] = [] ++ aRecord 0 0 .shared (only .m0) [] :: (fullSet .shared (only .m0) []).tail ∧
      (only .m0).get .m0 = true ∧ 16 ≤ fullTracker.length ∧ fullTracker.tail.length < 16 := by
  refine ⟨by decide, by decide, by decide, ⟨full_canonical _ _ _, rfl⟩, by decide, by decide, by decide, by decide⟩

theorem witness_MalformedRequestIsAnsweredErr :
    (granted .m1 start).Presents .m1 (req 4) ∧ (req 4).sben = 0#4 ∧
      (granted .m1 start).Presents .m1 (byteWrite 4 3#8 true) ∧ (byteWrite 4 3#8 true).sben ≠ 0#4 ∧
      ¬ (byteWrite 4 3#8 true).Good :=
  ⟨start_presents _ _ rfl _, rfl, write_presents _ _ rfl _ _ _, by decide, byte3_bad⟩

theorem witness_DeviceWriteIsHeld :
    (granted .m1 (device start)).Presents .m1 (byteWrite 4 3#8 false) ∧ (byteWrite 4 3#8 false).Good ∧
      (byteWrite 4 3#8 false).sben ≠ 0#4 ∧ regionLookup (device start).rgt (addrOfWord (wordOfAddr 4)) = .device :=
  ⟨write_presents _ _ rfl _ _ _, byte3_good.1, byte3_good.2, by decide⟩

/-- An entry of m1 for word 1. -/
def entryOf1 : QueueEntry := ⟨1, noBytes, .m1, .waiting, 0⟩

/-- A held device access; the youngest entry of the same master and word; 15 entries; 16 entries. -/
theorem witness_QueueAnswersInOrder :
    ((holding .m2 (Slot.held (.read 1 .device) { WaitReasons.none with queueEmptyWait := true }) start).rsa.slots.get
        .m2).map (fun sl => (sl.phase, sl.waits.queueEmptyWait)) = some (.held, true) ∧
      (queued (List.replicate 15 ⟨9, noBytes, .m0, .waiting, 0⟩ ++ [entryOf1]) start).pwq =
        List.replicate 15 ⟨9, noBytes, .m0, .waiting, 0⟩ ++ [entryOf1] ∧
      entryOf1.phase = .waiting ∧ entryOf1.source = .m1 ∧ entryOf1.word = 1 ∧
      (List.replicate 15 entryOf1).length < 16 ∧ 16 ≤ (List.replicate 16 entryOf1).length := by decide

/-- An append to an empty queue whose write step names m2, and a merge that makes no step. -/
theorem witness_PostedWriteIsPlacedOrRefused_placed :
    (granted .m1 (tracked start)).Presents .m1 (byteWrite 4 3#8 false) ∧
      regionLookup (tracked start).rgt (addrOfWord (wordOfAddr 4)) = .tracked .active ∧
      (State.writeStep .m1 (lineOfWord 1) ((granted .m1 (tracked
        (recording [aRecord 0 0 .shared (only .m2) []] start))).taken .m1 true)).isSome = true ∧
      State.offer .m1 1 (granted .m1 (tracked start)) = .append ∧
      regionLookup start.rgt (addrOfWord (wordOfAddr 4)) = .uncached ∧
      State.offer .m1 1 (granted .m1 (queued [entryOf1] start)) = .merge :=
  ⟨write_presents _ _ rfl _ _ _, by decide, by decide, by decide, by decide, by decide⟩

/-- Refused for a held device access, by a full queue, and by a full tracker. -/
theorem witness_PostedWriteIsPlacedOrRefused_refused :
    State.offer .m1 1 (holding .m2 (Slot.held (.read 1 .device) { WaitReasons.none with queueEmptyWait := true })
        start) = .deviceHold ∧
      State.offer .m1 1 (queued (List.replicate 16 ⟨9, noBytes, .m0, .waiting, 0⟩) start) = .full ∧
      (regionLookup (tracked start).rgt (addrOfWord (wordOfAddr 4))).isTracked = true ∧
      (State.writeStep .m1 (lineOfWord 1) ((granted .m1 (noticing fullTracker (tracked
        (recording [aRecord 0 0 .shared (only .m2) []] start)))).taken .m1 true)).isNone = true := by decide

/-- No record, and a record in each state, with a live entry for it. -/
theorem witness_WriteStepTakesItsTrackerPart_targets (st : RecordStatus) :
    start.pdr.sets.recordOf (lineOfTag 1 0) = none ∧
      (recording [aRecord 0 1 st (only .m2) []] start).pdr.sets.recordOf (lineOfTag 1 0) =
        some (aRecord 0 1 st (only .m2) []) ∧
      (noticing [entry 1 .write (only .m3)] start).liveEntry (lineOfTag 1 0) = some (entry 1 .write (only .m3)) :=
  ⟨by decide, rfl, by decide⟩

/-- A line with no record; sharers with a full tracker and without; no sharers but the writer; a live entry whose targets a
later sharer enlarges, one with another target, and one whose only target is the writer. -/
theorem witness_WriteStepTakesItsTrackerPart :
    let at1 (st : RecordStatus) (sh : MasterSet) (es : List TrackerEntry) : State :=
      noticing es (recording [aRecord 0 1 st sh []] start)
    let l := lineOfTag 1 0
    ((at1 .shared (only .m2) fullTracker).writeTargets .m1 l).get .m2 = true ∧ 16 ≤ fullTracker.length ∧
      (∀ st sh es, (at1 st sh es).pdr.sets.recordOf l = some (aRecord 0 1 st sh [])) ∧
      ((at1 .shared (only .m2) fullTracker.tail).writeTargets .m1 l).get .m2 = true ∧
      (at1 .shared (only .m1) []).writeTargets .m1 l = MasterSet.empty ∧
      ((at1 .invalidating (only .m2) [entry 1 .write (only .m3)]).writeTargets .m1 l).get .m2 = true ∧
      (at1 .invalidating (only .m3) [entry 1 .write (only .m3)]).writeTargets .m1 l = MasterSet.empty ∧
      (at1 (.evicting none) (only .m1) [entry 1 .evict (only .m1)]).writeTargets .m1 l = MasterSet.empty ∧
      (at1 (.evicting none) (only .m1) [entry 1 .evict (only .m1)]).liveEntry l =
        some (entry 1 .evict (only .m1)) ∧
      (∀ st sh es, (at1 st sh es).pdr.sets.wf = true ∧ (at1 st sh es).pdr.sets.recordOf 1 = none) := by
  refine ⟨by decide, by decide, fun _ _ _ => rfl, by decide, by decide, by decide, by decide, by decide, by decide,
    fun _ _ _ => ⟨rfl, rfl⟩⟩

/-- No lock; another word; no byte named; bad parity. -/
theorem witness_LockWriteFailingItsChecksIsAnsweredErr :
    (granted .m1 start).bfe.lock = none ∧ (granted .m1 start).bfe.grant = some .m1 ∧
      (granted .m1 (locked .m1 1 (some 9) start)).bfe.lock = some ⟨.m1, 1, some 9⟩ ∧
      wordOfAddr (byteWrite 8 3#8 false).sa ≠ 1 ∧ wordOfAddr (req 4).sa = 1 ∧ (req 4).sben = 0#4 ∧
      (byteWrite 4 3#8 true).sben ≠ 0#4 ∧ ¬ (byteWrite 4 3#8 true).Good :=
  ⟨rfl, rfl, rfl, by decide, by decide, rfl, by decide, byte3_bad⟩

/-- A LOCK-WRITE outside every region; in a tracked one with its step taken and refused; and one told of a free
entry. -/
theorem witness_LockWriteJoinsThePair :
    (regionLookup start.rgt (addrOfWord (wordOfAddr 4))).isTracked = false ∧
      (regionLookup (tracked start).rgt (addrOfWord (wordOfAddr 4))).isTracked = true ∧
      wordOfAddr (byteWrite 4 3#8 false).sa = 1 ∧ (byteWrite 4 3#8 false).Good ∧
      ((granted .m1 (locked .m1 1 none (tracked start))).writeStep .m1 (lineOfWord 1)).isSome = true ∧
      ((noticing fullTracker (recording [aRecord 0 0 .shared (only .m2) []] start)).writeStep .m1
        (lineOfWord 1)).isNone = true ∧
      (holding .m1 ⟨.held, .lockWrite 1 (some (.tracked .active)) noBytes,
        { WaitReasons.none with trackerWait := true }, none, true⟩ start).rsa.slots.get .m1 =
        some ⟨.held, .lockWrite 1 (some (.tracked .active)) noBytes,
          { WaitReasons.none with trackerWait := true }, none, true⟩ :=
  ⟨by decide, by decide, by decide, byte3_good.1, by decide, by decide, rfl⟩

/-- Nothing of m1 stands; one entry of m1 stands; a SYNC of m1 is held in either case. -/
theorem witness_SyncIsDecidedOrHeld :
    (granted .m1 start).Presents .m1 (req 0) ∧ start.pwq = [] ∧ start.ivt.entries = [] ∧
      (granted .m1 (queued [entryOf1] start)).Presents .m1 (req 0) ∧ (∃ e ∈ [entryOf1], e.source = .m1) ∧
      ∀ q, (holding .m1 (Slot.held .sync { WaitReasons.none with syncWait := true }) (queued q start)).rsa.slots.get
        .m1 = some (Slot.held .sync { WaitReasons.none with syncWait := true }) :=
  ⟨start_presents _ _ rfl _, rfl, rfl, start_presents _ _ rfl _, ⟨entryOf1, by simp, rfl⟩, fun _ => rfl⟩

theorem witness_LockTimesOut :
    (locked .m1 1 (some 9) start).bfe.lock = some ⟨.m1, 1, some 9⟩ ∧
      (∀ k, (locked .m1 1 none start).bfe.lock = some k → k.deadline = none) := by
  refine ⟨rfl, ?_⟩
  intro k hk
  cases hk
  rfl

/-- A RETRY; the ERR of a SYNC; the ERR of a read; every other answer may stand in its place. -/
theorem witness_OldestReplyIsSent (a : Answer) :
    start.bfe.replies = [] ∧ (replying [⟨.m1, .retry⟩] start).bfe.replies = ⟨.m1, .retry⟩ :: [] ∧
      (replying [⟨.m1, .answer a⟩] start).bfe.replies = ⟨.m1, .answer a⟩ :: [] ∧
      (∃ sl, (holding .m1 (Slot.answered .sync .err) start).rsa.slots.get .m1 = some sl ∧ sl.request = .sync) ∧
      (Slot.answered (.read 1 .uncached) .err).request ≠ .sync :=
  ⟨rfl, rfl, rfl, ⟨_, rfl, rfl⟩, by decide⟩

/-- Three requests in flight, with tags 0 to 2. -/
def threeFlying : List InFlight :=
  [⟨0, .rdWord, 1, .read .m0, true⟩, ⟨1, .rdWord, 1, .read .m0, true⟩, ⟨2, .rdWord, 1, .read .m0, true⟩]

theorem canIssue_3 (s : State) : (flying threeFlying s).CanIssue 3 := by
  refine ⟨by show 3 < 4; decide, ?_, ?_⟩
  · show ∀ i ∈ threeFlying, i.tag ≠ 3
    decide
  · show ∀ u : BitVec 2, u < 3 → ∃ i ∈ threeFlying, i.tag = u
    decide

theorem canIssue_0 (s : State) (h : s.mlc.inFlight = []) : s.CanIssue 0 := by
  refine ⟨by rw [h]; decide, by rw [h]; exact fun _ hi => (nomatch hi), ?_⟩
  intro u hu
  exact absurd hu (by revert u; decide)

/-- One held request without wait reasons is the first of its kind. -/
theorem first_eligible (m : Master) (q : SlotRequest) (kind : SlotRequest → Bool) (h : kind q = true) :
    FirstIn (holding m (Slot.held q WaitReasons.none) start).rsa.order
      ((holding m (Slot.held q WaitReasons.none) start).EligibleFor kind) m := by
  refine ⟨⟨Slot.held q WaitReasons.none, ?_, rfl, rfl, h⟩, [], [], rfl, fun _ hk => nomatch hk⟩
  cases m <;> rfl

/-- A held request of another kind is not eligible. -/
theorem none_eligible (m : Master) (q : SlotRequest) (kind : SlotRequest → Bool) (h : kind q = false) :
    (holding m (Slot.held q WaitReasons.none) start).NoneEligible kind := by
  rintro k hk ⟨sl, hs, -, -, hq⟩
  have hkm : k = m := by simpa [holding, start, State.reset, State.afterReset] using hk
  subst hkm
  have he : some (Slot.held q WaitReasons.none) = some sl := by
    rw [← hs]
    cases k <;> rfl
  cases he
  rw [show (Slot.held q WaitReasons.none).request = q from rfl, h] at hq
  cases hq

/-- A continuation with the list empty and with three items; a LOCK-WRITE and a DEVICE write. -/
theorem witness_ContinuationThenUnpostedWriteIssues :
    (let s : State := { start with mlc := ⟨threeFlying, start.mlc.assemblies.set .m1 (some ⟨3, .uncached, [7]⟩),
        [.m1, .m2]⟩ }
     s.CanIssue 3 ∧ s.mlc.continuations = .m1 :: [.m2] ∧ s.mlc.assemblies.get .m1 = some ⟨3, .uncached, [7]⟩) ∧
      start.CanIssue 0 ∧
      FirstIn (holding .m1 (Slot.held (.lockWrite 1 (some .uncached) noBytes) WaitReasons.none) start).rsa.order
        ((holding .m1 (Slot.held (.lockWrite 1 (some .uncached) noBytes) WaitReasons.none) start).EligibleFor
          SlotRequest.isUnpostedWrite) .m1 ∧
      FirstIn (holding .m1 (Slot.held (.write 1 (some .device) noBytes) WaitReasons.none) start).rsa.order
        ((holding .m1 (Slot.held (.write 1 (some .device) noBytes) WaitReasons.none) start).EligibleFor
          SlotRequest.isUnpostedWrite) .m1 :=
  ⟨⟨canIssue_3 { start with mlc := ⟨[], start.mlc.assemblies.set .m1 (some ⟨3, .uncached, [7]⟩), [.m1, .m2]⟩ },
    rfl, rfl⟩, canIssue_0 _ rfl, first_eligible _ _ _ rfl, first_eligible _ _ _ rfl⟩

/-- A held request of each read kind. -/
theorem witness_ReadIssuesThird (q : SlotRequest)
    (hq : q = .read 1 .uncached ∨ q = .lockRead 1 .uncached ∨ q = .readLine 1 .uncached .uncached ∨
      q = .readLine 1 (.tracked .active) .directory) :
    let s := holding .m1 (Slot.held q WaitReasons.none) start
    s.CanIssue 0 ∧ s.mlc.continuations = [] ∧ s.NoneEligible SlotRequest.isUnpostedWrite ∧
      FirstIn s.rsa.order (s.EligibleFor SlotRequest.isRead) .m1 ∧
      s.rsa.slots.get .m1 = some (Slot.held q WaitReasons.none) ∧ s.pdr.sets.wf = true := by
  refine ⟨canIssue_0 _ rfl, rfl, none_eligible _ _ _ ?_, first_eligible _ _ _ ?_, rfl, rfl⟩ <;>
    (rcases hq with rfl | rfl | rfl | rfl <;> rfl)

/-- A WAITING entry behind an ISSUED one; four items in flight; nothing to issue. -/
theorem witness_QueuedWriteIssuesLast :
    (queued [⟨1, noBytes, .m0, .issued, 0⟩, entryOf1] start).CanIssue 0 ∧
      start.NoneEligible SlotRequest.isUnpostedWrite ∧ start.NoneEligible SlotRequest.isRead ∧
      (queued [⟨1, noBytes, .m0, .issued, 0⟩, entryOf1] start).pwq =
        [⟨1, noBytes, .m0, .issued, 0⟩] ++ entryOf1 :: [] ∧ entryOf1.phase = .waiting ∧
      4 ≤ (⟨3, .rdWord, 1, .read .m0, true⟩ :: threeFlying).length ∧
      start.mlc.continuations = [] ∧ (∀ e ∈ start.pwq, e.phase = .issued) :=
  ⟨canIssue_0 _ rfl, (fun _ h => nomatch h), (fun _ h => nomatch h), rfl, rfl, by decide, rfl, (fun _ h => nomatch h)⟩

/-- OK, SHORT with counts 0, 1 and 7, FAIL, and status 3; the last word of a line leaves no SHORT that counts. -/
theorem witness_CompletionIsReadByKind_status :
    (0#5).extractLsb' 0 2 = 0#2 ∧ (1#5).extractLsb' 0 2 = 1#2 ∧ ((1#5).extractLsb' 2 3).toNat = 0 ∧
      (5#5).extractLsb' 0 2 = 1#2 ∧ ((5#5).extractLsb' 2 3).toNat = 1 ∧ (29#5).extractLsb' 0 2 = 1#2 ∧
      ((29#5).extractLsb' 2 3).toNat = 7 ∧ (2#5).extractLsb' 0 2 = 2#2 ∧ (3#5).extractLsb' 0 2 = 3#2 ∧
      wordIndex (wordOfLine 5 7) = 7 := by decide

/-- A word read that ends well; a failed LOCK-READ that holds the lock; a failed READ. -/
theorem witness_WordReadIsAnswered (q : SlotRequest) :
    let s := holding .m1 ⟨.issued, q, WaitReasons.none, none, false⟩
      (locked .m1 1 (some 9) (flying [⟨0, .rdWord, 1, .read .m1, false⟩] start))
    s.mlc.inFlight = ⟨0, .rdWord, 1, .read .m1, false⟩ :: [] ∧
      s.rsa.slots.get .m1 = some ⟨.issued, q, WaitReasons.none, none, false⟩ ∧
      (completion 0#5).mcstat.extractLsb' 0 2 = 0#2 ∧ (completion 2#5).mcstat.extractLsb' 0 2 ≠ 0#2 ∧
      s.bfe.lock = some ⟨.m1, 1, some 9⟩ ∧ (SlotRequest.lockRead 1 .uncached).isLockRead = true ∧
      (SlotRequest.read 1 .uncached).isLockRead = false :=
  ⟨rfl, rfl, by decide, by decide, rfl, rfl, rfl⟩

/-- A SYNC of the source that waits for this entry alone, and one that waits for another entry as well. -/
theorem witness_QueuedWriteCompletes :
    let s (q : List QueueEntry) := holding .m1 (Slot.held .sync { WaitReasons.none with syncWait := true })
      (queued ({ entryOf1 with phase := .issued } :: q) (flying [⟨0, .wrWord, 1, .queue .m1, false⟩] start))
    (s []).mlc.inFlight = ⟨0, .wrWord, 1, .queue .m1, false⟩ :: [] ∧
      (s []).pwq = { entryOf1 with phase := .issued } :: [] ∧
      (s [entryOf1]).pwq = { entryOf1 with phase := .issued } :: [entryOf1] ∧
      ((s []).rsa.refreshed [] 4).slots.get .m1 =
        some (Slot.held .sync { WaitReasons.none with syncWait := true }) ∧
      ((s [entryOf1]).rsa.refreshed [entryOf1] 4).slots.get .m1 =
        some (Slot.held .sync { WaitReasons.none with syncWait := true }) ∧
      (s []).ivt.entries = [] ∧ ∃ x ∈ [entryOf1], x.source = .m1 :=
  ⟨rfl, rfl, rfl, rfl, rfl, rfl, entryOf1, by simp, rfl⟩

/-- A DEVICE write; a LOCK-WRITE with a live entry for its line, and one without, by its holder. -/
theorem witness_UnpostedWriteCompletes (q : SlotRequest) :
    let s := holding .m1 ⟨.issued, q, WaitReasons.none, none, false⟩ (locked .m1 1 none
      (noticing [entry 0 .write (only .m2)] (flying [⟨0, .wrWord, 1, .unposted .m1, false⟩] start)))
    s.mlc.inFlight = ⟨0, .wrWord, 1, .unposted .m1, false⟩ :: [] ∧
      s.rsa.slots.get .m1 = some ⟨.issued, q, WaitReasons.none, none, false⟩ ∧
      s.bfe.lock = some ⟨.m1, 1, none⟩ ∧ (entry 0 .write (only .m2)).line = lineOfWord 1 ∧
      (∀ e ∈ s.ivt.entries, e.line ≠ lineOfWord 8) ∧ start.bfe.lock = none ∧
      (∀ en, (holding .m1 ⟨.issued, q, WaitReasons.none, some en, false⟩ s).rsa.slots.get .m1 =
        some ⟨.issued, q, WaitReasons.none, some en, false⟩) := by
  refine ⟨rfl, rfl, rfl, by decide, ?_, rfl, fun _ => rfl⟩
  show ∀ e ∈ [entry 0 .write (only .m2)], e.line ≠ lineOfWord 8
  decide

/-- A whole line by its first part; its last word by a continuation; a SHORT; a failure. -/
theorem witness_LineReadCompletes (mode : FillMode) (ws : List Word) :
    let s := holding .m1 ⟨.issued, .readLine 3 .uncached mode, WaitReasons.none, none, false⟩
      { start with mlc := ⟨[⟨0, .rdRest, wordOfLine 3 7, .continuation .m1, false⟩],
        start.mlc.assemblies.set .m1 (some ⟨3, mode, ws⟩), []⟩ }
    s.mlc.inFlight = ⟨0, .rdRest, wordOfLine 3 7, .continuation .m1, false⟩ :: [] ∧
      s.mlc.assemblies.get .m1 = some ⟨3, mode, ws⟩ ∧
      s.rsa.slots.get .m1 = some ⟨.issued, .readLine 3 .uncached mode, WaitReasons.none, none, false⟩ ∧
      completionStatus .rdRest (wordOfLine 3 7) (completion 0#5) = .ok ∧
      completionStatus .rdLine (wordOfLine 3 0) (completion 0#5) = .ok ∧
      completionStatus .rdLine (wordOfLine 3 0) (completion 29#5) = .short 7 ∧
      completionStatus .rdRest (wordOfLine 3 6) (completion 5#5) = .short 1 ∧
      completionStatus .rdRest (wordOfLine 3 7) (completion 5#5) = .fail :=
  ⟨rfl, rfl, rfl, by decide, by decide, by decide, by decide, by decide⟩

/-- A record in the middle of a set, with m1's item kept or spoiled. -/
theorem witness_FillIsKeptByTheRecord (st : RecordStatus) (spoiled : Bool)
    (hst : st = .shared ∨ st = .invalidating) :
    DirectoryCanonical (recording ([aRecord 2 4 .shared (only .m0) []] ++
      aRecord 0 1 st MasterSet.empty [⟨.m1, .issued, spoiled⟩] :: [aRecord 1 5 .shared (only .m0) []]) start) ∧
      (1 : Tag) = tagOfLine (lineOfTag 1 0) ∧ setOfLine (lineOfTag 1 0) = 0 := by
  refine ⟨recording_canonical _ _ (by simp) (by simp [aRecord]) ?_, by decide, by decide⟩
  rcases hst with rfl | rfl <;> simp [aRecord, LineRecord.successor]

theorem witness_CompletionIsReadByKind_discarded :
    start.mlc.inFlight = [] ∧
      (flying [⟨0, .rdWord, 1, .read .m1, true⟩] start).mlc.inFlight = ⟨0, .rdWord, 1, .read .m1, true⟩ :: [] :=
  ⟨rfl, rfl⟩

/-- The second of two entries has the oldest unsent target; none has. -/
theorem witness_OldestUnsentEntrySends :
    (let sent : TrackerEntry := { entry 1 .write (only .m2) with sent := only .m2 }
     (∀ x ∈ [sent], ∀ m, x.targets.get m = true → x.sent.get m = true) ∧
       (∀ x ∈ [sent] ++ [], x.line ≠ (entry 2 .evict (only .m3)).line) ∧
       (entry 2 .evict (only .m3)).targets.get .m3 = true ∧ (entry 2 .evict (only .m3)).sent.get .m3 = false) ∧
      ∀ x ∈ start.ivt.entries, ∀ m, x.targets.get m = true → x.sent.get m = true := by
  refine ⟨⟨?_, by decide, by decide, by decide⟩, (fun _ h => nomatch h)⟩
  intro x hx m
  have hx' : x = { entry 1 .write (only .m2) with sent := only .m2 } := by simpa using hx
  subst hx'
  exact id

/-- The last target to answer, and one of two. -/
theorem witness_AcknowledgeAnswersTheHead :
    let e (targets : MasterSet) : TrackerEntry := { entry 1 .write targets with sent := targets }
    let s (targets : MasterSet) : State := { start with ivt := ⟨[e targets],
      start.ivt.notices.set .m2 [lineOfTag 1 0], start.ivt.timers.set .m2 (some 5)⟩ }
    (∀ targets, (s targets).ivt.notices.get .m2 = lineOfTag 1 0 :: [] ∧
        (s targets).ivt.entries = [] ++ e targets :: []) ∧
      (s (only .m2)).atEvent.mau.attach.get .m2 = .online ∧
      (e (only .m2)).acked.set .m2 true = (e (only .m2)).targets ∧
      (e ⟨false, true, true, false⟩).acked.set .m2 true ≠ (e ⟨false, true, true, false⟩).targets :=
  ⟨fun _ => ⟨rfl, rfl⟩, by decide, by decide, by decide⟩

theorem witness_AcknowledgeAnswersTheHead_stray :
    start.atEvent.mau.attach.get .m2 = .online ∧ start.ivt.notices.get .m2 = [] ∧
      (attached .m2 .isolated start).atEvent.mau.attach.get .m2 = .isolated ∧
      (attached .m2 .inReset start).atEvent.mau.attach.get .m2 = .inReset ∧
      (attached .m2 .absent start).atEvent.mau.attach.get .m2 = .absent := by decide

/-- The record of a WRITE entry, and those of an EVICT entry without and with a successor. -/
theorem witness_CompletionMovesTheRecordOn (st : RecordStatus)
    (hst : st = .invalidating ∨ st = .evicting none ∨ st = .evicting (some ⟨9, [.m3]⟩)) :
    DirectoryCanonical (recording ([aRecord 2 4 .shared (only .m0) []] ++
      aRecord 0 1 st (only .m2) [] :: [aRecord 1 5 .shared (only .m0) []]) start) ∧
      (1 : Tag) = tagOfLine (entry 1 .write (only .m2)).line ∧ setOfLine (entry 1 .write (only .m2)).line = 0 ∧
      (entry 1 .evict (only .m2)).kind ≠ .write := by
  refine ⟨recording_canonical _ _ (by simp) (by simp [aRecord]) ?_, by decide, by decide, by decide⟩
  rcases hst with rfl | rfl | rfl <;> decide

/-- The state of a running timer of m2. -/
def timing : State :=
  { start with ivt := ⟨[{ entry 1 .write (only .m2) with sent := only .m2 }],
    start.ivt.notices.set .m2 [lineOfTag 1 0], start.ivt.timers.set .m2 (some 5)⟩ }

/-- A timeout; the notices of an ONLINE and of an ISOLATED master; an ISOLATE command. -/
theorem witness_LeavingMasterIsReleased :
    timing.atEvent.mau.attach.get .m2 = .online ∧ timing.ivt.timers.get .m2 ≠ none ∧
      timing.ivt.notices.get .m2 ≠ [] ∧ (attached .m2 .isolated timing).atEvent.mau.attach.get .m2 = .isolated ∧
      (2 : Byte).toNat = Master.m2.number ∧ (selected timing).mnc.port = .receiving ∧
      (timing.ivt.entries.map TrackerEntry.line).Nodup ∧ timing.pdr.sets.wf = true ∧
      (∃ x ∈ (noticing [entry 1 .write ⟨false, true, true, false⟩] timing).ivt.entries,
        x.targets.get .m1 = true ∧ x.acked.get .m1 = false) ∧
      (locked .m2 1 none timing).bfe.lock = some ⟨.m2, 1, none⟩ := by decide

/-- M2 holds the lock, its LOCK-WRITE has its completion, and the entry of its line waits for some targets. -/
def pairWaiting (targets : MasterSet) : State :=
  let q : SlotRequest := .lockWrite (wordOfLine (lineOfTag 1 0) 0) (some (.tracked .active)) noBytes
  noticing [{ entry 1 .write targets with sent := only .m2 }]
    (holding .m2 ⟨.issued, q, WaitReasons.none, some .ok, false⟩ (locked .m2 9 none timing))

/-- The expiry of M2 ends its pair if it was the last target, with no LOCK_BROKEN, and else cuts the pair short. -/
theorem test_timerExpiry_of_a_waiting_pair :
    ((nextOf (exec (.timerExpiry .m2) (pairWaiting (only .m2)))).map fun t => (t.bfe.lock, t.mnc.errors.length)) =
        some (none, 1) ∧
      (nextOf (exec (.timerExpiry .m2) (pairWaiting ⟨false, true, true, false⟩))).map
        (fun t => (t.bfe.lock, t.mnc.errors.map fun x => (x.kind, x.master, x.address))) =
        some (none, [(.invalidationTimeout, .m2, some 0x8000), (.lockBroken, .m2, some (addrOfWord 9))]) := by decide

/-- With the lock elsewhere, with the lock and no arrived LOCK-WRITE, with one arrived that ends in the event and one
that does not; a stopped timer, and a master that is not ONLINE. -/
theorem witness_ExpiryMakesItsRecords :
    timing.atEvent.mau.attach.get .m2 = .online ∧ timing.ivt.timers.get .m2 = some 5 ∧
      timing.ivt.notices.get .m2 = lineOfTag 1 0 :: [] ∧ timing.bfe.lock = none ∧ timing.pdr.sets.wf = true ∧
      (locked .m2 1 none timing).bfe.lock = some ⟨.m2, 1, none⟩ ∧ timing.rsa.slots.get .m2 = none ∧
      (∀ targets, (pairWaiting targets).atEvent.mau.attach.get .m2 = .online ∧
        (pairWaiting targets).ivt.timers.get .m2 = some 5 ∧
        (pairWaiting targets).ivt.notices.get .m2 = lineOfTag 1 0 :: [] ∧
        (pairWaiting targets).pdr.sets.wf = true) ∧
      start.ivt.timers.get .m2 = none ∧ (attached .m2 .isolated start).atEvent.mau.attach.get .m2 ≠ .online := by
  refine ⟨by decide, by decide, by decide, by decide, by decide, by decide, by decide,
    fun _ => ⟨rfl, rfl, rfl, rfl⟩, by decide, by decide⟩

theorem witness_ResetNoticeEmptiesTheSlot :
    start.atEvent.mau.attach.get .m2 = .online ∧
      (attached .m2 .isolated start).atEvent.mau.attach.get .m2 = .isolated ∧
      (attached .m2 .absent start).atEvent.mau.attach.get .m2 = .absent ∧
      (attached .m2 .inReset start).atEvent.mau.attach.get .m2 = .inReset := by decide

/-- A walker at a set whose first way it has visited. -/
def atSet0 (mode : WalkMode) (r : LineRecord) : State :=
  walking ⟨mode, some 0, [2], none, 0, false⟩ (tracked (recording [aRecord 2 4 .shared (only .m0) [], r] start))

/-- The premises on the walk, and each treatment: out of the range of a retire, pending fills, sharers with the tracker
full and with room, INVALIDATING, and EVICTING with and without a successor. -/
theorem witness_VisitTreatsTheNextRecord (r : LineRecord) (hr : r.way = 0) :
    ((atSet0 .sweeping r).pdr.walker.mode ≠ .idle ∧ (atSet0 .sweeping r).pdr.walker.draining = false ∧
      (atSet0 .sweeping r).pdr.walker.set = some 0 ∧
      (atSet0 .sweeping r).VisitsNextWay 0 ∧
      (atSet0 .sweeping r).pdr.sets.get 0 = [aRecord 2 4 .shared (only .m0) []] ++ r :: [] ∧
      (∀ q ∈ [aRecord 2 4 .shared (only .m0) []], q.way ∈ (atSet0 .sweeping r).pdr.walker.visited) ∧
      r.way ∉ (atSet0 .sweeping r).pdr.walker.visited ∧
      (∀ q ∈ [aRecord 2 4 .shared (only .m0) []] ++ [], q.way ≠ r.way) ∧ (atSet0 .sweeping r).pdr.sets.wf = true) ∧
      (atSet0 .sweeping r).walkCovers (lineOfTag 1 0) = true ∧
      (atSet0 (.retiring 0) r).walkCovers (lineOfTag 1 0) = false ∧
      (atSet0 (.retiring 0) r).walkCovers (lineOfTag 0 0) = true ∧ (only .m2).get .m2 = true ∧
      16 ≤ fullTracker.length ∧ fullTracker.tail.length < 16 := by
  refine ⟨⟨(fun h => nomatch h), rfl, rfl, (fun _ h => nomatch h), rfl, ?_, ?_, ?_, rfl⟩, rfl, ?_, ?_, by decide, by decide,
    by decide⟩
  · intro q hq
    have hq' : q = aRecord 2 4 .shared (only .m0) [] := by simpa using hq
    subst hq'
    show (2 : Way) ∈ ([2] : List Way)
    decide
  · rw [hr]
    show (0 : Way) ∉ ([2] : List Way)
    decide
  · intro q hq
    have hq' : q = aRecord 2 4 .shared (only .m0) [] := by simpa using hq
    subst hq'
    rw [hr]
    decide
  · rw [show (atSet0 (.retiring 0) r).walkCovers (lineOfTag 1 0) =
      (walking ⟨.retiring 0, none, [], none, 0, false⟩ (tracked start)).walkCovers (lineOfTag 1 0) from rfl]
    decide
  · rw [show (atSet0 (.retiring 0) r).walkCovers (lineOfTag 0 0) =
      (walking ⟨.retiring 0, none, [], none, 0, false⟩ (tracked start)).walkCovers (lineOfTag 0 0) from rfl]
    decide

/-- The young way of a set, paused on, with an older way unvisited; a way FREE after a pause with EVICTING; one FREE after a
pause with PENDING. -/
theorem witness_VisitTreatsTheNextRecord_paused (reason : PauseReason) (r : LineRecord) (hr : r.way = 3) :
    let s (rs : DirectorySet) := walking ⟨.sweeping, some 0, [], some ⟨3, reason, true⟩, 0, false⟩ (recording rs start)
    (∀ rs, (s rs).pdr.walker.pause = some ⟨3, reason, true⟩ ∧ (s rs).pdr.walker.set = some 0 ∧
        (s rs).pdr.walker.draining = false ∧ (s rs).pdr.walker.mode ≠ .idle) ∧
      (s [aRecord 2 4 .shared (only .m0) [], r]).pdr.sets.get 0 = [aRecord 2 4 .shared (only .m0) []] ++ r :: [] ∧
      (3 : Way) = r.way ∧ (∀ q ∈ (s [aRecord 2 4 .shared (only .m0) []]).pdr.sets.get 0, q.way ≠ 3) ∧
      (reason ≠ .evicting → (s [aRecord 2 4 .shared (only .m0) []]).VisitsNextWay 0) := by
  refine ⟨fun _ => ⟨rfl, rfl, rfl, fun h => nomatch h⟩, rfl, hr.symm, ?_, ?_⟩
  · show ∀ q ∈ [aRecord 2 4 .shared (only .m0) []], q.way ≠ 3
    decide
  · intro h p hp
    cases hp
    refine ⟨rfl, h, ?_⟩
    show ∀ q ∈ [aRecord 2 4 .shared (only .m0) []], q.way ≠ 3
    decide

/-- Set 1022, and set 1023 with and without an outstanding entry; an idle, a draining and a paused walker. -/
theorem witness_WalkMovesOnAndEnds :
    (∀ i n, let s := walking ⟨.sweeping, some i, [], none, n, false⟩ start
      s.pdr.walker.mode ≠ .idle ∧ s.pdr.walker.draining = false ∧ s.pdr.walker.set = some i ∧
        s.VisitsNextWay i ∧ s.pdr.sets.get i = [] ∧
        s.pdr.walker.outstanding = n) ∧
      1022 < 1023 ∧ 1023 ≤ 1023 ∧ (walking ⟨.retiring 7, some 1023, [], none, 0, false⟩ start).pdr.walker.mode =
        .retiring 7 ∧
      start.pdr.walker.mode = .idle ∧
      (walking ⟨.sweeping, none, [], none, 1, true⟩ start).pdr.walker.draining = true ∧
      (walking ⟨.sweeping, some 0, [], some ⟨0, .pending, false⟩, 0, false⟩ start).pdr.walker.pause =
        some ⟨0, .pending, false⟩ :=
  ⟨fun _ _ => ⟨(fun h => nomatch h), rfl, rfl, (fun _ h => nomatch h), rfl, rfl⟩, by omega, by omega, rfl, rfl, rfl, rfl⟩

theorem witness_TransactionRunsThroughItsEvents :
    start.pins.spiSelected = false ∧ start.mnc.port ≠ .receiving ∧
      ({ start.mnc with port := .responding [5] [0] false } : Mnc).port = .responding [5] [0] false ∧
      (∀ command frame returned, start.mnc.port ≠ .responding command frame returned) ∧
      ({ start.mnc with port := .responding [0x0A] [0] true, errors := [⟨.strayAck, .m0, none⟩] } : Mnc).errors =
        ⟨.strayAck, .m0, none⟩ :: [] ∧
      ({ start.pins with spiSelected := true } : Pins).spiSelected = true ∧
      (selected start).mnc.port = .receiving ∧ (Instr.setRegion 8 0 0 0).wellFormed = true ∧
      commandFrame (.setRegion 8 0 0 0) = 3 :: [8, 0, 0, 0, 0, 0, 0, 0, 0, 0] ∧
      (nextOf (exec (.setRegion 8 0 0 0) (selected start))).map (fun t => t.mnc.port) =
        some (.responding [3, 8, 0, 0, 0, 0, 0, 0, 0, 0, 0] [4] false) ∧
      ({ start.mnc with port := .ended } : Mnc).port = .ended :=
  ⟨rfl, (fun h => nomatch h), rfl, (fun _ _ _ h => nomatch h), rfl, rfl, rfl, rfl, by decide, by decide, rfl⟩

/-- Numbers at their bounds; an UNUSED and a used entry; a FREE way and a record; an empty and a full queue. -/
theorem witness_ReadingCommandsAnswerTheirFrames :
    (selected start).mnc.port = .receiving ∧ 8 ≤ (8 : Byte).toNat ∧ (7 : Byte).toNat < 8 ∧
      start.rgt[(7 : Byte).toNat] = none ∧ (tracked start).rgt[(0 : Byte).toNat] = some ⟨.active, 0, 1, .tracked⟩ ∧
      1024 ≤ (1024 : BitVec 16).toNat ∧ (1023 : BitVec 16).toNat < 1024 ∧ start.pdr.sets.get 1023 = [] ∧
      (recording [aRecord 3 1 .shared (only .m2) []] start).pdr.sets.get 0 =
        [] ++ aRecord 3 1 .shared (only .m2) [] :: [] ∧
      (3 : Way).val = (3 : Byte).toNat ∧ (selected start).mnc.errors = [] := by decide

theorem witness_RecordFrameHasItsLayout :
    (aRecord 0 1 .shared (only .m2) [⟨.m0, .waiting, false⟩, ⟨.m1, .issued, true⟩, ⟨.m2, .waiting, false⟩,
      ⟨.m3, .waiting, false⟩]).pending.length ≤ 4 ∧
      (aRecord 0 1 (.evicting (some ⟨9, [.m0, .m1, .m2, .m3]⟩)) (only .m2) []).successor =
        some ⟨9, [.m0, .m1, .m2, .m3]⟩ ∧ ([.m0, .m1, .m2, .m3] : List Master).length ≤ 4 := by decide

/-- A used entry; arguments out of range; the last page of the address space with and without an overlap. -/
theorem witness_SetRegionChecksInOrder :
    (selected (tracked start)).mnc.port = .receiving ∧ (tracked start).rgt[(0 : Byte).toNat] ≠ none ∧
      (tracked start).rgt[(7 : Byte).toNat] = none ∧ (1 : BitVec 32).toNat % 4096 ≠ 0 ∧
      ((0xFFFFF000 : BitVec 32).toNat % 4096 = 0 ∧ 1 ≤ (1 : BitVec 32).toNat ∧
        (1 : BitVec 32).toNat ≤ 1048576 ∧ (0xFFFFF000 : BitVec 32).toNat + (1 : BitVec 32).toNat * 4096 ≤ 4294967296 ∧
        (2 : Byte).toNat ≤ 2) ∧
      ((0 : BitVec 32).toNat < 0 + 1 * 4096 ∧ 0 < (0 : BitVec 32).toNat + (1 : BitVec 32).toNat * 4096) ∧
      ¬ (0xFFFFF000 : BitVec 32).toNat < 0 + 1 * 4096 := by decide

theorem witness_WalksStartAtSetZero :
    (selected start).mnc.port = .receiving ∧ start.pdr.walker.mode = .idle ∧
      (walking ⟨.sweeping, some 0, [], none, 0, false⟩ start).pdr.walker.mode ≠ .idle ∧
      (∀ e, start.rgt[(7 : Byte).toNat] = some e → e.state ≠ .active) ∧
      (device start).rgt[(0 : Byte).toNat] = some ⟨.active, 0, 1, .device⟩ ∧
      (tracked start).rgt[(0 : Byte).toNat] = some ⟨.active, 0, 1, .tracked⟩ := by
  refine ⟨rfl, rfl, (fun h => nomatch h), ?_, by decide, by decide⟩
  intro e h
  rw [show start.rgt[(7 : Byte).toNat] = none by decide] at h
  cases h

/-- All three limits at their least, and one a step below. -/
theorem witness_LimitsChangeTogether :
    (64 ≤ (64 : BitVec 16).toNat ∧ 1 ≤ (1 : Byte).toNat ∧ (15 : Byte).toNat ≤ 15) ∧
      ¬ 64 ≤ (63 : BitVec 16).toNat ∧ ¬ (16 : Byte).toNat ≤ 15 ∧ (selected start).mnc.port = .receiving := by decide

theorem witness_IsolateAndJoinCheckTheMaster :
    4 ≤ (4 : Byte).toNat ∧ (3 : Byte).toNat = Master.m3.number ∧ start.atEvent.mau.attach.get .m3 = .online ∧
      (attached .m3 .isolated start).atEvent.mau.attach.get .m3 = .isolated ∧ 11 ≤ (11 : Byte).toNat := by decide

/-- A line shared by m2 with a message out to it, m2's timer running, and its successor claimed by m3. -/
def evicting : State :=
  recording [aRecord 0 1 (.evicting (some ⟨9, [.m3]⟩)) (only .m2) []] { start with
    ivt := ⟨[{ entry 1 .evict (only .m2) with sent := only .m2 }],
      start.ivt.notices.set .m2 [lineOfTag 1 0], start.ivt.timers.set .m2 (some 5)⟩
    pending := [.sendEvent] }

theorem evicting_get (i : Nat) : evicting.pdr.sets.get i =
    if 0 = i then [aRecord 0 1 (.evicting (some ⟨9, [.m3]⟩)) (only .m2) []] else [] := rfl

theorem evicting_step : ∃ t, step evicting = .next t := ⟨_, rfl⟩

theorem witness_StepsKeepTheDirectoryCanonical : DirectoryCanonical evicting ∧ ∃ t, step evicting = .next t :=
  ⟨recording_canonical _ _ (by simp) (by simp) (by decide), evicting_step⟩

theorem witness_StepsKeepHoldersOnline :
    DirectoryCanonical (attached .m1 .isolated evicting) ∧ HoldersOnline (attached .m1 .isolated evicting) := by
  refine ⟨recording_canonical _ _ (by simp) (by simp) (by decide), ?_⟩
  intro m hm
  have hm1 : m = .m1 := by
    cases m
    · exact absurd ⟨rfl, rfl⟩ hm
    · rfl
    · exact absurd ⟨rfl, rfl⟩ hm
    · exact absurd ⟨rfl, rfl⟩ hm
  subst hm1
  refine ⟨?_, ?_⟩
  · intro i r hr
    rw [show (attached .m1 .isolated evicting).pdr.sets.get i = evicting.pdr.sets.get i from rfl, evicting_get] at hr
    split at hr
    · have hr' : r = aRecord 0 1 (.evicting (some ⟨9, [.m3]⟩)) (only .m2) [] := by simpa using hr
      subst hr'
      refine ⟨rfl, ?_⟩
      intro su hsu
      cases hsu
      decide
    · cases hr
  · show ∀ e ∈ [({ entry 1 .evict (only .m2) with sent := only .m2 } : TrackerEntry)], e.targets.get .m1 = false
    decide

/-- A WAITING entry at count 15 and a held read that it stops. -/
def waiting : State :=
  holding .m2 (Slot.held (.read 1 .uncached) { WaitReasons.none with overlap := true, bypassLimit := true })
    (queued [{ entryOf1 with count := 15 }] { start with pending := [.issueEvent true] })

theorem witness_StepsKeepWaitsInLine : WaitsFollowQueue waiting ∧ ∃ t, step waiting = .next t := by
  refine ⟨⟨?_, ?_, by decide, by decide⟩, ⟨_, rfl⟩⟩
  · intro m sl hs hp
    cases m
    · cases hs
    · cases hs
    · cases hs
      refine ⟨?_, ?_, ?_⟩ <;>
        simp [waiting, holding, queued, entryOf1, Slot.held, SlotRequest.isPlainRead, SlotRequest.spans,
          SlotRequest.isDeviceAccess, start, State.reset, State.afterReset, WaitReasons.none, Config.resetBypassLimit]
    · cases hs
  · show ∀ e ∈ [{ entryOf1 with count := 15 }], e.count ≤ 15
    decide

theorem witness_StepsKeepTrackerAndDirectoryAgreeing : TrackerAgrees evicting := by
  have hget := evicting_get
  have hent : evicting.ivt.entries = [{ entry 1 .evict (only .m2) with sent := only .m2 }] := rfl
  refine ⟨witness_StepsKeepTheDirectoryCanonical.1, ?_, ?_, ?_, ?_, ?_, ?_, ⟨by decide, fun _ => rfl⟩⟩
  · intro i r hr
    rw [hget] at hr
    split at hr
    · have hr' : r = aRecord 0 1 (.evicting (some ⟨9, [.m3]⟩)) (only .m2) [] := by simpa using hr
      subst hr'
      refine ⟨by decide, ?_⟩
      intro su hsu
      cases hsu
      exact ⟨rfl, fun u hu => by cases hu; decide⟩
    · cases hr
  · rw [hent]
    exact ⟨by decide, by decide⟩
  · rw [hent]
    intro e he
    have he' : e = { entry 1 .evict (only .m2) with sent := only .m2 } := by simpa using he
    subst he'
    refine ⟨?_, fun m h => h, .m2, rfl, rfl⟩
    intro m h
    cases m <;> cases h
  · intro i r hr
    rw [hget] at hr
    split at hr
    · rename_i hi
      subst hi
      have hr' : r = aRecord 0 1 (.evicting (some ⟨9, [.m3]⟩)) (only .m2) [] := by simpa using hr
      subst hr'
      exact ⟨{ entry 1 .evict (only .m2) with sent := only .m2 }, by simp [hent], rfl, fun h => nomatch h⟩
    · cases hr
  · rw [hent]
    intro e he
    have he' : e = { entry 1 .evict (only .m2) with sent := only .m2 } := by simpa using he
    subst he'
    refine ⟨aRecord 0 1 (.evicting (some ⟨9, [.m3]⟩)) (only .m2) [], ?_, by decide⟩
    show _ ∈ evicting.pdr.sets.get (setOfLine (lineOfTag 1 0))
    rw [show setOfLine (lineOfTag 1 0) = 0 by decide, hget]
    simp
  · intro m
    have hn : evicting.ivt.notices.get m = if m = .m2 then [lineOfTag 1 0] else [] := by cases m <;> rfl
    have ht : evicting.ivt.timers.get m = if m = .m2 then some 5 else none := by cases m <;> rfl
    rw [hn, ht]
    by_cases hm : m = .m2
    · subst hm
      refine ⟨by decide, fun l => ⟨?_, ?_⟩, by decide⟩
      · intro hl
        have hl' : l = lineOfTag 1 0 := by simpa using hl
        exact ⟨{ entry 1 .evict (only .m2) with sent := only .m2 }, by simp [hent], hl'.symm, rfl, rfl⟩
      · rintro ⟨e, he, hl, -, -⟩
        rw [hent] at he
        have he' : e = { entry 1 .evict (only .m2) with sent := only .m2 } := by simpa using he
        subst he'
        simp [← hl, entry]
    · rw [if_neg hm, if_neg hm]
      refine ⟨by decide, fun l => ⟨(fun h => nomatch h), ?_⟩, by decide⟩
      rintro ⟨e, he, -, hs, -⟩
      rw [hent] at he
      have he' : e = { entry 1 .evict (only .m2) with sent := only .m2 } := by simpa using he
      subst he'
      cases m <;> first | exact absurd rfl hm | cases hs

/-- A word read in flight for m1, and a refused request of m2. -/
def issued : State :=
  replying [⟨.m2, .retry⟩] (holding .m1 ⟨.issued, .read 1 .uncached, WaitReasons.none, none, false⟩
    (flying [⟨0, .rdWord, 1, .read .m1, false⟩] { start with pending := [.replySend] }))

theorem witness_StepsKeepOneReplyForEachRequest : OneReplyEach issued ∧ ∃ t, step issued = .next t := by
  refine ⟨⟨fun m h => (nomatch h), by decide, ?_⟩, ⟨_, rfl⟩⟩
  have hr : ∀ m, m ≠ .m2 → ∀ r ∈ issued.bfe.replies, r.master ≠ m := by
    intro m hm r hr
    have hr' : r = ⟨.m2, .retry⟩ := by simpa [issued, replying] using hr
    subst hr'
    exact fun h => hm h.symm
  have hb : ∀ r ∈ issued.bfe.replies, r.body = .retry := by
    intro r hr
    have hr' : r = ⟨.m2, .retry⟩ := by simpa [issued, replying] using hr
    subst hr'
    rfl
  intro m
  cases m
  · exact ⟨⟨rfl, by decide, rfl⟩, fun r h _ => hb r h⟩
  · exact ⟨⟨⟨⟨0, .rdWord, 1, .read .m1, false⟩, rfl, rfl, rfl⟩, by decide, rfl, rfl⟩, hr .m1 (by decide)⟩
  · exact ⟨⟨rfl, by decide, rfl⟩, fun r h _ => hb r h⟩
  · exact ⟨⟨rfl, by decide, rfl⟩, fun r h _ => hb r h⟩

/-- A queue of an ISSUED and a WAITING entry with the item in flight, and an acceptance order of two. -/
def busy : State :=
  holding .m3 (Slot.held .sync WaitReasons.none) (holding .m0 (Slot.held .sync WaitReasons.none)
    (queued [⟨1, noBytes, .m1, .issued, 3⟩, ⟨2, noBytes, .m1, .waiting, 0⟩]
      (flying [⟨0, .wrWord, 1, .queue .m1, false⟩] { start with
        bfe := { start.bfe with grant := some .m1, retryList := [.m2] }, pending := [.issueEvent true] })))

theorem witness_StepsKeepThePlainTablesSound_queues :
    QueuesSound busy ∧ ArbiterSound busy ∧ ∃ t, step busy = .next t := by
  refine ⟨⟨by decide, by decide, by decide, by decide, by decide, by decide, ?_⟩, ⟨by decide, ?_, by decide, ?_⟩,
    ⟨_, rfl⟩⟩
  · intro i hi m _
    have hi' : i = ⟨0, .wrWord, 1, .queue .m1, false⟩ := by simpa [busy, holding, queued, flying] using hi
    subst hi'
    rfl
  · intro m
    cases m <;> decide
  · intro m hm
    cases hm
    exact ⟨rfl, by decide⟩

theorem witness_StepsKeepThePlainTablesSound_port :
    RegionsSound (tracked { start with pending := [.sweep] }) ∧
      MaintenanceSound { start with pending := [.sweep], mnc := { start.mnc with
        errors := [⟨.strayAck, .m0, none⟩], overflow := true, port := .responding [0x0A] [0] true } } ∧
      ∃ t, step (tracked { start with pending := [.sweep] }) = .next t :=
  ⟨tracked_sound _ rfl rfl, ⟨by decide, fun h => (nomatch h), ⟨by decide, by decide⟩, ⟨by decide, by decide⟩,
    ⟨by decide, by decide⟩, fun _ _ _ h => nomatch h⟩, ⟨_, rfl⟩⟩

/-- A fill of line 0 that waits for its line, in a tracked page and outside it, and the slot of another request. -/
theorem witness_WaitingFillsAreReleased :
    let sl := Slot.held (.readLine 0 (.tracked .active) .directory) { WaitReasons.none with lineBusy := true }
    let s := holding .m1 sl (tracked start)
    s.rsa.slots.get .m1 = some sl ∧ sl.phase = .held ∧ sl.waits.lineBusy = true ∧
      regionLookup s.rgt (addrOfLine 0) = .tracked .active ∧ s.mau.attach.get .m1 = .online ∧
      s.pdr.walker.mode ≠ .sweeping ∧ regionLookup start.rgt (addrOfLine 0) ≠ .tracked .active ∧
      WaitReasons.none.lineBusy = false ∧
      (∀ sl p, s.rsa.slots.get .m0 = some sl → sl.phase = .held → sl.request ≠ .readLine 0 p .directory) :=
  ⟨rfl, rfl, rfl, by decide, rfl, (fun h => nomatch h), by decide, rfl, fun _ _ h => nomatch h⟩

/-- A HELD LOCK-READ of the line and a LOCK-WRITE that waits for an entry, a full tracker and a walker paused with
NO_ENTRY; a draining walk with one and with two entries left. -/
theorem witness_CompletionIsReported :
    let q := Slot.held (.lockRead 1 (.tracked .active)) { WaitReasons.none with lineBusy := true }
    let w := Slot.held (.lockWrite 9 (some (.tracked .active)) noBytes) { WaitReasons.none with trackerWait := true }
    let s := holding .m2 w (holding .m1 q (noticing (fullTracker.tail ++ [entry 0 .evict (only .m2)])
      (walking ⟨.sweeping, some 5, [], some ⟨0, .noEntry, false⟩, 0, false⟩ start)))
    let t := s.completeEntry (entry 0 .evict (only .m2))
    16 ≤ s.ivt.entries.length ∧ ¬ 16 ≤ timing.ivt.entries.length ∧
      (entry 0 .write (only .m2)).kind = .write ∧ (entry 0 .walk (only .m2)).kind = .walk ∧
      (∃ sl, t.rsa.slots.get .m1 = some sl ∧ sl.phase = .held) ∧
      q.request.isLockReadIn (entry 0 .evict (only .m2)).line = true ∧
      (∃ sl, t.rsa.slots.get .m2 = some sl ∧ sl.phase = .held ∧ sl.waits.trackerWait = true) ∧
      t.pdr.walker.pause = some ⟨0, .noEntry, true⟩ ∧
      (walking ⟨.retiring 3, none, [], none, 1, true⟩ start).pdr.walker.outstanding - 1 = 0 ∧
      (walking ⟨.retiring 3, none, [], none, 2, true⟩ start).pdr.walker.outstanding - 1 ≠ 0 := by
  refine ⟨by decide, by decide, rfl, rfl, ⟨_, rfl, rfl⟩, by decide, ⟨_, rfl, rfl, rfl⟩, by decide, by decide, by decide⟩

/-- A record before and after an item left it, and freed, with the walker paused on its way for each reason. -/
theorem witness_PausesEndByTheirEvents (reason : PauseReason) :
    let s (rs : DirectorySet) := walking ⟨.sweeping, some 0, [], some ⟨3, reason, false⟩, 0, false⟩ (recording rs start)
    let b := aRecord 3 1 .shared (only .m2) [⟨.m1, .issued, true⟩]
    (∀ rs, (s rs).pdr.walker.pause = some ⟨3, reason, false⟩ ∧ (s rs).pdr.walker.set = some 0) ∧
      (s [b]).pdr.sets.recordAt 0 3 = some b ∧ (s []).pdr.sets.recordAt 0 3 = none ∧
      StateChanged (some b) none ∧ ItemLeft (some b) (some { b with pending := [] }) ∧
      ¬ StateChanged (some b) (some b) ∧ ¬ ItemLeft (some b) (some b) ∧
      (some b).map LineRecord.pending ≠ (some { b with pending := [] }).map LineRecord.pending := by
  refine ⟨fun _ => ⟨rfl, rfl⟩, rfl, rfl, ⟨by simp, by simp⟩, ⟨_, rfl, ⟨.m1, .issued, true⟩, by simp [aRecord], ?_⟩, ?_,
    ?_, by decide⟩
  · intro y hy z hz
    cases hy
    cases hz
  · rintro ⟨-, h⟩
    exact h _ _ rfl rfl rfl (Or.inl ⟨rfl, rfl⟩)
  · rintro ⟨x, hx, q, hq, h⟩
    cases hx
    exact h _ rfl q hq rfl

end Sys2Proof.Tests
end

