-- ==== Sys2Proof/Proofs/Sets.lean ====
section
/-! SUPPORT. One directory set as a list of records: the canonical form of a set, one of its records singled out, and
what replacing, removing or adding a record leaves of it. -/

namespace Sys2Proof.Machine

/-- A set records the line with a tag, or names it as a successor (R4). -/
def DirectorySet.Names (rs : DirectorySet) (t : Tag) : Prop :=
  ∃ r ∈ rs, r.tag = t ∨ ∃ su, r.successor = some su ∧ su.tag = t

/-- What `DirectoryCanonical` says of one set. -/
def DirectorySet.Canonical (rs : DirectorySet) : Prop :=
  (rs.map LineRecord.way).Nodup ∧
    (rs.map LineRecord.tag ++ rs.filterMap fun r => r.successor.map Successor.tag).Nodup

theorem directoryCanonical_iff (s : State) :
    DirectoryCanonical s ↔ s.pdr.sets.wf = true ∧ ∀ i, (s.pdr.sets.get i).Canonical := Iff.rfl

theorem DirectorySet.mem_lines_iff (rs : DirectorySet) (t : Tag) :
    t ∈ rs.map LineRecord.tag ++ (rs.filterMap fun r => r.successor.map Successor.tag) ↔ rs.Names t := by
  simp only [List.mem_append, List.mem_map, List.mem_filterMap, Option.map_eq_some_iff, DirectorySet.Names]
  constructor
  · rintro (⟨r, hr, ht⟩ | ⟨r, hr, su, hsu, ht⟩)
    · exact ⟨r, hr, Or.inl ht⟩
    · exact ⟨r, hr, Or.inr ⟨su, hsu, ht⟩⟩
  · rintro ⟨r, hr, ht | ⟨su, hsu, ht⟩⟩
    · exact Or.inl ⟨r, hr, ht⟩
    · exact Or.inr ⟨r, hr, su, hsu, ht⟩

theorem DirectorySet.Canonical.perm {rs qs : DirectorySet} (h : rs.Canonical) (hp : rs.Perm qs) : qs.Canonical :=
  ⟨(hp.map _).nodup_iff.1 h.1, ((hp.map _).append (hp.filterMap _)).nodup_iff.1 h.2⟩

theorem DirectorySet.Names.perm {rs qs : DirectorySet} {t : Tag} (h : rs.Names t) (hp : rs.Perm qs) : qs.Names t :=
  let ⟨r, hr, ht⟩ := h
  ⟨r, hp.mem_iff.1 hr, ht⟩

/-- A set with one record more is canonical when the record's way and lines are new to it. -/
theorem DirectorySet.canonical_cons_iff (r : LineRecord) (rs : DirectorySet) :
    DirectorySet.Canonical (r :: rs) ↔
      (∀ q ∈ rs, q.way ≠ r.way) ∧ ¬ rs.Names r.tag ∧
        (∀ su, r.successor = some su → su.tag ≠ r.tag ∧ ¬ rs.Names su.tag) ∧ rs.Canonical := by
  unfold DirectorySet.Canonical
  have hway : r.way ∉ rs.map LineRecord.way ↔ ∀ q ∈ rs, q.way ≠ r.way := by simp
  cases hs : r.successor with
  | none =>
    simp only [List.map_cons, List.filterMap_cons, hs, Option.map_none, List.cons_append, List.nodup_cons, hway,
      DirectorySet.mem_lines_iff]
    simp only [reduceCtorEq, false_implies, implies_true, true_and]
    tauto
  | some su =>
    have hp : (r.tag :: (rs.map LineRecord.tag ++ su.tag :: rs.filterMap fun r => r.successor.map Successor.tag)).Perm
        (r.tag :: su.tag :: (rs.map LineRecord.tag ++ rs.filterMap fun r => r.successor.map Successor.tag)) :=
      List.perm_middle.cons _
    simp only [List.map_cons, List.filterMap_cons, hs, Option.map_some, List.cons_append, List.nodup_cons, hway,
      hp.nodup_iff, List.mem_cons, DirectorySet.mem_lines_iff, Option.some.injEq, forall_eq', not_or]
    rw [ne_comm (a := su.tag), ne_eq]
    tauto

/-- The record singled out in a canonical set shares its way and its lines with no other. -/
theorem DirectorySet.Canonical.split {older younger : DirectorySet} {r : LineRecord}
    (h : DirectorySet.Canonical (older ++ r :: younger)) :
    (∀ q ∈ older ++ younger, q.way ≠ r.way) ∧ ¬ DirectorySet.Names (older ++ younger) r.tag ∧
      (∀ su, r.successor = some su → su.tag ≠ r.tag ∧ ¬ DirectorySet.Names (older ++ younger) su.tag) ∧
      DirectorySet.Canonical (older ++ younger) :=
  (DirectorySet.canonical_cons_iff r _).1 (h.perm List.perm_middle)

theorem DirectorySet.tag_ne_of_not_names {rs : DirectorySet} {t : Tag} (h : ¬ rs.Names t) {q : LineRecord}
    (hq : q ∈ rs) : q.tag ≠ t := fun ht => h ⟨q, hq, Or.inl ht⟩

theorem DirectorySet.successor_ne_of_not_names {rs : DirectorySet} {t : Tag} (h : ¬ rs.Names t) {q : LineRecord}
    (hq : q ∈ rs) {su : Successor} (hs : q.successor = some su) : su.tag ≠ t :=
  fun ht => h ⟨q, hq, Or.inr ⟨su, hs, ht⟩⟩

theorem DirectorySet.not_names_iff {rs : DirectorySet} {t : Tag} :
    ¬ rs.Names t ↔ ∀ r ∈ rs, r.tag ≠ t ∧ ∀ su, r.successor = some su → su.tag ≠ t := by
  unfold DirectorySet.Names
  push Not
  rfl

/-- Two records of a canonical set that share a way or a tag are one. -/
theorem DirectorySet.Canonical.eq_of_way {rs : DirectorySet} (h : rs.Canonical) {r q : LineRecord} (hr : r ∈ rs)
    (hq : q ∈ rs) (hw : q.way = r.way) : q = r := List.inj_on_of_nodup_map h.1 hq hr hw

theorem DirectorySet.Canonical.eq_of_tag {rs : DirectorySet} (h : rs.Canonical) {r q : LineRecord} (hr : r ∈ rs)
    (hq : q ∈ rs) (ht : q.tag = r.tag) : q = r :=
  List.inj_on_of_nodup_map (List.nodup_append.1 h.2).1 hq hr ht

/-! ### One record singled out -/

section
variable {older younger : DirectorySet} {r : LineRecord} {t : Tag}

theorem DirectorySet.find_tag_split (h : ∀ q ∈ older, q.tag ≠ t) (hr : r.tag = t) :
    (older ++ r :: younger).find? (fun q => q.tag == t) = some r := by
  rw [List.find?_append, List.find?_eq_none.2 fun q hq => by simpa using h q hq]
  simp [hr]

theorem DirectorySet.update_of_absent {rs : DirectorySet} (h : ∀ q ∈ rs, q.tag ≠ t)
    (f : LineRecord → Option LineRecord) : rs.update t f = rs := by
  unfold DirectorySet.update
  conv_rhs => rw [← List.filterMap_some (l := rs)]
  exact List.filterMap_congr fun q hq => if_neg (h q hq)

theorem DirectorySet.update_split (h : ∀ q ∈ older ++ younger, q.tag ≠ t) (hr : r.tag = t)
    (f : LineRecord → Option LineRecord) :
    DirectorySet.update (older ++ r :: younger) t f = older ++ ((f r).toList ++ younger) := by
  have ho := DirectorySet.update_of_absent (fun q hq => h q (List.mem_append_left _ hq)) f
  have hy := DirectorySet.update_of_absent (fun q hq => h q (List.mem_append_right _ hq)) f
  unfold DirectorySet.update at *
  rw [List.filterMap_append, List.filterMap_cons, ho, hy, if_pos hr]
  cases f r <;> rfl

theorem DirectorySet.map_way_split (h : ∀ q ∈ older ++ younger, q.way ≠ r.way) (f : LineRecord → LineRecord) :
    (older ++ r :: younger).map (fun q => if q.way = r.way then f q else q) = older ++ f r :: younger := by
  have hid : ∀ rs : DirectorySet, (∀ q ∈ rs, q ∈ older ++ younger) →
      rs.map (fun q => if q.way = r.way then f q else q) = rs := fun rs hrs =>
    (List.map_congr_left fun q hq => if_neg (h q (hrs q hq))).trans (List.map_id _)
  rw [List.map_append, List.map_cons, hid older fun q => List.mem_append_left _,
    hid younger fun q => List.mem_append_right _, if_pos rfl]

theorem DirectorySet.filter_way_split (h : ∀ q ∈ older ++ younger, q.way ≠ r.way) :
    (older ++ r :: younger).filter (fun q => q.way != r.way) = older ++ younger := by
  have hid : (older ++ younger).filter (fun q => q.way != r.way) = older ++ younger :=
    List.filter_eq_self.2 fun q hq => by simpa using h q hq
  rw [List.filter_append] at hid ⊢
  simpa using hid

end

/-- An update that never frees a record is a map. -/
theorem DirectorySet.update_some (rs : DirectorySet) (t : Tag) (g : LineRecord → LineRecord) :
    rs.update t (fun r => some (g r)) = rs.map fun r => if r.tag = t then g r else r := by
  unfold DirectorySet.update
  rw [← List.filterMap_eq_map]
  exact List.filterMap_congr fun r _ => by
    by_cases h : r.tag = t <;> simp [h]

/-- Two updates of one record are one update, when the first keeps the tag. -/
theorem DirectorySet.update_update (rs : DirectorySet) (t : Tag) (g : LineRecord → LineRecord)
    (f : LineRecord → Option LineRecord) (hg : ∀ r, (g r).tag = r.tag) :
    (rs.update t fun r => some (g r)).update t f = rs.update t fun r => f (g r) := by
  unfold DirectorySet.update
  rw [List.filterMap_filterMap]
  refine List.filterMap_congr fun r _ => ?_
  by_cases h : r.tag = t <;> simp [h, hg]

/-! ### Records in their places -/

/-- A record stands in the way of another, holds its line, and names no successor but that one's. -/
structure LineRecord.InPlaceOf (r q : LineRecord) : Prop where
  way : q.way = r.way
  tag : q.tag = r.tag
  successor : ∀ su, q.successor = some su → ∃ u, r.successor = some u ∧ u.tag = su.tag

theorem DirectorySet.names_of_filterMap {rs : DirectorySet} {f : LineRecord → Option LineRecord}
    (hf : ∀ r ∈ rs, ∀ q, f r = some q → r.InPlaceOf q) {t : Tag}
    (h : DirectorySet.Names (rs.filterMap f) t) : rs.Names t := by
  obtain ⟨q, hq, ht⟩ := h
  obtain ⟨r, hr, hrq⟩ := List.mem_filterMap.1 hq
  have hp := hf r hr q hrq
  refine ⟨r, hr, ?_⟩
  rcases ht with ht | ⟨su, hsu, ht⟩
  · exact Or.inl (hp.tag ▸ ht)
  · obtain ⟨u, hu, hut⟩ := hp.successor su hsu
    exact Or.inr ⟨u, hu, hut.trans ht⟩

/-- Records replaced in their places or freed keep a set canonical. -/
theorem DirectorySet.Canonical.filterMap {rs : DirectorySet} (h : rs.Canonical)
    {f : LineRecord → Option LineRecord} (hf : ∀ r ∈ rs, ∀ q, f r = some q → r.InPlaceOf q) :
    DirectorySet.Canonical (rs.filterMap f) := by
  induction rs with
  | nil => exact h
  | cons r rs ih =>
    have hfs : ∀ q ∈ rs, ∀ q', f q = some q' → q.InPlaceOf q' := fun q hq => hf q (List.mem_cons_of_mem _ hq)
    obtain ⟨hway, htag, hsucc, hrs⟩ := (DirectorySet.canonical_cons_iff r rs).1 h
    rw [List.filterMap_cons]
    cases hq : f r with
    | none => exact ih hrs hfs
    | some q =>
      have hp := hf r List.mem_cons_self q hq
      refine (DirectorySet.canonical_cons_iff q _).2 ⟨?_, ?_, ?_, ih hrs hfs⟩
      · intro k hk
        obtain ⟨k', hk', hkk⟩ := List.mem_filterMap.1 hk
        rw [(hfs k' hk' k hkk).way, hp.way]
        exact hway k' hk'
      · rw [hp.tag]
        exact fun hn => htag (DirectorySet.names_of_filterMap hfs hn)
      · intro su hsu
        obtain ⟨u, hu, hut⟩ := hp.successor su hsu
        rw [hp.tag, ← hut]
        exact ⟨(hsucc u hu).1, fun hn => (hsucc u hu).2 (DirectorySet.names_of_filterMap hfs hn)⟩

/-- A record with a way and lines new to the set, added anywhere, keeps it canonical. -/
theorem DirectorySet.Canonical.insert {rs qs : DirectorySet} {r : LineRecord} (h : rs.Canonical)
    (hp : (r :: rs).Perm qs) (hway : ∀ q ∈ rs, q.way ≠ r.way) (htag : ¬ rs.Names r.tag)
    (hsucc : ∀ su, r.successor = some su → su.tag ≠ r.tag ∧ ¬ rs.Names su.tag) : qs.Canonical :=
  ((DirectorySet.canonical_cons_iff r rs).2 ⟨hway, htag, hsucc, h⟩).perm hp

/-! ### Installed records, FREE ways and victims -/

@[simp] theorem LineRecord.installed_successor (w : Way) (t : Tag) (ms : List Master) :
    (LineRecord.installed w t ms).successor = none := rfl

theorem LineRecord.successor_eq_some_iff {r : LineRecord} {su : Successor} :
    r.successor = some su ↔ r.status = .evicting (some su) := by
  unfold LineRecord.successor
  cases r.status <;> simp

theorem LineRecord.isLeftEmpty_iff (r : LineRecord) :
    r.isLeftEmpty = true ↔ r.status = .shared ∧ r.sharers.isEmpty = true ∧ r.pending = [] := by
  simp [LineRecord.isLeftEmpty, and_assoc]

theorem LineRecord.eligibleVictim_iff (r : LineRecord) :
    r.eligibleVictim = true ↔ r.status = .shared ∧ r.pending = [] := by
  simp [LineRecord.eligibleVictim]

theorem LineRecord.unlessEmpty_eq_some {r q : LineRecord} (h : r.unlessEmpty = some q) :
    q = r ∧ q.isLeftEmpty = false := by
  unfold LineRecord.unlessEmpty at h
  split at h
  · cases h
  · rename_i hn
    cases h
    exact ⟨rfl, Bool.eq_false_iff.2 hn⟩

theorem LineRecord.unlessEmpty_eq_none {r : LineRecord} (h : r.unlessEmpty = none) : r.isLeftEmpty = true := by
  unfold LineRecord.unlessEmpty at h
  split at h
  · assumption
  · cases h

theorem DirectorySet.lowestFree_some {rs : DirectorySet} {w : Way} (h : rs.lowestFree = some w) :
    ∀ r ∈ rs, r.way ≠ w := by
  have := List.find?_some h
  simpa using this

/-- A set that records a tag has the record between the older and the younger ones. -/
theorem DirectorySet.exists_split_of_find {rs : DirectorySet} {t : Tag} {r : LineRecord}
    (h : rs.find? (fun q => q.tag == t) = some r) :
    r.tag = t ∧ ∃ older younger, rs = older ++ r :: younger ∧ ∀ q ∈ older, q.tag ≠ t := by
  obtain ⟨ht, older, younger, hrs, ho⟩ := List.find?_eq_some_iff_append.1 h
  exact ⟨by simpa using ht, older, younger, hrs, fun q hq => by simpa using ho q hq⟩

theorem DirectorySet.find_tag_none {rs : DirectorySet} {t : Tag} :
    rs.find? (fun q => q.tag == t) = none ↔ ∀ r ∈ rs, r.tag ≠ t := by
  simp [List.find?_eq_none]

end Sys2Proof.Machine
end

