-- ==== Sys2Proof/Proofs/Coherence.lean ====
section
/-! SUPPORT. The part of the state that the directory's invariants speak of (the sets, the tracker, the walker and the
attachment states), the few changes that commands make to it, and the principle that what these changes keep, every step
keeps. -/

namespace Sys2Proof.Machine

/-! ### Who may hold a line -/

/-- m is ONLINE, and no notice ends that (R133; log 7). -/
def State.Takes (s : State) (m : Master) : Prop :=
  s.mau.attach.get m = .online ∧ s.mau.resetNotice.get m = false

/-- m is no sharer, no claimant and no target. -/
def State.HoldsNothing (s : State) (m : Master) : Prop :=
  (∀ i, ∀ r ∈ s.pdr.sets.get i, r.sharers.get m = false ∧ ∀ su, r.successor = some su → m ∉ su.claimants) ∧
    ∀ e ∈ s.ivt.entries, e.targets.get m = false

theorem holdersOnline_iff (s : State) : HoldersOnline s ↔ ∀ m, ¬ s.Takes m → s.HoldsNothing m := Iff.rfl

/-- No notice of an ONLINE master waits to be taken: what holds from the start of an event on (log 7). -/
def State.NoticesTaken (s : State) : Prop := ∀ m, s.mau.attach.get m = .online → s.mau.resetNotice.get m = false

theorem State.atEvent_noticesTaken (s : State) : s.atEvent.NoticesTaken := fun _ h => (State.atEvent_online h).2

theorem State.NoticesTaken.takes {s : State} (h : s.NoticesTaken) {m : Master} (hm : s.isOnline m = true) :
    s.Takes m := by
  have ho : s.mau.attach.get m = .online := by simpa [State.isOnline] using hm
  exact ⟨ho, h m ho⟩

theorem State.atEvent_takes {s : State} {m : Master} (h : s.Takes m) : s.atEvent.Takes m := by
  refine ⟨?_, h.2⟩
  rw [State.atEvent_attach, if_neg fun hn => by simp [h.2] at hn]
  exact h.1

/-! ### Changes of the directory and of the walker -/

/-- A record's status as an event may leave it while the record keeps its state: a successor may be dropped, and its
claimants change, to masters that may hold lines (R4, R12, R27, R28). -/
inductive RecordStatus.Evolves (ok : Master → Prop) : RecordStatus → RecordStatus → Prop
  | refl (st : RecordStatus) : Evolves ok st st
  | dropped (su : Option Successor) : Evolves ok (.evicting su) (.evicting none)
  | claimed (u : Successor) (cs : List Master) (h : u.claimants ≠ [] → cs ≠ [])
      (hc : ∀ k ∈ cs, k ∈ u.claimants ∨ ok k) :
      Evolves ok (.evicting (some u)) (.evicting (some { u with claimants := cs }))

/-- A record as an event may leave it while it keeps its state. -/
structure LineRecord.Evolves (ok : Master → Prop) (r q : LineRecord) : Prop where
  way : q.way = r.way
  tag : q.tag = r.tag
  status : r.status.Evolves ok q.status
  sharers : ∀ k, q.sharers.get k = true → r.sharers.get k = true ∨ ok k
  notEmpty : r.isLeftEmpty = false → q.isLeftEmpty = false
  pending : r.status ≠ .shared → r.pending = [] → q.pending = []

theorem RecordStatus.Evolves.shared {ok : Master → Prop} {st : RecordStatus} (h : st.Evolves ok .shared) :
    st = .shared := by
  cases h
  rfl

theorem LineRecord.Evolves.refl (ok : Master → Prop) (r : LineRecord) : r.Evolves ok r :=
  ⟨rfl, rfl, .refl _, fun _ h => Or.inl h, id, fun _ => id⟩

theorem LineRecord.Evolves.inPlaceOf {ok : Master → Prop} {r q : LineRecord} (h : r.Evolves ok q) :
    r.InPlaceOf q := by
  refine ⟨h.way, h.tag, fun su hsu => ?_⟩
  have hst := h.status
  rw [LineRecord.successor_eq_some_iff] at hsu
  rw [hsu] at hst
  generalize hr : r.status = st at hst
  cases hst with
  | refl => exact ⟨su, LineRecord.successor_eq_some_iff.2 hr, rfl⟩
  | claimed u cs => exact ⟨u, LineRecord.successor_eq_some_iff.2 hr, rfl⟩

/-- Only the pending fills of a record change, and no record is left without one that had one. -/
theorem LineRecord.Evolves.of_pending (ok : Master → Prop) {r : LineRecord} {ps : List PendingFill}
    (h : ps = [] ↔ r.pending = []) : r.Evolves ok { r with pending := ps } := by
  refine ⟨rfl, rfl, .refl _, fun _ h => Or.inl h, fun hr => ?_, fun _ => h.2⟩
  rw [Bool.eq_false_iff, Ne, LineRecord.isLeftEmpty_iff] at hr ⊢
  exact fun hq => hr ⟨hq.1, hq.2.1, h.1 hq.2.2⟩

/-- What an event may make of a record that keeps its state, or frees it when it is SHARED (R8). -/
def LineRecord.EvolvesTo (ok : Master → Prop) (r : LineRecord) (o : Option LineRecord) : Prop :=
  (o = none → r.status = .shared) ∧ ∀ q, o = some q → r.Evolves ok q

theorem LineRecord.Evolves.to {ok : Master → Prop} {r q : LineRecord} (h : r.Evolves ok q) :
    r.EvolvesTo ok (some q) := ⟨fun hn => (nomatch hn), fun _ hq => Option.some.inj hq ▸ h⟩

/-- The walker counts n live WALK entries, and is as at reset while it is IDLE. -/
def Walker.Counts (w : Walker) (n : Nat) : Prop := w.outstanding = n ∧ (w.mode = .idle → w = Walker.idle)

/-- The walker after the creation of an entry, and after the completion of one (R125, R128). -/
def Walker.oneMore (w : Walker) (kind : EntryKind) : Walker :=
  if kind = .walk then { w with outstanding := w.outstanding + 1 } else w

def Walker.oneLess (w : Walker) (kind : EntryKind) : Walker :=
  if kind = .walk then { w with outstanding := w.outstanding - 1 } else w

/-! ### Records that the tracker takes and gives back -/

/-- The statuses that a SHARED record takes with an entry of each kind (R15, R21, R28). -/
inductive LineRecord.TakenAs (s : State) (i : Nat) (r : LineRecord) : EntryKind → RecordStatus → Prop
  | write : TakenAs s i r .write .invalidating
  | walk (hp : r.pending = []) (hm : s.pdr.walker.mode ≠ .idle) : TakenAs s i r .walk (.evicting none)
  | evict (t : Tag) (m : Master) (hp : r.pending = []) (ht : ¬ DirectorySet.Names (s.pdr.sets.get i) t)
      (hm : s.Takes m) : TakenAs s i r .evict (.evicting (some ⟨t, [m]⟩))

/-- A new entry e of the tracker takes the SHARED record r of set i, for some of its sharers (R31, R33). -/
structure State.TakesRecord (s : State) (i : Nat) (r : LineRecord) (e : TrackerEntry) (st : RecordStatus) : Prop where
  mem : r ∈ s.pdr.sets.get i
  shared : r.status = .shared
  room : s.ivt.entries.length < Config.trackerEntries
  line : e.line = lineOfTag r.tag i
  targets : ∃ k, e.targets.get k = true
  sharers : ∀ k, e.targets.get k = true → r.sharers.get k = true
  sent : e.sent = MasterSet.empty
  acked : e.acked = MasterSet.empty
  status : r.TakenAs s i e.kind st

/-- The state with the directory's sets replaced. -/
def State.withSets (s : State) (d : Directory) : State := s.withPdr { s.pdr with sets := d }

/-- The state with the entry and the record's new status. -/
def State.recordTaken (i : Nat) (r : LineRecord) (e : TrackerEntry) (st : RecordStatus) (s : State) : State :=
  (s.withIvt { s.ivt with entries := s.ivt.entries ++ [e] }).withPdr
    ⟨s.pdr.sets.put i ((s.pdr.sets.get i).map fun q => if q.way = r.way then { q with status := st } else q),
      s.pdr.walker.oneMore e.kind⟩

/-- What the completion of entry e makes of the record of its line (R23 to R25). -/
def LineRecord.completedBy (e : TrackerEntry) (r : LineRecord) : Option LineRecord :=
  match e.kind with
  | .write => LineRecord.unlessEmpty { r with status := .shared, sharers := MasterSet.diff r.sharers e.targets }
  | .evict | .walk => r.successor.map fun su => LineRecord.installed r.way su.tag su.claimants

/-- The sets d are those of s after the completion of entry e, wherever the record then stands in its set. -/
def State.MovesRecordOn (s : State) (e : TrackerEntry) (d : Directory) : Prop :=
  ((∀ r ∈ s.pdr.sets.get (setOfLine e.line), r.tag ≠ tagOfLine e.line) ∧ d = s.pdr.sets) ∨
    ∃ older r younger rs, s.pdr.sets.get (setOfLine e.line) = older ++ r :: younger ∧ r.tag = tagOfLine e.line ∧
      ((r.completedBy e).toList ++ (older ++ younger)).Perm rs ∧ d = s.pdr.sets.put (setOfLine e.line) rs

/-- The state with entry e gone, and counted. -/
def State.entryGone (e : TrackerEntry) (d : Directory) (s : State) : State :=
  (s.withIvt { s.ivt with entries := s.ivt.entries.filter fun k => k.line != e.line }).withPdr
    ⟨d, s.pdr.walker.oneLess e.kind⟩

/-- An entry with more targets, each a sharer of the line's record, or with another cause (R34, R35). -/
structure TrackerEntry.Enlarges (s : State) (e x : TrackerEntry) : Prop where
  line : x.line = e.line
  kind : x.kind = e.kind
  sent : x.sent = e.sent
  acked : x.acked = e.acked
  keeps : ∀ k, e.targets.get k = true → x.targets.get k = true
  adds : ∀ k, x.targets.get k = true → e.targets.get k = true ∨
    ∃ r ∈ s.pdr.sets.get (setOfLine e.line), r.sharers.get k = true

/-- An entry after an answer of m for line l (R39). -/
def TrackerEntry.answeredBy (m : Master) (l : LineAddr) (e : TrackerEntry) : TrackerEntry :=
  if e.line = l then { e with acked := e.acked.insert m } else e

/-- The tracker after an answer of m to the head item of its list (R39). -/
def Ivt.answered (v : Ivt) (m : Master) (l : LineAddr) (rest : List LineAddr) (timer : Option Nat) : Ivt :=
  ⟨v.entries.map (TrackerEntry.answeredBy m l), v.notices.set m rest, v.timers.set m timer⟩

/-- The tracker after the release of m (R46). -/
def Ivt.releasedFrom (v : Ivt) (m : Master) : Ivt :=
  ⟨v.entries.map fun e => e.releasedFrom m, v.notices.set m [], v.timers.set m none⟩

/-- What the changes that commands make keep. `P es s` speaks of a state in which the entries `es` are complete and
still to be completed in this event; `P []` is the invariant between events. -/
structure Coherent (P : List TrackerEntry → State → Prop) : Prop where
  reset : ∀ mpres mrst sreq mrdy spi clk pending, P [] (State.afterReset mpres mrst sreq mrdy spi clk pending)
  canonical : ∀ {es s}, P es s → DirectoryCanonical s
  /-- Nothing but the attachment states changes, and the walker without a change of its count. -/
  frame : ∀ {es s t}, P es s → t.pdr.sets = s.pdr.sets → t.ivt = s.ivt →
    (∀ n, s.pdr.walker.Counts n → t.pdr.walker.Counts n) → (∀ m, s.Takes m → t.Takes m ∨ s.HoldsNothing m) → P es t
  evolved : ∀ {es s} (d : Directory) (f : Nat → LineRecord → Option LineRecord), P es s → d.wf = true →
    (∀ i, d.get i = (s.pdr.sets.get i).filterMap (f i)) →
    (∀ i, ∀ r ∈ s.pdr.sets.get i, r.EvolvesTo s.Takes (f i r)) → P es (s.withSets d)
  installed : ∀ {es s i w t ms} (d : Directory), P es s → (∀ r ∈ s.pdr.sets.get i, r.way ≠ w) →
    ¬ DirectorySet.Names (s.pdr.sets.get i) t → ms ≠ [] → i < Config.directorySets → d.wf = true →
    (∀ j, d.get j = if j = i then s.pdr.sets.get i ++ [LineRecord.installed w t ms] else s.pdr.sets.get j) →
    P es (s.withSets d)
  taken : ∀ {es s i r e st}, P es s → s.TakesRecord i r e st → P es (s.recordTaken i r e st)
  completed : ∀ {es s e d}, P (e :: es) s → s.MovesRecordOn e d → P es (s.entryGone e d)
  enlarged : ∀ {s} (l : LineAddr) (f : TrackerEntry → TrackerEntry), P [] s →
    (∀ e ∈ s.ivt.entries, e.line = l → e.Enlarges s (f e)) → P [] (s.modifyEntry l f)
  sent : ∀ {s e}, P [] s → e ∈ s.ivt.entries → P [] (s.sendMessage e)
  answered : ∀ {s m l rest} (clk : Nat), P [] s → s.ivt.notices.get m = l :: rest →
    P ((s.ivt.answered m l rest (if rest.isEmpty then none else some clk)).entries.filter fun e =>
        e.line == l && e.complete)
      (s.withIvt (s.ivt.answered m l rest (if rest.isEmpty then none else some clk)))
  released : ∀ {s} (m : Master), P [] s →
    P ((s.ivt.releasedFrom m).entries.filter fun e => e.complete) (s.withIvt (s.ivt.releasedFrom m))

/-! ### States alike in all of this -/

/-- The two states have the same directory, tracker, walker, attachment states and notices. -/
def State.AlikeHere (s t : State) : Prop :=
  t.pdr = s.pdr ∧ t.ivt = s.ivt ∧ t.mau.attach = s.mau.attach ∧ t.mau.resetNotice = s.mau.resetNotice

theorem State.AlikeHere.refl (s : State) : s.AlikeHere s := ⟨rfl, rfl, rfl, rfl⟩

theorem State.AlikeHere.trans {s t u : State} (h : s.AlikeHere t) (k : t.AlikeHere u) : s.AlikeHere u :=
  ⟨k.1.trans h.1, k.2.1.trans h.2.1, k.2.2.1.trans h.2.2.1, k.2.2.2.trans h.2.2.2⟩

/-- The slots of claimants told change nothing here (R65). -/
theorem State.endWayWait_alike (o : LookupOutcome) (ms : List Master) (s : State) :
    s.AlikeHere (s.endWayWait o ms) := by
  have hone : ∀ (u : State) m, s.AlikeHere u → s.AlikeHere (u.modifySlot m (Slot.afterLookup o)) :=
    fun u m h => h.trans ⟨rfl, rfl, rfl, rfl⟩
  exact foldl_holds _ s.AlikeHere hone ms s (.refl s)

theorem State.AlikeHere.takes {s t : State} (h : s.AlikeHere t) {m : Master} (hm : s.Takes m) : t.Takes m := by
  unfold State.Takes
  rw [h.2.2.1, h.2.2.2]
  exact hm

theorem State.AlikeHere.noticesTaken {s t : State} (h : s.AlikeHere t) (hs : s.NoticesTaken) : t.NoticesTaken := by
  unfold State.NoticesTaken
  rw [h.2.2.1, h.2.2.2]
  exact hs

theorem State.noticesTaken_of_mau {s t : State} (h : t.mau = s.mau) (hs : s.NoticesTaken) : t.NoticesTaken := by
  unfold State.NoticesTaken
  rw [h]
  exact hs

theorem State.takes_of_mau {s t : State} (h : t.mau = s.mau) {m : Master} (hm : s.Takes m) : t.Takes m := by
  unfold State.Takes
  rw [h]
  exact hm

/-- An operation that DirectoryWork bounds leaves who may hold lines as it was. -/
theorem State.DirectoryWork.mau {s t : State} (h : State.DirectoryWork s t) : t.mau = s.mau := by
  obtain ⟨-, -, -, -, -, -, -, -, h, -⟩ := h
  exact h

theorem State.DirectoryWork.walker {s t : State} (h : State.DirectoryWork s t) : t.pdr.walker = s.pdr.walker := by
  obtain ⟨-, -, -, h, -⟩ := h
  exact h

end Sys2Proof.Machine
end

