-- ==== Sys2Proof/Proofs/CoherentOps.lean ====
section
/-! SUPPORT. Each shared operation on the directory and the tracker, made of the changes that `Coherent` names. -/

namespace Sys2Proof.Machine

/-! ### What a fill lookup can do (R9 to R15) -/

/-- What every outcome of a fill lookup gives, the lookup gives: nothing changed, the record joined, a successor
claimed, a FREE way or an empty victim's way installed, or a victim's record taken for eviction. -/
theorem State.fillLookup_elim {P : State → Prop} (m : Master) (l : LineAddr) (s : State) (same : P s)
    (joined : ∀ r ∈ s.pdr.sets.get (setOfLine l), r.tag = tagOfLine l → r.status = .shared →
      P (s.setRecords (setOfLine l) (DirectorySet.update (s.pdr.sets.get (setOfLine l)) (tagOfLine l) fun r =>
        some { r with pending := r.pending ++ [⟨m, .waiting, false⟩] })))
    (claimed : P (s.setRecords (setOfLine l)
      ((s.pdr.sets.get (setOfLine l)).map (LineRecord.withClaimant m (tagOfLine l)))))
    (installed : ∀ w, ¬ DirectorySet.Names (s.pdr.sets.get (setOfLine l)) (tagOfLine l) →
      (∀ r ∈ s.pdr.sets.get (setOfLine l), r.way ≠ w) →
      P (s.setRecords (setOfLine l) (s.pdr.sets.get (setOfLine l) ++ [LineRecord.installed w (tagOfLine l) [m]])))
    (reused : ∀ v ∈ s.pdr.sets.get (setOfLine l), v.status = .shared →
      ¬ DirectorySet.Names (s.pdr.sets.get (setOfLine l)) (tagOfLine l) →
      P (s.setRecords (setOfLine l) (((s.pdr.sets.get (setOfLine l)).filter fun r => r.way != v.way) ++
        [LineRecord.installed v.way (tagOfLine l) [m]])))
    (evicted : ∀ v ∈ s.pdr.sets.get (setOfLine l), ∀ u, v.status = .shared → v.pending = [] →
      v.sharers.isEmpty = false → ¬ DirectorySet.Names (s.pdr.sets.get (setOfLine l)) (tagOfLine l) →
      s.createEntry (lineOfTag v.tag (setOfLine l)) .evict v.sharers MasterSet.empty = some u →
      P (u.setRecords (setOfLine l) ((s.pdr.sets.get (setOfLine l)).map fun r =>
        if r.way = v.way then { r with status := .evicting (some ⟨tagOfLine l, [m]⟩) } else r))) :
    P (s.fillLookup m l).1 := by
  unfold State.fillLookup
  dsimp only
  split
  · rename_i r hr
    obtain ⟨ht, older, younger, hrs, -⟩ := DirectorySet.exists_split_of_find hr
    split
    · exact joined r (hrs ▸ by simp) ht ‹_›
    · exact same
    · exact same
  · rename_i hnone
    split
    · exact claimed
    · rename_i hsu
      have hnames : ¬ DirectorySet.Names (s.pdr.sets.get (setOfLine l)) (tagOfLine l) := by
        rw [DirectorySet.not_names_iff]
        refine fun r hr => ⟨DirectorySet.find_tag_none.1 hnone r hr, fun su hs ht => hsu ?_⟩
        exact List.any_eq_true.2 ⟨r, hr, by simp [hs, ht]⟩
      split
      · exact installed _ hnames (DirectorySet.lowestFree_some ‹_›)
      · split
        · exact same
        · rename_i v hv
          have hmem := List.mem_of_find?_eq_some hv
          obtain ⟨hst, hp⟩ := (LineRecord.eligibleVictim_iff v).1 (List.find?_some hv)
          unfold State.useVictim
          dsimp only
          split
          · exact reused v hmem hst hnames
          · rename_i he
            split
            · exact same
            · exact evicted v hmem _ hst hp (Bool.eq_false_iff.2 he) hnames ‹_›

/-! ### Evolutions that the operations make -/

/-- A SHARED record is joined by a fill (R10). -/
theorem LineRecord.Evolves.of_joined (ok : Master → Prop) (r : LineRecord) (p : PendingFill)
    (h : r.status = .shared) : r.Evolves ok { r with pending := r.pending ++ [p] } :=
  ⟨rfl, rfl, .refl _, fun _ h => Or.inl h, fun _ => by simp [LineRecord.isLeftEmpty], fun hn => absurd h hn⟩

/-- A successor gains a claimant (R12). -/
theorem LineRecord.evolves_withClaimant {ok : Master → Prop} {m : Master} (hm : ok m) (t : Tag) (r : LineRecord) :
    r.Evolves ok (r.withClaimant m t) := by
  unfold LineRecord.withClaimant
  split
  · rename_i su hst
    split
    · refine ⟨rfl, rfl, ?_, fun _ h => Or.inl h, fun _ => by simp [LineRecord.isLeftEmpty], fun _ => id⟩
      rw [hst]
      refine .claimed su _ (fun _ => by simp) fun k hk => ?_
      rcases List.mem_append.1 hk with hk | hk
      · exact Or.inl hk
      · rw [List.mem_singleton.1 hk]
        exact Or.inr hm
    · exact .refl ok r
  all_goals exact .refl ok r

theorem RecordStatus.evolves_withoutClaimant (ok : Master → Prop) (m : Master) (st : RecordStatus) :
    st.Evolves ok (st.withoutClaimant m) := by
  unfold RecordStatus.withoutClaimant
  split
  · dsimp only
    split
    · exact .dropped _
    · rename_i su hne
      exact .claimed su _ (fun _ hn => hne (List.isEmpty_iff.2 hn)) fun k hk => Or.inl (List.mem_of_mem_filter hk)
  all_goals exact .refl _

/-- A record that loses m gains nobody (R26, R27). -/
theorem LineRecord.evolvesTo_withoutMaster (ok : Master → Prop) (m : Master) (a : AttachState) (r : LineRecord) :
    r.EvolvesTo ok (r.withoutMaster m a) := by
  unfold LineRecord.withoutMaster
  have hstatus := RecordStatus.evolves_withoutClaimant ok m r.status
  refine ⟨fun hn => ?_, fun q hq => ?_⟩
  · have hsh : r.status.withoutClaimant m = .shared :=
      ((LineRecord.isLeftEmpty_iff _).1 (LineRecord.unlessEmpty_eq_none hn)).1
    exact (hsh ▸ hstatus).shared
  · obtain ⟨rfl, he⟩ := LineRecord.unlessEmpty_eq_some hq
    refine ⟨rfl, rfl, hstatus, fun k hk => Or.inl ?_, fun _ => he, fun _ hp => ?_⟩
    · dsimp only at hk
      rw [MasterSet.get_erase] at hk
      split at hk
      · cases hk
      · exact hk
    · simp [hp, pendingWithout]

/-- The end of a fill: its item leaves, and a master that keeps it may hold lines (R17, R18). -/
theorem LineRecord.evolvesTo_endFill {ok : Master → Prop} {m : Master} {keep : Bool} (hm : keep = true → ok m)
    (r : LineRecord) :
    r.EvolvesTo ok (LineRecord.unlessEmpty { r with
      sharers := if keep then r.sharers.insert m else r.sharers
      pending := r.pending.filter fun p => p.master != m }) := by
  refine ⟨fun hn => ((LineRecord.isLeftEmpty_iff _).1 (LineRecord.unlessEmpty_eq_none hn)).1, fun q hq => ?_⟩
  obtain ⟨rfl, he⟩ := LineRecord.unlessEmpty_eq_some hq
  refine ⟨rfl, rfl, .refl _, fun k hk => ?_, fun _ => he, fun _ hp => by simp [hp]⟩
  dsimp only at hk
  split at hk
  · rename_i hkeep
    rw [MasterSet.get_insert] at hk
    split at hk
    · rename_i hkm
      exact Or.inr (hkm ▸ hm hkeep)
    · exact Or.inl hk
  · exact Or.inl hk

/-! ### The operations on the directory -/

section
variable {P : List TrackerEntry → State → Prop} {es : List TrackerEntry} {s : State}

theorem Coherent.alike (hP : Coherent P) (h : P es s) {t : State} (ha : s.AlikeHere t) : P es t :=
  hP.frame h (by rw [ha.1]) ha.2.1 (by rw [ha.1]; exact fun _ => id) fun _ hm => Or.inl (ha.takes hm)

theorem Coherent.wf (hP : Coherent P) (h : P es s) : s.pdr.sets.wf = true := (hP.canonical h).1

/-- The records of one set evolve. -/
theorem Coherent.setEvolved (hP : Coherent P) (h : P es s) {i : Nat} (hi : i < Config.directorySets)
    (g : LineRecord → Option LineRecord) (hg : ∀ r ∈ s.pdr.sets.get i, r.EvolvesTo s.Takes (g r)) :
    P es (s.setRecords i ((s.pdr.sets.get i).filterMap g)) := by
  refine hP.evolved _ (fun j => if j = i then g else some) h (Directory.wf_put (hP.wf h) hi _) (fun j => ?_)
    fun j r hr => ?_
  · rw [Directory.get_put (hP.wf h)]
    by_cases hj : j = i
    · rw [if_pos hj, if_pos hj, hj]
    · rw [if_neg hj, if_neg hj, List.filterMap_some]
  · by_cases hj : j = i
    · rw [if_pos hj]
      exact hg r (hj ▸ hr)
    · rw [if_neg hj]
      exact (LineRecord.Evolves.refl _ r).to

theorem Coherent.setMapped (hP : Coherent P) (h : P es s) {i : Nat} (hi : i < Config.directorySets)
    (g : LineRecord → LineRecord) (hg : ∀ r ∈ s.pdr.sets.get i, r.Evolves s.Takes (g r)) :
    P es (s.setRecords i ((s.pdr.sets.get i).map g)) := by
  rw [← List.filterMap_eq_map]
  exact hP.setEvolved h hi _ fun r hr => (hg r hr).to

/-- The record of a line evolves. -/
theorem Coherent.recordEvolved (hP : Coherent P) (h : P es s) (l : LineAddr) (g : LineRecord → Option LineRecord)
    (hg : ∀ r ∈ s.pdr.sets.get (setOfLine l), r.tag = tagOfLine l → r.EvolvesTo s.Takes (g r)) :
    P es (s.updateRecord l g) := by
  refine hP.setEvolved h (setOfLine_lt l) _ fun r hr => ?_
  by_cases ht : r.tag = tagOfLine l
  · rw [if_pos ht]
    exact hg r hr ht
  · rw [if_neg ht]
    exact (LineRecord.Evolves.refl _ r).to

/-- A record taken by an entry that a create request made, whatever became of the slots. -/
theorem Coherent.takenBy (hP : Coherent P) (h : P es s) {i : Nat} {r : LineRecord} {kind : EntryKind}
    {targets causes : MasterSet} {st : RecordStatus} {u : State} (hr : r ∈ s.pdr.sets.get i)
    (hsh : r.status = .shared)
    (hu : s.createEntry (lineOfTag r.tag i) kind targets causes = some u) (hne : targets.isEmpty = false)
    (hsub : ∀ k, targets.get k = true → r.sharers.get k = true) (hst : r.TakenAs s i kind st) :
    P es ((u.setRecords i ((s.pdr.sets.get i).map fun q =>
      if q.way = r.way then { q with status := st } else q)).withWalker (s.pdr.walker.oneMore kind)) := by
  obtain ⟨hroom, hivt, -, -, -, hpdr, -, -, hmau, -⟩ := State.createEntry_some hu
  have hk : ∃ k, targets.get k = true := by
    by_contra hc
    rw [(MasterSet.isEmpty_iff targets).2 fun k => by simpa using fun ht => hc ⟨k, ht⟩] at hne
    cases hne
  have ht := hP.taken h (e := ⟨lineOfTag r.tag i, kind, targets, MasterSet.empty, MasterSet.empty, causes⟩)
    ⟨hr, hsh, hroom, rfl, hk, hsub, rfl, rfl, hst⟩
  refine hP.alike ht ⟨?_, hivt, ?_, ?_⟩
  · simp only [State.setRecords, State.recordTaken, State.withWalker, State.withPdr_pdr, hpdr]
  · exact congrArg Mau.attach hmau
  · exact congrArg Mau.resetNotice hmau

theorem Walker.oneMore_of_ne {w : Walker} {kind : EntryKind} (h : kind ≠ .walk) : w.oneMore kind = w := if_neg h

/-- A SHARED record is freed for a fill that takes its way (R15). -/
theorem Coherent.victimFreed (hP : Coherent P) (h : P es s) {i : Nat} (hi : i < Config.directorySets) {v : LineRecord}
    (hv : v ∈ s.pdr.sets.get i) (hsh : v.status = .shared) :
    P es (s.setRecords i ((s.pdr.sets.get i).filter fun q => q.way != v.way)) := by
  rw [← List.filterMap_eq_filter]
  refine hP.setEvolved h hi _ fun q hq => ?_
  by_cases hw : q.way = v.way
  · rw [DirectorySet.Canonical.eq_of_way ((hP.canonical h).2 i) hv hq hw]
    simp [LineRecord.EvolvesTo, hsh]
  · rw [Option.guard_apply, if_pos (by simpa using hw)]
    exact (LineRecord.Evolves.refl _ q).to

/-- A fill lookup for a master that may hold lines (R9). -/
theorem Coherent.lookup (hP : Coherent P) (h : P es s) {m : Master} (hm : s.Takes m) (l : LineAddr) :
    P es (s.fillLookup m l).1 := by
  have hl := setOfLine_lt l
  have hc := (hP.canonical h).2 (setOfLine l)
  refine State.fillLookup_elim m l s h ?_ ?_ ?_ ?_ ?_
  · intro r hr ht hsh
    refine hP.recordEvolved h l _ fun q hq hqt => ?_
    rw [DirectorySet.Canonical.eq_of_tag hc hr hq (hqt.trans ht.symm)]
    exact (LineRecord.Evolves.of_joined _ r _ hsh).to
  · exact hP.setMapped h hl _ fun r _ => LineRecord.evolves_withClaimant hm _ r
  · exact fun w hn hw => hP.installed _ h hw hn (by simp) hl (Directory.wf_put (hP.wf h) hl _)
      fun j => Directory.get_put (hP.wf h) _ j _
  · intro v hv hsh hn
    have hfreed := hP.victimFreed h hl hv hsh
    have hget := State.setRecords_get (hP.wf h) (setOfLine l) (setOfLine l)
      ((s.pdr.sets.get (setOfLine l)).filter fun q => q.way != v.way)
    rw [if_pos rfl] at hget
    have hin := hP.installed (i := setOfLine l) (w := v.way) (t := tagOfLine l) (ms := [m])
      (s.pdr.sets.put (setOfLine l) (((s.pdr.sets.get (setOfLine l)).filter fun r => r.way != v.way) ++
        [LineRecord.installed v.way (tagOfLine l) [m]])) hfreed
    rw [hget] at hin
    refine hin ?_ ?_ (by simp) hl (Directory.wf_put (hP.wf h) hl _) fun j => ?_
    · exact fun q hq => by simpa using (List.mem_filter.1 hq).2
    · exact fun ⟨q, hq, ht⟩ => hn ⟨q, List.mem_of_mem_filter hq, ht⟩
    · rw [Directory.get_put (hP.wf h), State.setRecords_get (hP.wf h)]
      split <;> rfl
  · intro v hv u hsh hp hne hn hu
    have ht := hP.takenBy h hv hsh hu hne (fun _ => id) (.evict (tagOfLine l) m hp hn hm)
    refine hP.alike ht ⟨?_, rfl, rfl, rfl⟩
    rw [Walker.oneMore_of_ne (by decide), ← (State.createEntry_work hu).walker]
    rfl


/-! ### Write steps and fills -/

theorem Directory.recordOf_some {d : Directory} {l : LineAddr} {r : LineRecord} (h : d.recordOf l = some r) :
    r ∈ d.get (setOfLine l) ∧ r.tag = tagOfLine l :=
  ⟨List.mem_of_find?_eq_some h, by simpa using List.find?_some h⟩

/-- The targets of a write share the line (R20). -/
theorem State.writeTargets_sharers {a k : Master} {l : LineAddr} {r : LineRecord}
    (hr : s.pdr.sets.recordOf l = some r) (hk : (s.writeTargets a l).get k = true) : r.sharers.get k = true := by
  have herase : ∀ x : MasterSet, (x.erase a).get k = true → x.get k = true := fun x hx => by
    rw [MasterSet.get_erase] at hx
    split at hx
    · cases hx
    · exact hx
  unfold State.writeTargets at hk
  rw [hr] at hk
  dsimp only at hk
  split at hk
  · exact herase _ hk
  · split at hk
    · rw [MasterSet.get_diff, Bool.and_eq_true] at hk
      exact herase _ hk.1
    · exact herase _ hk
  · simp at hk

/-- The tracker's part of a write step taken (R21). -/
theorem Coherent.writeTracker (hP : Coherent P) (h : P [] s) {a : Master} {l : LineAddr} {u : State}
    (hu : s.writeTracker a l = some u) : P [] u := by
  unfold State.writeTracker at hu
  dsimp only at hu
  split at hu
  · cases hu
    exact h
  · rename_i r hr
    obtain ⟨hmem, htag⟩ := Directory.recordOf_some hr
    have hc := (hP.canonical h).2 (setOfLine l)
    have hline : lineOfTag r.tag (setOfLine l) = l := by rw [htag, lineOfTag_tagOfLine]
    have henlarged : P [] (s.enlargeEntry l (s.writeTargets a l) a) :=
      hP.enlarged l _ h fun e he hel => ⟨rfl, rfl, rfl, rfl, fun k hk => by simp [hk], fun k hk => by
        rw [MasterSet.get_union, Bool.or_eq_true] at hk
        exact hk.imp id fun hk => ⟨r, hel ▸ hmem, State.writeTargets_sharers hr hk⟩⟩
    have hcause : P [] (s.addCause l a) :=
      hP.enlarged l _ h fun e _ _ => ⟨rfl, rfl, rfl, rfl, fun _ => id, fun _ => Or.inl⟩
    split at hu
    · rename_i hsh
      split at hu
      · cases hu
        exact h
      · rename_i hne
        obtain ⟨w, hw, rfl⟩ := Option.map_eq_some_iff.1 hu
        have hsame : ((s.pdr.sets.get (setOfLine l)).map fun q =>
            if q.tag = tagOfLine l then { q with status := .invalidating } else q) =
            (s.pdr.sets.get (setOfLine l)).map fun q =>
              if q.way = r.way then { q with status := .invalidating } else q := by
          refine List.map_congr_left fun q hq => ?_
          have hiff : q.tag = tagOfLine l ↔ q.way = r.way :=
            ⟨fun ht => DirectorySet.Canonical.eq_of_tag hc hmem hq (ht.trans htag.symm) ▸ rfl,
              fun hw => DirectorySet.Canonical.eq_of_way hc hmem hq hw ▸ htag⟩
          simp only [hiff]
        have hpdr : w.pdr = s.pdr := by
          obtain ⟨-, -, -, -, -, hpdr, -⟩ := State.createEntry_some hw
          exact hpdr
        have ht := hP.takenBy h hmem hsh (by rw [hline]; exact hw) (Bool.eq_false_iff.2 hne)
          (fun k hk => State.writeTargets_sharers hr hk) (.write (s := s) (i := setOfLine l) (r := r))
        refine hP.alike ht ⟨?_, rfl, rfl, rfl⟩
        unfold State.updateRecord
        rw [DirectorySet.update_some, hpdr, hsame, Walker.oneMore_of_ne (by decide), ← hpdr]
        rfl
    all_goals
      split at hu
      · cases hu
        exact henlarged
      · split at hu
        · split at hu
          · cases hu
            exact h
          · cases hu
            exact hcause
        · cases hu
          exact h

/-- A write step taken (R20 to R22). -/
theorem Coherent.writeStep (hP : Coherent P) (h : P [] s) {a : Master} {l : LineAddr} {u : State}
    (hu : s.writeStep a l = some u) : P [] u := by
  obtain ⟨w, hw, rfl⟩ := Option.map_eq_some_iff.1 hu
  exact hP.recordEvolved (hP.writeTracker h hw) l _ fun r _ _ =>
    (LineRecord.Evolves.of_pending _ List.map_eq_nil_iff).to

theorem Coherent.fillIssued (hP : Coherent P) (h : P es s) (m : Master) (l : LineAddr) : P es (s.fillIssued m l) :=
  hP.recordEvolved h l _ fun _ _ _ => (LineRecord.Evolves.of_pending _ List.map_eq_nil_iff).to

theorem Coherent.endFill (hP : Coherent P) (h : P es s) {m : Master} {keep : Bool} (hm : keep = true → s.Takes m)
    (l : LineAddr) : P es (s.endFill m l keep) :=
  hP.recordEvolved h l _ fun r _ _ => LineRecord.evolvesTo_endFill hm r

/-! ### Completions (R23 to R25, R45, R46) -/

/-- The fills of a released line are looked up for masters that may hold lines (R11). -/
theorem Coherent.releaseFill (hP : Coherent P) (h : P es s) (hn : s.NoticesTaken) (l : LineAddr) (m : Master) :
    P es (s.releaseFill l m) := by
  unfold State.releaseFill
  split
  · split
    · split
      · split
        · rename_i hd
          have hm : s.isOnline m = true := by
            simp only [State.directoryFill, Bool.and_eq_true] at hd
            exact hd.1.2
          exact hP.alike (hP.lookup h (hn.takes hm) l) ⟨rfl, rfl, rfl, rfl⟩
        · exact hP.alike h ⟨rfl, rfl, rfl, rfl⟩
      · exact h
    · exact h
  · exact h

theorem Coherent.releaseLine (hP : Coherent P) (h : P es s) (hn : s.NoticesTaken) (l : LineAddr) :
    P es (s.releaseLine l) :=
  (foldl_holds (State.releaseFill l) (fun u => P es u ∧ u.NoticesTaken)
    (fun u m hu => ⟨hP.releaseFill hu.1 hu.2 l m, State.noticesTaken_of_mau (State.releaseFill_work l u m).mau hu.2⟩)
    _ s ⟨h, hn⟩).1

theorem Walker.Counts.endPause {w : Walker} {n : Nat} (hw : w.pause ≠ none) (h : w.Counts n) :
    w.endPause.Counts n :=
  ⟨h.1, fun hm => absurd (by rw [h.2 hm]; rfl) hw⟩

theorem State.endWalkIfDone_counts {n : Nat} (h : s.pdr.walker.Counts n) : s.endWalkIfDone.pdr.walker.Counts n := by
  unfold State.endWalkIfDone
  split
  · rename_i hd
    have hz : s.pdr.walker.outstanding = 0 := by
      simp only [Bool.and_eq_true, beq_iff_eq] at hd
      exact hd.2
    have hidle : Walker.idle.Counts n := ⟨hz.symm.trans h.1, fun _ => rfl⟩
    split
    · exact h
    · exact hidle
    · exact hidle
  · exact h

theorem State.tellFreeEntry_counts {n : Nat} (h : s.pdr.walker.Counts n) : s.tellFreeEntry.pdr.walker.Counts n := by
  unfold State.tellFreeEntry
  dsimp only
  split
  · rename_i p hp
    split
    · exact h.endPause fun hn => Option.some_ne_none p (hp.symm.trans hn)
    · exact h
  · exact h

theorem State.tellWalker_counts {before : State} {n : Nat} (h : s.pdr.walker.Counts n) :
    (State.tellWalker before s).pdr.walker.Counts n := by
  unfold State.tellWalker
  split
  · rename_i p i hp _
    split
    · exact h.endPause (by rw [hp]; exact Option.some_ne_none p)
    · exact h
  · exact h

theorem Coherent.tellWalker (hP : Coherent P) (h : P es s) (before : State) : P es (State.tellWalker before s) := by
  obtain ⟨-, -, -, hsets, hivt, -, -, hmau, -⟩ := State.tellWalker_frame before s
  exact hP.frame h hsets hivt (fun _ => State.tellWalker_counts) fun _ hm => Or.inl (State.takes_of_mau hmau hm)

theorem Coherent.tellFreeEntry (hP : Coherent P) (h : P es s) : P es s.tellFreeEntry := by
  obtain ⟨-, -, hivt, -, -, hmau, -, -, -, -, hsets⟩ := State.tellFreeEntry_frame s
  exact hP.frame h hsets hivt (fun _ => State.tellFreeEntry_counts) fun _ hm => Or.inl (State.takes_of_mau hmau hm)

theorem Coherent.endWalkIfDone (hP : Coherent P) (h : P es s) : P es s.endWalkIfDone := by
  obtain ⟨-, -, hivt, -, -, hmau, -, -, -, -, hsets⟩ := State.endWalkIfDone_frame s
  exact hP.frame h hsets hivt (fun _ => State.endWalkIfDone_counts) fun _ hm => Or.inl (State.takes_of_mau hmau hm)

/-- The records of a set after the completion of an entry of a kind that evicts (R24, R25). -/
theorem State.completeAtDirectory_evicts {e : TrackerEntry} (hk : e.kind ≠ .write) (hc : DirectoryCanonical s) :
    s.MovesRecordOn e (s.completeAtDirectory e).pdr.sets ∧ (s.completeAtDirectory e).ivt = s.ivt := by
  have hcompleted : ∀ r : LineRecord, r.completedBy e =
      r.successor.map fun su => LineRecord.installed r.way su.tag su.claimants := fun r => by
    unfold LineRecord.completedBy
    split
    · exact absurd ‹_› hk
    all_goals rfl
  unfold State.completeAtDirectory
  split
  · exact absurd ‹_› hk
  all_goals
    dsimp only
    split
    · rename_i hn
      exact ⟨Or.inl ⟨DirectorySet.find_tag_none.1 hn, rfl⟩, rfl⟩
    · rename_i r hr
      obtain ⟨ht, older, younger, hrs, -⟩ := DirectorySet.exists_split_of_find hr
      have hsplit := (hrs ▸ hc.2 (setOfLine e.line) : DirectorySet.Canonical (older ++ r :: younger)).split
      rw [hrs, DirectorySet.filter_way_split hsplit.1]
      split
      · rename_i hsu
        refine ⟨Or.inr ⟨older, r, younger, _, hrs, ht, ?_, rfl⟩, rfl⟩
        rw [hcompleted, hsu]
        exact .refl _
      · rename_i su hsu
        rw [(State.endWayWait_alike _ _ _).1, (State.endWayWait_alike _ _ _).2.1]
        refine ⟨Or.inr ⟨older, r, younger, _, hrs, ht, ?_, rfl⟩, rfl⟩
        rw [hcompleted, hsu]
        exact List.perm_append_comm

theorem State.completeAtDirectory_write {e : TrackerEntry} (hk : e.kind = .write) :
    s.completeAtDirectory e = (s.updateRecord e.line fun r =>
      LineRecord.unlessEmpty { r with
        status := .shared, sharers := MasterSet.diff r.sharers e.targets }).releaseLine e.line := by
  unfold State.completeAtDirectory
  rw [hk]

/-- A line without a record: nothing to update. -/
theorem State.updateRecord_of_absent (hwf : s.pdr.sets.wf = true) {l : LineAddr}
    (ha : ∀ r ∈ s.pdr.sets.get (setOfLine l), r.tag ≠ tagOfLine l) (f : LineRecord → Option LineRecord) :
    s.updateRecord l f = s := by
  unfold State.updateRecord State.setRecords
  rw [DirectorySet.update_of_absent ha, Directory.put_get_self hwf]
  rfl

/-- The record of a WRITE entry's line after its completion (R23). -/
theorem State.updateRecord_completed {e : TrackerEntry} (hk : e.kind = .write) (hc : DirectoryCanonical s) :
    s.MovesRecordOn e (s.updateRecord e.line fun r =>
      LineRecord.unlessEmpty { r with status := .shared, sharers := MasterSet.diff r.sharers e.targets }).pdr.sets := by
  cases hf : (s.pdr.sets.get (setOfLine e.line)).find? fun r => r.tag == tagOfLine e.line with
  | none =>
    have ha := DirectorySet.find_tag_none.1 hf
    exact Or.inl ⟨ha, by rw [State.updateRecord_of_absent hc.1 ha]⟩
  | some r =>
    obtain ⟨ht, older, younger, hrs, -⟩ := DirectorySet.exists_split_of_find hf
    have hsplit := (hrs ▸ hc.2 (setOfLine e.line) : DirectorySet.Canonical (older ++ r :: younger)).split
    refine Or.inr ⟨older, r, younger, _, hrs, ht, ?_, rfl⟩
    rw [hrs, DirectorySet.update_split (fun q hq => ht ▸ DirectorySet.tag_ne_of_not_names hsplit.2.1 hq) ht]
    unfold LineRecord.completedBy
    rw [hk]
    exact List.perm_append_comm_assoc _ _ _

/-- The state with an entry out of the tracker and its record still as it was. -/
def State.withoutEntry (e : TrackerEntry) (s : State) : State :=
  s.withIvt { s.ivt with entries := s.ivt.entries.filter fun k => k.line != e.line }

theorem State.completeEntry_eq (e : TrackerEntry) :
    s.completeEntry e =
      if s.trackerFull then
        (if e.kind = .walk then (((s.withoutEntry e).completeAtDirectory e).lockReadsReleased e.line).countWalkEntry
          else ((s.withoutEntry e).completeAtDirectory e).lockReadsReleased e.line).tellFreeEntry
      else
        if e.kind = .walk then (((s.withoutEntry e).completeAtDirectory e).lockReadsReleased e.line).countWalkEntry
          else ((s.withoutEntry e).completeAtDirectory e).lockReadsReleased e.line := rfl

/-- The directory's part of a completion, with a WALK entry counted. -/
theorem Coherent.completeAtDirectory (hP : Coherent P) {e : TrackerEntry} (h : P (e :: es) s) (hn : s.NoticesTaken) :
    P es (((s.withoutEntry e).completeAtDirectory e).withWalker
      (((s.withoutEntry e).completeAtDirectory e).pdr.walker.oneLess e.kind)) := by
  have hc : DirectoryCanonical s := hP.canonical h
  have hwork := State.completeAtDirectory_work e (s.withoutEntry e)
  by_cases hk : e.kind = .write
  · have hmoved := hP.completed h (State.updateRecord_completed hk hc)
    have hone : ∀ w : Walker, w.oneLess e.kind = w := fun w => by simp [Walker.oneLess, hk]
    unfold State.entryGone at hmoved
    rw [hone] at hmoved ⊢
    rw [State.completeAtDirectory_write hk]
    exact hP.releaseLine hmoved hn e.line
  · obtain ⟨hmoves, hivt⟩ := State.completeAtDirectory_evicts (s := s.withoutEntry e) hk hc
    refine hP.alike (hP.completed h hmoves) ⟨?_, hivt, congrArg Mau.attach hwork.mau,
      congrArg Mau.resetNotice hwork.mau⟩
    rw [hwork.walker]
    rfl

/-- The completion of one entry (R45). -/
theorem Coherent.completeEntry (hP : Coherent P) {e : TrackerEntry} (h : P (e :: es) s) (hn : s.NoticesTaken) :
    P es (s.completeEntry e) := by
  have hmoved := hP.completeAtDirectory h hn
  have hcounted : P es (if e.kind = .walk then
      (((s.withoutEntry e).completeAtDirectory e).lockReadsReleased e.line).countWalkEntry
      else ((s.withoutEntry e).completeAtDirectory e).lockReadsReleased e.line) := by
    by_cases hw : e.kind = .walk
    · rw [if_pos hw]
      refine hP.endWalkIfDone (hP.alike hmoved ⟨?_, rfl, rfl, rfl⟩)
      rw [Walker.oneLess, if_pos hw]
      rfl
    · rw [if_neg hw]
      refine hP.alike hmoved ⟨?_, rfl, rfl, rfl⟩
      rw [Walker.oneLess, if_neg hw]
      rfl
  rw [State.completeEntry_eq]
  split
  · exact hP.tellFreeEntry hcounted
  · exact hcounted

/-- The entries that an event completes (R45, R46). -/
theorem Coherent.completeEntries (hP : Coherent P) (h : P es s) (hn : s.NoticesTaken) :
    P [] (s.completeEntries es) := by
  have hfold : ∀ (es : List TrackerEntry) (s : State), P es s → s.NoticesTaken →
      P [] (es.foldl State.completeEntry s) := by
    intro es
    induction es with
    | nil => exact fun s h _ => h
    | cons e es ih =>
      intro s h hn
      obtain ⟨-, -, -, -, -, -, hmau, -⟩ := State.completeEntry_keeps s e
      exact ih _ (hP.completeEntry h hn) (State.noticesTaken_of_mau hmau hn)
  obtain ⟨-, hpdr, hivt, -, -, -, -, -, hmau, -⟩ := State.settleWaiters_keeps (es.foldl State.completeEntry s)
  exact hP.alike (hfold es s h hn) ⟨hpdr, hivt, congrArg Mau.attach hmau, congrArg Mau.resetNotice hmau⟩

/-! ### A master that leaves (R26, R27, R46, R135) -/

/-- A record without m: m is no sharer and no claimant (R26, R27). -/
theorem LineRecord.withoutMaster_holds {m : Master} {a : AttachState} {r q : LineRecord}
    (h : LineRecord.withoutMaster m a r = some q) :
    q.sharers.get m = false ∧ ∀ su, q.successor = some su → m ∉ su.claimants := by
  obtain ⟨rfl, -⟩ := LineRecord.unlessEmpty_eq_some h
  refine ⟨by simp [MasterSet.get_erase], fun su hsu => ?_⟩
  rw [LineRecord.successor_eq_some_iff] at hsu
  dsimp only at hsu
  unfold RecordStatus.withoutClaimant at hsu
  split at hsu
  · dsimp only at hsu
    split at hsu
    · cases hsu
    · cases hsu
      simp
  all_goals cases hsu

/-- After the first steps of its passage m holds nothing. -/
theorem State.holdsNothing_of_left {m : Master} {a : AttachState} {u : State} (hwf : s.pdr.sets.wf = true)
    (hsets : u.pdr.sets = s.pdr.sets.mapRecords (LineRecord.withoutMaster m a))
    (hivt : u.ivt = s.ivt.releasedFrom m) : u.HoldsNothing m := by
  constructor
  · intro i r hr
    rw [hsets, Directory.get_mapRecords _ hwf] at hr
    obtain ⟨q, -, hq⟩ := List.mem_filterMap.1 hr
    exact LineRecord.withoutMaster_holds hq
  · intro e he
    rw [hivt] at he
    obtain ⟨x, -, rfl⟩ := List.mem_map.1 he
    exact PerMaster.get_set_self _ _ _

/-- The passage of m to ISOLATED or IN_RESET as far as the tracker's step, from a state in which m's own attachment
and notice may already have changed. -/
theorem Coherent.leave (hP : Coherent P) (h : P [] s) {m : Master} {a : AttachState} {u : State}
    (hpdr : u.pdr = s.pdr) (hivt : u.ivt = s.ivt) (hothers : ∀ k, k ≠ m → s.Takes k → u.Takes k)
    (hn : (u.setAttach m a).NoticesTaken) :
    P [] (((u.setAttach m a).removeFromDirectory m a).releaseFromTracker m) := by
  have hwf := hP.wf h
  have hevolved := hP.evolved (s.pdr.sets.mapRecords (LineRecord.withoutMaster m a))
    (fun _ => LineRecord.withoutMaster m a) h (Directory.wf_mapRecords _ hwf)
    (fun i => Directory.get_mapRecords _ hwf i) fun _ r _ => LineRecord.evolvesTo_withoutMaster _ m a r
  have hreleased := hP.released m hevolved
  obtain ⟨-, -, hrivt, -, -, hmau, -, -, -, -, -, hwalker⟩ :=
    State.removeFromDirectory_frame m a (u.setAttach m a)
  have hrsets := State.removeFromDirectory_sets m a (u.setAttach m a)
  have hbase : (u.setAttach m a).pdr = u.pdr ∧ (u.setAttach m a).ivt = u.ivt := ⟨rfl, rfl⟩
  rw [hbase.1, hpdr] at hrsets hwalker
  rw [hbase.2, hivt] at hrivt
  unfold State.releaseFromTracker
  dsimp only
  rw [hrivt]
  refine hP.completeEntries (hP.frame hreleased hrsets rfl (fun n hw => hwalker.symm ▸ hw) fun k hk => ?_)
    (State.noticesTaken_of_mau hmau hn)
  by_cases hkm : k = m
  · exact Or.inr (hkm ▸ State.holdsNothing_of_left hwf rfl rfl)
  · refine Or.inl ⟨?_, ?_⟩
    · show (State.removeFromDirectory m a (u.setAttach m a)).mau.attach.get k = .online
      rw [hmau]
      exact (PerMaster.get_set_ne _ _ hkm).trans (hothers k hkm hk).1
    · show (State.removeFromDirectory m a (u.setAttach m a)).mau.resetNotice.get k = false
      rw [hmau]
      exact (hothers k hkm hk).2

/-! ### The walker's visits (R124 to R129) -/

/-- A change of the walker that leaves its count, while a walk is under way. -/
theorem Coherent.withWalker (hP : Coherent P) (h : P es s) {w : Walker} (ho : w.outstanding = s.pdr.walker.outstanding)
    (hm : w.mode ≠ .idle) : P es (s.withWalker w) :=
  hP.frame h rfl rfl (fun _ hc => ⟨ho.trans hc.1, fun hw => absurd hw hm⟩) fun _ => Or.inl

/-- A record at a way evolves. -/
theorem Coherent.changeWay (hP : Coherent P) (h : P es s) {i : Nat} (hi : i < Config.directorySets) (w : Way)
    (f : LineRecord → LineRecord)
    (hf : ∀ r ∈ s.pdr.sets.get i, r.way = w → r.Evolves s.Takes (f r)) : P es (s.changeWay i w f) := by
  refine hP.setMapped h hi _ fun r hr => ?_
  split
  · exact hf r hr ‹_›
  · exact .refl _ r

theorem Directory.get_eq_nil_of_le {d : Directory} (h : d.wf = true) {i : Nat} (hi : Config.directorySets ≤ i) :
    d.get i = [] := by
  induction d with
  | nil => rfl
  | cons e d ih =>
    obtain ⟨k, v⟩ := e
    obtain ⟨hk, -, -, hw⟩ := (Directory.wf_cons_iff k v d).1 h
    rw [Directory.get_cons, if_neg (by omega)]
    exact ih hw

/-- A set that holds a record is one of the part's. -/
theorem Directory.lt_of_mem_get {d : Directory} (h : d.wf = true) {i : Nat} {r : LineRecord} (hr : r ∈ d.get i) :
    i < Config.directorySets := by
  by_contra hi
  rw [Directory.get_eq_nil_of_le h (Nat.le_of_not_lt hi)] at hr
  exact absurd hr List.not_mem_nil

theorem Coherent.dropSuccessor (hP : Coherent P) (h : P es s) {i : Nat} {r : LineRecord}
    (hr : r ∈ s.pdr.sets.get i) : P es (s.dropSuccessor i r) := by
  have hi := Directory.lt_of_mem_get (hP.wf h) hr
  unfold State.dropSuccessor
  split
  · rename_i su hsu
    split
    · have hchanged := hP.changeWay h hi r.way (fun r => { r with status := .evicting none }) fun q hq hw => by
        have hqr := DirectorySet.Canonical.eq_of_way ((hP.canonical h).2 i) hr hq hw
        have hst := LineRecord.successor_eq_some_iff.1 (hqr ▸ hsu)
        exact ⟨rfl, rfl, hst ▸ .dropped _, fun _ => Or.inl, fun _ => by simp [LineRecord.isLeftEmpty], fun _ => id⟩
      exact hP.alike hchanged (State.endWayWait_alike _ _ _)
    · exact h
  · exact h

theorem Coherent.evictForWalk (hP : Coherent P) (h : P es s) {i : Nat} {r : LineRecord} (hm : s.pdr.walker.mode ≠ .idle)
    (hr : r ∈ s.pdr.sets.get i) (hsh : r.status = .shared) (hp : r.pending = []) (hne : r.sharers.isEmpty = false) :
    P es (s.evictForWalk i r) := by
  unfold State.evictForWalk
  split
  · exact hP.withWalker h rfl hm
  · rename_i u hu
    obtain ⟨-, -, -, -, -, hpdr, -⟩ := State.createEntry_some hu
    have ht := hP.takenBy h hr hsh hu hne (fun _ => id) (.walk hp hm)
    refine hP.alike (hP.withWalker ht (w := { s.pdr.walker.oneMore .walk with
      visited := s.pdr.walker.visited ++ [r.way] }) rfl hm) ⟨?_, rfl, rfl, rfl⟩
    unfold State.changeWay
    rw [hpdr]
    simp only [State.finishWay, State.withWalker, State.setRecords, State.withPdr_pdr, hpdr]
    rfl

/-- A visit to a record of its set (R125, R126, R129). -/
theorem Coherent.examine (hP : Coherent P) (h : P es s) {i : Nat} {r : LineRecord} (hm : s.pdr.walker.mode ≠ .idle)
    (hr : r ∈ s.pdr.sets.get i) : P es (s.examine i r) := by
  have hfinish : P es (s.finishWay r.way) := hP.withWalker h rfl hm
  unfold State.examine
  dsimp only
  split
  · rename_i hsh
    split
    · exact hfinish
    · split
      · have hspoiled := hP.changeWay h (Directory.lt_of_mem_get (hP.wf h) hr) r.way LineRecord.spoiled fun q _ _ =>
          LineRecord.Evolves.of_pending _ List.map_eq_nil_iff
        exact hP.withWalker hspoiled rfl hm
      · rename_i hp
        split
        · exact hfinish
        · exact hP.evictForWalk h hm hr hsh (by simpa using hp) (Bool.eq_false_iff.2 ‹_›)
  · split
    · exact hP.withWalker h rfl hm
    · exact hfinish
  · have hdrop := hP.dropSuccessor h hr
    have hmd : (s.dropSuccessor i r).pdr.walker = s.pdr.walker := by
      unfold State.dropSuccessor
      repeat' split
      · exact (State.endWayWait_work _ _ _).walker
      · rfl
      · rfl
    split
    · exact hP.withWalker hdrop rfl (hmd ▸ hm)
    · exact hP.withWalker hdrop rfl (hmd ▸ hm)

theorem Coherent.leaveSet (hP : Coherent P) (h : P es s) (hm : s.pdr.walker.mode ≠ .idle) (i : Nat) :
    P es (s.leaveSet i) := by
  unfold State.leaveSet
  split
  · exact hP.withWalker h rfl hm
  · exact hP.endWalkIfDone (hP.withWalker h rfl hm)

theorem Coherent.visitNext (hP : Coherent P) (h : P es s) (hm : s.pdr.walker.mode ≠ .idle) (i : Nat) :
    P es (s.visitNext i) := by
  unfold State.visitNext
  split
  · exact hP.examine h hm (List.mem_of_find?_eq_some ‹_›)
  · exact hP.leaveSet h hm i

theorem Coherent.visitPaused (hP : Coherent P) (h : P es s) (hm : s.pdr.walker.mode ≠ .idle) (i : Nat) (p : Pause) :
    P es (s.visitPaused i p) := by
  unfold State.visitPaused
  split
  · exact hP.examine h hm (List.mem_of_find?_eq_some ‹_›)
  · split
    · exact hP.withWalker h rfl hm
    · exact hP.visitNext h hm i

end

end Sys2Proof.Machine
end

