-- ==== Sys2Proof/Proofs/CoherentStep.lean ====
section
/-! SUPPORT. Every command, made of the operations of the file before, and so every step: what is `Coherent` holds after
a step when it held before it. -/

namespace Sys2Proof.Machine

section
variable {P : List TrackerEntry → State → Prop} {s t : State}

/-- What holds within an event: the predicate, and that no notice waits to be taken. -/
def HoldsWithin (P : List TrackerEntry → State → Prop) (s : State) : Prop := P [] s ∧ s.NoticesTaken

theorem Coherent.atEvent (hP : Coherent P) (h : P [] s) : HoldsWithin P s.atEvent :=
  ⟨hP.frame h rfl rfl (fun _ => id) fun _ hm => Or.inl (State.atEvent_takes hm), State.atEvent_noticesTaken s⟩

theorem HoldsWithin.alike (h : HoldsWithin P s) (hP : Coherent P) (ha : s.AlikeHere t) : HoldsWithin P t :=
  ⟨hP.alike h.1 ha, ha.noticesTaken h.2⟩

/-! ### Changes of the slots, the lock, the queues and the lines -/

theorem State.pushError_alike (kind : ErrorKind) (m : Master) (a : Option Addr) (s : State) :
    s.AlikeHere (s.pushError kind m a) := by
  simp [State.AlikeHere]

theorem State.makeReply_alike (m : Master) (a : Answer) (s : State) : s.AlikeHere (s.makeReply m a) :=
  ⟨rfl, rfl, rfl, rfl⟩

theorem State.releaseLockOf_alike (m : Master) (s : State) : s.AlikeHere (s.releaseLockOf m) := by
  simp [State.AlikeHere]

theorem State.settleSlot_alike (s : State) (m : Master) : s.AlikeHere (s.settleSlot m) := by
  simp [State.AlikeHere]

theorem State.recordFailure_alike (kind : LinkKind) (w : WordAddr) (m : Master) (s : State) :
    s.AlikeHere (s.recordFailure kind w m) := by
  cases kind <;> exact State.pushError_alike _ _ _ s

theorem State.withdrawGrant_alike (m : Master) (s : State) : s.AlikeHere (s.withdrawGrant m) := by
  simp [State.AlikeHere]

/-! ### The acceptance of a request -/

/-- A request that is accepted, refused or not taken keeps what its handling keeps. -/
theorem HoldsWithin.accept (hP : Coherent P) (h : HoldsWithin P s) (r : RequestLines) (b : Bool)
    {handle : Master → State → State} (hh : ∀ m u, HoldsWithin P u → HoldsWithin P (handle m u)) :
    HoldsWithin P (s.accept r b handle) := by
  unfold State.accept
  split
  · exact h
  · rename_i m _
    have hc : HoldsWithin P (s.clearGrant m r.sreq) := h.alike hP ⟨rfl, rfl, rfl, rfl⟩
    dsimp only
    split
    · exact hc
    · split
      · exact hh m _ hc
      · rename_i k _
        have hb : HoldsWithin P ((s.clearGrant m r.sreq).breakLock k) :=
          hc.alike hP (State.pushError_alike _ _ _ _)
        split
        · exact hc.alike hP ⟨rfl, rfl, rfl, rfl⟩
        · split
          · exact hh m _ hc
          · exact hh m _ hb

/-- A request decided with an error record. -/
theorem HoldsWithin.decided (hP : Coherent P) (h : HoldsWithin P s) (m k : Master) (q : SlotRequest) (a : Answer)
    (kind : ErrorKind) (addr : Option Addr) : HoldsWithin P ((s.decideAtOnce m q a).pushError kind k addr) :=
  (h.alike hP (t := s.decideAtOnce m q a) ⟨rfl, rfl, rfl, rfl⟩).alike hP (State.pushError_alike _ _ _ _)

theorem HoldsWithin.acceptReadLine (hP : Coherent P) (h : HoldsWithin P s) (r : RequestLines) (m : Master) :
    HoldsWithin P (s.acceptReadLine r m) := by
  unfold State.acceptReadLine
  dsimp only
  split
  · rename_i hd
    have hm : s.isOnline m = true := by
      simp only [State.directoryFill, Bool.and_eq_true] at hd
      exact hd.1.2
    have hl : HoldsWithin P (s.fillLookup m (requestLine r)).1 :=
      ⟨hP.lookup h.1 (h.2.takes hm) _, State.noticesTaken_of_mau (State.fillLookup_work _ _ s).mau h.2⟩
    exact hl.alike hP ⟨rfl, rfl, rfl, rfl⟩
  · exact h.alike hP ⟨rfl, rfl, rfl, rfl⟩

theorem HoldsWithin.writeStep (hP : Coherent P) (h : HoldsWithin P s) {a : Master} {l : LineAddr}
    (ht : s.writeStep a l = some t) : HoldsWithin P t :=
  ⟨hP.writeStep h.1 ht, State.noticesTaken_of_mau (State.writeStep_work ht).mau h.2⟩

theorem HoldsWithin.postWrite (hP : Coherent P) (h : HoldsWithin P s) (m : Master) (w : WordAddr) (lanes : Lanes)
    (p : Policy) : HoldsWithin P (s.postWrite m w lanes p) := by
  have hrefuse : HoldsWithin P (s.refuse m) := h.alike hP ⟨rfl, rfl, rfl, rfl⟩
  have hplace : ∀ (u : State) ans, HoldsWithin P u →
      HoldsWithin P ((u.placeWrite m w lanes ans).decideAtOnce m (.write w (some p) lanes) .done) := fun u ans hu =>
    hu.alike hP (by simp [State.AlikeHere])
  unfold State.postWrite
  split
  · exact hrefuse
  · exact hrefuse
  · split
    · exact hrefuse
    · rename_i u hu
      split at hu
      · exact hplace u _ (h.writeStep hP hu)
      · cases hu
        exact hplace s _ h

theorem HoldsWithin.acceptWrite (hP : Coherent P) (h : HoldsWithin P s) (r : RequestLines) (m : Master) :
    HoldsWithin P (s.acceptWrite r m) := by
  unfold State.acceptWrite
  dsimp only
  split
  · exact h.decided hP ..
  · split
    · exact h.decided hP ..
    · split
      · exact h.alike hP ⟨rfl, rfl, rfl, rfl⟩
      · exact h.postWrite hP ..

theorem HoldsWithin.joinPair (hP : Coherent P) (h : HoldsWithin P s) (k : BusLock) (m : Master) (w : WordAddr)
    (lanes : Lanes) : HoldsWithin P (s.joinPair k m w lanes) := by
  have hlock : HoldsWithin P (s.withBfe { s.bfe with lock := some { k with deadline := none } }) :=
    h.alike hP ⟨rfl, rfl, rfl, rfl⟩
  unfold State.joinPair
  dsimp only
  split
  · split
    · rename_i u hu
      exact (hlock.writeStep hP hu).alike hP ⟨rfl, rfl, rfl, rfl⟩
    · exact h.alike hP ⟨rfl, rfl, rfl, rfl⟩
  · exact h.alike hP ⟨rfl, rfl, rfl, rfl⟩

theorem HoldsWithin.acceptLockWrite (hP : Coherent P) (h : HoldsWithin P s) (r : RequestLines) (m : Master) :
    HoldsWithin P (s.acceptLockWrite r m) := by
  have hfree : HoldsWithin P s.releaseLock := h.alike hP ⟨rfl, rfl, rfl, rfl⟩
  unfold State.acceptLockWrite
  dsimp only
  split
  · exact h.decided hP ..
  · split
    · exact hfree.decided hP ..
    · split
      · exact hfree.decided hP ..
      · split
        · exact hfree.decided hP ..
        · exact h.joinPair hP ..

theorem HoldsWithin.acceptSync (hP : Coherent P) (h : HoldsWithin P s) (m : Master) :
    HoldsWithin P (s.acceptSync m) := by
  unfold State.acceptSync
  split <;> exact h.alike hP ⟨rfl, rfl, rfl, rfl⟩

theorem State.afterSend_alike (r : Reply) (s : State) : s.AlikeHere (s.afterSend r) := by
  unfold State.afterSend
  dsimp only
  split <;> split <;> exact ⟨rfl, rfl, rfl, rfl⟩

/-! ### The link -/

theorem HoldsWithin.issue (hP : Coherent P) (h : HoldsWithin P s) (tag : BitVec 2) (c : Candidate) :
    HoldsWithin P (s.issue tag c) := by
  cases c with
  | continuation m =>
    simp only [State.issue, State.issueContinuation]
    split <;> exact h.alike hP ⟨rfl, rfl, rfl, rfl⟩
  | unposted m q => cases q <;> exact h.alike hP ⟨rfl, rfl, rfl, rfl⟩
  | read m q =>
    cases q with
    | readLine l p mode =>
      simp only [State.issue, State.issueRead]
      have hd : ∀ u : State, s.AlikeHere u → HoldsWithin P (if mode = .directory then u.fillIssued m l else u) := by
        intro u hu
        have hk := h.alike hP hu
        split
        · exact ⟨hP.fillIssued hk.1 m l, State.noticesTaken_of_mau rfl hk.2⟩
        · exact hk
      exact hd _ ⟨rfl, rfl, rfl, rfl⟩
    | _ => exact h.alike hP ⟨rfl, rfl, rfl, rfl⟩
  | queued e => exact h.alike hP ⟨rfl, rfl, rfl, rfl⟩

theorem HoldsWithin.queueWriteEnds (hP : Coherent P) (h : HoldsWithin P s) (en : Ending) :
    HoldsWithin P (s.queueWriteEnds en) := by
  unfold State.queueWriteEnds
  split
  · exact h
  · rename_i e rest _
    have hq : HoldsWithin P (s.withPwq rest).refreshQueueWaits := h.alike hP ⟨rfl, rfl, rfl, rfl⟩
    refine HoldsWithin.alike ?_ hP (State.settleSlot_alike _ _)
    cases en with
    | ok => exact hq
    | fail =>
      have hp := State.pushError_alike .memWriteFail e.source (some (addrOfWord e.word))
        (s.withPwq rest).refreshQueueWaits
      exact (hq.alike hP hp).alike hP ⟨rfl, rfl, hp.2.2.1.symm, hp.2.2.2.symm⟩

theorem HoldsWithin.unpostedEnds (hP : Coherent P) (h : HoldsWithin P s) (m : Master) (w : WordAddr) (en : Ending) :
    HoldsWithin P (s.unpostedEnds m w en) := by
  unfold State.unpostedEnds
  have hr : HoldsWithin P (if en = .fail then s.recordFailure .wrWord w m else s) := by
    split
    · exact h.alike hP (State.recordFailure_alike _ _ _ s)
    · exact h
  dsimp only
  split
  · split
    · split
      · exact hr.alike hP (State.AlikeHere.trans ⟨rfl, rfl, rfl, rfl⟩ (State.settleSlot_alike _ m))
      · exact hr.alike hP ⟨rfl, rfl, rfl, rfl⟩
    · exact hr
  · exact hr

theorem HoldsWithin.wordReadEnds (hP : Coherent P) (h : HoldsWithin P s) (m : Master) (w : WordAddr)
    (st : CompletionStatus) (c : CompletionLines) : HoldsWithin P (s.wordReadEnds m w st c) := by
  unfold State.wordReadEnds
  split
  · exact h.alike hP ⟨rfl, rfl, rfl, rfl⟩
  · have hr : HoldsWithin P ((s.recordFailure .rdWord w m).makeReply m .err) :=
      h.alike hP ((State.recordFailure_alike _ _ _ s).trans (State.makeReply_alike _ _ _))
    dsimp only
    split
    · split
      · exact hr.alike hP (State.releaseLockOf_alike _ _)
      · exact hr
    · exact hr

theorem HoldsWithin.endFill (hP : Coherent P) (h : HoldsWithin P s) (m : Master) (l : LineAddr) (keep : Bool)
    (hm : keep = true → s.Takes m) : HoldsWithin P (s.endFill m l keep) :=
  ⟨hP.endFill h.1 hm l, State.noticesTaken_of_mau rfl h.2⟩

/-- A fill is kept for an ONLINE master alone (R17). -/
theorem State.isOnline_of_fillKept {m : Master} {l : LineAddr} (h : s.fillKept m l = true) : s.isOnline m = true := by
  unfold State.fillKept at h
  split at h
  · cases h
  · simp only [Bool.and_eq_true] at h
    exact h.1.2

theorem HoldsWithin.lineReadEnds (hP : Coherent P) (h : HoldsWithin P s) (m : Master) (asked : Nat)
    (st : CompletionStatus) (c : CompletionLines) : HoldsWithin P (s.lineReadEnds m asked st c) := by
  unfold State.lineReadEnds
  split
  · exact h
  · rename_i a _
    have hl : HoldsWithin P (s.withMlc { s.mlc with assemblies := s.mlc.assemblies.set m none }) :=
      h.alike hP ⟨rfl, rfl, rfl, rfl⟩
    split
    · unfold State.fillEnds
      dsimp only
      split
      · exact (hl.endFill hP m a.line _ fun hk => hl.2.takes (State.isOnline_of_fillKept hk)).alike hP
          ⟨rfl, rfl, rfl, rfl⟩
      · exact hl.alike hP ⟨rfl, rfl, rfl, rfl⟩
    · exact h.alike hP ⟨rfl, rfl, rfl, rfl⟩
    · unfold State.fillFails
      have hr := hl.alike hP (State.recordFailure_alike .rdLine (wordOfLine a.line 0) m _)
      refine HoldsWithin.alike ?_ hP (State.makeReply_alike _ _ _)
      split
      · exact hr.endFill hP m a.line false fun hk => nomatch hk
      · exact hr

theorem HoldsWithin.handOver (hP : Coherent P) (h : HoldsWithin P s) (i : InFlight) (st : CompletionStatus)
    (c : CompletionLines) : HoldsWithin P (s.handOver i st c) := by
  unfold State.handOver
  split
  · exact h.queueWriteEnds hP _
  · exact h.unpostedEnds hP ..
  all_goals
    split
    · exact h.wordReadEnds hP ..
    · exact h.lineReadEnds hP ..

theorem State.discarded_alike (i : InFlight) (st : CompletionStatus) (s : State) : s.AlikeHere (s.discarded i st) := by
  unfold State.discarded
  split
  all_goals first
    | exact State.recordFailure_alike _ _ _ s
    | exact .refl s

/-! ### Passages of a master -/

/-- A passage of m to ISOLATED (R135). -/
theorem HoldsWithin.isolate (hP : Coherent P) (h : HoldsWithin P s) (m : Master) (timeout : Option LineAddr) :
    P [] (s.isolate m timeout) := by
  have hn : (s.setAttach m .isolated).NoticesTaken := fun k hk => by
    by_cases hkm : k = m
    · subst hkm
      exact absurd ((PerMaster.get_set_self _ _ _).symm.trans hk) (by decide)
    · exact h.2 k ((PerMaster.get_set_ne _ _ hkm).symm.trans hk)
  have hleft := hP.leave (u := s) (m := m) (a := .isolated) h.1 rfl rfl (fun _ _ => id) hn
  unfold State.isolate
  dsimp only
  refine hP.tellWalker ?_ s
  have hlock := hP.alike hleft ((State.releaseLockOf_alike m _).trans
    (⟨rfl, rfl, rfl, rfl⟩ : State.AlikeHere _ (State.leaveRetryList m _)))
  split
  · exact hlock
  · rename_i l
    have hrecord := hP.alike hlock (State.pushError_alike .invalidationTimeout m (some (addrOfLine l)) _)
    split
    · exact hP.alike hrecord (State.pushError_alike _ _ _ _)
    · exact hrecord

/-- A passage of m to IN_RESET, with its notice already seen (R135, R140). -/
theorem HoldsWithin.enterReset (hP : Coherent P) (h : HoldsWithin P s) (m : Master) :
    P [] ((s.seeResetNotice m true).enterReset m) := by
  have hn : ((s.seeResetNotice m true).setAttach m .inReset).NoticesTaken := fun k hk => by
    by_cases hkm : k = m
    · subst hkm
      exact absurd ((PerMaster.get_set_self _ _ _).symm.trans hk) (by decide)
    · exact (PerMaster.get_set_ne _ _ hkm).trans (h.2 k ((PerMaster.get_set_ne _ _ hkm).symm.trans hk))
  have hleft := hP.leave (u := s.seeResetNotice m true) (m := m) (a := .inReset) h.1 rfl rfl
    (fun k hk ht => ⟨ht.1, (PerMaster.get_set_ne _ _ hk).trans ht.2⟩) hn
  unfold State.enterReset
  refine hP.tellWalker ?_ _
  refine hP.alike hleft (State.AlikeHere.trans (t := State.releaseLockOf m (State.abandonSlot m _))
    (State.AlikeHere.trans (t := State.abandonSlot m _) ⟨rfl, rfl, rfl, rfl⟩ (State.releaseLockOf_alike m _)) ?_)
  exact State.AlikeHere.trans (t := State.leaveRetryList m _) ⟨rfl, rfl, rfl, rfl⟩ (State.withdrawGrant_alike m _)

/-- The notice of a master that is not ONLINE rises. -/
theorem Coherent.noticeUp (hP : Coherent P) (h : P [] s) {m : Master} (hm : s.mau.attach.get m ≠ .online) :
    P [] (s.seeResetNotice m true) :=
  hP.frame h rfl rfl (fun _ => id) fun k hk => by
    by_cases hkm : k = m
    · exact absurd (hkm ▸ hk.1) hm
    · exact Or.inl ⟨hk.1, (PerMaster.get_set_ne _ _ hkm).trans hk.2⟩

/-- A notice falls, and a master may be ONLINE again: nobody that may hold lines loses that (R139, R141). -/
theorem Coherent.noticeDown (hP : Coherent P) (h : P [] s) (m : Master) : P [] (s.seeResetNotice m false) :=
  hP.frame h rfl rfl (fun _ => id) fun k hk => Or.inl ⟨hk.1, by
    by_cases hkm : k = m
    · subst hkm
      exact PerMaster.get_set_self _ _ _
    · exact (PerMaster.get_set_ne _ _ hkm).trans hk.2⟩

theorem Coherent.backOnline (hP : Coherent P) (h : P [] s) (m : Master) : P [] (s.setAttach m .online) :=
  hP.frame h rfl rfl (fun _ => id) fun k hk => Or.inl ⟨by
    by_cases hkm : k = m
    · subst hkm
      exact PerMaster.get_set_self _ _ _
    · exact (PerMaster.get_set_ne _ _ hkm).trans hk.1, hk.2⟩

/-! ### The maintenance port -/

/-- A command of the port keeps what its effect keeps. -/
theorem Coherent.takeCommand (hP : Coherent P) (h : HoldsWithin P s.atEvent) {c : Instr}
    {f : State → State × List Byte} (hf : P [] (f s.atEvent).1) (ht : s.takeCommand c f = .next t) : P [] t := by
  unfold State.takeCommand at ht
  dsimp only at ht
  split at ht
  · cases ht
    exact hP.alike hf ⟨rfl, rfl, rfl, rfl⟩
  · cases ht
    exact h.1

theorem Coherent.startWalk (hP : Coherent P) (h : P [] s) (hm : s.pdr.walker.mode = .idle) {mode : WalkMode}
    (hne : mode ≠ .idle) : P [] (s.withWalker (Walker.started mode)) :=
  hP.frame h rfl rfl (fun n hn => by
    have h0 : Walker.idle.outstanding = n := hn.2 hm ▸ hn.1
    exact ⟨h0, fun he => absurd he hne⟩) fun _ => Or.inl

theorem Coherent.retireRegion (hP : Coherent P) (h : P [] s) (n : Byte) : P [] (s.retireRegion n).1 := by
  unfold State.retireRegion
  split
  · exact h
  · split
    · exact h
    · rename_i hm
      split
      · rename_i i _ _ _ _ _
        have hw : ∀ x, P [] ((s.withRgt x).withWalker (Walker.started (.retiring i))) := fun x =>
          hP.startWalk (s := s.withRgt x) (hP.alike h ⟨rfl, rfl, rfl, rfl⟩) (Decidable.not_not.1 hm) (by simp)
        exact hw _
      · exact hP.alike h ⟨rfl, rfl, rfl, rfl⟩
      all_goals exact h

theorem Coherent.sweep (hP : Coherent P) (h : P [] s) : P [] s.sweep.1 := by
  unfold State.sweep
  split
  · exact h
  · rename_i hm
    exact hP.startWalk h (Decidable.not_not.1 hm) (by simp)

theorem Coherent.setRegion (hP : Coherent P) (h : P [] s) (n : Byte) (base pages : BitVec 32) (policy : Byte) :
    P [] (s.setRegion n base pages policy).1 := by
  unfold State.setRegion
  repeat' split
  all_goals first
    | exact h
    | exact hP.alike h ⟨rfl, rfl, rfl, rfl⟩

theorem State.getRegion_fst (n : Byte) (s : State) : (s.getRegion n).1 = s := by
  unfold State.getRegion
  split <;> rfl

theorem State.getRecord_fst (set : BitVec 16) (way : Byte) (s : State) : (s.getRecord set way).1 = s := by
  unfold State.getRecord
  split
  · rfl
  · split <;> rfl

theorem Coherent.setLimits (hP : Coherent P) (h : P [] s) (i l : BitVec 16) (b : Byte) :
    P [] (s.setLimits i l b).1 := by
  unfold State.setLimits
  split
  · exact hP.alike h ⟨rfl, rfl, rfl, rfl⟩
  · exact h

theorem HoldsWithin.isolateCommand (hP : Coherent P) (h : HoldsWithin P s) (n : Byte) :
    P [] (s.isolateCommand n).1 := by
  unfold State.isolateCommand
  split
  · exact h.1
  · split
    · exact h.isolate hP _ none
    · exact h.1

theorem Coherent.joinCommand (hP : Coherent P) (h : P [] s) (n : Byte) : P [] (s.joinCommand n).1 := by
  unfold State.joinCommand
  split
  · exact h
  · split
    · exact hP.backOnline h _
    · exact h

/-! ### The other commands -/

theorem HoldsWithin.answerHead (hP : Coherent P) (h : HoldsWithin P s) {m : Master} {l : LineAddr}
    {rest : List LineAddr} (hl : s.ivt.notices.get m = l :: rest) : P [] (s.answerHead m l rest) := by
  unfold State.answerHead
  exact hP.completeEntries (hP.answered (s.clk + s.mnc.invalidationTimeout) h.1 hl) h.2

theorem HoldsWithin.retryLockWrite (hP : Coherent P) (h : HoldsWithin P s) (m : Master) (w : WordAddr) :
    P [] (s.retryLockWrite m w) := by
  unfold State.retryLockWrite
  split
  · rename_i u hu
    exact hP.alike (hP.writeStep h.1 hu) ⟨rfl, rfl, rfl, rfl⟩
  · exact hP.alike h.1 ⟨rfl, rfl, rfl, rfl⟩

theorem Coherent.walkerVisit (hP : Coherent P) (h : P [] s.atEvent) (ht : execWalkerVisit s = .next t) : P [] t := by
  unfold execWalkerVisit at ht
  dsimp only at ht
  split at ht
  · cases ht
    exact h
  · rename_i hm
    push Not at hm
    split at ht
    · cases ht
      exact h
    · have hw := hP.withWalker h (w := { s.atEvent.pdr.walker with pause := none }) rfl hm.1
      split at ht
      · cases ht
        exact hP.visitPaused hw hm.1 _ _
      · cases ht
        exact hP.visitNext hw hm.1 _

/-- The commands of the port. -/
theorem Coherent.maintenance (hP : Coherent P) (h : HoldsWithin P s.atEvent) {c : Instr}
    (hc : commandFrame c ≠ []) (ht : exec c s = .next t) : P [] t := by
  cases c with
  | getStatus => exact hP.takeCommand (c := .getStatus) (f := fun s => (s, s.statusFrame)) h h.1 ht
  | getRegion n =>
    exact hP.takeCommand (f := State.getRegion n) h ((State.getRegion_fst n s.atEvent).symm ▸ h.1) ht
  | setRegion n base pages policy => exact hP.takeCommand h (hP.setRegion h.1 n base pages policy) ht
  | retireRegion n => exact hP.takeCommand h (hP.retireRegion h.1 n) ht
  | sweep => exact hP.takeCommand h (hP.sweep h.1) ht
  | getRecord set way =>
    exact hP.takeCommand (f := State.getRecord set way) h ((State.getRecord_fst set way s.atEvent).symm ▸ h.1) ht
  | setLimits i l b => exact hP.takeCommand h (hP.setLimits h.1 i l b) ht
  | isolate n => exact hP.takeCommand h (h.isolateCommand hP n) ht
  | join n => exact hP.takeCommand h (hP.joinCommand h.1 n) ht
  | takeError =>
    simp only [exec, execTakeError] at ht
    split at ht <;> cases ht
    · exact hP.alike h.1 ⟨rfl, rfl, rfl, rfl⟩
    · exact h.1
  | unknownCommand code =>
    exact hP.takeCommand (c := .unknownCommand code) (f := fun s => (s, [statusBadArg])) h h.1 ht
  | _ => exact absurd rfl hc

/-- Every command. -/
theorem Coherent.exec (hP : Coherent P) (h : P [] s) {c : Instr} (ht : exec c s = .next t) : P [] t := by
  have hw := hP.atEvent h
  by_cases hf : commandFrame c ≠ []
  · exact hP.maintenance hw hf ht
  cases c with
  | chipReset mpres mrst =>
    cases ht
    exact hP.reset ..
  | grant sreq =>
    simp only [Machine.exec, execGrant] at ht
    split at ht <;> cases ht <;> exact hP.alike hw.1 ⟨rfl, rfl, rfl, rfl⟩
  | read r =>
    cases ht
    exact (hw.accept hP r false (handle := State.acceptRead r) fun m u hu => hu.alike hP ⟨rfl, rfl, rfl, rfl⟩).1
  | readLine r =>
    cases ht
    exact hP.tellWalker (hw.accept hP r false fun m u hu => hu.acceptReadLine hP r m).1 _
  | write r =>
    cases ht
    exact hP.tellWalker (hw.accept hP r false fun m u hu => hu.acceptWrite hP r m).1 _
  | lockRead r =>
    cases ht
    exact (hw.accept hP r false (handle := State.acceptLockRead r) fun m u hu =>
      hu.alike hP ⟨rfl, rfl, rfl, rfl⟩).1
  | lockWrite r =>
    cases ht
    exact hP.tellWalker (hw.accept hP r true fun m u hu => hu.acceptLockWrite hP r m).1 _
  | sync r =>
    cases ht
    exact (hw.accept hP r false fun m u hu => hu.acceptSync hP m).1
  | malformedRequest k r =>
    simp only [Machine.exec, execMalformedRequest] at ht
    split at ht <;> cases ht
    · exact (hw.accept hP r false fun m u hu => hu.decided hP ..).1
    · exact hw.1
  | requestLineFall m =>
    cases ht
    exact hP.alike hw.1 (State.AlikeHere.trans ⟨rfl, rfl, rfl, rfl⟩ (State.withdrawGrant_alike m _))
  | replySend =>
    simp only [Machine.exec, execReplySend] at ht
    split at ht <;> cases ht
    · exact hw.1
    · exact hP.alike hw.1 (State.AlikeHere.trans ⟨rfl, rfl, rfl, rfl⟩ (State.afterSend_alike _ _))
  | issueEvent mrdy =>
    have hp : HoldsWithin P (s.atEvent.withPins { s.atEvent.pins with mrdy := mrdy }) :=
      hw.alike hP ⟨rfl, rfl, rfl, rfl⟩
    simp only [Machine.exec, execIssueEvent] at ht
    split at ht
    · split at ht <;> cases ht
      · exact hP.tellWalker (hp.issue hP _ _).1 _
      · exact hp.1
    · cases ht
      exact hp.1
  | mrlCompletion c =>
    simp only [Machine.exec, execMrlCompletion] at ht
    split at ht
    · cases ht
      exact hw.1
    · split at ht <;> cases ht
      · exact hP.alike hw.1 (State.AlikeHere.trans ⟨rfl, rfl, rfl, rfl⟩ (State.discarded_alike _ _ _))
      · refine hP.tellWalker (HoldsWithin.handOver hP (hw.alike hP ?_) _ _ _).1 _
        exact ⟨rfl, rfl, rfl, rfl⟩
  | sendEvent =>
    simp only [Machine.exec, execSendEvent] at ht
    split at ht <;> cases ht
    · exact hw.1
    · exact hP.sent hw.1 (List.mem_of_find?_eq_some ‹_›)
  | acknowledge m =>
    simp only [Machine.exec, execAcknowledge] at ht
    split at ht
    · cases ht
      exact hw.1
    · cases ht
      exact hw.1
    · cases ht
      exact hP.alike hw.1 (State.pushError_alike _ _ _ _)
    · split at ht <;> cases ht
      · exact hP.alike hw.1 (State.pushError_alike _ _ _ _)
      · exact hP.tellWalker (hw.answerHead hP ‹_›) _
  | timerExpiry m =>
    simp only [Machine.exec, execTimerExpiry] at ht
    split at ht
    · split at ht <;> cases ht
      · rename_i d l _ _ _ _
        exact HoldsWithin.isolate hP (hw.alike hP (t := s.atEvent.withClk (max s.atEvent.clk d)) ⟨rfl, rfl, rfl, rfl⟩)
          m (some l)
      · exact hw.1
    · cases ht
      exact hw.1
  | lockTimeout =>
    simp only [Machine.exec, execLockTimeout] at ht
    split at ht <;> cases ht
    · exact hP.alike hw.1 (State.AlikeHere.trans ⟨rfl, rfl, rfl, rfl⟩ (State.pushError_alike _ _ _ _))
    · exact hw.1
  | resetNoticeRise m =>
    simp only [Machine.exec, execResetNoticeRise] at ht
    split at ht <;> cases ht
    · exact hw.enterReset hP m
    · exact hw.enterReset hP m
    · rename_i ha
      exact hP.noticeUp hw.1 (ne_of_eq_of_ne (show s.atEvent.mau.attach.get m = _ from ha) (by decide))
    · rename_i ha
      exact hP.noticeUp hw.1 (ne_of_eq_of_ne (show s.atEvent.mau.attach.get m = _ from ha) (by decide))
  | resetNoticeFall m =>
    simp only [Machine.exec, execResetNoticeFall] at ht
    split at ht <;> cases ht
    · exact hP.backOnline (hP.noticeDown hw.1 m) m
    all_goals exact hP.noticeDown hw.1 m
  | walkerVisit => exact hP.walkerVisit hw.1 ht
  | trackerWaitRetry m =>
    simp only [Machine.exec, execTrackerWaitRetry] at ht
    split at ht
    · split at ht <;> cases ht
      · exact hP.tellWalker (hw.retryLockWrite hP m _) _
      · exact hw.1
    · cases ht
      exact hw.1
  | spiSelect =>
    simp only [Machine.exec, execSpiSelect] at ht
    split at ht <;> cases ht <;> exact hP.alike hw.1 ⟨rfl, rfl, rfl, rfl⟩
  | responseEnd =>
    simp only [Machine.exec, execResponseEnd] at ht
    split at ht <;> cases ht
    · split <;> exact hP.alike hw.1 ⟨rfl, rfl, rfl, rfl⟩
    all_goals exact hw.1
  | deselect =>
    cases ht
    exact hP.alike hw.1 ⟨rfl, rfl, rfl, rfl⟩
  | _ => exact absurd (by simp [commandFrame]) hf

/-- Every step. -/
theorem Coherent.step (hP : Coherent P) (h : P [] s) (ht : step s = .next t) : P [] t := by
  unfold Machine.step at ht
  split at ht
  · cases ht
    exact hP.alike h ⟨rfl, rfl, rfl, rfl⟩
  · rename_i c rest _
    exact hP.exec (s := s.withPending rest) (hP.alike h ⟨rfl, rfl, rfl, rfl⟩) ht

end

end Sys2Proof.Machine
end

