-- ==== Sys2Proof/Proofs/Canonical.lean ====
section
/-! SUPPORT and PROOFS. The directory stays canonical (R4, R5), and with it every sharer, claimant and target an ONLINE
master (R26, R32, R134). -/

namespace Sys2Proof.Machine

/-! ### The sets after a record was taken or moved on -/

section
variable {s : State} {i : Nat} {r : LineRecord} {e : TrackerEntry}

/-- An entry's record is replaced in its place, and no other record changes. -/
theorem State.TakesRecord.sets {st : RecordStatus} (h : s.TakesRecord i r e st) (hc : DirectoryCanonical s) :
    (s.recordTaken i r e st).pdr.sets.wf = true ∧
      ∃ older younger, s.pdr.sets.get i = older ++ r :: younger ∧
        ∀ j, (s.recordTaken i r e st).pdr.sets.get j =
          if j = i then older ++ { r with status := st } :: younger else s.pdr.sets.get j := by
  have hi := Directory.lt_of_mem_get hc.1 h.mem
  obtain ⟨older, younger, hrs⟩ := List.append_of_mem h.mem
  have hsplit := (hrs ▸ hc.2 i : DirectorySet.Canonical (older ++ r :: younger)).split
  refine ⟨Directory.wf_put hc.1 hi _, older, younger, hrs, fun j => ?_⟩
  refine (Directory.get_put hc.1 i j _).trans ?_
  rw [hrs, DirectorySet.map_way_split hsplit.1]

/-- A completion changes the set of the entry's line alone. -/
theorem State.MovesRecordOn.sets {d : Directory} (h : s.MovesRecordOn e d) (hc : DirectoryCanonical s) :
    d.wf = true ∧ (∀ j, j ≠ setOfLine e.line → d.get j = s.pdr.sets.get j) ∧
      (((∀ r ∈ s.pdr.sets.get (setOfLine e.line), r.tag ≠ tagOfLine e.line) ∧
          d.get (setOfLine e.line) = s.pdr.sets.get (setOfLine e.line)) ∨
        ∃ older r younger, s.pdr.sets.get (setOfLine e.line) = older ++ r :: younger ∧ r.tag = tagOfLine e.line ∧
          ((r.completedBy e).toList ++ (older ++ younger)).Perm (d.get (setOfLine e.line))) := by
  rcases h with ⟨ha, rfl⟩ | ⟨older, r, younger, rs, hrs, ht, hp, rfl⟩
  · exact ⟨hc.1, fun _ _ => rfl, Or.inl ⟨ha, rfl⟩⟩
  · refine ⟨Directory.wf_put hc.1 (setOfLine_lt _) _, fun j hj => Directory.get_put_ne _ _ hj,
      Or.inr ⟨older, r, younger, hrs, ht, ?_⟩⟩
    rw [Directory.get_put_self hc.1]
    exact hp

/-- What a completion leaves stands in the record's way, SHARED, for its line or for its successor's. -/
theorem LineRecord.completedBy_some {q : LineRecord} (h : r.completedBy e = some q) :
    q.way = r.way ∧ q.status = .shared ∧ (∀ k, q.sharers.get k = true → r.sharers.get k = true) ∧
      (q.tag = r.tag ∨ ∃ su, r.successor = some su ∧ q.tag = su.tag) := by
  have hinstalled : (r.successor.map fun su => LineRecord.installed r.way su.tag su.claimants) = some q →
      q.way = r.way ∧ q.status = .shared ∧ (∀ k, q.sharers.get k = true → r.sharers.get k = true) ∧
        (q.tag = r.tag ∨ ∃ su, r.successor = some su ∧ q.tag = su.tag) := fun hm => by
    obtain ⟨su, hsu, rfl⟩ := Option.map_eq_some_iff.1 hm
    exact ⟨rfl, rfl, fun k hk => absurd ((MasterSet.get_empty k).symm.trans hk) (by decide), Or.inr ⟨su, hsu, rfl⟩⟩
  unfold LineRecord.completedBy at h
  split at h
  · obtain ⟨rfl, -⟩ := LineRecord.unlessEmpty_eq_some h
    refine ⟨rfl, rfl, fun k hk => ?_, Or.inl rfl⟩
    rw [MasterSet.get_diff, Bool.and_eq_true] at hk
    exact hk.1
  · exact hinstalled h
  · exact hinstalled h

theorem LineRecord.successor_of_shared (h : r.status = .shared) : r.successor = none := by
  unfold LineRecord.successor
  rw [h]

theorem DirectorySet.Canonical.completedBy {older younger rs : DirectorySet}
    (h : DirectorySet.Canonical (older ++ r :: younger))
    (hp : ((r.completedBy e).toList ++ (older ++ younger)).Perm rs) : rs.Canonical := by
  obtain ⟨hway, htag, hsucc, hrest⟩ := h.split
  cases hq : r.completedBy e with
  | none =>
    rw [hq] at hp
    exact hrest.perm hp
  | some q =>
    rw [hq] at hp
    obtain ⟨hqw, hqs, -, hqt⟩ := LineRecord.completedBy_some hq
    have hnone := LineRecord.successor_of_shared hqs
    refine hrest.insert hp (hqw ▸ hway) ?_ (by simp [hnone])
    rcases hqt with hqt | ⟨su, hsu, hqt⟩
    · exact hqt ▸ htag
    · exact hqt ▸ (hsucc su hsu).2

end

/-! ### The directory stays canonical -/

theorem directoryCanonical_coherent : Coherent fun _ => DirectoryCanonical where
  reset := fun _ _ _ _ _ _ _ => ⟨rfl, fun _ => ⟨List.nodup_nil, List.nodup_nil⟩⟩
  canonical := id
  frame := fun h hs _ _ _ => by
    unfold DirectoryCanonical
    rw [hs]
    exact h
  evolved := fun d f h hd hget hf => ⟨hd, fun i => by
    show DirectorySet.Canonical (d.get i)
    rw [hget i]
    exact DirectorySet.Canonical.filterMap (h.2 i) fun r hr q hq => ((hf i r hr).2 q hq).inPlaceOf⟩
  installed := fun {es s i w t ms} d h hw ht _ _ hd hget => ⟨hd, fun j => by
    show DirectorySet.Canonical (d.get j)
    rw [hget j]
    split
    · exact DirectorySet.Canonical.insert (h.2 i) (List.perm_append_comm (l₁ := [_])) hw ht (by simp)
    · exact h.2 j⟩
  taken := fun {es s i r e st} h hr => by
    obtain ⟨hwf, older, younger, hrs, hget⟩ := hr.sets h
    refine ⟨hwf, fun j => ?_⟩
    show DirectorySet.Canonical ((s.recordTaken i r e st).pdr.sets.get j)
    rw [hget j]
    split
    · obtain ⟨hway, htag, -, hrest⟩ := (hrs ▸ h.2 i : DirectorySet.Canonical (older ++ r :: younger)).split
      refine hrest.insert List.perm_middle.symm hway htag fun su hsu => ?_
      have hst := hr.status
      rw [LineRecord.successor_eq_some_iff] at hsu
      dsimp only at hsu
      subst hsu
      generalize e.kind = k at hst
      cases hst with
      | evict t m hp ht hm =>
        have hn := DirectorySet.not_names_iff.1 ht
        rw [hrs] at hn
        refine ⟨fun he => (hn r (by simp)).1 he.symm, DirectorySet.not_names_iff.2 fun q hq => hn q ?_⟩
        rcases List.mem_append.1 hq with hq | hq <;> simp [hq]
    · exact h.2 j
  completed := fun {es s e d} h hm => by
    obtain ⟨hwf, hother, hset⟩ := hm.sets h
    refine ⟨hwf, fun j => ?_⟩
    show DirectorySet.Canonical (d.get j)
    by_cases hj : j = setOfLine e.line
    · subst hj
      rcases hset with ⟨-, hsame⟩ | ⟨older, r, younger, hrs, -, hp⟩
      · rw [hsame]
        exact h.2 _
      · exact DirectorySet.Canonical.completedBy (hrs ▸ h.2 _) hp
    · rw [hother j hj]
      exact h.2 j
  enlarged := fun _ _ h _ => h
  sent := fun h _ => h
  answered := fun _ h _ => h
  released := fun _ h => h

/-- Settles O56: every change that a step makes of a set keeps its ways and its lines distinct. -/
theorem stepsKeepTheDirectoryCanonical : Obligations.StepsKeepTheDirectoryCanonical :=
  fun _ _ h ht => directoryCanonical_coherent.step h ht

/-! ### Holders stay ONLINE masters -/

/-- Every sharer and every claimant that a record names may hold lines. -/
def LineRecord.HeldBy (ok : Master → Prop) (r : LineRecord) : Prop :=
  (∀ k, r.sharers.get k = true → ok k) ∧ ∀ su, r.successor = some su → ∀ k ∈ su.claimants, ok k

/-- Every sharer, claimant and target of a state may hold lines, said of each holder. -/
theorem holdersOnline_iff_held (s : State) :
    HoldersOnline s ↔ (∀ i, ∀ r ∈ s.pdr.sets.get i, r.HeldBy s.Takes) ∧
      ∀ e ∈ s.ivt.entries, ∀ k, e.targets.get k = true → s.Takes k := by
  rw [holdersOnline_iff]
  constructor
  · refine fun h => ⟨fun i r hr => ⟨fun k hk => ?_, fun su hsu k hk => ?_⟩, fun e he k hk => ?_⟩ <;> by_contra hn
    · exact absurd (((h k hn).1 i r hr).1.symm.trans hk) (by decide)
    · exact ((h k hn).1 i r hr).2 su hsu hk
    · exact absurd (((h k hn).2 e he).symm.trans hk) (by decide)
  · refine fun ⟨hr, he⟩ m hm => ⟨fun i r hi => ⟨?_, fun su hsu hk => hm ((hr i r hi).2 su hsu m hk)⟩, fun e hi => ?_⟩
    · exact Bool.eq_false_iff.2 fun hk => hm ((hr i r hi).1 m hk)
    · exact Bool.eq_false_iff.2 fun hk => hm (he e hi m hk)

theorem LineRecord.HeldBy.evolves {ok : Master → Prop} {r q : LineRecord} (h : r.HeldBy ok) (hq : r.Evolves ok q) :
    q.HeldBy ok := by
  refine ⟨fun k hk => (hq.sharers k hk).elim (h.1 k) id, fun su hsu k hk => ?_⟩
  have hst := hq.status
  rw [LineRecord.successor_eq_some_iff] at hsu
  rw [hsu] at hst
  generalize hr : r.status = st at hst
  cases hst with
  | refl => exact h.2 su (LineRecord.successor_eq_some_iff.2 hr) k hk
  | claimed u cs _ hc => exact (hc k hk).elim (h.2 u (LineRecord.successor_eq_some_iff.2 hr) k) id

/-- No sharers and no successor: nobody holds the record. -/
theorem LineRecord.heldBy_installed (ok : Master → Prop) (w : Way) (t : Tag) (ms : List Master) :
    (LineRecord.installed w t ms).HeldBy ok :=
  ⟨fun k hk => absurd ((MasterSet.get_empty k).symm.trans hk) (by decide), by simp⟩

theorem LineRecord.HeldBy.completedBy {ok : Master → Prop} {r q : LineRecord} {e : TrackerEntry} (h : r.HeldBy ok)
    (hq : r.completedBy e = some q) : q.HeldBy ok := by
  obtain ⟨-, hst, hsh, -⟩ := LineRecord.completedBy_some hq
  exact ⟨fun k hk => h.1 k (hsh k hk), by simp [LineRecord.successor_of_shared hst]⟩

theorem LineRecord.HeldBy.taken {s : State} {i : Nat} {r : LineRecord} {kind : EntryKind} {st : RecordStatus}
    (h : r.HeldBy s.Takes) (hst : r.TakenAs s i kind st) : LineRecord.HeldBy s.Takes { r with status := st } := by
  refine ⟨h.1, fun su hsu k hk => ?_⟩
  rw [LineRecord.successor_eq_some_iff] at hsu
  dsimp only at hsu
  subst hsu
  cases hst with
  | evict t m _ _ hm => exact List.mem_singleton.1 hk ▸ hm

/-- What O57 says of a state, with the premise that every step keeps as well. -/
def CanonicalAndHeld (_ : List TrackerEntry) (s : State) : Prop := DirectoryCanonical s ∧ HoldersOnline s

theorem canonicalAndHeld_coherent : Coherent CanonicalAndHeld where
  reset := fun _ _ _ _ _ _ _ => ⟨directoryCanonical_coherent.reset .., (holdersOnline_iff_held _).2
    ⟨fun _ _ hr => absurd hr List.not_mem_nil, fun _ he => absurd he List.not_mem_nil⟩⟩
  canonical := fun h => h.1
  frame := fun {es s t} h hs hi hw ht => by
    refine ⟨directoryCanonical_coherent.frame (es := es) h.1 hs hi hw ht, (holdersOnline_iff_held _).2 ?_⟩
    obtain ⟨hr, he⟩ := (holdersOnline_iff_held s).1 h.2
    rw [hs, hi]
    refine ⟨fun i r hri => ⟨fun k hk => ?_, fun su hsu k hk => ?_⟩, fun e hei k hk => ?_⟩
    · exact (ht k ((hr i r hri).1 k hk)).resolve_right fun hn => by simp [(hn.1 i r hri).1] at hk
    · exact (ht k ((hr i r hri).2 su hsu k hk)).resolve_right fun hn => (hn.1 i r hri).2 su hsu hk
    · exact (ht k (he e hei k hk)).resolve_right fun hn => by simp [hn.2 e hei] at hk
  evolved := fun {es s} d f h hd hget hf => by
    refine ⟨directoryCanonical_coherent.evolved (es := es) d f h.1 hd hget hf, (holdersOnline_iff_held _).2 ?_⟩
    obtain ⟨hr, he⟩ := (holdersOnline_iff_held s).1 h.2
    refine ⟨fun i q hq => ?_, he⟩
    obtain ⟨r, hri, hrq⟩ := List.mem_filterMap.1 (hget i ▸ (show q ∈ d.get i from hq))
    exact (hr i r hri).evolves ((hf i r hri).2 q hrq)
  installed := fun {es s i w t ms} d h hw ht hms hi hd hget => by
    refine ⟨directoryCanonical_coherent.installed (es := es) d h.1 hw ht hms hi hd hget,
      (holdersOnline_iff_held _).2 ?_⟩
    obtain ⟨hr, he⟩ := (holdersOnline_iff_held s).1 h.2
    refine ⟨fun j q hq => ?_, he⟩
    have hq : q ∈ d.get j := hq
    rw [hget j] at hq
    split at hq
    · rcases List.mem_append.1 hq with hq | hq
      · exact hr i q hq
      · exact List.mem_singleton.1 hq ▸ LineRecord.heldBy_installed _ w t ms
    · exact hr j q hq
  taken := fun {es s i r e st} h ht => by
    refine ⟨directoryCanonical_coherent.taken (es := es) h.1 ht, (holdersOnline_iff_held _).2 ?_⟩
    obtain ⟨hr, he⟩ := (holdersOnline_iff_held s).1 h.2
    obtain ⟨-, older, younger, hrs, hget⟩ := ht.sets h.1
    have hri : ∀ q ∈ older ++ r :: younger, q.HeldBy s.Takes := fun q hq => hr i q (hrs ▸ hq)
    refine ⟨fun j q hq => ?_, fun x hx k hk => ?_⟩
    · rw [hget j] at hq
      split at hq
      · rcases List.mem_append.1 hq with hq | hq
        · exact hri q (by simp [hq])
        · rcases List.mem_cons.1 hq with rfl | hq
          · exact (hr i r ht.mem).taken ht.status
          · exact hri q (by simp [hq])
      · exact hr j q hq
    · rcases List.mem_append.1 (show x ∈ s.ivt.entries ++ [e] from hx) with hx | hx
      · exact he x hx k hk
      · exact (hr i r ht.mem).1 k (ht.sharers k (List.mem_singleton.1 hx ▸ hk))
  completed := fun {es s e d} h hm => by
    refine ⟨directoryCanonical_coherent.completed (es := es) h.1 hm, (holdersOnline_iff_held _).2 ?_⟩
    obtain ⟨hr, he⟩ := (holdersOnline_iff_held s).1 h.2
    obtain ⟨-, hother, hset⟩ := hm.sets h.1
    refine ⟨fun j q hq => ?_, fun x hx => he x (List.mem_of_mem_filter hx)⟩
    have hq : q ∈ d.get j := hq
    by_cases hj : j = setOfLine e.line
    · subst hj
      rcases hset with ⟨-, hsame⟩ | ⟨older, r, younger, hrs, -, hp⟩
      · exact hr _ q (hsame ▸ hq)
      · have hri : ∀ q ∈ older ++ r :: younger, q.HeldBy s.Takes := fun q hq => hr _ q (hrs ▸ hq)
        rcases List.mem_append.1 (hp.mem_iff.2 hq) with hq | hq
        · exact (hri r (by simp)).completedBy (Option.mem_toList.1 hq)
        · exact hri q (by rcases List.mem_append.1 hq with hq | hq <;> simp [hq])
    · exact hr j q (hother j hj ▸ hq)
  enlarged := fun {s} l f h hf => by
    refine ⟨h.1, (holdersOnline_iff_held _).2 ?_⟩
    obtain ⟨hr, he⟩ := (holdersOnline_iff_held s).1 h.2
    refine ⟨hr, fun x hx k hk => ?_⟩
    obtain ⟨e, hei, rfl⟩ := List.mem_map.1 hx
    split at hk
    · rename_i hl
      rcases (hf e hei hl).adds k hk with hk | ⟨r, hri, hk⟩
      · exact he e hei k hk
      · exact (hr _ r hri).1 k hk
    · exact he e hei k hk
  sent := fun {s e} h _ => by
    refine ⟨h.1, (holdersOnline_iff_held _).2 ?_⟩
    obtain ⟨hr, he⟩ := (holdersOnline_iff_held s).1 h.2
    refine ⟨hr, fun x hx k hk => ?_⟩
    obtain ⟨y, hy, rfl⟩ := List.mem_map.1 hx
    split at hk <;> exact he y hy k hk
  answered := fun {s m l rest} clk h _ => by
    refine ⟨h.1, (holdersOnline_iff_held _).2 ?_⟩
    obtain ⟨hr, he⟩ := (holdersOnline_iff_held s).1 h.2
    refine ⟨hr, fun x hx k hk => ?_⟩
    obtain ⟨y, hy, rfl⟩ := List.mem_map.1 hx
    unfold TrackerEntry.answeredBy at hk
    split at hk <;> exact he y hy k hk
  released := fun {s} m h => by
    refine ⟨h.1, (holdersOnline_iff_held _).2 ?_⟩
    obtain ⟨hr, he⟩ := (holdersOnline_iff_held s).1 h.2
    refine ⟨hr, fun x hx k hk => ?_⟩
    obtain ⟨y, hy, rfl⟩ := List.mem_map.1 hx
    have hk : (y.targets.set m false).get k = true := hk
    rw [PerMaster.get_set] at hk
    split at hk
    · cases hk
    · exact he y hy k hk

/-- Settles O57: masters that hold lines are added only while ONLINE, and one that leaves ONLINE is removed first. -/
theorem stepsKeepHoldersOnline : Obligations.StepsKeepHoldersOnline :=
  fun _ _ hc hh ht => (canonicalAndHeld_coherent.step ⟨hc, hh⟩ ht).2

end Sys2Proof.Machine
end

