-- ==== Sys2Proof/Proofs/Agreement.lean ====
section
/-! SUPPORT and PROOF. The tracker and the directory agree (R6, R31, R41, R42, R45). What the directory must know of the
tracker is, for each line, the kind of its live entry; so the agreement is one of each set with these kinds. -/

namespace Sys2Proof.Machine

/-! ### The kind of a line's entry -/

/-- The kind of the live entry for a line, where the tracker holds one. -/
def kindAt (es : List TrackerEntry) (l : LineAddr) : Option EntryKind :=
  (es.find? fun e => e.line == l).map TrackerEntry.kind

theorem kindAt_eq_none_iff {es : List TrackerEntry} {l : LineAddr} :
    kindAt es l = none ↔ ∀ e ∈ es, e.line ≠ l := by
  simp [kindAt, List.find?_eq_none]

theorem kindAt_some {es : List TrackerEntry} {l : LineAddr} {k : EntryKind} (h : kindAt es l = some k) :
    ∃ e ∈ es, e.line = l ∧ e.kind = k := by
  obtain ⟨e, he, hk⟩ := Option.map_eq_some_iff.1 h
  exact ⟨e, List.mem_of_find?_eq_some he, by simpa using List.find?_some he, hk⟩

theorem eq_of_line_eq {es : List TrackerEntry} (hn : (es.map TrackerEntry.line).Nodup) {e x : TrackerEntry}
    (he : e ∈ es) (hx : x ∈ es) (hl : x.line = e.line) : x = e := List.inj_on_of_nodup_map hn hx he hl

theorem kindAt_of_mem {es : List TrackerEntry} (hn : (es.map TrackerEntry.line).Nodup) {e : TrackerEntry}
    (he : e ∈ es) : kindAt es e.line = some e.kind := by
  cases h : kindAt es e.line with
  | none => exact absurd rfl (kindAt_eq_none_iff.1 h e he)
  | some k =>
    obtain ⟨x, hx, hl, rfl⟩ := kindAt_some h
    rw [eq_of_line_eq hn he hx hl]

theorem kindAt_append {es : List TrackerEntry} {e : TrackerEntry} (h : kindAt es e.line = none) (l : LineAddr) :
    kindAt (es ++ [e]) l = if l = e.line then some e.kind else kindAt es l := by
  unfold kindAt at *
  rw [List.find?_append, List.find?_singleton]
  by_cases hl : l = e.line
  · subst hl
    rw [Option.map_eq_none_iff.1 h]
    simp
  · rw [if_neg hl, if_neg (by simpa using Ne.symm hl), Option.or_none]

theorem kindAt_filter (es : List TrackerEntry) (a l : LineAddr) :
    kindAt (es.filter fun e => e.line != a) l = if l = a then none else kindAt es l := by
  by_cases hl : l = a
  · subst hl
    rw [if_pos rfl, kindAt_eq_none_iff]
    exact fun e he => by simpa using (List.mem_filter.1 he).2
  · rw [if_neg hl]
    unfold kindAt
    rw [List.find?_filter]
    congr 2
    funext e
    by_cases he : e.line = l
    · simp [he, hl]
    · simp [he]

/-- Entries changed in their places keep the kinds of the lines. -/
theorem kindAt_map {es : List TrackerEntry} {f : TrackerEntry → TrackerEntry}
    (hf : ∀ e ∈ es, (f e).line = e.line ∧ (f e).kind = e.kind) (l : LineAddr) :
    kindAt (es.map f) l = kindAt es l := by
  induction es with
  | nil => rfl
  | cons e es ih =>
    obtain ⟨hl, hk⟩ := hf e List.mem_cons_self
    have ih := ih fun x hx => hf x (List.mem_cons_of_mem _ hx)
    unfold kindAt at *
    rw [List.map_cons, List.find?_cons, List.find?_cons, hl]
    split
    · simp [hk]
    · exact ih

/-! ### A set that agrees with the kinds of its lines' entries -/

/-- A status goes with the kind of its line's entry (R6). -/
def RecordStatus.Fits : RecordStatus → Option EntryKind → Prop
  | .shared, k => k = none
  | .invalidating, k => k = some .write
  | .evicting _, k => k = some .evict ∨ k = some .walk

/-- A record that agrees with the kind of its line's entry (R4, R6, R8, R14). -/
structure LineRecord.Agrees (k : Option EntryKind) (r : LineRecord) : Prop where
  notEmpty : r.isLeftEmpty = false
  evicting : ∀ su, r.status = .evicting su → r.pending = [] ∧ ∀ u, su = some u → u.claimants ≠ []
  fits : r.status.Fits k

/-- Each record agrees with its line's entry, and each line with an entry is recorded. -/
structure DirectorySet.Agrees (kinds : Tag → Option EntryKind) (rs : DirectorySet) : Prop where
  records : ∀ r ∈ rs, r.Agrees (kinds r.tag)
  recorded : ∀ t, kinds t ≠ none → ∃ r ∈ rs, r.tag = t

theorem DirectorySet.Agrees.none_of_not_names {kinds : Tag → Option EntryKind} {rs : DirectorySet}
    (h : rs.Agrees kinds) {t : Tag} (ht : ¬ rs.Names t) : kinds t = none := by
  by_contra hk
  obtain ⟨r, hr, hrt⟩ := h.recorded t hk
  exact DirectorySet.tag_ne_of_not_names ht hr hrt

theorem LineRecord.agrees_installed {ms : List Master} (h : ms ≠ []) (w : Way) (t : Tag) :
    (LineRecord.installed w t ms).Agrees none :=
  ⟨by simp [LineRecord.isLeftEmpty, LineRecord.installed, h], fun _ hs => (nomatch hs), rfl⟩

theorem RecordStatus.Evolves.fits {ok : Master → Prop} {st st' : RecordStatus} (h : st.Evolves ok st')
    {k : Option EntryKind} (hf : st.Fits k) : st'.Fits k := by
  cases h <;> exact hf

theorem LineRecord.Agrees.evolves {ok : Master → Prop} {k : Option EntryKind} {r q : LineRecord} (h : r.Agrees k)
    (hq : r.Evolves ok q) : q.Agrees k := by
  refine ⟨hq.notEmpty h.notEmpty, fun su hsu => ?_, hq.status.fits h.fits⟩
  have hst := hq.status
  have hpending := hq.pending
  rw [hsu] at hst
  generalize hr : r.status = st at hst hpending
  cases hst with
  | refl => exact ⟨hpending (by simp) (h.evicting su hr).1, (h.evicting su hr).2⟩
  | dropped su => exact ⟨hpending (by simp) (h.evicting su hr).1, by simp⟩
  | claimed u cs hc _ =>
    obtain ⟨hp, hcl⟩ := h.evicting _ hr
    exact ⟨hpending (by simp) hp, fun u' hu' => Option.some.inj hu' ▸ hc (hcl u rfl)⟩

/-- Only a SHARED record is freed, and it has no entry. -/
theorem DirectorySet.Agrees.filterMap {kinds : Tag → Option EntryKind} {rs : DirectorySet} (h : rs.Agrees kinds)
    {ok : Master → Prop} {f : LineRecord → Option LineRecord} (hf : ∀ r ∈ rs, r.EvolvesTo ok (f r)) :
    DirectorySet.Agrees kinds (rs.filterMap f) := by
  refine ⟨fun q hq => ?_, fun t ht => ?_⟩
  · obtain ⟨r, hr, hrq⟩ := List.mem_filterMap.1 hq
    have he := (hf r hr).2 q hrq
    exact he.tag ▸ (h.records r hr).evolves he
  · obtain ⟨r, hr, rfl⟩ := h.recorded t ht
    cases hq : f r with
    | none =>
      have hfits := (h.records r hr).fits
      rw [(hf r hr).1 hq] at hfits
      exact absurd hfits ht
    | some q => exact ⟨q, List.mem_filterMap.2 ⟨r, hr, hq⟩, ((hf r hr).2 q hq).tag⟩

/-- One record changed together with its line's entry: what stands for it agrees, and the other lines are as they
were. -/
theorem DirectorySet.Agrees.replaced {kinds kinds' : Tag → Option EntryKind} {older younger rs : DirectorySet}
    {r : LineRecord} {o : Option LineRecord} (h : DirectorySet.Agrees kinds (older ++ r :: younger))
    (hn : ¬ DirectorySet.Names (older ++ younger) r.tag) (hp : (o.toList ++ (older ++ younger)).Perm rs)
    (hk : ∀ t, t ≠ r.tag → kinds' t = kinds t) (ho : ∀ q, o = some q → q.Agrees (kinds' q.tag))
    (hr : kinds' r.tag ≠ none → ∃ q, o = some q ∧ q.tag = r.tag) : rs.Agrees kinds' := by
  have hin : ∀ q ∈ older ++ younger, q ∈ older ++ r :: younger := fun q hq => by
    rcases List.mem_append.1 hq with hq | hq <;> simp [hq]
  refine ⟨fun q hq => ?_, fun t ht => ?_⟩
  · rcases List.mem_append.1 (hp.mem_iff.2 hq) with hq | hq
    · exact ho q (Option.mem_toList.1 hq)
    · rw [hk _ (DirectorySet.tag_ne_of_not_names hn hq)]
      exact h.records q (hin q hq)
  · by_cases htr : t = r.tag
    · obtain ⟨q, hq, hqt⟩ := hr (htr ▸ ht)
      exact ⟨q, hp.mem_iff.1 (by simp [hq]), hqt.trans htr.symm⟩
    · obtain ⟨q, hq, hqt⟩ := h.recorded t (hk t htr ▸ ht)
      refine ⟨q, hp.mem_iff.1 (List.mem_append_right _ ?_), hqt⟩
      rcases List.mem_append.1 hq with hq | hq
      · exact List.mem_append_left _ hq
      · rcases List.mem_cons.1 hq with rfl | hq
        · exact absurd hqt (Ne.symm htr)
        · exact List.mem_append_right _ hq

/-! ### The entries, with some complete and still to be completed -/

/-- An entry's conditions (R31): acked within sent within targets. -/
def TrackerEntry.InOrder (e : TrackerEntry) : Prop :=
  (∀ m, e.acked.get m = true → e.sent.get m = true) ∧ ∀ m, e.sent.get m = true → e.targets.get m = true

/-- Some target has not answered. -/
def TrackerEntry.Unanswered (e : TrackerEntry) : Prop := ∃ m, e.targets.get m = true ∧ e.acked.get m = false

theorem TrackerEntry.InOrder.complete_or {e : TrackerEntry} (h : e.InOrder) :
    e.complete = true ∨ e.Unanswered := by
  by_cases hu : e.Unanswered
  · exact Or.inr hu
  · have heq : e.acked = e.targets := by
      refine PerMaster.ext_get fun m => ?_
      rw [Bool.eq_iff_iff]
      exact ⟨fun ha => h.2 m (h.1 m ha), fun ht => by
        by_contra ha
        exact hu ⟨m, ht, Bool.eq_false_iff.2 ha⟩⟩
    exact Or.inl (beq_iff_eq.2 heq)

/-- The tracker's entries (R31, R45), but for those of `es`, which are complete. -/
structure EntriesSound (es entries : List TrackerEntry) : Prop where
  bounded : entries.length ≤ 16
  distinct : (entries.map TrackerEntry.line).Nodup
  due : ∀ e ∈ es, e ∈ entries ∧ e.complete = true
  dueDistinct : (es.map TrackerEntry.line).Nodup
  inOrder : ∀ e ∈ entries, e.InOrder
  answered : ∀ e ∈ entries, e ∈ es ∨ e.Unanswered

/-- An entry has sent m a message that m has not acknowledged. -/
def TrackerEntry.Awaits (m : Master) (e : TrackerEntry) : Prop := e.sent.get m = true ∧ e.acked.get m = false

theorem TrackerEntry.InOrder.not_awaits {e : TrackerEntry} (h : e.InOrder) (hc : e.complete = true) (m : Master) :
    ¬ e.Awaits m := by
  rintro ⟨hs, ha⟩
  rw [TrackerEntry.complete, beq_iff_eq] at hc
  rw [hc, h.2 m hs] at ha
  cases ha

/-- m's list and timer agree with the entries (R41, R42). -/
structure NoticesAgree (entries : List TrackerEntry) (m : Master) (list : List LineAddr) (timer : Option Nat) :
    Prop where
  distinct : list.Nodup
  awaited : ∀ l, l ∈ list ↔ ∃ e ∈ entries, e.line = l ∧ e.Awaits m
  runs : timer = none ↔ list = []

/-- The live WALK entries. -/
def walkCount (entries : List TrackerEntry) : Nat := (entries.filter fun e => e.kind == .walk).length

/-- `TrackerAgrees` with the entries `es` complete and still to be completed. -/
structure AgreesWith (es : List TrackerEntry) (s : State) : Prop where
  canonical : DirectoryCanonical s
  sets : ∀ i, i < Config.directorySets →
    (s.pdr.sets.get i).Agrees fun t => kindAt s.ivt.entries (lineOfTag t i)
  entries : EntriesSound es s.ivt.entries
  notices : ∀ m, NoticesAgree s.ivt.entries m (s.ivt.notices.get m) (s.ivt.timers.get m)
  counted : s.pdr.walker.Counts (walkCount s.ivt.entries)

/-- What a record's status says of the tracker, in the words of `TrackerAgrees`. -/
theorem RecordStatus.fits_kindAt_iff {es : List TrackerEntry} (hn : (es.map TrackerEntry.line).Nodup) (l : LineAddr)
    (st : RecordStatus) :
    st.Fits (kindAt es l) ↔
      match st with
      | .shared => ∀ e ∈ es, e.line ≠ l
      | .invalidating => ∃ e ∈ es, e.line = l ∧ e.kind = .write
      | .evicting _ => ∃ e ∈ es, e.line = l ∧ e.kind ≠ .write := by
  have hsome : ∀ k, kindAt es l = some k ↔ ∃ e ∈ es, e.line = l ∧ e.kind = k := fun k =>
    ⟨kindAt_some, fun ⟨e, he, hl, hk⟩ => hl ▸ hk ▸ kindAt_of_mem hn he⟩
  cases st with
  | shared => exact kindAt_eq_none_iff
  | invalidating => exact hsome _
  | evicting su =>
    simp only [RecordStatus.Fits, hsome]
    constructor
    · rintro (⟨e, he, hl, hk⟩ | ⟨e, he, hl, hk⟩) <;> exact ⟨e, he, hl, by simp [hk]⟩
    · rintro ⟨e, he, hl, hk⟩
      cases hkind : e.kind
      · exact absurd hkind hk
      · exact Or.inl ⟨e, he, hl, hkind⟩
      · exact Or.inr ⟨e, he, hl, hkind⟩

theorem trackerAgrees_iff (s : State) : TrackerAgrees s ↔ AgreesWith [] s := by
  constructor
  · intro h
    refine ⟨h.canonical, fun i hi => ⟨fun r hr => ⟨(h.records i r hr).1, (h.records i r hr).2, ?_⟩, fun t ht => ?_⟩,
      ⟨h.bounded.1, h.bounded.2, by simp, by simp, fun e he => ?_, fun e he => Or.inr (h.conditions e he).2.2⟩,
      fun m => ?_, h.counted.1, h.counted.2⟩
    · exact (RecordStatus.fits_kindAt_iff h.bounded.2 _ _).2 (h.live i r hr)
    · obtain ⟨k, hk⟩ := Option.ne_none_iff_exists'.1 ht
      obtain ⟨e, he, hl, -⟩ := kindAt_some hk
      obtain ⟨r, hr, hrt⟩ := h.recorded e he
      rw [hl, setOfLine_lineOfTag t hi] at hr
      rw [hl, tagOfLine_lineOfTag] at hrt
      exact ⟨r, hr, hrt⟩
    · exact ⟨(h.conditions e he).1, (h.conditions e he).2.1⟩
    · obtain ⟨h1, h2, h3⟩ := h.notices m
      exact ⟨h1, h2, h3⟩
  · intro h
    have hlt : ∀ i, ∀ r ∈ s.pdr.sets.get i, i < Config.directorySets := fun i r hr =>
      Directory.lt_of_mem_get h.canonical.1 hr
    refine ⟨h.canonical, fun i r hr => ?_, ⟨h.entries.bounded, h.entries.distinct⟩, fun e he => ?_, fun i r hr => ?_,
      fun e he => ?_, fun m => ?_, h.counted.1, h.counted.2⟩
    · have ha := (h.sets i (hlt i r hr)).records r hr
      exact ⟨ha.notEmpty, ha.evicting⟩
    · exact ⟨(h.entries.inOrder e he).1, (h.entries.inOrder e he).2,
        (h.entries.answered e he).resolve_left List.not_mem_nil⟩
    · exact (RecordStatus.fits_kindAt_iff h.entries.distinct _ _).1 ((h.sets i (hlt i r hr)).records r hr).fits
    · refine (h.sets _ (setOfLine_lt e.line)).recorded _ ?_
      rw [lineOfTag_tagOfLine, kindAt_of_mem h.entries.distinct he]
      simp
    · exact ⟨(h.notices m).distinct, (h.notices m).awaited, (h.notices m).runs⟩

/-! ### The tracker's own changes -/

/-- Entries changed in their places, for a list of complete ones of their own. -/
theorem EntriesSound.map {entries : List TrackerEntry} (h : EntriesSound [] entries) {f : TrackerEntry → TrackerEntry}
    (hline : ∀ e ∈ entries, (f e).line = e.line) (hin : ∀ e ∈ entries, (f e).InOrder) {p : TrackerEntry → Bool}
    (hp : ∀ e ∈ entries, (p (f e) = true → (f e).complete = true) ∧ (p (f e) = false → (f e).Unanswered)) :
    EntriesSound ((entries.map f).filter p) (entries.map f) := by
  have hlines : (entries.map f).map TrackerEntry.line = entries.map TrackerEntry.line := by
    rw [List.map_map]
    exact List.map_congr_left hline
  refine ⟨by simpa using h.bounded, hlines ▸ h.distinct, fun e he => ?_, ?_, fun e he => ?_, fun e he => ?_⟩
  · obtain ⟨hmem, hpe⟩ := List.mem_filter.1 he
    obtain ⟨x, hx, rfl⟩ := List.mem_map.1 hmem
    exact ⟨hmem, (hp x hx).1 hpe⟩
  · exact (hlines ▸ h.distinct).sublist (List.filter_sublist.map _)
  · obtain ⟨x, hx, rfl⟩ := List.mem_map.1 he
    exact hin x hx
  · obtain ⟨x, hx, rfl⟩ := List.mem_map.1 he
    cases hpe : p (f x)
    · exact Or.inr ((hp x hx).2 hpe)
    · exact Or.inl (List.mem_filter.2 ⟨he, hpe⟩)

/-- The same when none becomes complete. -/
theorem EntriesSound.map_unanswered {entries : List TrackerEntry} (h : EntriesSound [] entries)
    {f : TrackerEntry → TrackerEntry} (hline : ∀ e ∈ entries, (f e).line = e.line)
    (hin : ∀ e ∈ entries, (f e).InOrder) (hu : ∀ e ∈ entries, (f e).Unanswered) :
    EntriesSound [] (entries.map f) := by
  have hs := h.map (p := fun _ => false) hline hin fun e he => ⟨fun hc => (nomatch hc), fun _ => hu e he⟩
  rwa [List.filter_false] at hs

theorem EntriesSound.unanswered {entries : List TrackerEntry} (h : EntriesSound [] entries) {e : TrackerEntry}
    (he : e ∈ entries) : e.Unanswered := (h.answered e he).resolve_left List.not_mem_nil

/-- The tracker's part and the directory's part of `AgreesWith` when the entries change in their places. -/
theorem AgreesWith.sets_map {es : List TrackerEntry} {s : State} (h : AgreesWith es s)
    {f : TrackerEntry → TrackerEntry} (hf : ∀ e ∈ s.ivt.entries, (f e).line = e.line ∧ (f e).kind = e.kind) :
    (∀ i, i < Config.directorySets →
      (s.pdr.sets.get i).Agrees fun t => kindAt (s.ivt.entries.map f) (lineOfTag t i)) ∧
    s.pdr.walker.Counts (walkCount (s.ivt.entries.map f)) := by
  refine ⟨fun i hi => ?_, ?_⟩
  · rw [show (fun t => kindAt (s.ivt.entries.map f) (lineOfTag t i)) =
        fun t => kindAt s.ivt.entries (lineOfTag t i) from
      funext fun t => kindAt_map hf _]
    exact h.sets i hi
  · have hcount : walkCount (s.ivt.entries.map f) = walkCount s.ivt.entries := by
      unfold walkCount
      rw [List.filter_map, List.length_map]
      exact congrArg List.length (List.filter_congr fun e he => by simp [(hf e he).2])
    rw [hcount]
    exact h.counted

/-- The lists and timers when the entries change in their places and nobody's messages do. -/
theorem NoticesAgree.map {entries : List TrackerEntry} {m : Master} {list : List LineAddr} {timer : Option Nat}
    (h : NoticesAgree entries m list timer) {f : TrackerEntry → TrackerEntry}
    (hf : ∀ e ∈ entries, (f e).line = e.line ∧ ((f e).Awaits m ↔ e.Awaits m)) :
    NoticesAgree (entries.map f) m list timer := by
  refine ⟨h.distinct, fun l => (h.awaited l).trans ?_, h.runs⟩
  simp only [List.mem_map, exists_exists_and_eq_and]
  exact exists_congr fun e => and_congr_right fun he => by rw [(hf e he).1, (hf e he).2]

/-- An answer of m to the head of its list (R39). -/
theorem NoticesAgree.answered {entries : List TrackerEntry} {m : Master} {l : LineAddr} {rest : List LineAddr}
    {timer timer' : Option Nat} (h : NoticesAgree entries m (l :: rest) timer)
    {f : TrackerEntry → TrackerEntry} (hline : ∀ e ∈ entries, (f e).line = e.line)
    (hl : ∀ e ∈ entries, e.line = l → ¬ (f e).Awaits m)
    (hother : ∀ e ∈ entries, e.line ≠ l → ((f e).Awaits m ↔ e.Awaits m))
    (ht : timer' = none ↔ rest = []) : NoticesAgree (entries.map f) m rest timer' := by
  obtain ⟨hnot, hnodup⟩ := List.nodup_cons.1 h.distinct
  refine ⟨hnodup, fun a => ?_, ht⟩
  simp only [List.mem_map, exists_exists_and_eq_and]
  constructor
  · intro ha
    obtain ⟨e, he, hea, hw⟩ := (h.awaited a).1 (List.mem_cons_of_mem _ ha)
    have hne : e.line ≠ l := fun hel => hnot (hel ▸ hea ▸ ha)
    exact ⟨e, he, (hline e he).trans hea, (hother e he hne).2 hw⟩
  · rintro ⟨e, he, hea, hw⟩
    have hne : e.line ≠ l := fun hel => hl e he hel hw
    rw [hline e he] at hea
    exact (List.mem_cons.1 ((h.awaited a).2 ⟨e, he, hea, (hother e he hne).1 hw⟩)).resolve_left
      fun hal => hne (hea.trans hal)

/-! ### The completion of one entry -/

theorem walkCount_append (es : List TrackerEntry) (e : TrackerEntry) :
    walkCount (es ++ [e]) = walkCount es + if e.kind = .walk then 1 else 0 := by
  unfold walkCount
  rw [List.filter_append, List.length_append]
  by_cases h : e.kind = .walk <;> simp [h]

theorem walkCount_filter {es : List TrackerEntry} (hn : (es.map TrackerEntry.line).Nodup) {e : TrackerEntry}
    (he : e ∈ es) :
    walkCount es = walkCount (es.filter fun k => k.line != e.line) + if e.kind = .walk then 1 else 0 := by
  obtain ⟨older, younger, rfl⟩ := List.append_of_mem he
  have hline : ∀ x ∈ older ++ younger, x.line ≠ e.line := by
    rw [List.map_append, List.map_cons, (List.perm_middle).nodup_iff, List.nodup_cons] at hn
    intro x hx hxe
    exact hn.1 (by rw [← List.map_append, ← hxe]; exact List.mem_map_of_mem hx)
  have hfilter : (older ++ e :: younger).filter (fun k => k.line != e.line) = older ++ younger := by
    have hid : (older ++ younger).filter (fun k => k.line != e.line) = older ++ younger :=
      List.filter_eq_self.2 fun x hx => by simpa using hline x hx
    rw [List.filter_append] at hid ⊢
    simpa using hid
  rw [hfilter]
  unfold walkCount
  rw [List.filter_append, List.filter_cons, List.filter_append]
  by_cases h : e.kind = .walk
  · simp [h]
    omega
  · simp [h]

theorem EntriesSound.completed {es entries : List TrackerEntry} {e : TrackerEntry}
    (h : EntriesSound (e :: es) entries) : EntriesSound es (entries.filter fun k => k.line != e.line) := by
  obtain ⟨hout, hnodup⟩ := List.nodup_cons.1 h.dueDistinct
  refine ⟨(List.length_filter_le _ _).trans h.bounded, h.distinct.sublist (List.filter_sublist.map _), fun x hx => ?_,
    hnodup, fun x hx => h.inOrder x (List.mem_of_mem_filter hx), fun x hx => ?_⟩
  · obtain ⟨hmem, hc⟩ := h.due x (List.mem_cons_of_mem _ hx)
    refine ⟨List.mem_filter.2 ⟨hmem, ?_⟩, hc⟩
    simpa using fun hl : x.line = e.line => hout (hl ▸ List.mem_map_of_mem hx)
  · obtain ⟨hmem, hl⟩ := List.mem_filter.1 hx
    refine (h.answered x hmem).imp_left fun hx => (List.mem_cons.1 hx).resolve_left ?_
    rintro rfl
    simp at hl

theorem NoticesAgree.completed {entries : List TrackerEntry} {m : Master} {list : List LineAddr} {timer : Option Nat}
    (h : NoticesAgree entries m list timer) {e : TrackerEntry}
    (he : ∀ x ∈ entries, x.line = e.line → ¬ x.Awaits m) :
    NoticesAgree (entries.filter fun k => k.line != e.line) m list timer := by
  refine ⟨h.distinct, fun l => (h.awaited l).trans ⟨?_, ?_⟩, h.runs⟩
  · rintro ⟨x, hx, hl, hw⟩
    exact ⟨x, List.mem_filter.2 ⟨hx, by simpa using fun hxe => he x hx hxe hw⟩, hl, hw⟩
  · rintro ⟨x, hx, hl, hw⟩
    exact ⟨x, List.mem_of_mem_filter hx, hl, hw⟩

theorem NoticesAgree.append {entries : List TrackerEntry} {m : Master} {list : List LineAddr} {timer : Option Nat}
    (h : NoticesAgree entries m list timer) {e : TrackerEntry} (he : e.sent = MasterSet.empty) :
    NoticesAgree (entries ++ [e]) m list timer := by
  have hnot : ¬ e.Awaits m := by
    simp [TrackerEntry.Awaits, he]
  refine ⟨h.distinct, fun l => (h.awaited l).trans ⟨?_, ?_⟩, h.runs⟩
  · rintro ⟨x, hx, hl, hw⟩
    exact ⟨x, List.mem_append_left _ hx, hl, hw⟩
  · rintro ⟨x, hx, hl, hw⟩
    refine ⟨x, (List.mem_append.1 hx).resolve_right fun hx => ?_, hl, hw⟩
    exact hnot (List.mem_singleton.1 hx ▸ hw)

/-- What a completion leaves agrees with a line without an entry (R8, R23, R25). -/
theorem LineRecord.Agrees.completedBy {k : Option EntryKind} {r q : LineRecord} {e : TrackerEntry} (h : r.Agrees k)
    (hq : r.completedBy e = some q) : q.Agrees none := by
  have hinstalled : (r.successor.map fun su => LineRecord.installed r.way su.tag su.claimants) = some q →
      q.Agrees none := fun hm => by
    obtain ⟨su, hsu, rfl⟩ := Option.map_eq_some_iff.1 hm
    exact LineRecord.agrees_installed ((h.evicting _ (LineRecord.successor_eq_some_iff.1 hsu)).2 su rfl) _ _
  unfold LineRecord.completedBy at hq
  split at hq
  · obtain ⟨rfl, he⟩ := LineRecord.unlessEmpty_eq_some hq
    exact ⟨he, fun _ hs => (nomatch hs), rfl⟩
  · exact hinstalled hq
  · exact hinstalled hq

/-- The set of a completed entry's line (R8, R23 to R25). -/
theorem DirectorySet.Agrees.completed {kinds kinds' : Tag → Option EntryKind} {older younger rs : DirectorySet}
    {r : LineRecord} {e : TrackerEntry} (h : DirectorySet.Agrees kinds (older ++ r :: younger))
    (hc : DirectorySet.Canonical (older ++ r :: younger))
    (hp : ((r.completedBy e).toList ++ (older ++ younger)).Perm rs)
    (hk : ∀ t, kinds' t = if t = r.tag then none else kinds t) : rs.Agrees kinds' := by
  obtain ⟨-, hn, hsucc, -⟩ := hc.split
  refine h.replaced hn hp (fun t ht => by rw [hk, if_neg ht]) (fun q hq => ?_)
    fun hr => absurd (by rw [hk, if_pos rfl]) hr
  have hqa := (h.records r (by simp)).completedBy hq
  obtain ⟨-, -, -, hqt | ⟨su, hsu, hqt⟩⟩ := LineRecord.completedBy_some hq
  · rwa [hk, if_pos hqt]
  · have hnone : kinds su.tag = none := by
      by_contra hks
      obtain ⟨x, hx, hxt⟩ := h.recorded _ hks
      rcases List.mem_append.1 hx with hx | hx
      · exact DirectorySet.tag_ne_of_not_names (hsucc su hsu).2 (List.mem_append_left _ hx) hxt
      · rcases List.mem_cons.1 hx with rfl | hx
        · exact (hsucc su hsu).1 hxt.symm
        · exact DirectorySet.tag_ne_of_not_names (hsucc su hsu).2 (List.mem_append_right _ hx) hxt
    rwa [hk, hqt, if_neg (hsucc su hsu).1, hnone]

/-- The set of a record that an entry has taken (R6, R14). -/
theorem DirectorySet.Agrees.taken {kinds kinds' : Tag → Option EntryKind} {older younger : DirectorySet} {s : State}
    {i : Nat} {r : LineRecord} {kind : EntryKind} {st : RecordStatus}
    (h : DirectorySet.Agrees kinds (older ++ r :: younger))
    (hc : DirectorySet.Canonical (older ++ r :: younger)) (hst : r.TakenAs s i kind st)
    (hk : ∀ t, kinds' t = if t = r.tag then some kind else kinds t) :
    DirectorySet.Agrees kinds' (older ++ { r with status := st } :: younger) := by
  obtain ⟨-, hn, -, -⟩ := hc.split
  refine h.replaced hn (o := some { r with status := st })
    (by simpa using List.perm_middle.symm) (fun t ht => by rw [hk, if_neg ht])
    (fun q hq => ?_) fun _ => ⟨_, rfl, rfl⟩
  cases hq
  rw [hk, if_pos rfl]
  cases hst with
  | write => exact ⟨by simp [LineRecord.isLeftEmpty], fun _ hs => (nomatch hs), rfl⟩
  | walk hp => exact ⟨by simp [LineRecord.isLeftEmpty], fun su hs => by cases hs; exact ⟨hp, by simp⟩, Or.inr rfl⟩
  | evict t m hp =>
    exact ⟨by simp [LineRecord.isLeftEmpty], fun su hs => by cases hs; exact ⟨hp, by simp⟩, Or.inl rfl⟩

theorem lineOfTag_eq_iff {t : Tag} {i : Nat} (hi : i < Config.directorySets) {l : LineAddr} :
    lineOfTag t i = l ↔ i = setOfLine l ∧ t = tagOfLine l := by
  constructor
  · rintro rfl
    exact ⟨(setOfLine_lineOfTag t hi).symm, (tagOfLine_lineOfTag t i).symm⟩
  · rintro ⟨rfl, rfl⟩
    exact lineOfTag_tagOfLine l

theorem AgreesWith.completed {es : List TrackerEntry} {s : State} {e : TrackerEntry} {d : Directory}
    (h : AgreesWith (e :: es) s) (hm : s.MovesRecordOn e d) : AgreesWith es (s.entryGone e d) := by
  obtain ⟨hmem, hcomplete⟩ := h.entries.due e List.mem_cons_self
  obtain ⟨-, hother, hset⟩ := hm.sets h.canonical
  refine ⟨directoryCanonical_coherent.completed (es := es) h.canonical hm, fun i hi => ?_, h.entries.completed,
    fun m => (h.notices m).completed fun x hx hl => ?_, ?_⟩
  · show (d.get i).Agrees fun t => kindAt (s.ivt.entries.filter fun k => k.line != e.line) (lineOfTag t i)
    simp only [kindAt_filter, lineOfTag_eq_iff hi]
    have hagree := h.sets i hi
    by_cases hie : i = setOfLine e.line
    · subst hie
      simp only [true_and]
      rcases hset with ⟨ha, -⟩ | ⟨older, r, younger, hrs, ht, hp⟩
      · obtain ⟨r, hr, hrt⟩ := hagree.recorded (tagOfLine e.line)
          (by rw [lineOfTag_tagOfLine, kindAt_of_mem h.entries.distinct hmem]; simp)
        exact absurd hrt (ha r hr)
      · rw [hrs] at hagree
        exact hagree.completed (hrs ▸ h.canonical.2 _) hp fun t => by rw [ht]
    · simp only [hie, false_and, if_false]
      rw [hother i hie]
      exact hagree
  · rw [eq_of_line_eq h.entries.distinct hmem hx hl]
    exact (h.entries.inOrder e hmem).not_awaits hcomplete m
  · have hcount := walkCount_filter h.entries.distinct hmem
    obtain ⟨ho, hidle⟩ := h.counted
    show (s.pdr.walker.oneLess e.kind).Counts (walkCount (s.ivt.entries.filter fun k => k.line != e.line))
    unfold Walker.oneLess
    by_cases hk : e.kind = .walk
    · rw [if_pos hk] at hcount ⊢
      refine ⟨by show s.pdr.walker.outstanding - 1 = _; omega, fun hmode => ?_⟩
      rw [hidle hmode] at ho
      exact absurd (show 0 = _ from ho) (by omega)
    · rw [if_neg hk] at hcount ⊢
      exact ⟨by omega, hidle⟩

/-! ### The other changes -/

theorem AgreesWith.taken {es : List TrackerEntry} {s : State} {i : Nat} {r : LineRecord} {e : TrackerEntry}
    {st : RecordStatus} (h : AgreesWith es s) (ht : s.TakesRecord i r e st) :
    AgreesWith es (s.recordTaken i r e st) := by
  obtain ⟨-, older, younger, hrs, hget⟩ := ht.sets h.canonical
  have hi := Directory.lt_of_mem_get h.canonical.1 ht.mem
  have hnone : kindAt s.ivt.entries e.line = none := by
    have hfits := ((h.sets i hi).records r ht.mem).fits
    rw [ht.shared] at hfits
    exact ht.line ▸ hfits
  refine ⟨directoryCanonical_coherent.taken (es := es) h.canonical ht, fun j hj => ?_, ?_,
    fun m => (h.notices m).append ht.sent, ?_⟩
  · show ((s.recordTaken i r e st).pdr.sets.get j).Agrees fun t => kindAt (s.ivt.entries ++ [e]) (lineOfTag t j)
    rw [hget j]
    simp only [kindAt_append hnone, ht.line, lineOfTag_eq_iff hj, setOfLine_lineOfTag _ hi, tagOfLine_lineOfTag]
    by_cases hji : j = i
    · subst hji
      simp only [true_and, if_true]
      exact DirectorySet.Agrees.taken (hrs ▸ h.sets j hj) (hrs ▸ h.canonical.2 j) ht.status fun _ => rfl
    · simp only [hji, false_and, if_false]
      exact h.sets j hj
  · have hnew : e.line ∉ s.ivt.entries.map TrackerEntry.line := fun hm => by
      obtain ⟨x, hx, hl⟩ := List.mem_map.1 hm
      exact kindAt_eq_none_iff.1 hnone x hx hl
    have hroom : s.ivt.entries.length < 16 := ht.room
    have hbound : (s.ivt.entries ++ [e]).length ≤ 16 := by simpa using hroom
    refine ⟨hbound, ?_, fun x hx => ?_, h.entries.dueDistinct, fun x hx => ?_, fun x hx => ?_⟩
    · show ((s.ivt.entries ++ [e]).map TrackerEntry.line).Nodup
      rw [List.map_append, List.nodup_append_comm]
      exact List.nodup_cons.2 ⟨hnew, h.entries.distinct⟩
    · exact ⟨List.mem_append_left _ (h.entries.due x hx).1, (h.entries.due x hx).2⟩
    · rcases List.mem_append.1 (show x ∈ s.ivt.entries ++ [e] from hx) with hx | hx
      · exact h.entries.inOrder x hx
      · rw [List.mem_singleton.1 hx]
        exact ⟨by simp [ht.acked], by simp [ht.sent]⟩
    · rcases List.mem_append.1 (show x ∈ s.ivt.entries ++ [e] from hx) with hx | hx
      · exact h.entries.answered x hx
      · obtain ⟨k, hk⟩ := ht.targets
        rw [List.mem_singleton.1 hx]
        exact Or.inr ⟨k, hk, by simp [ht.acked]⟩
  · obtain ⟨ho, hidle⟩ := h.counted
    show (s.pdr.walker.oneMore e.kind).Counts (walkCount (s.ivt.entries ++ [e]))
    have hst := ht.status
    rw [walkCount_append]
    generalize e.kind = k at hst
    cases hst with
    | walk _ hm => exact ⟨congrArg (· + 1) ho, fun hmode => absurd hmode hm⟩
    | write => exact ⟨ho, hidle⟩
    | evict => exact ⟨ho, hidle⟩

theorem AgreesWith.enlarged {s : State} {l : LineAddr} {f : TrackerEntry → TrackerEntry} (h : AgreesWith [] s)
    (hf : ∀ e ∈ s.ivt.entries, e.line = l → e.Enlarges s (f e)) : AgreesWith [] (s.modifyEntry l f) := by
  have hg : ∀ e ∈ s.ivt.entries, e.Enlarges s (if e.line = l then f e else e) := fun e he => by
    split
    · exact hf e he ‹_›
    · exact ⟨rfl, rfl, rfl, rfl, fun _ => id, fun _ => Or.inl⟩
  obtain ⟨hsets, hcount⟩ := h.sets_map fun e he => ⟨(hg e he).line, (hg e he).kind⟩
  refine ⟨h.canonical, hsets, h.entries.map_unanswered (fun e he => (hg e he).line) (fun e he => ?_)
    (fun e he => ?_), fun m => (h.notices m).map fun e he => ⟨(hg e he).line, ?_⟩, hcount⟩
  · obtain ⟨hasub, hssub⟩ := h.entries.inOrder e he
    refine ⟨fun m => ?_, fun m hm => (hg e he).keeps m (hssub m ?_)⟩
    · rw [(hg e he).acked, (hg e he).sent]
      exact hasub m
    · rw [← (hg e he).sent]
      exact hm
  · obtain ⟨m, hm, ha⟩ := h.entries.unanswered he
    exact ⟨m, (hg e he).keeps m hm, by rw [(hg e he).acked]; exact ha⟩
  · unfold TrackerEntry.Awaits
    rw [(hg e he).sent, (hg e he).acked]

/-- A message to m about the line of entry e (R37, R42). -/
theorem NoticesAgree.sent {entries : List TrackerEntry} {m : Master} {list : List LineAddr}
    {timer timer' : Option Nat} (h : NoticesAgree entries m list timer) {e : TrackerEntry} (he : e ∈ entries)
    {f : TrackerEntry → TrackerEntry} (hline : ∀ x ∈ entries, (f x).line = x.line)
    (hnew : ∀ x ∈ entries, x.line = e.line → ¬ x.Awaits m ∧ (f x).Awaits m)
    (hother : ∀ x ∈ entries, x.line ≠ e.line → ((f x).Awaits m ↔ x.Awaits m)) (ht : timer' ≠ none) :
    NoticesAgree (entries.map f) m (list ++ [e.line]) timer' := by
  have hnot : e.line ∉ list := fun hl => by
    obtain ⟨x, hx, hxl, hw⟩ := (h.awaited _).1 hl
    exact (hnew x hx hxl).1 hw
  refine ⟨?_, fun l => ?_, by simp [ht]⟩
  · rw [List.nodup_append_comm]
    exact List.nodup_cons.2 ⟨hnot, h.distinct⟩
  · simp only [List.mem_map, exists_exists_and_eq_and, List.mem_append, List.mem_singleton, h.awaited l]
    constructor
    · rintro (⟨x, hx, rfl, hw⟩ | rfl)
      · exact ⟨x, hx, hline x hx, (hother x hx fun hl => (hnew x hx hl).1 hw).2 hw⟩
      · exact ⟨e, he, hline e he, (hnew e he rfl).2⟩
    · rintro ⟨x, hx, rfl, hw⟩
      rw [hline x hx]
      by_cases hl : x.line = e.line
      · exact Or.inr hl
      · exact Or.inl ⟨x, hx, rfl, (hother x hx hl).1 hw⟩

/-- The entry after a message about its line (R37). -/
def TrackerEntry.afterMessage (e x : TrackerEntry) : TrackerEntry :=
  if x.line = e.line then { x with sent := MasterSet.union x.sent e.unsent } else x

theorem TrackerEntry.afterMessage_spec (e x : TrackerEntry) :
    (e.afterMessage x).line = x.line ∧ (e.afterMessage x).kind = x.kind ∧ (e.afterMessage x).acked = x.acked ∧
      (e.afterMessage x).targets = x.targets ∧ ∀ m, (e.afterMessage x).sent.get m =
        (x.sent.get m || (decide (x.line = e.line) && (e.targets.get m && !e.sent.get m))) := by
  unfold TrackerEntry.afterMessage
  by_cases h : x.line = e.line <;> simp [h, TrackerEntry.unsent]

/-- A message goes to the unsent targets of its entry, each of which notes it (R37, R42). -/
theorem AgreesWith.sent {s : State} {e : TrackerEntry} (h : AgreesWith [] s) (he : e ∈ s.ivt.entries) :
    AgreesWith [] (s.sendMessage e) := by
  have heq : ∀ x ∈ s.ivt.entries, x.line = e.line → x = e := fun x hx => eq_of_line_eq h.entries.distinct he hx
  obtain ⟨hsets, hcount⟩ := h.sets_map (f := e.afterMessage) fun x _ =>
    ⟨(e.afterMessage_spec x).1, (e.afterMessage_spec x).2.1⟩
  refine ⟨h.canonical, hsets, h.entries.map_unanswered (f := e.afterMessage) (fun x _ => (e.afterMessage_spec x).1)
    (fun x hx => ?_) (fun x hx => ?_), fun m => ?_, hcount⟩
  · obtain ⟨-, -, hacked, htargets, hsent⟩ := e.afterMessage_spec x
    obtain ⟨hasub, hssub⟩ := h.entries.inOrder x hx
    refine ⟨fun m hm => ?_, fun m hm => ?_⟩
    · rw [hsent, hasub m (hacked ▸ hm), Bool.true_or]
    · rw [hsent, Bool.or_eq_true] at hm
      rw [htargets]
      refine hm.elim (hssub m) fun hm => ?_
      simp only [Bool.and_eq_true, decide_eq_true_eq] at hm
      exact heq x hx hm.1 ▸ hm.2.1
  · obtain ⟨-, -, hacked, htargets, -⟩ := e.afterMessage_spec x
    unfold TrackerEntry.Unanswered
    rw [hacked, htargets]
    exact h.entries.unanswered hx
  · have hm := h.notices m
    have haw : ∀ x ∈ s.ivt.entries, (x.line ≠ e.line ∨ e.unsent.get m = false) →
        ((e.afterMessage x).Awaits m ↔ x.Awaits m) := fun x hx hor => by
      obtain ⟨-, -, hacked, -, hsent⟩ := e.afterMessage_spec x
      unfold TrackerEntry.Awaits
      rw [hsent, hacked, ← MasterSet.get_diff e.targets e.sent m]
      have hu : (decide (x.line = e.line) && (e.targets.diff e.sent).get m) = false := by
        rcases hor with hl | hu
        · simp [hl]
        · rw [show (e.targets.diff e.sent).get m = false from hu, Bool.and_false]
      rw [hu, Bool.or_false]
    show NoticesAgree (s.ivt.entries.map e.afterMessage) m
      (PerMaster.get (PerMaster.of _) m) (PerMaster.get (PerMaster.of _) m)
    rw [PerMaster.get_of, PerMaster.get_of]
    cases hu : e.unsent.get m with
    | false =>
      rw [if_neg (by simp), if_neg (by simp)]
      exact hm.map fun x hx => ⟨(e.afterMessage_spec x).1, haw x hx (Or.inr hu)⟩
    | true =>
      obtain ⟨htarget, hnosent⟩ : e.targets.get m = true ∧ e.sent.get m = false := by
        simpa [TrackerEntry.unsent] using hu
      have hnoack : e.acked.get m = false := Bool.eq_false_iff.2 fun ha => by
        rw [(h.entries.inOrder e he).1 m ha] at hnosent
        cases hnosent
      rw [if_pos rfl]
      refine hm.sent he (fun x _ => (e.afterMessage_spec x).1) (fun x hx hl => ?_)
        (fun x hx hl => haw x hx (Or.inl hl)) ?_
      · obtain ⟨-, -, hacked, -, hsent⟩ := e.afterMessage_spec x
        rw [TrackerEntry.Awaits, TrackerEntry.Awaits, hsent, hacked, heq x hx hl]
        simp [htarget, hnosent, hnoack]
      · by_cases hempty : (s.ivt.notices.get m).isEmpty = true
        · simp [hempty]
        · rw [if_neg (by simpa using hempty)]
          exact fun ht => hempty (List.isEmpty_iff.2 (hm.runs.1 ht))

/-- m acknowledges the head of its list (R39, R42). -/
theorem AgreesWith.answered {s : State} {m : Master} {l : LineAddr} {rest : List LineAddr} (clk : Nat)
    (h : AgreesWith [] s) (hl : s.ivt.notices.get m = l :: rest) :
    AgreesWith ((s.ivt.answered m l rest (if rest.isEmpty then none else some clk)).entries.filter fun e =>
        e.line == l && e.complete)
      (s.withIvt (s.ivt.answered m l rest (if rest.isEmpty then none else some clk))) := by
  have hlist := h.notices m
  rw [hl] at hlist
  have hline : ∀ e, (TrackerEntry.answeredBy m l e).line = e.line ∧ (TrackerEntry.answeredBy m l e).kind = e.kind :=
    fun e => by
      unfold TrackerEntry.answeredBy
      split <;> exact ⟨rfl, rfl⟩
  have hother : ∀ e : TrackerEntry, e.line ≠ l → e.answeredBy m l = e := fun e he => if_neg he
  have hthis : ∀ e : TrackerEntry, e.line = l → e.answeredBy m l = { e with acked := e.acked.insert m } :=
    fun e he => if_pos he
  have hin : ∀ e ∈ s.ivt.entries, (e.answeredBy m l).InOrder := fun e he => by
    have hio := h.entries.inOrder e he
    by_cases hel : e.line = l
    · rw [hthis e hel]
      refine ⟨fun k hk => ?_, hio.2⟩
      rw [MasterSet.get_insert] at hk
      split at hk
      · obtain ⟨x, hx, hxl, hw⟩ := (hlist.awaited l).1 List.mem_cons_self
        rename_i hkm
        rw [hkm, ← eq_of_line_eq h.entries.distinct he hx (hxl.trans hel.symm)]
        exact hw.1
      · exact hio.1 k hk
    · rw [hother e hel]
      exact hio
  obtain ⟨hsets, hcount⟩ := h.sets_map fun e _ => hline e
  refine ⟨h.canonical, hsets, h.entries.map (fun e _ => (hline e).1) hin fun e he => ?_, fun k => ?_, hcount⟩
  · rw [Bool.and_eq_true, (hline e).1, beq_iff_eq]
    refine ⟨fun hc => hc.2, fun hc => ?_⟩
    by_cases hel : e.line = l
    · refine (hin e he).complete_or.resolve_left fun hcomplete => ?_
      simp [hel, hcomplete] at hc
    · rw [hother e hel]
      exact h.entries.unanswered he
  · show NoticesAgree (s.ivt.entries.map (TrackerEntry.answeredBy m l)) k ((s.ivt.notices.set m rest).get k)
      (PerMaster.get (PerMaster.set _ m _) k)
    rw [PerMaster.get_set, PerMaster.get_set]
    by_cases hkm : k = m
    · rw [if_pos hkm, if_pos hkm, hkm]
      refine hlist.answered (fun e _ => (hline e).1) (fun e he hel => ?_) (fun e he hel => by rw [hother e hel]) ?_
      · rw [hthis e hel]
        rintro ⟨-, ha⟩
        simp [MasterSet.get_insert] at ha
      · cases rest <;> simp
    · rw [if_neg hkm, if_neg hkm]
      refine (h.notices k).map fun e he => ⟨(hline e).1, ?_⟩
      by_cases hel : e.line = l
      · rw [hthis e hel]
        simp only [TrackerEntry.Awaits, MasterSet.get_insert, if_neg hkm]
      · rw [hother e hel]

theorem TrackerEntry.releasedFrom_get (m k : Master) (e : TrackerEntry) :
    (e.releasedFrom m).targets.get k = (if k = m then false else e.targets.get k) ∧
      (e.releasedFrom m).sent.get k = (if k = m then false else e.sent.get k) ∧
      (e.releasedFrom m).acked.get k = if k = m then false else e.acked.get k :=
  ⟨PerMaster.get_set _ _ _ _, PerMaster.get_set _ _ _ _, PerMaster.get_set _ _ _ _⟩

/-- m is released from every entry (R46). -/
theorem AgreesWith.released {s : State} (m : Master) (h : AgreesWith [] s) :
    AgreesWith ((s.ivt.releasedFrom m).entries.filter fun e => e.complete) (s.withIvt (s.ivt.releasedFrom m)) := by
  have hin : ∀ e ∈ s.ivt.entries, (e.releasedFrom m).InOrder := fun e he => by
    obtain ⟨hasub, hssub⟩ := h.entries.inOrder e he
    refine ⟨fun k => ?_, fun k => ?_⟩
    · rw [(e.releasedFrom_get m k).2.2, (e.releasedFrom_get m k).2.1]
      split
      · exact id
      · exact hasub k
    · rw [(e.releasedFrom_get m k).1, (e.releasedFrom_get m k).2.1]
      split
      · exact id
      · exact hssub k
  obtain ⟨hsets, hcount⟩ := h.sets_map (f := TrackerEntry.releasedFrom m) fun e _ => ⟨rfl, rfl⟩
  refine ⟨h.canonical, hsets, h.entries.map (f := TrackerEntry.releasedFrom m) (fun _ _ => rfl) hin fun e he =>
    ⟨id, fun hc => (hin e he).complete_or.resolve_left (by rw [hc]; decide)⟩, fun k => ?_, hcount⟩
  show NoticesAgree (s.ivt.entries.map (TrackerEntry.releasedFrom m)) k ((s.ivt.notices.set m []).get k)
    ((s.ivt.timers.set m none).get k)
  rw [PerMaster.get_set, PerMaster.get_set]
  have haw : ∀ e : TrackerEntry, (e.releasedFrom m).Awaits k ↔ k ≠ m ∧ e.Awaits k := fun e => by
    unfold TrackerEntry.Awaits
    rw [(e.releasedFrom_get m k).2.1, (e.releasedFrom_get m k).2.2]
    by_cases hkm : k = m <;> simp [hkm]
  by_cases hkm : k = m
  · rw [if_pos hkm, if_pos hkm]
    refine ⟨List.nodup_nil, fun l => ⟨fun hl => absurd hl List.not_mem_nil, ?_⟩, by simp⟩
    rintro ⟨x, hx, -, hw⟩
    obtain ⟨e, -, rfl⟩ := List.mem_map.1 hx
    exact absurd hkm ((haw e).1 hw).1
  · rw [if_neg hkm, if_neg hkm]
    exact (h.notices k).map fun e _ => ⟨rfl, (haw e).trans (and_iff_right hkm)⟩

/-- The tracker at reset, or in any state with nothing in it. -/
theorem AgreesWith.of_empty {s : State} (hs : s.pdr.sets = []) (he : s.ivt.entries = [])
    (hn : ∀ m, s.ivt.notices.get m = [] ∧ s.ivt.timers.get m = none) (hw : s.pdr.walker = Walker.idle) :
    AgreesWith [] s := by
  refine ⟨?_, fun i _ => ?_, ?_, fun m => ?_, ?_⟩
  · unfold DirectoryCanonical
    rw [hs]
    exact ⟨rfl, fun _ => ⟨List.nodup_nil, List.nodup_nil⟩⟩
  · rw [hs, he]
    exact ⟨fun r hr => absurd hr List.not_mem_nil, fun t ht => absurd rfl ht⟩
  · rw [he]
    exact ⟨by simp, by simp, by simp, by simp, by simp, by simp⟩
  · rw [he, (hn m).1, (hn m).2]
    exact ⟨by simp, by simp, by simp⟩
  · rw [he, hw]
    exact ⟨rfl, fun _ => rfl⟩

theorem agreesWith_coherent : Coherent AgreesWith where
  reset := fun mpres mrst sreq mrdy spi clk pending =>
    AgreesWith.of_empty rfl rfl (fun m => by cases m <;> exact ⟨rfl, rfl⟩) rfl
  canonical := AgreesWith.canonical
  frame := fun {es s t} h hs hi hw ht =>
    ⟨directoryCanonical_coherent.frame (es := es) h.canonical hs hi hw ht, by rw [hs, hi]; exact h.sets,
      by rw [hi]; exact h.entries, by rw [hi]; exact h.notices, by rw [hi]; exact hw _ h.counted⟩
  evolved := fun {es s} d f h hd hget hf => by
    refine ⟨directoryCanonical_coherent.evolved (es := es) d f h.canonical hd hget hf, fun i hi => ?_, h.entries,
      h.notices, h.counted⟩
    show (d.get i).Agrees _
    rw [hget i]
    exact (h.sets i hi).filterMap (hf i)
  installed := fun {es s i w t ms} d h hw ht hms hi hd hget => by
    refine ⟨directoryCanonical_coherent.installed (es := es) d h.canonical hw ht hms hi hd hget, fun j hj => ?_,
      h.entries, h.notices, h.counted⟩
    show (d.get j).Agrees _
    rw [hget j]
    split
    · rename_i hji
      subst hji
      have hnone := (h.sets j hj).none_of_not_names ht
      refine ⟨fun r hr => ?_, fun u hu => ?_⟩
      · rcases List.mem_append.1 hr with hr | hr
        · exact (h.sets j hj).records r hr
        · rw [List.mem_singleton.1 hr]
          exact (show kindAt s.ivt.entries (lineOfTag t j) = none from hnone) ▸ LineRecord.agrees_installed hms w t
      · obtain ⟨r, hr, hrt⟩ := (h.sets j hj).recorded u hu
        exact ⟨r, List.mem_append_left _ hr, hrt⟩
    · exact h.sets j hj
  taken := AgreesWith.taken
  completed := AgreesWith.completed
  enlarged := fun _ _ => AgreesWith.enlarged
  sent := AgreesWith.sent
  answered := AgreesWith.answered
  released := AgreesWith.released

/-- Settles O59: entries that an event completes are still to be completed while the others already agree. -/
theorem stepsKeepTrackerAndDirectoryAgreeing : Obligations.StepsKeepTrackerAndDirectoryAgreeing :=
  fun s t h ht => (trackerAgrees_iff t).2 (agreesWith_coherent.step ((trackerAgrees_iff s).1 h) ht)

end Sys2Proof.Machine
end

