-- ==== Sys2Proof/Proofs/FillLookups.lean ====
section
/-! SUPPORT and PROOFS. What a fill lookup answers, case by case (R9 to R15), what a fill's end leaves of its record
(R17, R18), and what the completion of an entry does at the directory (R23 to R25). -/

namespace Sys2Proof.Machine

/-! ### The cases of a fill lookup -/

theorem DirectorySet.find_none_of_not_names {rs : DirectorySet} {t : Tag} (h : ¬ rs.Names t) :
    rs.find? (fun r => r.tag == t) = none ∧
      ¬ rs.any (fun r => r.successor.any fun su => su.tag == t) = true := by
  refine ⟨DirectorySet.find_tag_none.2 fun r hr => DirectorySet.tag_ne_of_not_names h hr, ?_⟩
  rw [List.any_eq_true]
  rintro ⟨r, hr, hsu⟩
  obtain ⟨su, hs, ht⟩ := (Option.any_eq_true _ _).1 hsu
  exact DirectorySet.successor_ne_of_not_names h hr hs (by simpa using ht)

section
variable {m : Master} {l : LineAddr} {s : State}

theorem State.fillLookup_shared {r : LineRecord}
    (h : (s.pdr.sets.get (setOfLine l)).find? (fun r => r.tag == tagOfLine l) = some r) (hst : r.status = .shared) :
    s.fillLookup m l = (s.setRecords (setOfLine l) (DirectorySet.update (s.pdr.sets.get (setOfLine l)) (tagOfLine l)
      fun r => some { r with pending := r.pending ++ [⟨m, .waiting, false⟩] }), .joined) := by
  simp only [State.fillLookup, h, hst]

theorem State.fillLookup_invalidating {r : LineRecord}
    (h : (s.pdr.sets.get (setOfLine l)).find? (fun r => r.tag == tagOfLine l) = some r)
    (hst : r.status = .invalidating) : s.fillLookup m l = (s, .lineBusy) := by
  simp only [State.fillLookup, h, hst]

theorem State.fillLookup_evicting {r : LineRecord} {su : Option Successor}
    (h : (s.pdr.sets.get (setOfLine l)).find? (fun r => r.tag == tagOfLine l) = some r)
    (hst : r.status = .evicting su) : s.fillLookup m l = (s, .demoted) := by
  simp only [State.fillLookup, h, hst]

theorem State.fillLookup_claimed {r : LineRecord} {su : Successor}
    (h : ∀ q ∈ s.pdr.sets.get (setOfLine l), q.tag ≠ tagOfLine l) (hr : r ∈ s.pdr.sets.get (setOfLine l))
    (hsu : r.successor = some su) (ht : su.tag = tagOfLine l) :
    s.fillLookup m l = (s.setRecords (setOfLine l)
      ((s.pdr.sets.get (setOfLine l)).map (LineRecord.withClaimant m (tagOfLine l))), .claimant) := by
  have hany : (s.pdr.sets.get (setOfLine l)).any
      (fun r => r.successor.any fun su => su.tag == tagOfLine l) = true :=
    List.any_eq_true.2 ⟨r, hr, by simp [hsu, ht]⟩
  simp only [State.fillLookup, DirectorySet.find_tag_none.2 h, if_pos hany]

/-- The line is named nowhere in its set (R13). -/
theorem State.fillLookup_free (h : ¬ DirectorySet.Names (s.pdr.sets.get (setOfLine l)) (tagOfLine l)) {w : Way}
    (hw : DirectorySet.lowestFree (s.pdr.sets.get (setOfLine l)) = some w) :
    s.fillLookup m l = (s.setRecords (setOfLine l)
      (s.pdr.sets.get (setOfLine l) ++ [LineRecord.installed w (tagOfLine l) [m]]), .joined) := by
  obtain ⟨hnone, hany⟩ := DirectorySet.find_none_of_not_names h
  simp only [State.fillLookup, hnone, if_neg hany, hw]

/-- In a full set the victim choice decides (R14). -/
theorem State.fillLookup_noVictim (h : ¬ DirectorySet.Names (s.pdr.sets.get (setOfLine l)) (tagOfLine l))
    (hw : DirectorySet.lowestFree (s.pdr.sets.get (setOfLine l)) = none)
    (hv : DirectorySet.victim (s.pdr.sets.get (setOfLine l)) = none) : s.fillLookup m l = (s, .demoted) := by
  obtain ⟨hnone, hany⟩ := DirectorySet.find_none_of_not_names h
  simp only [State.fillLookup, hnone, if_neg hany, hw, hv]

theorem State.fillLookup_victim (h : ¬ DirectorySet.Names (s.pdr.sets.get (setOfLine l)) (tagOfLine l))
    (hw : DirectorySet.lowestFree (s.pdr.sets.get (setOfLine l)) = none) {v : LineRecord}
    (hv : DirectorySet.victim (s.pdr.sets.get (setOfLine l)) = some v) : s.fillLookup m l = s.useVictim m l v := by
  obtain ⟨hnone, hany⟩ := DirectorySet.find_none_of_not_names h
  simp only [State.fillLookup, hnone, if_neg hany, hw, hv]

theorem DirectorySet.lowestFree_eq_some {rs : DirectorySet} {w : Way} (hw : ∀ r ∈ rs, r.way ≠ w)
    (hlow : ∀ v : Way, v < w → ∃ r ∈ rs, r.way = v) : rs.lowestFree = some w := by
  have hrising : ([0, 1, 2, 3, 4, 5, 6, 7] : List Way).Pairwise (· < ·) := by decide
  have hall : ∀ v : Way, v ∈ ([0, 1, 2, 3, 4, 5, 6, 7] : List Way) := by decide
  obtain ⟨lower, higher, hsplit⟩ := List.append_of_mem (hall w)
  refine List.find?_eq_some_iff_append.2 ⟨by simpa using hw, lower, higher, hsplit, fun v hv => ?_⟩
  rw [hsplit, List.pairwise_append] at hrising
  obtain ⟨r, hr, hrv⟩ := hlow v (hrising.2.2 v hv w List.mem_cons_self)
  rw [Bool.not_not, List.any_eq_true]
  exact ⟨r, hr, beq_iff_eq.2 hrv⟩

theorem DirectorySet.lowestFree_eq_none {rs : DirectorySet} (h : ∀ w : Way, ∃ r ∈ rs, r.way = w) :
    rs.lowestFree = none := by
  refine List.find?_eq_none.2 fun w _ => ?_
  obtain ⟨r, hr, hw⟩ := h w
  simp only [Bool.not_eq_true', Bool.not_eq_false, List.any_eq_true, beq_iff_eq]
  exact ⟨r, hr, hw⟩

/-! ### The victim of a full set -/

theorem DirectorySet.victim_eq_none {rs : DirectorySet} (h : ∀ r ∈ rs, ¬ (r.status = .shared ∧ r.pending = [])) :
    rs.victim = none :=
  List.find?_eq_none.2 fun r hr he => h r hr ((LineRecord.eligibleVictim_iff r).1 he)

theorem DirectorySet.victim_split {older younger : DirectorySet} {v : LineRecord} (hst : v.status = .shared)
    (hp : v.pending = []) (h : ∀ r ∈ older, ¬ (r.status = .shared ∧ r.pending = [])) :
    DirectorySet.victim (older ++ v :: younger) = some v := by
  unfold DirectorySet.victim
  rw [List.find?_append, show older.find? (fun r => r.eligibleVictim) = none from DirectorySet.victim_eq_none h]
  simp [(LineRecord.eligibleVictim_iff v).2 ⟨hst, hp⟩]

end

/-! ### The statements about fill lookups -/

/-- In a canonical set one record alone names a successor's line. -/
theorem DirectorySet.map_withClaimant_split {older younger : DirectorySet} {r : LineRecord} {su : Successor}
    (hc : DirectorySet.Canonical (older ++ r :: younger)) (hst : r.status = .evicting (some su)) (m : Master) :
    (older ++ r :: younger).map (LineRecord.withClaimant m su.tag) =
      older ++ { r with status := .evicting (some { su with claimants := su.claimants ++ [m] }) } :: younger := by
  obtain ⟨-, -, hsucc, -⟩ := hc.split
  have hn := (hsucc su (LineRecord.successor_eq_some_iff.2 hst)).2
  have hother : ∀ q ∈ older ++ younger, q.withClaimant m su.tag = q := fun q hq => by
    unfold LineRecord.withClaimant
    split
    · rename_i u hu
      rw [if_neg (DirectorySet.successor_ne_of_not_names hn hq (LineRecord.successor_eq_some_iff.2 hu))]
    all_goals rfl
  have hid : ∀ rs : DirectorySet, (∀ q ∈ rs, q ∈ older ++ younger) → rs.map (LineRecord.withClaimant m su.tag) = rs :=
    fun rs hrs => (List.map_congr_left fun q hq => hother q (hrs q hq)).trans (List.map_id _)
  rw [List.map_append, List.map_cons, hid older fun q => List.mem_append_left _,
    hid younger fun q => List.mem_append_right _]
  simp [LineRecord.withClaimant, hst]

/-- Settles O13, by the state of the record found. -/
theorem lookupMeetsTheRecord : Obligations.LookupMeetsTheRecord := by
  intro m l s hc
  have hset := hc.2 (setOfLine l)
  refine ⟨fun older younger r hrs ht => ?_, fun older younger r su hrs hst ht => ?_⟩
  · obtain ⟨-, hn, -, -⟩ := (hrs ▸ hset : DirectorySet.Canonical (older ++ r :: younger)).split
    have hne : ∀ q ∈ older ++ younger, q.tag ≠ tagOfLine l := fun q hq => ht ▸ DirectorySet.tag_ne_of_not_names hn hq
    have hfind : (s.pdr.sets.get (setOfLine l)).find? (fun r => r.tag == tagOfLine l) = some r :=
      hrs ▸ DirectorySet.find_tag_split (fun q hq => hne q (List.mem_append_left _ hq)) ht
    refine ⟨fun hst => ⟨_, State.fillLookup_shared hfind hst, rfl, fun i => ?_⟩,
      State.fillLookup_invalidating hfind, fun su => State.fillLookup_evicting hfind⟩
    rw [State.setRecords_get hc.1, hrs, DirectorySet.update_split hne ht]
    rfl
  · have hsu := LineRecord.successor_eq_some_iff.2 hst
    have hmem : r ∈ s.pdr.sets.get (setOfLine l) := hrs ▸ by simp
    obtain ⟨-, -, hsucc, -⟩ := (hrs ▸ hset : DirectorySet.Canonical (older ++ r :: younger)).split
    have habsent : ∀ q ∈ s.pdr.sets.get (setOfLine l), q.tag ≠ tagOfLine l := fun q hq => by
      rw [hrs] at hq
      rw [← ht]
      rcases List.mem_append.1 hq with hq | hq
      · exact DirectorySet.tag_ne_of_not_names (hsucc su hsu).2 (List.mem_append_left _ hq)
      · rcases List.mem_cons.1 hq with rfl | hq
        · exact (hsucc su hsu).1.symm
        · exact DirectorySet.tag_ne_of_not_names (hsucc su hsu).2 (List.mem_append_right _ hq)
    refine ⟨_, State.fillLookup_claimed habsent hmem hsu ht, rfl, fun i => ?_⟩
    rw [State.setRecords_get hc.1, hrs, ← ht, DirectorySet.map_withClaimant_split (hrs ▸ hset) hst]

/-- Settles O14: the lowest-numbered FREE way is the one that the choice finds first. -/
theorem missInstallsTheLowestFreeWay : Obligations.MissInstallsTheLowestFreeWay := by
  intro m l s w hwf hnames hw hlow
  refine ⟨_, State.fillLookup_free (DirectorySet.not_names_iff.2 hnames) (DirectorySet.lowestFree_eq_some hw hlow),
    rfl, fun i => ?_⟩
  rw [State.setRecords_get hwf]
  split
  · rename_i hi
    rw [hi]
    rfl
  · rfl

/-- Settles O15: the victim choice takes the oldest eligible record, and the tracker's room decides the rest. -/
theorem fullSetChoosesAVictim : Obligations.FullSetChoosesAVictim := by
  intro m l s hc hnames hfull
  have hn := DirectorySet.not_names_iff.2 hnames
  have hw := DirectorySet.lowestFree_eq_none hfull
  refine ⟨fun hno => State.fillLookup_noVictim hn hw (DirectorySet.victim_eq_none hno),
    fun older younger v hrs hst hp holder => ?_⟩
  have hlookup := State.fillLookup_victim (m := m) hn hw
    (hrs ▸ DirectorySet.victim_split (younger := younger) hst hp holder)
  obtain ⟨hway, -, -, -⟩ := (hrs ▸ hc.2 (setOfLine l) : DirectorySet.Canonical (older ++ v :: younger)).split
  have hsharers : (∃ k, v.sharers.get k = true) → ¬ v.sharers.isEmpty = true := fun ⟨k, hk⟩ he => by
    rw [(MasterSet.isEmpty_iff _).1 he k] at hk
    cases hk
  rw [hlookup]
  unfold State.useVictim
  dsimp only
  refine ⟨fun hempty => ?_, fun hsome hfull => ?_, fun hsome hroom => ?_⟩
  · rw [if_pos ((MasterSet.isEmpty_iff _).2 hempty)]
    refine ⟨_, rfl, rfl, fun i => ?_⟩
    rw [State.setRecords_get hc.1, hrs, DirectorySet.filter_way_split hway]
    rfl
  · rw [if_neg (hsharers hsome), State.createEntry_none_iff.2 hfull]
  · rw [if_neg (hsharers hsome), State.createEntry_eq _ _ _ _ _ hroom]
    refine ⟨_, rfl, rfl, fun i => ?_⟩
    refine (Directory.get_put hc.1 (setOfLine l) i _).trans ?_
    rw [hrs, DirectorySet.map_way_split hway]

/-! ### Ends of fills and completions at the directory -/

/-- A record left SHARED with nothing leaves its place, and any other stays in it (R8). -/
theorem DirectorySet.append_unlessEmpty (older younger : DirectorySet) (r : LineRecord) :
    older ++ (r.unlessEmpty.toList ++ younger) =
      if r.status = .shared ∧ r.sharers.isEmpty = true ∧ r.pending = [] then older ++ younger
      else older ++ r :: younger := by
  unfold LineRecord.unlessEmpty
  simp only [← LineRecord.isLeftEmpty_iff]
  split <;> rfl

/-- Settles O35, with the record of the line singled out in its set. -/
theorem fillIsKeptByTheRecord : Obligations.FillIsKeptByTheRecord := by
  intro m l s older younger r hc hrs ht
  obtain ⟨-, hn, -, -⟩ := (hrs ▸ hc.2 (setOfLine l) : DirectorySet.Canonical (older ++ r :: younger)).split
  have hne : ∀ q ∈ older ++ younger, q.tag ≠ tagOfLine l := fun q hq => ht ▸ DirectorySet.tag_ne_of_not_names hn hq
  have hrecord : s.pdr.sets.recordOf l = some r := by
    unfold Directory.recordOf
    rw [hrs, DirectorySet.find_tag_split (fun q hq => hne q (List.mem_append_left _ hq)) ht]
  refine ⟨?_, ?_⟩
  · unfold State.fillKept
    rw [hrecord]
    simp only [Bool.and_eq_true, List.any_eq_true, State.isOnline, beq_iff_eq, Bool.not_eq_true', and_assoc,
      Bool.and_eq_false_imp, Option.any_eq_false]
    refine and_congr_right fun _ => and_congr_right fun _ => ?_
    constructor
    · rintro h ⟨hi, e, he, hk⟩
      rw [h hi e he] at hk
      cases hk
    · exact fun h hi e he => Bool.eq_false_iff.2 fun hk => h ⟨hi, e, he, hk⟩
  · rintro keep ended rfl
    refine ⟨rfl, fun i => ?_⟩
    unfold State.endFill
    rw [State.updateRecord_get hc.1]
    split
    · rename_i hi
      rw [hi, hrs, DirectorySet.update_split hne ht]
      exact DirectorySet.append_unlessEmpty _ _ _
    · rfl

/-- The completion of an entry that evicts, for the record of its line (R24, R25). -/
theorem State.completeAtDirectory_found {s : State} {e : TrackerEntry} {r : LineRecord} (hk : e.kind ≠ .write)
    (hr : (s.pdr.sets.get (setOfLine e.line)).find? (fun r => r.tag == tagOfLine e.line) = some r) :
    (r.successor = none → s.completeAtDirectory e = s.setRecords (setOfLine e.line)
      ((s.pdr.sets.get (setOfLine e.line)).filter fun q => q.way != r.way)) ∧
    ∀ su, r.successor = some su → s.completeAtDirectory e = (s.setRecords (setOfLine e.line)
      (((s.pdr.sets.get (setOfLine e.line)).filter fun q => q.way != r.way) ++
        [LineRecord.installed r.way su.tag su.claimants])).endWayWait .joined su.claimants := by
  unfold State.completeAtDirectory
  split
  · exact absurd ‹_› hk
  all_goals exact ⟨fun hs => by simp only [hr, hs], fun su hs => by simp only [hr, hs]⟩

/-- Settles O38, by the kind of the entry and the successor of the record. -/
theorem completionMovesTheRecordOn : Obligations.CompletionMovesTheRecordOn := by
  intro e s older younger r hc hrs ht
  obtain ⟨hway, hn, -, -⟩ := (hrs ▸ hc.2 (setOfLine e.line) : DirectorySet.Canonical (older ++ r :: younger)).split
  have hne : ∀ q ∈ older ++ younger, q.tag ≠ tagOfLine e.line := fun q hq =>
    ht ▸ DirectorySet.tag_ne_of_not_names hn hq
  have hfind : (s.pdr.sets.get (setOfLine e.line)).find? (fun r => r.tag == tagOfLine e.line) = some r :=
    hrs ▸ DirectorySet.find_tag_split (fun q hq => hne q (List.mem_append_left _ hq)) ht
  have hrest : (s.pdr.sets.get (setOfLine e.line)).filter (fun q => q.way != r.way) = older ++ younger := by
    rw [hrs, DirectorySet.filter_way_split hway]
  refine ⟨fun hk => ?_, fun hk hsu => ?_, fun su hk hsu => ?_⟩
  · refine ⟨_, State.completeAtDirectory_write hk, rfl, fun i => ?_⟩
    rw [State.updateRecord_get hc.1]
    split
    · rename_i hi
      rw [hi, hrs, DirectorySet.update_split hne ht, DirectorySet.append_unlessEmpty]
      simp only [true_and]
    · rfl
  · refine ⟨_, rfl, ?_, fun i => ?_⟩ <;> rw [(State.completeAtDirectory_found hk hfind).1 hsu, hrest]
    · rfl
    · exact State.setRecords_get hc.1 _ i _
  · refine ⟨_, (State.completeAtDirectory_found hk hfind).2 su hsu, rfl, fun i => ?_⟩
    rw [hrest]
    exact State.setRecords_get hc.1 _ i _

end Sys2Proof.Machine
end

