-- ==== Sys2Proof/Proofs/FillsAndWrites.lean ====
section
/-! SUPPORT and PROOFS. A READ-LINE and the fills released from a wait (R9, R63 to R65), and the write step (R20 to R22,
R33 to R35). -/

namespace Sys2Proof.Machine

/-! ### The acceptance of a request that stands alone -/

/-- A request presented with no lock held is handled on the state with its transfer taken (R150). -/
theorem State.Presents.accept {s : State} {m : Master} {r : RequestLines} (h : s.Presents m r) (b : Bool)
    (handle : Master → State → State) : s.atEvent.accept r b handle = handle m (s.taken m true) := by
  obtain ⟨hg, hr, hl⟩ := h
  have hg : s.atEvent.bfe.grant = some m := hg
  have hl : (s.atEvent.clearGrant m true).bfe.lock = none := hl
  unfold State.accept
  rw [hg]
  dsimp only
  rw [hr, if_neg (by decide), hl]
  rfl

/-- The three conditions of a fill lookup (R9). -/
theorem State.directoryFill_iff {s : State} {m : Master} {l : LineAddr} :
    s.directoryFill m l = true ↔ regionLookup s.rgt (addrOfLine l) = .tracked .active ∧
      s.mau.attach.get m = .online ∧ s.pdr.walker.mode ≠ .sweeping := by
  simp [State.directoryFill, State.isOnline, and_assoc]

/-! ### The waits that the queue gives -/

/-- A slot brought into line with the queue carries the queue's three waits exactly while they hold (R59). -/
theorem Slot.withQueueWaits_queueWaits (s : State) (sl : Slot) :
    QueueWaits s sl.request (sl.withQueueWaits s.pwq s.mnc.bypassLimit).waits := by
  refine ⟨?_, ?_, ?_⟩
  · simp [Slot.withQueueWaits, overlapHolds]
  · simp [Slot.withQueueWaits, bypassHolds]
  · simp [Slot.withQueueWaits, queueEmptyHolds]

/-- Settles O12: the slot's waits are the queue's three and the one that the lookup's outcome gives. -/
theorem fillIsLookedUpOrUncached : Obligations.FillIsLookedUpOrUncached := by
  rintro r m s l p hpres rfl rfl
  have hexec : ∀ u, State.acceptReadLine r m (s.taken m true) = u →
      exec (.readLine r) s = .next (State.tellWalker s.atEvent u) := fun u hu => by
    rw [← hu, ← hpres.accept false (State.acceptReadLine r)]
    rfl
  have hline : requestLine r = lineOfAddr r.sa := rfl
  have hfill : (s.taken m true).directoryFill m (requestLine r) = true ↔
      regionLookup s.rgt (addrOfLine (lineOfAddr r.sa)) = .tracked .active ∧ s.atEvent.mau.attach.get m = .online ∧
        s.pdr.walker.mode ≠ .sweeping := State.directoryFill_iff
  refine ⟨fun hno => ⟨_, ?_, Slot.withQueueWaits_queueWaits s (Slot.held _ WaitReasons.none), rfl, rfl, rfl, rfl, rfl⟩,
    fun looked o hp hon hsweep hlook => ?_⟩
  · rw [hexec _ rfl]
    unfold State.acceptReadLine
    dsimp only
    rw [if_neg fun hf => hno (hfill.1 hf)]
    exact congrArg Host.Outcome.next (State.tellWalker_of_same rfl)
  · obtain ⟨-, -, -, -, -, -, hpwq, -, -, hmnc, -⟩ :=
      hlook ▸ State.fillLookup_work m (lineOfAddr r.sa) (s.taken m true)
    have hpwq : looked.pwq = s.pwq := hpwq
    have hmnc : looked.mnc = s.mnc := hmnc
    have haccept : State.acceptReadLine r m (s.taken m true) = looked.enterSlot m
        ((looked.newSlot (.readLine (lineOfAddr r.sa) (regionLookup s.rgt (addrOfLine (lineOfAddr r.sa))) .directory)
          WaitReasons.none).afterLookup o) := by
      unfold State.acceptReadLine
      dsimp only
      rw [if_pos (hfill.2 ⟨hp, hon, hsweep⟩), hline, hlook]
      rfl
    refine ⟨((looked.newSlot
        (.readLine (lineOfAddr r.sa) (regionLookup s.rgt (addrOfLine (lineOfAddr r.sa))) .directory)
          WaitReasons.none).afterLookup o).waits, ?_, ?_, ?_, ?_, ?_⟩
    · rw [hexec _ haccept]
      cases o <;> rfl
    · unfold State.newSlot
      rw [hpwq, hmnc]
      exact Slot.withQueueWaits_queueWaits s
        (Slot.held (.readLine (lineOfAddr r.sa) (regionLookup s.rgt (addrOfLine (lineOfAddr r.sa))) .directory)
          WaitReasons.none)
    · exact beq_iff_eq
    · exact beq_iff_eq
    · exact ⟨rfl, rfl, rfl, rfl, rfl⟩

/-! ### Fills released from their wait -/

/-- A change of the slot of m, which holds a request. -/
theorem State.modifySlot_eq {s : State} {m : Master} {sl : Slot} (h : s.rsa.slots.get m = some sl) (f : Slot → Slot) :
    s.modifySlot m f = { s with rsa := s.rsa.withSlot m (f sl) } := by
  unfold State.modifySlot
  rw [h]
  rfl

/-- A fill lookup leaves every slot that holds no LOCK-READ (R67). -/
theorem State.fillLookup_slot {s : State} {k : Master} {sl : Slot} (h : s.rsa.slots.get k = some sl)
    (hq : sl.request.isLockRead = false) (m : Master) (l : LineAddr) :
    (s.fillLookup m l).1.rsa.slots.get k = some sl := by
  refine State.fillLookup_elim (P := fun u => u.rsa.slots.get k = some sl) m l s h (fun _ _ _ _ => h) h
    (fun _ _ _ => h) (fun _ _ _ _ => h) fun v _ u _ _ _ _ hu => ?_
  obtain ⟨hroom, -⟩ := State.createEntry_some hu
  rw [State.createEntry_eq _ _ _ _ _ hroom] at hu
  cases hu
  show (s.rsa.lineTaken _).slots.get k = some sl
  unfold Rsa.lineTaken
  rw [PerMaster.get_of, h, Option.map_some]
  rcases sl with ⟨phase, request, waits, arrived, told⟩
  cases request with
  | lockRead => cases hq
  | _ => cases phase <;> rfl

/-- A slot of a fill told of an outcome (R64, R65). -/
theorem Slot.afterLookup_eq {sl : Slot} {l : LineAddr} {p : Policy} (h : sl.request = .readLine l p .directory)
    (o : LookupOutcome) : sl.afterLookup o = sl.lookedUp l p o := by
  unfold Slot.afterLookup Slot.lookedUp
  rw [h]
  cases o <;> rfl

/-- Settles O16, by the conditions that `State.releaseFill` looks at. -/
theorem waitingFillsAreReleased : Obligations.WaitingFillsAreReleased := by
  refine ⟨fun m l p sl s hslot hheld hreq => ?_, fun m l s hno => ?_, fun _ _ => rfl,
    fun o m ms l p sl s => ⟨rfl, fun hslot hreq => ?_⟩⟩
  · have hrelease : s.releaseFill l m =
        if sl.waits.lineBusy = true then
          if s.directoryFill m l then (s.fillLookup m l).1.modifySlot m (Slot.afterLookup (s.fillLookup m l).2)
          else s.modifySlot m (Slot.afterLookup .demoted)
        else s := by
      unfold State.releaseFill
      simp only [hslot, hheld, hreq, true_and]
    refine ⟨fun hb => ?_, fun hb => ⟨fun looked o hp hon hsweep hlook => ?_, fun hno => ?_⟩⟩
    · rw [hrelease, hb, if_neg (by decide)]
    · have hkept := State.fillLookup_slot hslot (by rw [hreq]; rfl) m l
      rw [hrelease, if_pos hb, if_pos (State.directoryFill_iff.2 ⟨hp, hon, hsweep⟩), State.modifySlot_eq hkept, hlook,
        Slot.afterLookup_eq hreq]
    · rw [hrelease, if_pos hb, if_neg fun hd => hno (State.directoryFill_iff.1 hd), State.modifySlot_eq hslot,
        Slot.afterLookup_eq hreq]
  · unfold State.releaseFill
    split
    · rename_i sl hslot
      split
      · rename_i l' p hheld hreq
        rw [if_neg]
        rintro ⟨rfl, -⟩
        exact hno sl p hslot hheld hreq
      · rfl
    · rfl
  · rw [← Slot.afterLookup_eq hreq o, ← State.modifySlot_eq hslot]
    rfl

/-! ### The write step -/

section
variable {a : Master} {l : LineAddr} {s : State} {r : LineRecord}

theorem MasterSet.isEmpty_eq_false_iff (x : MasterSet) : x.isEmpty = false ↔ ∃ k, x.get k = true := by
  rw [← Bool.not_eq_true, MasterSet.isEmpty_iff]
  push Not
  simp

/-- What the tracker's part of a write step is, by the record's status and the targets (R21). -/
theorem State.writeTracker_found (hr : s.pdr.sets.recordOf l = some r) :
    (r.status = .shared → (s.writeTargets a l).isEmpty = true → s.writeTracker a l = some s) ∧
    (r.status = .shared → (s.writeTargets a l).isEmpty = false → s.writeTracker a l =
      (s.createEntry l .write (s.writeTargets a l) (MasterSet.single a)).map fun u =>
        u.updateRecord l fun r => some { r with status := .invalidating }) ∧
    (r.status ≠ .shared → (s.writeTargets a l).isEmpty = false →
      s.writeTracker a l = some (s.enlargeEntry l (s.writeTargets a l) a)) ∧
    (r.status ≠ .shared → (s.writeTargets a l).isEmpty = true → s.writeTracker a l =
      some (if (s.liveEntry l).any (fun e => !(e.targets.erase a).isEmpty) then s.addCause l a else s)) := by
  unfold State.writeTracker
  rw [hr]
  dsimp only
  refine ⟨fun hst hw => ?_, fun hst hw => ?_, fun hst hw => ?_, fun hst hw => ?_⟩
  · rw [hst]
    dsimp only
    rw [if_pos hw]
  · rw [hst]
    dsimp only
    rw [if_neg (by simp [hw])]
  · split
    · exact absurd ‹_› hst
    all_goals rw [if_pos (by simp [hw])]
  · split
    · exact absurd ‹_› hst
    all_goals
      rw [if_neg (by simp [hw])]
      cases hl : s.liveEntry l with
      | none => rfl
      | some e => cases he : (e.targets.erase a).isEmpty <;> simp [he]

/-- The state after the tracker's part: the directory and the slots stand, but for the record and the slots that a new
entry takes (R21, R67). -/
theorem State.writeTracker_cases (hr : s.pdr.sets.recordOf l = some r) {w : State}
    (hw : s.writeTracker a l = some w) :
    (¬ (r.status = .shared ∧ (s.writeTargets a l).isEmpty = false) ∧ w.pdr = s.pdr ∧ w.rsa = s.rsa) ∨
    (r.status = .shared ∧ (s.writeTargets a l).isEmpty = false ∧ s.ivt.entries.length < 16 ∧
      w = State.updateRecord l (fun r => some { r with status := .invalidating }) { s with
        ivt := { s.ivt with entries := s.ivt.entries ++
          [⟨l, .write, s.writeTargets a l, MasterSet.empty, MasterSet.empty, MasterSet.single a⟩] }
        rsa := s.rsa.lineTaken l }) := by
  obtain ⟨hidle, hcreate, henlarge, hcause⟩ := State.writeTracker_found (a := a) hr
  by_cases hst : r.status = .shared
  · cases ht : (s.writeTargets a l).isEmpty with
    | true =>
      rw [hidle hst ht] at hw
      cases hw
      exact Or.inl ⟨by simp, rfl, rfl⟩
    | false =>
      rw [hcreate hst ht] at hw
      obtain ⟨u, hu, rfl⟩ := Option.map_eq_some_iff.1 hw
      obtain ⟨hroom, -⟩ := State.createEntry_some hu
      rw [State.createEntry_eq _ _ _ _ _ hroom] at hu
      cases hu
      exact Or.inr ⟨hst, rfl, hroom, rfl⟩
  · refine Or.inl ⟨fun h => hst h.1, ?_⟩
    cases ht : (s.writeTargets a l).isEmpty with
    | true =>
      rw [hcause hst ht] at hw
      cases hw
      split <;> exact ⟨rfl, rfl⟩
    | false =>
      rw [henlarge hst ht] at hw
      cases hw
      exact ⟨rfl, rfl⟩

/-- Two updates of the record of a line are one, when the first keeps the record and its tag. -/
theorem State.updateRecord_twice_get {u : State} (hu : u.pdr = s.pdr) (hwf : s.pdr.sets.wf = true) (l : LineAddr)
    (g : LineRecord → LineRecord) (f : LineRecord → Option LineRecord) (hg : ∀ r, (g r).tag = r.tag) (i : Nat) :
    ((u.updateRecord l fun r => some (g r)).updateRecord l f).pdr.sets.get i =
      if i = setOfLine l then DirectorySet.update (s.pdr.sets.get i) (tagOfLine l) (fun r => f (g r))
      else s.pdr.sets.get i := by
  rw [← hu] at hwf ⊢
  rw [State.updateRecord_get (State.updateRecord_wf hwf _ _), State.updateRecord_get hwf]
  split
  · exact DirectorySet.update_update _ _ _ _ hg
  · rfl

/-- The directory after a write step taken (R21, R22). -/
theorem State.writeStep_sets (hwf : s.pdr.sets.wf = true) (hr : s.pdr.sets.recordOf l = some r) {t : State}
    (ht : s.writeStep a l = some t) (i : Nat) :
    t.pdr.sets.get i = if i = setOfLine l then
      DirectorySet.update (s.pdr.sets.get i) (tagOfLine l) (fun q => some { q with
        status := if r.status = .shared ∧ (s.writeTargets a l).isEmpty = false then .invalidating else q.status
        pending := q.pending.map fun p => if p.phase = .issued ∧ p.master ≠ a then { p with spoiled := true } else p })
      else s.pdr.sets.get i := by
  obtain ⟨w, hw, rfl⟩ := Option.map_eq_some_iff.1 ht
  rcases State.writeTracker_cases hr hw with ⟨hno, hpdr, -⟩ | ⟨hst, hne, -, rfl⟩
  · simp only [if_neg hno]
    rw [State.updateRecord_get (hpdr ▸ hwf), hpdr]
    rfl
  · simp only [hst, hne, and_self, if_true]
    exact State.updateRecord_twice_get rfl hwf l (fun q => { q with status := .invalidating })
      (fun q => some (q.spoiledByWrite a)) (fun _ => rfl) i

/-- The targets of a write (R20). -/
theorem State.writeTargets_iff (hr : s.pdr.sets.recordOf l = some r) (k : Master) :
    (r.status = .shared → ((s.writeTargets a l).get k = true ↔ r.sharers.get k = true ∧ k ≠ a)) ∧
    (∀ e, r.status = .invalidating → s.liveEntry l = some e →
      ((s.writeTargets a l).get k = true ↔ r.sharers.get k = true ∧ k ≠ a ∧ e.targets.get k = false)) ∧
    (∀ su, r.status = .evicting su → (s.writeTargets a l).get k = false) := by
  have herase : (r.sharers.erase a).get k = true ↔ r.sharers.get k = true ∧ k ≠ a := by
    rw [MasterSet.get_erase]
    by_cases hk : k = a <;> simp [hk]
  unfold State.writeTargets
  rw [hr]
  dsimp only
  refine ⟨fun hst => ?_, fun e hst he => ?_, fun su hst => ?_⟩
  · rw [hst]
    exact herase
  · rw [hst, he]
    dsimp only
    rw [MasterSet.get_diff, Bool.and_eq_true, herase, Bool.not_eq_true', and_assoc]
  · rw [hst]
    exact MasterSet.get_empty k

/-- A write step without room for the entry it needs is refused whole (R21, R33). -/
theorem State.writeStep_refused (hr : s.pdr.sets.recordOf l = some r) (hst : r.status = .shared)
    (hne : (s.writeTargets a l).isEmpty = false) (hfull : 16 ≤ s.ivt.entries.length) : s.writeStep a l = none := by
  unfold State.writeStep
  rw [(State.writeTracker_found hr).2.1 hst hne, State.createEntry_none_iff.2 hfull]
  rfl

/-- Every other write step is taken. -/
theorem State.writeStep_isSome (hr : s.pdr.sets.recordOf l = some r)
    (h : ¬ (r.status = .shared ∧ (s.writeTargets a l).isEmpty = false ∧ 16 ≤ s.ivt.entries.length)) :
    ∃ t, s.writeStep a l = some t := by
  obtain ⟨hidle, hcreate, henlarge, hcause⟩ := State.writeTracker_found (a := a) hr
  unfold State.writeStep
  by_cases hst : r.status = .shared <;> cases ht : (s.writeTargets a l).isEmpty
  · have hroom : s.ivt.entries.length < 16 := Nat.lt_of_not_le fun hfull => h ⟨hst, ht, hfull⟩
    rw [hcreate hst ht, State.createEntry_eq _ _ _ _ _ hroom]
    exact ⟨_, rfl⟩
  · rw [hidle hst ht]
    exact ⟨_, rfl⟩
  · rw [henlarge hst ht]
    exact ⟨_, rfl⟩
  · rw [hcause hst ht]
    exact ⟨_, rfl⟩

/-- The tracker after a write step that creates no entry (R34, R35). -/
theorem State.writeStep_ivt (hr : s.pdr.sets.recordOf l = some r) {t : State} (ht : s.writeStep a l = some t) :
    (r.status = .shared → (s.writeTargets a l).isEmpty = true → t.ivt = s.ivt) ∧
    (r.status ≠ .shared → (s.writeTargets a l).isEmpty = false →
      t.ivt = (s.enlargeEntry l (s.writeTargets a l) a).ivt) ∧
    (r.status ≠ .shared → (s.writeTargets a l).isEmpty = true →
      t.ivt = (if (s.liveEntry l).any (fun e => !(e.targets.erase a).isEmpty) then s.addCause l a else s).ivt) := by
  obtain ⟨hidle, -, henlarge, hcause⟩ := State.writeTracker_found (a := a) hr
  obtain ⟨w, hw, rfl⟩ := Option.map_eq_some_iff.1 ht
  refine ⟨fun hst he => ?_, fun hst he => ?_, fun hst he => ?_⟩
  · rw [hidle hst he] at hw
    cases hw
    rfl
  · rw [henlarge hst he] at hw
    cases hw
    rfl
  · rw [hcause hst he] at hw
    cases hw
    rfl

end

/-- Settles O21, from what the tracker's part is in each case. -/
theorem writeStepTakesItsTrackerPart : Obligations.WriteStepTakesItsTrackerPart := by
  refine ⟨fun a k l s => ⟨fun hr => ?_, fun r hr => State.writeTargets_iff hr k⟩, fun a l s hwf hr => ?_,
    fun a l s r hwf hr => ⟨fun ⟨hst, hne, hfull⟩ => ?_, fun hno => ?_⟩⟩
  · unfold State.writeTargets
    rw [hr]
    exact MasterSet.get_empty k
  · have hw : s.writeTracker a l = some s := by
      unfold State.writeTracker
      rw [hr]
    unfold State.writeStep
    rw [hw]
    exact congrArg some (State.updateRecord_of_absent hwf (DirectorySet.find_tag_none.1 hr) _)
  · exact State.writeStep_refused hr hst ((MasterSet.isEmpty_eq_false_iff _).2 hne) hfull
  · obtain ⟨t, ht⟩ := State.writeStep_isSome hr fun ⟨hst, hne, hfull⟩ =>
      hno ⟨hst, (MasterSet.isEmpty_eq_false_iff _).1 hne, hfull⟩
    obtain ⟨hbfe, hrgt, -, hwalker, hnotices, htimers, hpwq, hmlc, hmau, hmnc, hpins, hclk, hpending⟩ :=
      State.writeStep_work ht
    obtain ⟨hidle, henlarge, hcause⟩ := State.writeStep_ivt hr ht
    refine ⟨t, ht, State.writeStep_sets hwf hr ht, hwalker, hnotices, htimers, hbfe, hrgt, hpwq, hmlc, hmau, hmnc,
      hpins, hclk, hpending, fun hst hne => ?_, fun hnot => ?_, fun hst hnone => ?_, fun hst hne => ?_,
      fun e hst hnone he => ?_⟩
    · obtain ⟨w, hw, rfl⟩ := Option.map_eq_some_iff.1 ht
      rcases State.writeTracker_cases hr hw with ⟨hcontra, -⟩ | ⟨-, -, -, rfl⟩
      · exact absurd ⟨hst, (MasterSet.isEmpty_eq_false_iff _).2 hne⟩ hcontra
      · exact ⟨rfl, rfl⟩
    · obtain ⟨w, hw, rfl⟩ := Option.map_eq_some_iff.1 ht
      rcases State.writeTracker_cases hr hw with ⟨-, -, hrsa⟩ | ⟨hst, hne, -⟩
      · exact hrsa
      · exact absurd ⟨hst, (MasterSet.isEmpty_eq_false_iff _).1 hne⟩ hnot
    · exact hidle hst ((MasterSet.isEmpty_iff _).2 hnone)
    · rw [henlarge hst ((MasterSet.isEmpty_eq_false_iff _).2 hne)]
      rfl
    · rw [hcause hst ((MasterSet.isEmpty_iff _).2 hnone), he]
      have herase : (e.targets.erase a).isEmpty = false ↔ ∃ k, k ≠ a ∧ e.targets.get k = true := by
        simp only [MasterSet.isEmpty_eq_false_iff, MasterSet.get_erase]
        exact exists_congr fun k => by by_cases hk : k = a <;> simp [hk]
      refine ⟨fun hother => ?_, fun honly => ?_⟩
      · simp only [Option.any_some, herase.2 hother, Bool.not_false, if_true]
        rfl
      · have hempty : (e.targets.erase a).isEmpty = true := by
          rw [← Bool.not_eq_false, herase]
          exact fun ⟨k, hk, hget⟩ => hk (honly k hget)
        simp only [Option.any_some, hempty, Bool.not_true, Bool.false_eq_true, if_false]

end Sys2Proof.Machine
end

