-- ==== Sys2Proof/Proofs/ResetAndFrames.lean ====
section
/-! PROOFS. Chip reset, block by block and for every invariant (R30, R52, R73, R95, R115, R116, R123, R133, R165, R176,
R186), and the bytes of the GET-RECORD response (R29, R180, section 10.2). -/

namespace Sys2Proof.Machine

/-! ### Chip reset -/

theorem attachOfStrap_ne_isolated (fitted : Bool) : attachOfStrap fitted ≠ .isolated := by
  cases fitted <;> decide

theorem State.afterReset_attach (mpres mrst sreq : MasterSet) (mrdy spi : Bool) (clk : Nat) (pending : List Instr)
    (m : Master) :
    (State.afterReset mpres mrst sreq mrdy spi clk pending).mau.attach.get m = attachOfStrap (mpres.get m) := by
  cases m <;> rfl

/-- No master is ISOLATED and the error queue is empty, so ALERT_N is deasserted (R143). -/
theorem State.afterReset_alert (mpres mrst sreq : MasterSet) (mrdy spi : Bool) (clk : Nat) (pending : List Instr) :
    (State.afterReset mpres mrst sreq mrdy spi clk pending).alert = false := by
  have hfalse : ∀ m, ((State.afterReset mpres mrst sreq mrdy spi clk pending).mau.attach.get m == .isolated) = false :=
    fun m => by
      rw [State.afterReset_attach]
      exact beq_eq_false_iff_ne.2 (attachOfStrap_ne_isolated _)
  unfold State.alert State.anyIsolated
  rw [List.any_eq_false.2 fun m _ => Bool.eq_false_iff.1 (hfalse m)]
  rfl

/-- Settles O3: the state after chip reset is written out block by block. -/
theorem chipResetEmptiesEveryBlock : Obligations.ChipResetEmptiesEveryBlock := by
  unfold Obligations.ChipResetEmptiesEveryBlock
  intro mpres mrst s
  have hnone : ∀ (α : Type) (m : Master), (⟨none, none, none, none⟩ : PerMaster (Option α)).get m = none :=
    fun α m => by cases m <;> rfl
  refine ⟨_, rfl, rfl, hnone _, rfl, fun n => ?_, fun i => rfl, rfl, rfl, fun m => ?_, hnone _, rfl, rfl, hnone _, rfl,
    fun m => State.afterReset_attach .., fun m => ?_, rfl, rfl, rfl, rfl, State.afterReset_alert .., rfl, rfl, rfl, rfl,
    rfl, rfl⟩
  · simp [State.afterReset]
  · cases m <;> rfl
  · cases m <;> rfl

/-- Settles O54: the part after chip reset holds no request, no record and no entry. -/
theorem resetMeetsEveryInvariant : Obligations.ResetMeetsEveryInvariant := by
  unfold Obligations.ResetMeetsEveryInvariant
  have hslots : ∀ m, State.reset.rsa.slots.get m = none := fun m => by cases m <;> rfl
  have hrgt : ∀ n : Fin 8, State.reset.rgt[n] = none := fun n => by simp [State.reset, State.afterReset]
  have hcanonical : DirectoryCanonical State.reset := directoryCanonical_coherent.reset ..
  have hheld : CanonicalAndHeld [] State.reset := canonicalAndHeld_coherent.reset ..
  have hagrees : AgreesWith [] State.reset := agreesWith_coherent.reset ..
  refine ⟨?_, ?_, ?_, ?_, hcanonical, hheld.2, ?_, (trackerAgrees_iff _).2 hagrees, ?_⟩
  · refine ⟨by decide, fun _ => rfl, by decide, by decide, by decide, ?_⟩
    intro command frame hport
    exact absurd hport (by simp [State.reset, State.afterReset])
  · exact ⟨by decide, .nil, .nil, by decide, .nil, rfl, fun i hi => absurd hi List.not_mem_nil⟩
  · refine ⟨.nil, fun m => ?_, .nil, fun m hm => absurd hm (by simp [State.reset, State.afterReset])⟩
    rw [hslots m]
    exact ⟨fun hm => absurd hm List.not_mem_nil, fun hm => absurd rfl hm⟩
  · refine ⟨fun n r hr => ?_, fun n k _ r q hr => ?_, fun n => ⟨?_, fun hm => ?_⟩⟩
    · exact absurd hr (by simp [hrgt n])
    · exact absurd hr (by simp [hrgt n])
    · rintro ⟨r, hr, -⟩
      exact absurd hr (by simp [hrgt n])
    · exact absurd hm (by simp [State.reset, State.afterReset, Walker.idle])
  · refine ⟨fun m sl hm => ?_, fun e he => absurd he List.not_mem_nil, by decide, by decide⟩
    exact absurd hm (by simp [hslots m])
  · refine ⟨fun m hm => absurd hm (by simp [State.reset, State.afterReset]), .nil, fun m => ?_⟩
    rw [hslots m]
    refine ⟨⟨rfl, List.not_mem_nil, ?_⟩, fun r hr => absurd hr List.not_mem_nil⟩
    cases m <;> rfl

/-! ### The fields of a GET-RECORD response -/

theorem masterField_eq {ms : List Master} (h : ms.length ≤ 4) :
    masterField ms = (ms.map fun m => BitVec.ofNat 8 m.number) ++ List.replicate (4 - ms.length) 0xFF := by
  unfold masterField
  rw [List.take_append, List.take_of_length_le (by simpa using h), List.length_map]
  rw [show ([0xFF, 0xFF, 0xFF, 0xFF] : List Byte) = List.replicate 4 0xFF from rfl, List.take_replicate,
    Nat.min_eq_left (by omega)]
  rfl

theorem masterField_length (ms : List Master) : (masterField ms).length = 4 := by
  simp [masterField]

theorem pendingFields_length (ps : List PendingFill) : (pendingFields ps).length = 12 := by
  simp [pendingFields]

theorem MasterSet.toList_length_eq_countP (x : MasterSet) :
    x.toList.length = Master.all.countP fun m => x.get m := by
  rw [List.countP_eq_length_filter]
  rfl

theorem MasterSet.toList_length_le (x : MasterSet) : x.toList.length ≤ 4 :=
  List.length_filter_le _ Master.all

theorem pendingField_length (p : PendingFill) : (pendingField p).length = 3 := rfl

theorem pendingField_flatten_length (ps : List PendingFill) : (ps.map pendingField).flatten.length = 3 * ps.length := by
  induction ps with
  | nil => rfl
  | cons p ps ih => simp [ih, pendingField_length, Nat.mul_succ, Nat.add_comm]

theorem pendingFields_drop_take (ps : List PendingFill) {k : Nat} (hk : k < 4) :
    ((pendingFields ps).drop (3 * k)).take 3 =
      (((ps.map pendingField).flatten ++ List.replicate 12 0xFF).drop (3 * k)).take 3 := by
  unfold pendingFields
  rw [List.drop_take, List.take_take, Nat.min_eq_left (by omega)]

/-- Pending item k stands at the bytes from 3 k on. -/
theorem pendingFields_item (ps : List PendingFill) {k : Nat} (hk : k < 4) {p : PendingFill} (hp : ps[k]? = some p) :
    ((pendingFields ps).drop (3 * k)).take 3 = pendingField p := by
  obtain ⟨hlt, hp⟩ := List.getElem?_eq_some_iff.1 hp
  have hsplit : ps = ps.take k ++ p :: ps.drop (k + 1) := by
    rw [← hp, List.cons_getElem_drop_succ, List.take_append_drop]
  have hlen : ((ps.take k).map pendingField).flatten.length = 3 * k := by
    rw [pendingField_flatten_length, List.length_take, Nat.min_eq_left (Nat.le_of_lt hlt)]
  rw [pendingFields_drop_take ps hk, hsplit, List.map_append, List.flatten_append, List.append_assoc, ← hlen,
    List.drop_left]
  rfl

/-- Where there is no item k the bytes are 0xFF. -/
theorem pendingFields_free {ps : List PendingFill} {k : Nat} (hk : k < 4) (h : ps.length ≤ k) :
    ((pendingFields ps).drop (3 * k)).take 3 = [0xFF, 0xFF, 0xFF] := by
  rw [pendingFields_drop_take ps hk, List.drop_append, pendingField_flatten_length,
    List.drop_of_length_le (by rw [pendingField_flatten_length]; omega), List.nil_append, List.drop_replicate,
    List.take_replicate, Nat.min_eq_left (by omega)]
  rfl

/-! ### The response as a whole -/

def statusByte (r : LineRecord) : Byte :=
  match r.status with
  | .shared => 1
  | .invalidating => 2
  | .evicting _ => 3

/-- Bytes 25 to 34: the successor with its claimants (R180). -/
def successorFields (set : Nat) (su : Option Successor) : List Byte :=
  match su with
  | some su =>
    1 :: bytes4 (addrOfLine (lineOfTag su.tag set)) ++ byteOfNat su.claimants.length :: masterField su.claimants
  | none => [0, 0, 0, 0, 0, 0, 0xFF, 0xFF, 0xFF, 0xFF]

theorem successorFields_length (set : Nat) (su : Option Successor) : (successorFields set su).length = 10 := by
  cases su <;> simp [successorFields, bytes4, masterField_length]

/-- The head of the response: its status and the line with its state. -/
theorem recordFrame_eq (set rank : Nat) (r : LineRecord) :
    recordFrame set (some (r, rank)) = statusOk :: statusByte r :: (bytes4 (addrOfLine (lineOfTag r.tag set)) ++
      byteOfNat r.sharers.toList.length :: (masterField r.sharers.toList ++ byteOfNat r.pending.length ::
        (pendingFields r.pending ++ byteOfNat rank :: successorFields set r.successor))) := by
  obtain ⟨way, tag, status, sharers, pending⟩ := r
  cases status with
  | shared => simp [recordFrame, statusByte, LineRecord.successor, successorFields]; decide
  | invalidating => simp [recordFrame, statusByte, LineRecord.successor, successorFields]; decide
  | evicting su =>
    cases su with
    | none => simp [recordFrame, statusByte, LineRecord.successor, successorFields]; decide
    | some u => simp [recordFrame, statusByte, LineRecord.successor, successorFields]

theorem recordFrame_drop_sharers (set rank : Nat) (r : LineRecord) :
    (recordFrame set (some (r, rank))).drop 7 = masterField r.sharers.toList ++ byteOfNat r.pending.length ::
      (pendingFields r.pending ++ byteOfNat rank :: successorFields set r.successor) := by
  rw [recordFrame_eq]
  rfl

theorem recordFrame_drop_pendingCount (set rank : Nat) (r : LineRecord) :
    (recordFrame set (some (r, rank))).drop 11 = byteOfNat r.pending.length ::
      (pendingFields r.pending ++ byteOfNat rank :: successorFields set r.successor) := by
  rw [show 11 = 7 + 4 from rfl, ← List.drop_drop, recordFrame_drop_sharers, List.drop_left' (masterField_length _)]

theorem recordFrame_drop_pending (set rank : Nat) (r : LineRecord) :
    (recordFrame set (some (r, rank))).drop 12 =
      pendingFields r.pending ++ byteOfNat rank :: successorFields set r.successor := by
  rw [show 12 = 11 + 1 from rfl, ← List.drop_drop, recordFrame_drop_pendingCount]
  rfl

theorem recordFrame_drop_rank (set rank : Nat) (r : LineRecord) :
    (recordFrame set (some (r, rank))).drop 24 = byteOfNat rank :: successorFields set r.successor := by
  rw [show 24 = 12 + 12 from rfl, ← List.drop_drop, recordFrame_drop_pending,
    List.drop_left' (pendingFields_length _)]

theorem recordFrame_drop_successor (set rank : Nat) (r : LineRecord) :
    (recordFrame set (some (r, rank))).drop 25 = successorFields set r.successor := by
  rw [show 25 = 24 + 1 from rfl, ← List.drop_drop, recordFrame_drop_rank]
  rfl

theorem recordFrame_length (set rank : Nat) (r : LineRecord) : (recordFrame set (some (r, rank))).length = 35 := by
  simp [recordFrame_eq, bytes4, masterField_length, pendingFields_length, successorFields_length]

/-- The bytes of pending item k, as the pending fields have them. -/
theorem recordFrame_item (set rank : Nat) (r : LineRecord) {k : Nat} (hk : k < 4) :
    ((recordFrame set (some (r, rank))).drop (12 + 3 * k)).take 3 =
      ((pendingFields r.pending).drop (3 * k)).take 3 := by
  have hlen := pendingFields_length r.pending
  rw [← List.drop_drop, recordFrame_drop_pending, List.drop_append_of_le_length (by omega),
    List.take_append_of_le_length (by rw [List.length_drop]; omega)]

theorem pendingField_eq (p : PendingFill) : pendingField p = [BitVec.ofNat 8 p.master.number,
    if p.phase = .waiting then 0 else 1, if p.spoiled = true then 1 else 0] := by
  unfold pendingField
  cases p.phase <;> rfl

/-- Settles O48, by what is left of the frame after each of its fields. -/
theorem recordFrameHasItsLayout : Obligations.RecordFrameHasItsLayout := by
  unfold Obligations.RecordFrameHasItsLayout
  refine ⟨fun set => rfl, ?_⟩
  rintro set rank r frame rfl - hclaimants
  have hbyte : ∀ n, (recordFrame set (some (r, rank)))[n]? = ((recordFrame set (some (r, rank))).drop n)[0]? :=
    fun n => by rw [List.getElem?_drop, Nat.add_zero]
  have hstatus : (recordFrame set (some (r, rank)))[1]? = some (statusByte r) := by
    rw [recordFrame_eq]
    rfl
  refine ⟨recordFrame_length .., ?_, fun h => ?_, fun h => ?_, fun su h => ?_, ?_, ?_, ?_, ?_,
    fun k hk => ⟨fun p hp => ?_, fun h => ?_⟩, ?_, fun h => ?_, fun su h => ?_⟩
  · rw [recordFrame_eq]
    rfl
  · rw [hstatus, statusByte, h]
  · rw [hstatus, statusByte, h]
  · rw [hstatus, statusByte, h]
  · rw [recordFrame_eq]
    rfl
  · rw [recordFrame_eq, ← MasterSet.toList_length_eq_countP]
    rfl
  · rw [recordFrame_drop_sharers, List.take_left' (masterField_length _), masterField_eq (MasterSet.toList_length_le _),
      MasterSet.toList_length_eq_countP]
    rfl
  · rw [hbyte, recordFrame_drop_pendingCount]
    rfl
  · rw [recordFrame_item set rank r hk, pendingFields_item r.pending hk hp, pendingField_eq]
  · rw [recordFrame_item set rank r hk, pendingFields_free hk h]
  · rw [hbyte, recordFrame_drop_rank]
    rfl
  · rw [recordFrame_drop_successor, h]
    rfl
  · rw [recordFrame_drop_successor, h, successorFields, masterField_eq (hclaimants su h)]
    rfl

end Sys2Proof.Machine
end

