-- ==== Sys2Proof/Proofs/LinkReads.lean ====
section
/-! SUPPORT and PROOFS. The issue of a read and the completion of a part of a fill (R16 to R18, R61, R68, R89, R168 to
R170, R173, R174). -/

namespace Sys2Proof.Machine

/-! ### The choice of an issue event -/

theorem State.freeTag_eq_some {s : State} {t : BitVec 2} (h : s.LowestFreeTag t) : s.freeTag = some t := by
  have hrising : ([0, 1, 2, 3] : List (BitVec 2)).Pairwise (· < ·) := by decide
  have hall : ∀ t : BitVec 2, t ∈ ([0, 1, 2, 3] : List (BitVec 2)) := by decide
  obtain ⟨hfree, hlow⟩ := h
  obtain ⟨lower, higher, hsplit⟩ := List.append_of_mem (hall t)
  refine List.find?_eq_some_iff_append.2 ⟨by simpa using hfree, lower, higher, hsplit, fun u hu => ?_⟩
  rw [hsplit, List.pairwise_append] at hrising
  obtain ⟨i, hi, hiu⟩ := hlow u (hrising.2.2 u hu t List.mem_cons_self)
  rw [Bool.not_not, List.any_eq_true]
  exact ⟨i, hi, beq_iff_eq.2 hiu⟩

theorem Slot.eligible_iff (sl : Slot) : sl.eligible = true ↔ sl.phase = .held ∧ sl.waits = WaitReasons.none := by
  simp [Slot.eligible]

/-- What the search for a candidate finds at one master. -/
theorem State.eligible_at (s : State) (kind : SlotRequest → Bool) (m : Master) :
    (s.EligibleFor kind m → ∀ sl, s.rsa.slots.get m = some sl → sl.eligible && kind sl.request) ∧
    (¬ s.EligibleFor kind m → ∀ sl, s.rsa.slots.get m = some sl → (sl.eligible && kind sl.request) = false) := by
  refine ⟨?_, fun hno sl hsl => ?_⟩
  · rintro ⟨sl', hsl', hphase, hwaits, hkind⟩ sl hsl
    cases hsl'.symm.trans hsl
    rw [Bool.and_eq_true, Slot.eligible_iff]
    exact ⟨⟨hphase, hwaits⟩, hkind⟩
  · rw [Bool.eq_false_iff]
    intro hyes
    rw [Bool.and_eq_true, Slot.eligible_iff] at hyes
    obtain ⟨⟨hphase, hwaits⟩, hkind⟩ := hyes
    exact hno ⟨sl, hsl, hphase, hwaits, hkind⟩

theorem State.oldestEligible_none {s : State} {kind : SlotRequest → Bool} (h : s.NoneEligible kind) :
    s.oldestEligible kind = none := by
  refine List.findSome?_eq_none_iff.2 fun m hm => ?_
  cases hsl : s.rsa.slots.get m with
  | none => rfl
  | some sl => simp [(s.eligible_at kind m).2 (h m hm) sl hsl]

theorem State.oldestEligible_some {s : State} {kind : SlotRequest → Bool} {m : Master} {sl : Slot}
    (h : FirstIn s.rsa.order (s.EligibleFor kind) m) (hsl : s.rsa.slots.get m = some sl) :
    s.oldestEligible kind = some (m, sl.request) := by
  obtain ⟨helig, before, after, horder, hbefore⟩ := h
  refine List.findSome?_eq_some_iff.2 ⟨before, m, after, horder, ?_, fun k hk => ?_⟩
  · simp [hsl, (s.eligible_at kind m).1 helig sl hsl]
  · cases hslk : s.rsa.slots.get k with
    | none => rfl
    | some x => simp [(s.eligible_at kind k).2 (hbefore k hk) x hslk]

/-- With no continuation and no unposted write the oldest eligible read is the choice (R169). -/
theorem State.issueChoice_read {s : State} {m : Master} {sl : Slot} (hc : s.mlc.continuations = [])
    (hu : s.NoneEligible SlotRequest.isUnpostedWrite) (hr : FirstIn s.rsa.order (s.EligibleFor SlotRequest.isRead) m)
    (hsl : s.rsa.slots.get m = some sl) : s.issueChoice = some (.read m sl.request) := by
  unfold State.issueChoice
  rw [hc, State.oldestEligible_none hu, State.oldestEligible_some hr hsl]
  rfl

/-- The state in which an issue event with MRDY asserted makes its choice (R169). -/
def State.seesReady (s : State) : State := s.atEvent.withPins { s.atEvent.pins with mrdy := true }

/-- An issue event that finds a tag and a candidate (R169). -/
theorem exec_issueEvent_of_choice {s : State} {t : BitVec 2} {c : Candidate} (ht : s.CanIssue t)
    (hc : s.issueChoice = some c) :
    exec (.issueEvent true) s = .next (State.tellWalker s.seesReady (s.seesReady.issue t c)) := by
  obtain ⟨hroom, htag⟩ := ht
  have htag : s.seesReady.freeTag = some t := State.freeTag_eq_some htag
  have hc : s.seesReady.issueChoice = some c := hc
  unfold State.seesReady at htag hc ⊢
  show execIssueEvent true s = _
  unfold execIssueEvent
  dsimp only
  rw [if_pos ⟨hroom, rfl⟩, htag, hc]

/-- What the issue of any read changes (R61, R89). -/
theorem State.readIssued_eq {s : State} {m : Master} {sl : Slot} (h : s.rsa.slots.get m = some sl) :
    s.readIssued m = { s with
      pwq := raiseCounts s.pwq
      rsa := (s.rsa.withSlot m { sl with phase := .issued }).refreshed (raiseCounts s.pwq) s.mnc.bypassLimit } := by
  unfold State.readIssued State.slotIssued
  rw [State.modifySlot_eq h]
  rfl

/-- The walker looks only at the directory's sets as they stood before. -/
theorem State.tellWalker_congr {before before' : State} (h : before'.pdr.sets = before.pdr.sets) (s : State) :
    State.tellWalker before' s = State.tellWalker before s := by
  unfold State.tellWalker
  rw [h]

/-- Settles O28, by the choice and then the request's kind. -/
theorem readIssuesThird : Obligations.ReadIssuesThird := by
  rintro t m sl s issued raised hcan hcont hunposted hfirst hsl rfl rfl
  have hexec := exec_issueEvent_of_choice hcan (State.issueChoice_read hcont hunposted hfirst hsl)
  have hissued := State.readIssued_eq (s := s.seesReady) hsl
  obtain ⟨phase, request, waits, arrived, told⟩ := sl
  refine ⟨fun w p hq => ?_, fun w p hq => ?_, fun l p hq => ?_, fun l p hq hwf => ?_⟩ <;> cases hq
  · rw [hexec, State.issue, State.issueRead, hissued]
    exact congrArg _ (State.tellWalker_of_same rfl)
  · rw [hexec, State.issue, State.issueRead, hissued]
    exact congrArg _ (State.tellWalker_of_same rfl)
  · rw [hexec, State.issue, State.issueRead, hissued]
    exact congrArg _ (State.tellWalker_of_same rfl)
  · refine ⟨(State.fillIssued m l s).pdr.sets, ?_, State.updateRecord_get hwf _ _⟩
    rw [hexec, State.issue, State.issueRead, hissued]
    exact congrArg _ (State.tellWalker_congr rfl _)

/-! ### The completion of a part of a fill -/

@[simp] theorem lineOfWord_wordOfLine (l : LineAddr) (k : Nat) : lineOfWord (wordOfLine l k) = l := by
  unfold lineOfWord wordOfLine
  exact BitVec.extractLsb'_append_eq_left

/-- A record offered to the error queue (R182, R184). -/
theorem State.pushError_eq (kind : ErrorKind) (m : Master) (address : Option Addr) (s : State) :
    s.pushError kind m address = { s with mnc := s.mnc.offered kind m address } := by
  unfold State.pushError Mnc.offered
  split
  · rw [if_pos ‹_›]
    rfl
  · rw [if_neg ‹_›]
    rfl

/-- A reply of a master's slot (R69, R154). -/
theorem State.makeReply_eq {s : State} {m : Master} {sl : Slot} (h : s.rsa.slots.get m = some sl) (a : Answer) :
    s.makeReply m a = { s with
      rsa := s.rsa.withSlot m (Slot.answered sl.request a), bfe := s.bfe.answering m a } := by
  unfold State.makeReply
  rw [State.modifySlot_eq h]
  rfl

/-- The completion of a line read of m goes to its assembly (R173). -/
theorem exec_mrlCompletion_of_line {c : CompletionLines} {i : InFlight} {m : Master} {rest : List InFlight} {s : State}
    (hlist : s.mlc.inFlight = i :: rest) (hdiscard : i.discard = false)
    (horigin : i.origin = .read m ∨ i.origin = .continuation m) (hkind : i.kind = .rdLine ∨ i.kind = .rdRest) :
    exec (.mrlCompletion c) s = .next (State.tellWalker s.atEvent
      ((s.atEvent.withMlc { s.mlc with inFlight := rest }).lineReadEnds m (wordsAsked i.kind i.word)
        (completionStatus i.kind i.word c) c)) := by
  have hlist : s.atEvent.mlc.inFlight = i :: rest := hlist
  have hword : i.kind ≠ .rdWord := by rcases hkind with h | h <;> simp [h]
  show execMrlCompletion c s = _
  unfold execMrlCompletion
  simp only [hlist, hdiscard]
  rw [if_neg (by decide)]
  unfold State.handOver
  rcases horigin with h | h <;> rw [h] <;> simp only [if_neg hword] <;> rfl

theorem State.lineReadEnds_eq {s : State} {m : Master} {a : Assembly} (ha : s.mlc.assemblies.get m = some a)
    (asked : Nat) (c : CompletionLines) :
    (∀ n, s.lineReadEnds m asked (.short n) c = { s with
      mlc := ⟨s.mlc.inFlight, s.mlc.assemblies.set m (some { a with words := a.words ++ c.mrd.toList.take n }),
        s.mlc.continuations ++ [m]⟩ }) ∧
    s.lineReadEnds m asked .ok c = s.fillEnds m a (a.words ++ c.mrd.toList.take asked) ∧
    s.lineReadEnds m asked .fail c = s.fillFails m a := by
  unfold State.lineReadEnds
  rw [ha]
  exact ⟨fun _ => rfl, rfl, rfl⟩

/-- Settles O34, by the status of the completion and the mode of the fill. -/
theorem lineReadCompletes : Obligations.LineReadCompletes := by
  rintro c i m rest sl a s left hlist hdiscard horigin hkind hsl ha rfl
  have hexec := exec_mrlCompletion_of_line (c := c) hlist hdiscard horigin hkind
  obtain ⟨hshort, hok, hfail⟩ := State.lineReadEnds_eq (s := s.atEvent.withMlc { s.mlc with inFlight := rest }) ha
    (wordsAsked i.kind i.word) c
  have hreply : ∀ (u : State) (x : Answer), u.rsa = s.rsa → u.makeReply m x = { u with
      rsa := u.rsa.withSlot m (Slot.answered sl.request x), bfe := u.bfe.answering m x } :=
    fun u x hu => State.makeReply_eq (hu ▸ hsl) x
  refine ⟨fun n hst => ?_, fun hst ws hws => ⟨fun hmode => ?_, fun hmode => ?_⟩, fun hst => ?_⟩
  · rw [hexec, hst, hshort]
    exact congrArg _ (State.tellWalker_of_same rfl)
  · rw [hexec, hst, hok, ← hws, State.fillEnds, hmode]
    dsimp only
    rw [hreply]
    · exact congrArg _ (State.tellWalker_of_same rfl)
    · rfl
  · rw [hexec, hst, hok, ← hws, State.fillEnds, hmode]
    dsimp only
    rw [hreply] <;> rfl
  · rw [hexec, hst, hfail, State.fillFails, State.recordFailure, lineOfWord_wordOfLine, State.pushError_eq]
    dsimp only
    split
    · rw [hreply] <;> rfl
    · rw [hreply] <;> rfl

end Sys2Proof.Machine
end

