-- ==== Sys2Proof/Proofs/Completions.lean ====
section
/-! SUPPORT and PROOFS. What the completion of a tracker entry reports to the slots, the walker and the tracker (R36,
R45, R67, R128). -/

namespace Sys2Proof.Machine

/-! ### New entries of the tracker -/

/-- An EVICT entry as a fill lookup makes it: no message sent, and no write its cause (R15, R33). -/
def TrackerEntry.NewEvict (e : TrackerEntry) : Prop :=
  e.kind = .evict ∧ e.sent = MasterSet.empty ∧ e.acked = MasterSet.empty ∧ e.causes = MasterSet.empty

/-- The tracker of t is that of s with new EVICT entries at the young end. -/
def State.Evicts (s t : State) : Prop :=
  ∃ younger, t.ivt.entries = s.ivt.entries ++ younger ∧ ∀ e ∈ younger, e.NewEvict

theorem State.Evicts.of_same {s t : State} (h : t.ivt.entries = s.ivt.entries) : s.Evicts t :=
  ⟨[], by rw [h, List.append_nil], fun e he => absurd he List.not_mem_nil⟩

theorem State.Evicts.trans {s t u : State} (h : s.Evicts t) (k : t.Evicts u) : s.Evicts u := by
  obtain ⟨ys, hys, hnew⟩ := h
  obtain ⟨zs, hzs, hnewer⟩ := k
  refine ⟨ys ++ zs, by rw [hzs, hys, List.append_assoc], fun e he => ?_⟩
  exact (List.mem_append.1 he).elim (hnew e) (hnewer e)

theorem State.fillLookup_evicts (m : Master) (l : LineAddr) (s : State) : s.Evicts (s.fillLookup m l).1 := by
  refine State.fillLookup_elim (P := s.Evicts) m l s (.of_same rfl) (fun _ _ _ _ => .of_same rfl) (.of_same rfl)
    (fun _ _ _ => .of_same rfl) (fun _ _ _ _ => .of_same rfl) fun v _ u _ _ _ _ hu => ?_
  obtain ⟨hroom, -⟩ := State.createEntry_some hu
  rw [State.createEntry_eq _ _ _ _ _ hroom] at hu
  cases hu
  refine ⟨_, rfl, fun e he => ?_⟩
  rw [List.mem_singleton.1 he]
  exact ⟨rfl, rfl, rfl, rfl⟩

theorem State.releaseFill_evicts (l : LineAddr) (s : State) (m : Master) : s.Evicts (s.releaseFill l m) := by
  unfold State.releaseFill
  split
  · split
    · split
      · split
        · exact (State.fillLookup_evicts m l s).trans (.of_same rfl)
        · exact .of_same rfl
      · exact .of_same rfl
    · exact .of_same rfl
  · exact .of_same rfl

/-- The fills released from a line may evict other lines (R11, R65). -/
theorem State.releaseLine_evicts (l : LineAddr) (s : State) : s.Evicts (s.releaseLine l) :=
  foldl_holds _ s.Evicts (fun _ _ h => h.trans (State.releaseFill_evicts l _ _)) _ s (.of_same rfl)

theorem State.completeAtDirectory_ivt {e : TrackerEntry} (hk : e.kind ≠ .write) (s : State) :
    (s.completeAtDirectory e).ivt = s.ivt := by
  unfold State.completeAtDirectory
  split
  · exact absurd ‹_› hk
  all_goals
    dsimp only
    split
    · rfl
    · split
      · rfl
      · rw [(State.endWayWait_alike _ _ _).2.1]
        rfl

theorem State.completeAtDirectory_evictsNew (e : TrackerEntry) (s : State) : s.Evicts (s.completeAtDirectory e) := by
  by_cases hk : e.kind = .write
  · rw [State.completeAtDirectory_write hk]
    exact State.releaseLine_evicts e.line (s.updateRecord e.line _)
  · exact .of_same (congrArg Ivt.entries (State.completeAtDirectory_ivt hk s))

/-! ### The walker and the waiters told -/

/-- A walker paused with NO_ENTRY is told of a free entry (R36, R127). -/
def Walker.toldOfEntry (w : Walker) : Walker :=
  { w with pause := w.pause.map fun p => if p.reason = .noEntry then { p with ended := true } else p }

theorem State.tellFreeEntry_eq (s : State) :
    s.tellFreeEntry = (s.modifyHeld fun _ sl =>
      if sl.waits.trackerWait then { sl with freeEntryTold := true } else sl).withWalker s.pdr.walker.toldOfEntry := by
  obtain ⟨bfe, rsa, rgt, ⟨sets, ⟨mode, set, visited, pause, outstanding, draining⟩⟩, ivt, pwq, mlc, mau, mnc, pins, clk,
    pending⟩ := s
  cases pause with
  | none => rfl
  | some p =>
    unfold State.tellFreeEntry Walker.toldOfEntry
    dsimp only [State.modifyHeld, State.withRsa]
    split
    · rename_i hp
      rw [Option.map_some, if_pos hp]
      rfl
    · rename_i hp
      rw [Option.map_some, if_neg hp]
      rfl

/-- The walk with a WALK entry counted: a draining walk ends with its last one (R128). -/
def Walker.counted (w : Walker) : Walker :=
  if w.draining = true ∧ w.outstanding - 1 = 0 ∧ w.mode ≠ .idle then Walker.idle
  else { w with outstanding := w.outstanding - 1 }

/-- The region that the end of a retiring walk frees (R122, R128). -/
def Walker.freesRegion (w : Walker) : Option (Fin 8) :=
  match w.mode with
  | .retiring n => if w.draining = true ∧ w.outstanding - 1 = 0 then some n else none
  | .idle | .sweeping => none

theorem State.countWalkEntry_eq (s : State) :
    s.countWalkEntry = { s with
      rgt := (s.pdr.walker.freesRegion.map fun n => s.rgt.set n.val none).getD s.rgt
      pdr := { s.pdr with walker := s.pdr.walker.counted } } := by
  obtain ⟨bfe, rsa, rgt, ⟨sets, ⟨mode, set, visited, pause, outstanding, draining⟩⟩, ivt, pwq, mlc, mau, mnc, pins, clk,
    pending⟩ := s
  unfold State.countWalkEntry State.endWalkIfDone Walker.freesRegion Walker.counted
  dsimp only [State.withWalker, State.withPdr]
  by_cases hdone : draining = true ∧ outstanding - 1 = 0
  · obtain ⟨rfl, hlast⟩ := hdone
    cases mode with
    | idle => simp
    | sweeping => simp [hlast]
    | retiring n => simp [hlast, State.withRgt]
  · have hno : (draining && outstanding - 1 == 0) = false := by simpa using hdone
    have hnot : ∀ p : Prop, ¬ (draining = true ∧ outstanding - 1 = 0 ∧ p) := fun p h => hdone ⟨h.1, h.2.1⟩
    cases mode with
    | idle => simp
    | sweeping => simp only [hno, if_neg (hnot _)]; rfl
    | retiring n => simp only [hno, if_neg (hnot _), if_neg hdone]; rfl

/-- A walk that is not draining, or has entries left, goes on (R128). -/
theorem Walker.counted_of_open {w : Walker} (h : w.draining = false ∨ w.outstanding - 1 ≠ 0 ∨ w.mode = .idle) :
    w.counted = { w with outstanding := w.outstanding - 1 } ∧ w.freesRegion = none := by
  unfold Walker.counted Walker.freesRegion
  refine ⟨if_neg fun hdone => ?_, ?_⟩
  · obtain ⟨hd, hlast, hm⟩ := hdone
    exact (h.resolve_left (by simp [hd])).elim (fun hne => hne hlast) hm
  · split
    · rename_i n hm
      refine if_neg fun hdone => ?_
      exact (h.resolve_left (by simp [hdone.1])).elim (fun hne => hne hdone.2) (by simp [hm])
    · rfl
    · rfl

/-- The state with an entry of a kind counted, if it is a WALK entry (R128). -/
def State.counted (kind : EntryKind) (s : State) : State := if kind = .walk then s.countWalkEntry else s

/-- The count looks at the walker alone, so the slots told before it are as the slots told after it. -/
theorem State.counted_withRsa (kind : EntryKind) (s : State) (a : Rsa) :
    ({ s with rsa := a } : State).counted kind = { s.counted kind with rsa := a } := by
  unfold State.counted
  split
  · rw [State.countWalkEntry_eq, State.countWalkEntry_eq]
  · rfl

theorem State.counted_frame (kind : EntryKind) (s : State) :
    s.counted kind = { s with
      rgt := (s.counted kind).rgt, pdr := { s.pdr with walker := (s.counted kind).pdr.walker } } := by
  unfold State.counted
  split
  · rw [State.countWalkEntry_eq]
  · rfl

/-- The completion of an entry, from what the directory leaves: the walk is counted, and the slots and the walker are
told (R36, R45, R67, R128). -/
theorem State.completeEntry_reported (e : TrackerEntry) (s : State) :
    s.completeEntry e = { ((s.withoutEntry e).completeAtDirectory e).counted e.kind with
      rsa := ((s.withoutEntry e).completeAtDirectory e).rsa.completionTold e.line (decide (16 ≤ s.ivt.entries.length))
      pdr := ⟨((s.withoutEntry e).completeAtDirectory e).pdr.sets,
        if 16 ≤ s.ivt.entries.length then
          (((s.withoutEntry e).completeAtDirectory e).counted e.kind).pdr.walker.toldOfEntry
        else (((s.withoutEntry e).completeAtDirectory e).counted e.kind).pdr.walker⟩ } := by
  rw [State.completeEntry_eq]
  change (if s.trackerFull then
    State.tellFreeEntry ((((s.withoutEntry e).completeAtDirectory e).lockReadsReleased e.line).counted e.kind)
    else (((s.withoutEntry e).completeAtDirectory e).lockReadsReleased e.line).counted e.kind) = _
  generalize (s.withoutEntry e).completeAtDirectory e = moved
  have hframe := State.counted_frame e.kind moved
  have hrsa : (moved.counted e.kind).rsa = moved.rsa := by rw [hframe]
  have hsets : (moved.counted e.kind).pdr.sets = moved.pdr.sets := by rw [hframe]
  have hlater : (moved.lockReadsReleased e.line).counted e.kind = (moved.counted e.kind).lockReadsReleased e.line := by
    rw [State.lockReadsReleased_eq, State.lockReadsReleased_eq, State.counted_withRsa, hrsa]
  rw [hlater]
  by_cases hfull : 16 ≤ s.ivt.entries.length
  · rw [if_pos (show s.trackerFull = true from decide_eq_true hfull), decide_eq_true hfull, if_pos hfull,
      State.tellFreeEntry_eq, State.lockReadsReleased_told, ← hrsa, ← hsets]
    rfl
  · rw [if_neg (show ¬ s.trackerFull = true from fun h => hfull (of_decide_eq_true h)), decide_eq_false hfull,
      if_neg hfull, State.lockReadsReleased_eq, ← hrsa, ← hsets]

/-- The pause of a walker that may be told of a free entry (R36). -/
theorem Walker.toldOfEntry_eq (w : Walker) (full : Prop) [Decidable full] :
    (if full then w.toldOfEntry else w) = { w with
      pause := if full then w.pause.map fun p => if p.reason = .noEntry then { p with ended := true } else p
        else w.pause } := by
  split <;> rfl

/-- Settles O39, from the report of a completion and what the count of a WALK entry is. -/
theorem completionIsReported : Obligations.CompletionIsReported := by
  refine ⟨fun _ _ => rfl, ?_⟩
  rintro e s moved t told rfl hmoved htold
  have hmoved : moved = (s.withoutEntry e).completeAtDirectory e := hmoved
  have hreported := State.completeEntry_reported e s
  have hkeeps := State.completeEntry_keeps s e
  have hwork := State.completeAtDirectory_work e (s.withoutEntry e)
  rw [← hmoved] at hreported hwork
  obtain ⟨-, hrgt, -, hwalker, -⟩ := hwork
  have hentries : (s.completeEntry e).ivt.entries = moved.ivt.entries := by
    rw [hreported, State.counted_frame]
  have hregions : (s.completeEntry e).rgt = (moved.counted e.kind).rgt := by rw [hreported]
  have htoldWalker : (s.completeEntry e).pdr.walker = { (moved.counted e.kind).pdr.walker with
      pause := if 16 ≤ s.ivt.entries.length then (moved.counted e.kind).pdr.walker.pause.map fun p =>
          if p.reason = .noEntry then { p with ended := true } else p
        else (moved.counted e.kind).pdr.walker.pause } := by
    rw [hreported, ← Walker.toldOfEntry_eq]
  have hwalker : moved.pdr.walker = s.pdr.walker := hwalker
  have hrgt : moved.rgt = s.rgt := hrgt
  refine ⟨?_, hkeeps.2.1, hkeeps.2.2.1, hkeeps.2.2.2.1, fun hk => ?_, fun hk => ?_, fun hk => ?_, fun hk => ?_⟩
  · rw [hreported, State.counted_frame]
  · rw [hentries, hmoved, State.completeAtDirectory_ivt hk]
    rfl
  · obtain ⟨younger, hy, hnew⟩ := hmoved ▸ State.completeAtDirectory_evictsNew e (s.withoutEntry e)
    exact ⟨younger, hentries.trans hy, fun k hk => (hnew k hk).1⟩
  · have hcounted : moved.counted e.kind = moved := if_neg hk
    rw [htoldWalker, hregions, hcounted, hwalker, htold]
    exact ⟨rfl, hrgt⟩
  · have hcounted : moved.counted e.kind = moved.countWalkEntry := if_pos hk
    rw [htoldWalker, hregions, hcounted, State.countWalkEntry_eq, hwalker, hrgt, htold]
    refine ⟨fun h => ?_, fun hd hlast => ⟨fun hm => ?_, fun hm => ?_, fun n hm => ?_⟩⟩
    · obtain ⟨hcount, hnone⟩ := Walker.counted_of_open h
      rw [hcount, hnone]
      exact ⟨rfl, rfl⟩
    · rw [Walker.counted, if_pos ⟨hd, hlast, hm⟩]
      split <;> rfl
    · rw [Walker.freesRegion, hm]
      rfl
    · rw [Walker.freesRegion, hm]
      dsimp only
      rw [if_pos ⟨hd, hlast⟩]
      rfl

end Sys2Proof.Machine
end

