-- ==== Sys2Proof/Proofs/Departures.lean ====
section
/-! SUPPORT and PROOFS. What the passage of a master to ISOLATED or IN_RESET leaves (R26, R27, R46, R135, R136,
R140). -/

namespace Sys2Proof.Machine

/-! ### A directory that a master is free of -/

/-- m is no sharer and no claimant of the record. -/
def LineRecord.FreeOf (m : Master) (r : LineRecord) : Prop :=
  r.sharers.get m = false ∧ ∀ su, r.successor = some su → m ∉ su.claimants

/-- No record that the directory lists, in canonical form or not, holds m. -/
def Directory.FreeOf (m : Master) (d : Directory) : Prop := ∀ p ∈ d, ∀ r ∈ p.2, r.FreeOf m

section
variable {m : Master} {d : Directory}

theorem LineRecord.FreeOf.of_successor {r q : LineRecord} (h : r.FreeOf m) (hs : q.sharers = r.sharers)
    (hsu : ∀ su, q.successor = some su → m ∉ su.claimants) : q.FreeOf m := ⟨hs ▸ h.1, hsu⟩

theorem LineRecord.freeOf_installed (w : Way) (t : Tag) (ms : List Master) : (LineRecord.installed w t ms).FreeOf m :=
  ⟨MasterSet.get_empty m, fun _ h => absurd h (by simp)⟩

theorem Directory.FreeOf.get (h : d.FreeOf m) (i : Nat) : ∀ r ∈ d.get i, r.FreeOf m := by
  induction d with
  | nil => exact fun r hr => absurd hr List.not_mem_nil
  | cons p d ih =>
    obtain ⟨k, v⟩ := p
    rw [Directory.get_cons]
    split
    · exact h _ List.mem_cons_self
    · exact ih fun p hp => h p (List.mem_cons_of_mem _ hp)

theorem Directory.FreeOf.put (h : d.FreeOf m) (i : Nat) {v : DirectorySet} (hv : ∀ r ∈ v, r.FreeOf m) :
    (d.put i v).FreeOf m := by
  have hnew : ∀ d : Directory, d.FreeOf m → Directory.FreeOf m (if v.isEmpty then d else (i, v) :: d) := by
    intro d hd
    split
    · exact hd
    · exact List.forall_mem_cons.2 ⟨hv, hd⟩
  induction d with
  | nil => exact hnew [] h
  | cons p d ih =>
    obtain ⟨k, u⟩ := p
    obtain ⟨hu, hd⟩ := List.forall_mem_cons.1 h
    unfold Directory.put
    split
    · exact hnew _ h
    · split
      · exact hnew _ hd
      · exact List.forall_mem_cons.2 ⟨hu, ih hd⟩

theorem Directory.freeOf_mapRecords {f : LineRecord → Option LineRecord} (hf : ∀ r q, f r = some q → q.FreeOf m)
    (d : Directory) : (d.mapRecords f).FreeOf m := by
  intro p hp r hr
  obtain ⟨hp, -⟩ := List.mem_filter.1 hp
  obtain ⟨p', -, rfl⟩ := List.mem_map.1 hp
  obtain ⟨r', -, hr'⟩ := List.mem_filterMap.1 hr
  exact hf r' r hr'

/-- A record after m has left is free of m (R26, R27). -/
theorem LineRecord.freeOf_afterLeaving {a : AttachState} {r q : LineRecord} (h : r.afterLeaving m a = some q) :
    q.FreeOf m := by
  rw [← LineRecord.withoutMaster_eq] at h
  exact LineRecord.withoutMaster_holds h

/-! ### The operations of the directory, for other masters -/

/-- m stands in no record and is no target. -/
def State.FreeOf (m : Master) (s : State) : Prop :=
  s.pdr.sets.FreeOf m ∧ ∀ e ∈ s.ivt.entries, e.targets.get m = false

variable {s : State}

theorem State.FreeOf.alike (h : s.FreeOf m) {t : State} (ha : s.AlikeHere t) : t.FreeOf m := by
  unfold State.FreeOf
  rw [ha.1, ha.2.1]
  exact h

theorem State.FreeOf.setRecords (h : s.FreeOf m) (i : Nat) {rs : DirectorySet} (hrs : ∀ r ∈ rs, r.FreeOf m) :
    (s.setRecords i rs).FreeOf m := ⟨h.1.put i hrs, h.2⟩

theorem State.FreeOf.updateRecord (h : s.FreeOf m) (l : LineAddr) {f : LineRecord → Option LineRecord}
    (hf : ∀ r q, r.FreeOf m → f r = some q → q.FreeOf m) : (s.updateRecord l f).FreeOf m := by
  refine h.setRecords _ fun q hq => ?_
  obtain ⟨r, hr, hrq⟩ := List.mem_filterMap.1 hq
  have hfree := h.1.get _ r hr
  split at hrq
  · exact hf r q hfree hrq
  · exact Option.some.inj hrq ▸ hfree

theorem LineRecord.FreeOf.withClaimant {r : LineRecord} (h : r.FreeOf m) {k : Master} (hk : k ≠ m) (t : Tag) :
    (r.withClaimant k t).FreeOf m := by
  unfold LineRecord.withClaimant
  split
  · rename_i su hst
    split
    · refine h.of_successor rfl fun su' hsu' => ?_
      cases hsu'
      exact fun hm => (List.mem_append.1 hm).elim (h.2 su (LineRecord.successor_eq_some_iff.2 hst))
        fun hm => hk (List.mem_singleton.1 hm).symm
    · exact h
  all_goals exact h

/-- A fill lookup of another master keeps m out (R9 to R15). -/
theorem State.FreeOf.fillLookup (h : s.FreeOf m) {k : Master} (hk : k ≠ m) (l : LineAddr) :
    (s.fillLookup k l).1.FreeOf m := by
  have hget := h.1.get (setOfLine l)
  refine State.fillLookup_elim k l s h ?_ ?_ ?_ ?_ ?_
  · exact fun r _ _ _ => h.updateRecord l fun r q hr hq => by cases hq; exact hr
  · exact h.setRecords _ (List.forall_mem_map.2 fun r hr => (hget r hr).withClaimant hk _)
  · refine fun w _ _ => h.setRecords _ (List.forall_mem_append.2 ⟨hget, ?_⟩)
    exact List.forall_mem_singleton.2 (LineRecord.freeOf_installed _ _ _)
  · refine fun v _ _ _ => h.setRecords _ (List.forall_mem_append.2 ⟨fun r hr => hget r (List.mem_filter.1 hr).1, ?_⟩)
    exact List.forall_mem_singleton.2 (LineRecord.freeOf_installed _ _ _)
  · intro v hv u _ _ _ _ hu
    obtain ⟨hroom, -⟩ := State.createEntry_some hu
    rw [State.createEntry_eq _ _ _ _ _ hroom] at hu
    have htaken : u.FreeOf m := by
      rw [← Option.some.inj hu]
      exact ⟨h.1, List.forall_mem_append.2 ⟨h.2, List.forall_mem_singleton.2 (hget v hv).1⟩⟩
    refine htaken.setRecords _ (List.forall_mem_map.2 fun r hr => ?_)
    split
    · refine (hget r hr).of_successor rfl fun su hsu => ?_
      cases hsu
      exact fun hm => hk (List.mem_singleton.1 hm).symm
    · exact hget r hr

/-- The fills released from a line are of ONLINE masters (R11, R65). -/
theorem State.FreeOf.releaseFill (h : s.FreeOf m) (hm : s.mau.attach.get m ≠ .online) (l : LineAddr) (k : Master) :
    (s.releaseFill l k).FreeOf m := by
  unfold State.releaseFill
  split
  · split
    · split
      · split
        · rename_i hd
          have hk : k ≠ m := by
            rintro rfl
            exact hm (State.directoryFill_iff.1 hd).2.1
          exact (h.fillLookup hk l).alike ⟨rfl, rfl, rfl, rfl⟩
        · exact h.alike ⟨rfl, rfl, rfl, rfl⟩
      · exact h
    · exact h
  · exact h

theorem State.FreeOf.releaseLine (h : s.FreeOf m) (hm : s.mau.attach.get m ≠ .online) (l : LineAddr) :
    (s.releaseLine l).FreeOf m := by
  have hone : ∀ (u : State) k, u.FreeOf m ∧ u.mau = s.mau →
      (u.releaseFill l k).FreeOf m ∧ (u.releaseFill l k).mau = s.mau :=
    fun u k hu => ⟨hu.1.releaseFill (hu.2 ▸ hm) l k, (State.releaseFill_work l u k).mau.trans hu.2⟩
  exact (foldl_holds _ (fun u => u.FreeOf m ∧ u.mau = s.mau) hone s.rsa.order s ⟨h, rfl⟩).1

theorem State.FreeOf.completeAtDirectory (h : s.FreeOf m) (hm : s.mau.attach.get m ≠ .online) (e : TrackerEntry) :
    (s.completeAtDirectory e).FreeOf m := by
  by_cases hk : e.kind = .write
  · rw [State.completeAtDirectory_write hk]
    refine State.FreeOf.releaseLine (h.updateRecord e.line fun r q hr hq => ?_) hm e.line
    obtain ⟨rfl, -⟩ := LineRecord.unlessEmpty_eq_some hq
    refine ⟨?_, fun su hsu => absurd hsu (by simp [LineRecord.successor])⟩
    rw [MasterSet.get_diff, hr.1, Bool.false_and]
  · have hrest : ∀ r : LineRecord, ∀ q ∈ (s.pdr.sets.get (setOfLine e.line)).filter fun q => q.way != r.way,
        q.FreeOf m :=
      fun r q hq => h.1.get _ q (List.mem_filter.1 hq).1
    unfold State.completeAtDirectory
    split
    · exact absurd ‹_› hk
    all_goals
      dsimp only
      split
      · exact h
      · split
        · exact h.setRecords _ (hrest _)
        · refine State.FreeOf.alike (h.setRecords _ (List.forall_mem_append.2 ⟨hrest _, ?_⟩))
            (State.endWayWait_alike _ _ _)
          exact List.forall_mem_singleton.2 (LineRecord.freeOf_installed _ _ _)

/-- The completion of an entry keeps m out, once m is no longer ONLINE. -/
theorem State.FreeOf.completeEntry (h : s.FreeOf m) (hm : s.mau.attach.get m ≠ .online) (e : TrackerEntry) :
    (s.completeEntry e).FreeOf m := by
  have hgone : (s.withoutEntry e).FreeOf m := ⟨h.1, fun x hx => h.2 x (List.mem_filter.1 hx).1⟩
  have hmoved := hgone.completeAtDirectory hm e
  rw [State.completeEntry_reported, State.counted_frame]
  exact hmoved

/-! ### The completions of one event -/

/-- The completions of an event keep m out, once m is no longer ONLINE (R46). -/
theorem State.FreeOf.completeEntries (h : s.FreeOf m) (hm : s.mau.attach.get m ≠ .online) (es : List TrackerEntry) :
    (s.completeEntries es).FreeOf m := by
  have hone : ∀ (u : State) e, u.FreeOf m ∧ u.mau = s.mau →
      (u.completeEntry e).FreeOf m ∧ (u.completeEntry e).mau = s.mau := fun u e hu => by
    obtain ⟨-, -, -, -, -, -, hmau, -⟩ := State.completeEntry_keeps u e
    exact ⟨hu.1.completeEntry (hu.2 ▸ hm) e, hmau.trans hu.2⟩
  have hfold := foldl_holds State.completeEntry (fun u => u.FreeOf m ∧ u.mau = s.mau) hone es s ⟨h, rfl⟩
  obtain ⟨-, hpdr, hivt, -⟩ := State.settleWaiters_keeps (es.foldl State.completeEntry s)
  unfold State.completeEntries State.FreeOf
  rw [hpdr, hivt]
  exact hfold.1

/-- The tracker after the completion of an entry: the entries of other lines, and new EVICT entries (R45). -/
theorem State.completeEntry_entries (e : TrackerEntry) (s : State) :
    ∃ younger, (s.completeEntry e).ivt.entries = (s.ivt.entries.filter fun k => k.line != e.line) ++ younger ∧
      ∀ x ∈ younger, x.NewEvict := by
  rw [State.completeEntry_reported, State.counted_frame]
  exact State.completeAtDirectory_evictsNew e (s.withoutEntry e)

/-- An event's completions leave no entries but those that stood and new EVICT entries, and all of those that stood in
lines that no completed entry has (R45, R46). -/
theorem State.completeEntries_entries (es : List TrackerEntry) (s : State) :
    (∀ x ∈ (s.completeEntries es).ivt.entries, x ∈ s.ivt.entries ∨ x.NewEvict) ∧
      ∀ x ∈ s.ivt.entries, (∀ e ∈ es, x.line ≠ e.line) → x ∈ (s.completeEntries es).ivt.entries := by
  obtain ⟨-, -, hivt, -⟩ := State.settleWaiters_keeps (es.foldl State.completeEntry s)
  unfold State.completeEntries
  rw [hivt]
  clear hivt
  induction es generalizing s with
  | nil => exact ⟨fun x hx => Or.inl hx, fun x hx _ => hx⟩
  | cons e es ih =>
    obtain ⟨younger, hentries, hnew⟩ := State.completeEntry_entries e s
    obtain ⟨hold, hkept⟩ := ih (s.completeEntry e)
    rw [hentries] at hold hkept
    refine ⟨fun x hx => ?_, fun x hx hline => ?_⟩
    · rcases hold x hx with hx | hx
      · exact (List.mem_append.1 hx).imp (fun hx => (List.mem_filter.1 hx).1) (hnew x)
      · exact Or.inr hx
    · obtain ⟨hhere, hlater⟩ := List.forall_mem_cons.1 hline
      exact hkept x (List.mem_append_left _ (List.mem_filter.2 ⟨hx, bne_iff_ne.2 hhere⟩)) hlater

/-! ### The passage of a master -/

/-- The state after the passage's steps at the directory and the tracker, before any entry completes (R26, R27, R46,
R135). -/
def State.gone (m : Master) (a : AttachState) (s : State) : State :=
  { s with
    mau := { s.mau with attach := s.mau.attach.set m a }
    pdr := { s.pdr with sets := s.pdr.sets.mapRecords fun r => r.afterLeaving m a }
    rsa := if a = .isolated then s.rsa.claimantTold m else s.rsa
    ivt := s.ivt.releasedFrom m }

/-- The passage as far as the tracker's step. -/
def State.departs (m : Master) (a : AttachState) (s : State) : State :=
  ((s.setAttach m a).removeFromDirectory m a).releaseFromTracker m

variable {a : AttachState}

theorem State.departs_eq (ha : a = .isolated ∨ a = .inReset) (m : Master) (s : State) :
    s.departs m a = (s.gone m a).completeEntries ((s.gone m a).ivt.entries.filter fun x => x.acked == x.targets) := by
  unfold State.departs
  rw [State.removeFromDirectory_eq m a _ ha]
  rfl

theorem State.gone_freeOf (m : Master) (a : AttachState) (s : State) : (s.gone m a).FreeOf m := by
  refine ⟨Directory.freeOf_mapRecords (fun r q => LineRecord.freeOf_afterLeaving) _, fun e he => ?_⟩
  obtain ⟨x, -, rfl⟩ := List.mem_map.1 he
  exact PerMaster.get_set_self _ _ _

/-- Neither the directory nor the tracker holds m after its release (R26, R46). -/
theorem State.departs_freeOf (ha : a = .isolated ∨ a = .inReset) (m : Master) (s : State) :
    (s.departs m a).FreeOf m := by
  rw [State.departs_eq ha]
  refine (s.gone_freeOf m a).completeEntries ?_ _
  rw [show (s.gone m a).mau.attach.get m = a from PerMaster.get_set_self _ _ _]
  rcases ha with rfl | rfl <;> decide

/-- The entries after m's release: released ones that stood, and new EVICT entries (R46). -/
theorem State.departs_entries (ha : a = .isolated ∨ a = .inReset) (m : Master) (s : State) :
    ∀ e ∈ (s.departs m a).ivt.entries, (∃ x ∈ s.ivt.entries, e = x.releasedFrom m) ∨ e.NewEvict := by
  intro e he
  rw [State.departs_eq ha] at he
  refine ((State.completeEntries_entries _ _).1 e he).imp (fun hx => ?_) id
  obtain ⟨x, hstood, hreleased⟩ := List.mem_map.1 hx
  exact ⟨x, hstood, hreleased.symm⟩

/-- An entry with another unanswered target stays (R46). -/
theorem State.departs_keeps (ha : a = .isolated ∨ a = .inReset) {m : Master} {s : State}
    (hlines : (s.ivt.entries.map TrackerEntry.line).Nodup) {x : TrackerEntry} (hx : x ∈ s.ivt.entries) {k : Master}
    (hk : k ≠ m) (ht : x.targets.get k = true) (hacked : x.acked.get k = false) :
    x.releasedFrom m ∈ (s.departs m a).ivt.entries := by
  rw [State.departs_eq ha]
  refine (State.completeEntries_entries _ _).2 _ (List.mem_map_of_mem hx) fun e he hline => ?_
  obtain ⟨he, hdone⟩ := List.mem_filter.1 he
  obtain ⟨y, hy, rfl⟩ := List.mem_map.1 he
  cases List.inj_on_of_nodup_map hlines hx hy hline
  have hsame : (x.acked.set m false).get k = (x.targets.set m false).get k := congrArg (·.get k) (beq_iff_eq.1 hdone)
  rw [PerMaster.get_set_ne _ _ hk, PerMaster.get_set_ne _ _ hk, ht, hacked] at hsame
  cases hsame

/-- The blocks that the passage leaves as they were as far as the tracker's step. -/
theorem State.departs_frame (ha : a = .isolated ∨ a = .inReset) (m : Master) (s : State) :
    (s.departs m a).bfe.grant = s.bfe.grant ∧ (s.departs m a).bfe.retryList = s.bfe.retryList ∧
      (s.departs m a).ivt.notices = s.ivt.notices.set m [] ∧ (s.departs m a).ivt.timers = s.ivt.timers.set m none ∧
      (s.departs m a).pwq = s.pwq ∧ (s.departs m a).mau = { s.mau with attach := s.mau.attach.set m a } ∧
      (s.departs m a).clk = s.clk ∧ (s.departs m a).pending = s.pending := by
  rw [State.departs_eq ha]
  obtain ⟨-, hgrant, hretry, hnotices, htimers, hpwq, -, hmau, -, -, hclk, hpending⟩ :=
    State.completeEntries_keeps ((s.gone m a).ivt.entries.filter fun x => x.acked == x.targets) (s.gone m a)
  exact ⟨hgrant, hretry, hnotices, htimers, hpwq, hmau, hclk, hpending⟩

/-- The rest of the passage: a reset empties the slot and withdraws the grant, and m leaves the lock and the retry list
(R106, R136, R140, R160). -/
def State.concludes (m : Master) (a : AttachState) (s : State) : State :=
  if a = .inReset then (((s.abandonSlot m).releaseLockOf m).leaveRetryList m).withdrawGrant m
  else (s.releaseLockOf m).leaveRetryList m

theorem State.concludes_frame (m : Master) (a : AttachState) (s : State) :
    (s.concludes m a).mau = s.mau ∧ (s.concludes m a).pdr = s.pdr ∧ (s.concludes m a).ivt = s.ivt ∧
      (s.concludes m a).pwq = s.pwq ∧ (s.concludes m a).clk = s.clk ∧ (s.concludes m a).pending = s.pending := by
  unfold State.concludes
  split <;> simp

/-- The lock is not m's any more (R106, R136). -/
theorem State.releaseLockOf_lock (m : Master) (s : State) {k : BusLock} (h : (s.releaseLockOf m).bfe.lock = some k) :
    k.holder ≠ m := by
  intro hk
  by_cases hheld : ∃ k, s.bfe.lock = some k ∧ k.holder = m
  · obtain ⟨k', hlock, hm⟩ := hheld
    rw [State.releaseLockOf_held hlock hm] at h
    cases h
  · rw [State.releaseLockOf_free fun k hk hm => hheld ⟨k, hk, hm⟩] at h
    exact hheld ⟨k, h, hk⟩

/-- The slot's part of a passage: a reset empties it (R140). -/
def State.emptiedBy (m : Master) (a : AttachState) (s : State) : State := if a = .inReset then s.abandonSlot m else s

/-- The end of a passage, at the BFE. -/
theorem State.concludes_eq (m : Master) (a : AttachState) (s : State) :
    s.concludes m a = { (s.emptiedBy m a).releaseLockOf m with
      bfe := { ((s.emptiedBy m a).releaseLockOf m).bfe with
        retryList := s.bfe.retryList.filter fun k => k != m
        grant := if a = .inReset ∧ s.bfe.grant = some m then none else s.bfe.grant } } := by
  obtain ⟨-, -, -, -, -, -, -, -, -, -, -, hgrant, -, hretry⟩ := State.releaseLockOf_frame m (s.emptiedBy m a)
  have hgrant : ((s.emptiedBy m a).releaseLockOf m).bfe.grant = s.bfe.grant := by
    rw [hgrant, State.emptiedBy]
    split <;> rfl
  have hretry : ((s.emptiedBy m a).releaseLockOf m).bfe.retryList = s.bfe.retryList := by
    rw [hretry, State.emptiedBy]
    split <;> rfl
  have hconcludes : s.concludes m a = if a = .inReset then
      (((s.emptiedBy m a).releaseLockOf m).leaveRetryList m).withdrawGrant m
      else ((s.emptiedBy m a).releaseLockOf m).leaveRetryList m := by
    unfold State.concludes State.emptiedBy
    split <;> rfl
  rw [hconcludes, State.withdrawGrant, ← hretry, ← hgrant]
  generalize (s.emptiedBy m a).releaseLockOf m = freed
  have hleft : (freed.leaveRetryList m).bfe.grant = freed.bfe.grant := rfl
  rw [hleft]
  by_cases ha : a = .inReset
  · by_cases hg : freed.bfe.grant = some m
    · rw [if_pos ha, if_pos hg, if_pos ⟨ha, hg⟩]
      rfl
    · rw [if_pos ha, if_neg hg, if_neg fun h => hg h.2]
      rfl
  · rw [if_neg ha, if_neg fun h => ha h.1]
    rfl

theorem State.tellWalker_withMnc (before s : State) (c : Mnc) :
    (State.tellWalker before s).withMnc c = State.tellWalker before (s.withMnc c) := by
  obtain ⟨bfe, rsa, rgt, ⟨sets, ⟨mode, set, visited, pause, outstanding, draining⟩⟩, ivt, pwq, mlc, mau, mnc, pins, clk,
    pending⟩ := s
  cases pause with
  | none => rfl
  | some p =>
    cases set with
    | none => rfl
    | some i => exact apply_ite (fun u : State => u.withMnc c) _ _ _

/-- An isolation is the passage with the records of its cause (R135 to R137). -/
theorem State.isolate_eq (m : Master) (timeout : Option LineAddr) (s : State) :
    ∃ c : Mnc, s.isolate m timeout =
      State.tellWalker s (((s.departs m .isolated).concludes m .isolated).withMnc c) := by
  unfold State.isolate
  dsimp only
  cases timeout with
  | none => exact ⟨_, rfl⟩
  | some l =>
    dsimp only
    split
    · rw [State.pushError_eq, State.pushError_eq]
      exact ⟨_, rfl⟩
    · rw [State.pushError_eq]
      exact ⟨_, rfl⟩

theorem State.enterReset_eq (m : Master) (s : State) :
    s.enterReset m = State.tellWalker s ((s.departs m .inReset).concludes m .inReset) := rfl

/-- The state in which a passage of m begins: the event's, with a clock's count and m's notice as it is seen. -/
def State.PassageBase (s : State) (m : Master) (a : AttachState) (u : State) : Prop :=
  u = { s.atEvent with
    clk := u.clk
    mau := { s.atEvent.mau with
      resetNotice := if a = .inReset then s.mau.resetNotice.set m true else s.mau.resetNotice } }

theorem State.PassageBase.frame {s u : State} {m : Master} (h : s.PassageBase m a u) :
    u.bfe = s.bfe ∧ u.ivt = s.ivt ∧ u.pwq = s.pwq ∧ u.pending = s.pending ∧ u.mau.attach = s.atEvent.mau.attach ∧
      u.mau.writeFailed = s.mau.writeFailed := by
  unfold State.PassageBase at h
  rw [h]
  exact ⟨rfl, rfl, rfl, rfl, rfl, rfl⟩

theorem masterOfByte_eq {n : Byte} {m : Master} (h : n.toNat = m.number) : masterOfByte n = some m := by
  unfold masterOfByte
  rw [h]
  cases m <;> rfl

/-- Each of the three passages is the same passage from such a state, but for the records it makes (R135, R138,
R140). -/
theorem exec_passage {c : Instr} {m : Master} {s : State}
    (h : c = .timerExpiry m ∧ a = .isolated ∧ s.atEvent.mau.attach.get m = .online ∧
        s.ivt.timers.get m ≠ none ∧ s.ivt.notices.get m ≠ [] ∨
      c = .resetNoticeRise m ∧ a = .inReset ∧
        (s.atEvent.mau.attach.get m = .online ∨ s.atEvent.mau.attach.get m = .isolated) ∨
      (∃ n : Byte, c = .isolate n ∧ n.toNat = m.number) ∧ a = .isolated ∧
        s.atEvent.mau.attach.get m = .online ∧ s.mnc.port = .receiving) :
    ∃ (u : State) (mnc : Mnc), s.PassageBase m a u ∧
      exec c s = .next (State.tellWalker s.atEvent (((u.departs m a).concludes m a).withMnc mnc)) := by
  have honline : s.atEvent.mau.attach.get m = .online → s.atEvent.isOnline m = true := fun h => by
    simp [State.isOnline, h]
  rcases h with ⟨rfl, rfl, hon, htimer, hnotices⟩ | ⟨rfl, rfl, hattach⟩ | ⟨⟨n, rfl, hn⟩, rfl, hon, hport⟩
  · obtain ⟨d, hd⟩ := Option.ne_none_iff_exists'.1 htimer
    obtain ⟨l, rest, hl⟩ := List.exists_cons_of_ne_nil hnotices
    obtain ⟨mnc, hmnc⟩ := (s.atEvent.withClk (max s.clk d)).isolate_eq m (some l)
    refine ⟨s.atEvent.withClk (max s.clk d), mnc, rfl, ?_⟩
    show execTimerExpiry m s = _
    unfold execTimerExpiry
    dsimp only
    rw [show s.atEvent.ivt.timers.get m = some d from hd, show s.atEvent.ivt.notices.get m = l :: rest from hl]
    dsimp only
    rw [if_pos (honline hon)]
    exact congrArg _ (hmnc.trans (State.tellWalker_congr rfl _))
  · refine ⟨s.atEvent.seeResetNotice m true,
      (((s.atEvent.seeResetNotice m true).departs m .inReset).concludes m .inReset).mnc, rfl, ?_⟩
    show execResetNoticeRise m s = _
    unfold execResetNoticeRise
    dsimp only
    have hsame : (s.atEvent.seeResetNotice m true).mau.attach.get m = s.atEvent.mau.attach.get m := rfl
    rw [hsame]
    have hreset := (State.enterReset_eq m (s.atEvent.seeResetNotice m true)).trans (State.tellWalker_congr rfl _)
    rcases hattach with h | h <;> rw [h] <;> exact congrArg Host.Outcome.next hreset
  · obtain ⟨mnc, hmnc⟩ := s.atEvent.isolate_eq m none
    refine ⟨s.atEvent, { mnc with port := .responding (commandFrame (.isolate n)) [statusOk] false }, rfl, ?_⟩
    show s.takeCommand (.isolate n) (State.isolateCommand n) = _
    rw [State.takeCommand_taken rfl (by simp [commandFrame]) hport]
    unfold State.isolateCommand
    rw [masterOfByte_eq hn]
    dsimp only
    rw [if_pos (honline hon), hmnc]
    dsimp only
    have hport : ∀ (b u : State) (p : Port), (State.tellWalker b u).setPort p =
        State.tellWalker b (u.withMnc { u.mnc with port := p }) := fun b u p => by
      obtain ⟨-, -, -, -, -, -, -, -, hsame, -⟩ := State.tellWalker_frame b u
      unfold State.setPort
      rw [hsame, State.tellWalker_withMnc]
    rw [hport]
    rfl

/-- From such a state, the passage as far as the tracker's step is the one of R135. -/
theorem State.completes_departs (ha : a = .isolated ∨ a = .inReset) {m : Master} {u : State}
    (hu : s.PassageBase m a u) (hwf : s.pdr.sets.wf = true) : s.Completes m a u.clk (u.departs m a) := by
  refine ⟨s.pdr.sets.mapRecords fun r => r.afterLeaving m a, u.gone m a, Directory.wf_mapRecords _ hwf,
    Directory.get_mapRecords _ hwf, ?_, State.departs_eq ha m u⟩
  unfold State.PassageBase at hu
  rw [hu]
  rfl

end

/-- Settles O40: the passage, its frame, and what its steps leave of m. -/
theorem leavingMasterIsReleased : Obligations.LeavingMasterIsReleased := by
  intro c m s a h
  have ha : a = .isolated ∨ a = .inReset := by
    rcases h with ⟨-, ha, -⟩ | ⟨-, ha, -⟩ | ⟨-, ha, -⟩
    · exact Or.inl ha
    · exact Or.inr ha
    · exact Or.inl ha
  obtain ⟨u, mnc, hu, hexec⟩ := exec_passage h
  obtain ⟨hbfe, hivt, hupwq, hupending, hattach, hfailed⟩ := hu.frame
  obtain ⟨hgrant, hretry, hnotices, htimers, hpwq, hmau, hclk, hpending⟩ := u.departs_frame ha m
  obtain ⟨hcmau, hcpdr, hcivt, hcpwq, hcclk, hcpending⟩ := (u.departs m a).concludes_frame m a
  obtain ⟨htbfe, -, -, htsets, htivt, htpwq, htmlc, htmau, htmnc, -, htclk, htpending⟩ :=
    State.tellWalker_frame s.atEvent (((u.departs m a).concludes m a).withMnc mnc)
  have hconcludes := (u.departs m a).concludes_eq m a
  rw [hretry, hgrant, hbfe] at hconcludes
  rw [hivt] at hnotices htimers
  have hentries := u.departs_entries ha m
  rw [hivt] at hentries
  obtain ⟨hfree, htargets⟩ := u.departs_freeOf ha m
  refine ⟨_, hexec, ?_⟩
  generalize ht : State.tellWalker s.atEvent (((u.departs m a).concludes m a).withMnc mnc) = t at *
  have htivt : t.ivt = (u.departs m a).ivt := htivt.trans hcivt
  have htmau : t.mau = { u.mau with attach := u.mau.attach.set m a } := (htmau.trans hcmau).trans hmau
  have htsets : t.pdr.sets = (u.departs m a).pdr.sets := htsets.trans (congrArg Pdr.sets hcpdr)
  have htbfe : t.bfe = ((u.departs m a).concludes m a).bfe := htbfe
  have htclk : t.clk = u.clk := (htclk.trans hcclk).trans hclk
  have htmlc : t.mlc = ((u.departs m a).emptiedBy m a).mlc := by
    rw [htmlc]
    show ((u.departs m a).concludes m a).mlc = _
    rw [hconcludes]
    exact (State.releaseLockOf_frame m _).2.2.2.2.1
  have hemptied : ((u.departs m a).emptiedBy m a).bfe.lock = (u.departs m a).bfe.lock := by
    unfold State.emptiedBy
    split <;> rfl
  rw [htmau, htivt, htsets, htbfe, hnotices, htimers, hattach]
  refine ⟨PerMaster.get_set_self _ _ _, fun k hk => PerMaster.get_set_ne _ _ hk, hfailed, hfree.get,
    fun e he => ⟨htargets e he, ?_⟩, PerMaster.get_set_self _ _ _, PerMaster.get_set_self _ _ _,
    fun k hk => ⟨PerMaster.get_set_ne _ _ hk, PerMaster.get_set_ne _ _ hk⟩, fun k hk => ?_, ?_,
    ((htpwq.trans hcpwq).trans hpwq).trans hupwq, ((htpending.trans hcpending).trans hpending).trans hupending,
    hentries, fun hlines x hx hother => ?_, fun hwf => ?_⟩
  · rcases hentries e he with ⟨x, -, rfl⟩ | ⟨-, hsent, hacked, -⟩
    · exact ⟨PerMaster.get_set_self _ _ _, PerMaster.get_set_self _ _ _⟩
    · rw [hsent, hacked]
      exact ⟨MasterSet.get_empty m, MasterSet.get_empty m⟩
  · rw [hconcludes] at hk
    exact State.releaseLockOf_lock m _ hk
  · rw [hconcludes]
  · obtain ⟨k, hk, htarget, hacked⟩ := hother
    exact State.departs_keeps ha (hivt.symm ▸ hlines) (hivt.symm ▸ hx) hk htarget hacked
  · refine ⟨u.departs m a, (u.departs m a).emptiedBy m a, ((u.departs m a).emptiedBy m a).releaseLockOf m,
      htclk ▸ State.completes_departs ha hu hwf, ?_, fun hlock => ?_, fun hlock => ?_, ?_⟩
    · rw [htmlc]
      unfold State.emptiedBy
      split <;> rfl
    · obtain ⟨k, hlock, hk⟩ := hlock
      exact State.releaseLockOf_held (hemptied.trans hlock) hk
    · exact State.releaseLockOf_free fun k hk => hlock k (hemptied.symm.trans hk)
    · rw [htmnc, ← ht, hconcludes]
      rfl

end Sys2Proof.Machine
end

