-- ==== Sys2Proof/Proofs/TrackerEvents.lean ====
section
/-! PROOFS. The send event and the acknowledge: what a message and an answer leave of the tracker (R37 to R40, R42,
R45). -/

namespace Sys2Proof.Machine

section
variable {older younger : List TrackerEntry} {e : TrackerEntry}

/-- A change of the entry for a line, where no other entry has the line. -/
theorem TrackerEntry.map_line_split (h : ∀ x ∈ older ++ younger, x.line ≠ e.line)
    (f : TrackerEntry → TrackerEntry) :
    (older ++ e :: younger).map (fun x => if x.line = e.line then f x else x) = older ++ f e :: younger := by
  have hid : ∀ xs : List TrackerEntry, (∀ x ∈ xs, x ∈ older ++ younger) →
      xs.map (fun x => if x.line = e.line then f x else x) = xs := fun xs hxs =>
    (List.map_congr_left fun x hx => if_neg (h x (hxs x hx))).trans (List.map_id _)
  rw [List.map_append, List.map_cons, hid older fun x => List.mem_append_left _,
    hid younger fun x => List.mem_append_right _, if_pos rfl]

/-- The entries of a line that stand complete, where one entry alone has the line (R45). -/
theorem TrackerEntry.filter_complete_split (h : ∀ x ∈ older ++ younger, x.line ≠ e.line) :
    (older ++ e :: younger).filter (fun x => x.line == e.line && x.complete) =
      if e.acked = e.targets then [e] else [] := by
  have hother : ∀ xs : List TrackerEntry, (∀ x ∈ xs, x ∈ older ++ younger) →
      xs.filter (fun x => x.line == e.line && x.complete) = [] := fun xs hxs =>
    List.filter_eq_nil_iff.2 fun x hx => by simp [h x (hxs x hx)]
  rw [List.filter_append, List.filter_cons, hother older fun x => List.mem_append_left _,
    hother younger fun x => List.mem_append_right _]
  simp [TrackerEntry.complete]

/-! ### The send event (R37, R38) -/

theorem TrackerEntry.unsent_get (e : TrackerEntry) (m : Master) :
    e.unsent.get m = true ↔ e.targets.get m = true ∧ e.sent.get m = false := by
  simp [TrackerEntry.unsent]

theorem TrackerEntry.unsent_isEmpty_iff (e : TrackerEntry) :
    e.unsent.isEmpty = true ↔ ∀ m, e.targets.get m = true → e.sent.get m = true := by
  simp [MasterSet.isEmpty_iff, TrackerEntry.unsent]

theorem exec_sendEvent_idle {s : State} (h : ∀ x ∈ s.ivt.entries, x.unsent.isEmpty = true) :
    exec .sendEvent s = .next s.atEvent := by
  have hnone : s.atEvent.ivt.entries.find? (fun x => !x.unsent.isEmpty) = none :=
    List.find?_eq_none.2 fun x hx => by simp [h x hx]
  show execSendEvent s = _
  unfold execSendEvent
  dsimp only
  rw [hnone]

/-- The oldest entry with an unsent target is the one that sends (R38). -/
theorem exec_sendEvent_sends {s : State} (hs : s.ivt.entries = older ++ e :: younger)
    (ho : ∀ x ∈ older, x.unsent.isEmpty = true) (he : e.unsent.isEmpty = false) :
    exec .sendEvent s = .next (s.atEvent.sendMessage e) := by
  have hfound : s.atEvent.ivt.entries.find? (fun x => !x.unsent.isEmpty) = some e :=
    List.find?_eq_some_iff_append.2 ⟨by simp [he], older, younger, hs, fun x hx => by simp [ho x hx]⟩
  show execSendEvent s = _
  unfold execSendEvent
  dsimp only
  rw [hfound]

end

/-- Settles O36: the first entry that the choice finds sends, and each of its unsent targets is treated alone. -/
theorem oldestUnsentEntrySends : Obligations.OldestUnsentEntrySends := by
  refine ⟨fun older younger e s hs ho hlines ⟨m, ht, hn⟩ => ?_, fun s h =>
    exec_sendEvent_idle fun x hx => x.unsent_isEmpty_iff.2 (h x hx)⟩
  have hsome : e.unsent.isEmpty = false := (MasterSet.isEmpty_eq_false_iff _).2 ⟨m, (e.unsent_get m).2 ⟨ht, hn⟩⟩
  have hexec := exec_sendEvent_sends hs (fun x hx => x.unsent_isEmpty_iff.2 (ho x hx)) hsome
  refine ⟨s.atEvent.sendMessage e, e.unsent, hexec, rfl, e.unsent_get, ?_, fun k => ?_⟩
  · show s.ivt.entries.map (fun x =>
      if x.line = e.line then { x with sent := MasterSet.union x.sent e.unsent } else x) = _
    rw [hs]
    exact TrackerEntry.map_line_split hlines fun x => { x with sent := MasterSet.union x.sent e.unsent }
  · have hnotices : (s.atEvent.sendMessage e).ivt.notices.get k =
        if e.unsent.get k then s.ivt.notices.get k ++ [e.line] else s.ivt.notices.get k := PerMaster.get_of _ k
    have htimers : (s.atEvent.sendMessage e).ivt.timers.get k =
        if e.unsent.get k && (s.ivt.notices.get k).isEmpty then some (s.clk + s.mnc.invalidationTimeout)
        else s.ivt.timers.get k := PerMaster.get_of _ k
    rw [hnotices, htimers]
    exact ⟨fun hu => by simp [hu], fun hu => by simp [hu]⟩

/-! ### The acknowledge (R39, R40) -/

theorem exec_acknowledge_head {m : Master} {l : LineAddr} {rest : List LineAddr} {s : State}
    (hon : s.atEvent.mau.attach.get m = .online) (hl : s.ivt.notices.get m = l :: rest) :
    exec (.acknowledge m) s = .next (State.tellWalker s.atEvent (s.atEvent.answerHead m l rest)) := by
  show execAcknowledge m s = _
  unfold execAcknowledge
  dsimp only
  rw [hon, show s.atEvent.ivt.notices.get m = l :: rest from hl]

/-- The answer of the head, where one entry has its line: the entries that it completes are that one or none (R39,
R42, R45). -/
theorem State.answerHead_eq {older younger : List TrackerEntry} {e : TrackerEntry} {s : State}
    (hs : s.ivt.entries = older ++ e :: younger) (hlines : ∀ x ∈ older ++ younger, x.line ≠ e.line) (m : Master)
    (rest : List LineAddr) :
    s.answerHead m e.line rest = State.completeEntries
      (if e.acked.set m true = e.targets then [{ e with acked := e.acked.set m true }] else [])
      { s with ivt := ⟨older ++ { e with acked := e.acked.set m true } :: younger, s.ivt.notices.set m rest,
        s.ivt.timers.set m (if rest = [] then none else some (s.clk + s.mnc.invalidationTimeout))⟩ } := by
  have hanswered := TrackerEntry.map_line_split hlines fun x => { x with acked := x.acked.insert m }
  have hcomplete := TrackerEntry.filter_complete_split (e := { e with acked := e.acked.set m true }) hlines
  unfold State.answerHead
  dsimp only
  rw [hs, hanswered]
  simp only [List.isEmpty_iff]
  exact congrArg (State.completeEntries · _) hcomplete

theorem exec_acknowledge_stray {m : Master} {s : State}
    (h : s.atEvent.mau.attach.get m = .online ∧ s.ivt.notices.get m = [] ∨ s.atEvent.mau.attach.get m = .isolated) :
    exec (.acknowledge m) s = .next { s.atEvent with mnc := s.mnc.offered .strayAck m none } := by
  refine Eq.trans ?_ (congrArg Host.Outcome.next (State.pushError_eq .strayAck m none s.atEvent))
  show execAcknowledge m s = _
  unfold execAcknowledge
  dsimp only
  rcases h with ⟨hon, hl⟩ | hi
  · rw [hon, show s.atEvent.ivt.notices.get m = [] from hl]
  · rw [hi]

theorem exec_acknowledge_ignored {m : Master} {s : State}
    (h : s.atEvent.mau.attach.get m = .inReset ∨ s.atEvent.mau.attach.get m = .absent) :
    exec (.acknowledge m) s = .next s.atEvent := by
  show execAcknowledge m s = _
  unfold execAcknowledge
  dsimp only
  rcases h with h | h <;> rw [h]

/-- The waiting slots looked at change at the slots and the BFE alone (R104, R112). -/
theorem State.settleWaiters_eq (s : State) :
    s.settleWaiters = { s with bfe := s.settleWaiters.bfe, rsa := s.settleWaiters.rsa } := by
  obtain ⟨hrgt, hpdr, hivt, -, -, -, hpwq, hmlc, hmau, hmnc, hpins, hclk, hpending⟩ := s.settleWaiters_keeps
  rw [← hrgt, ← hpdr, ← hivt, ← hpwq, ← hmlc, ← hmau, ← hmnc, ← hpins, ← hclk, ← hpending]

/-- Settles O37, by whether the answer completes the entry of the head's line. -/
theorem acknowledgeAnswersTheHead : Obligations.AcknowledgeAnswersTheHead := by
  refine ⟨?_, fun m s =>
    ⟨fun h hl => exec_acknowledge_stray (h.imp_left fun h => ⟨h, hl⟩), exec_acknowledge_ignored⟩⟩
  rintro m l rest older younger e s answered hon hl hs rfl hlines hanswered
  have hpdr : answered.pdr = s.pdr := by rw [hanswered]; rfl
  have hexec : exec (.acknowledge m) s = .next (State.tellWalker s.atEvent (answered.completeEntries
      (if e.acked.set m true = e.targets then [{ e with acked := e.acked.set m true }] else []))) := by
    rw [exec_acknowledge_head hon hl, State.answerHead_eq (s := s.atEvent) hs hlines, hanswered]
    rfl
  refine ⟨fun hopen => ?_, fun hdone => ?_⟩
  · have hsame : State.tellWalker s.atEvent answered.settleWaiters = answered.settleWaiters :=
      State.tellWalker_of_same (by rw [answered.settleWaiters_eq, hpdr]; rfl)
    rw [if_neg hopen] at hexec
    exact ⟨answered.settleWaiters, hexec.trans (congrArg _ hsame), answered.settleWaiters_eq, rfl⟩
  · rw [hexec, if_pos hdone]

end Sys2Proof.Machine
end

