-- ==== Sys2Proof/Proofs/LockWrites.lean ====
section
/-! SUPPORT and PROOFS. The parity of named bytes (R148), the request of the lock's holder (R150), and the LOCK-WRITE
that joins its pair and makes its write step again (R36, R109, R110). -/

namespace Sys2Proof.Machine

/-! ### Parity (R97, R148) -/

/-- The members of a list that have a property are odd in number when the exclusive or over them says so. -/
theorem countP_mod_two {α : Type} (p : α → Bool) (l : List α) :
    l.countP p % 2 = (l.foldr (fun x odd => p x ^^ odd) false).toNat := by
  induction l with
  | nil => rfl
  | cons x l ih =>
    rw [List.countP_cons, List.foldr_cons, Nat.add_mod, ih]
    cases p x <;> cases l.foldr (fun x odd => p x ^^ odd) false <;> rfl

/-- The parity bit of a byte of a word is the count of its ones, modulo two. -/
theorem evenParity_byteOfWord (w : Word) (k : Nat) :
    (evenParity (byteOfWord w k)).toNat = ((List.range 8).countP fun j => w.getLsbD (8 * k + j)) % 2 := by
  have hbits : ∀ j, j < 8 → (byteOfWord w k).getLsbD j = w.getLsbD (8 * k + j) := fun j hj => by
    simp [byteOfWord, hj]
  rw [countP_mod_two]
  simp only [evenParity, hbits, Nat.reduceLT, Nat.zero_lt_succ]
  simp [List.range_succ]

theorem positionParityGood_iff (r : RequestLines) (k : Nat) :
    positionParityGood r.sd r.sdp k = true ↔ r.GoodAt k := by
  have hparity := evenParity_byteOfWord r.sd k
  unfold positionParityGood RequestLines.GoodAt
  rw [Nat.add_mod, ← hparity]
  cases evenParity (byteOfWord r.sd k) <;> cases r.sdp.getLsbD k <;> decide

/-- The check of R97 is the parity of every named byte, as R148 gives it. -/
theorem requestParityGood_iff (r : RequestLines) : requestParityGood r = true ↔ r.Good := by
  have hall : requestParityGood r = true ↔
      ∀ k ∈ [0, 1, 2, 3], r.sben.getLsbD k = true → positionParityGood r.sd r.sdp k = true := by
    simp only [requestParityGood, writeParityGood, List.all_eq_true, Bool.or_eq_true, Bool.not_eq_true',
      ← Bool.not_eq_true, ← imp_iff_not_or]
  rw [hall]
  refine ⟨fun h k hk hb => (positionParityGood_iff r k).1 (h k ?_ hb), fun h k hk hb =>
    (positionParityGood_iff r k).2 (h k ?_ hb)⟩
  · simp; omega
  · simp at hk; omega

/-! ### A LOCK-WRITE of the lock's holder (R109, R110, R150) -/

/-- The LOCK-WRITE of the lock's holder is handled on the state with its transfer taken, the lock still held (R150). -/
theorem State.accept_lockWrite {s : State} {m : Master} {k : BusLock} {r : RequestLines} (hg : s.bfe.grant = some m)
    (hr : r.sreq = true) (hl : s.bfe.lock = some k) (hm : k.holder = m) (handle : Master → State → State) :
    s.atEvent.accept r true handle = handle m (s.taken m true) := by
  have hg : s.atEvent.bfe.grant = some m := hg
  have hl : (s.atEvent.clearGrant m true).bfe.lock = some k := hl
  unfold State.accept
  rw [hg]
  dsimp only
  rw [hr, if_neg (by decide), hl]
  dsimp only
  rw [if_neg (not_not.2 hm), if_pos rfl]
  rfl

/-- A LOCK-WRITE of the lock's word that names a byte, each with good parity, passes the checks of R109. -/
theorem State.acceptLockWrite_passes {s : State} {k : BusLock} {r : RequestLines} (hl : s.bfe.lock = some k)
    (hw : wordOfAddr r.sa = k.word) (hb : r.sben ≠ 0#4) (hgood : r.Good) (m : Master) :
    s.acceptLockWrite r m = s.joinPair k m (wordOfAddr r.sa) (lanesOf r.sben r.sd) := by
  unfold State.acceptLockWrite
  rw [hl]
  dsimp only
  rw [if_neg (not_not.2 (show requestWord r = k.word from hw)), if_neg (by simpa [namesAByte] using hb),
    if_neg (by simp [(requestParityGood_iff r).2 hgood])]
  rfl

section
variable {k : BusLock} {m : Master} {w : WordAddr} {lanes : Lanes} {s joined : State} {p : Policy} {q : SlotRequest}
  (hj : joined = s.withBfe { s.bfe with lock := some { k with deadline := none } })
  (hp : p = s.policyOfWord w) (hq : q = .lockWrite w (some p) lanes)
include hj hp hq

/-- The pair joined with no write step to make (R110). -/
theorem State.joinPair_untracked (ht : p.isTracked = false) :
    s.joinPair k m w lanes = joined.enterSlot m (Slot.held q WaitReasons.none) := by
  subst hj hp hq
  unfold State.joinPair
  exact if_neg (Bool.eq_false_iff.1 ht)

/-- The pair joined with its write step made (R110). -/
theorem State.joinPair_stepped (ht : p.isTracked = true) {stepped : State}
    (hs : joined.writeStep m (lineOfWord w) = some stepped) :
    s.joinPair k m w lanes = stepped.enterSlot m (Slot.held q WaitReasons.none) := by
  subst hj hp hq
  unfold State.joinPair
  dsimp only
  rw [hs]
  exact if_pos ht

/-- The pair joined with its write step refused (R110). -/
theorem State.joinPair_refused (ht : p.isTracked = true) (hs : joined.writeStep m (lineOfWord w) = none) :
    s.joinPair k m w lanes = joined.enterSlot m (Slot.held q { WaitReasons.none with trackerWait := true }) := by
  subst hj hp hq
  unfold State.joinPair
  dsimp only
  rw [hs]
  exact if_pos ht

end

/-! ### The write step made again (R36, R110) -/

theorem exec_trackerWaitRetry {m : Master} {s : State} {w : WordAddr} {p : Option Policy} {lanes : Lanes}
    {ws : WaitReasons} {arrived : Option Ending}
    (h : s.rsa.slots.get m = some ⟨.held, .lockWrite w p lanes, ws, arrived, true⟩) (hw : ws.trackerWait = true) :
    exec (.trackerWaitRetry m) s = .next (State.tellWalker s.atEvent (s.atEvent.retryLockWrite m w)) := by
  show execTrackerWaitRetry m s = _
  unfold execTrackerWaitRetry
  dsimp only
  rw [show s.atEvent.rsa.slots.get m = _ from h]
  exact if_pos hw

theorem State.retryLockWrite_stepped {m : Master} {w : WordAddr} {s stepped : State} {sl : Slot}
    (hs : s.writeStep m (lineOfWord w) = some stepped) (hsl : stepped.rsa.slots.get m = some sl) :
    s.retryLockWrite m w = { stepped with rsa := stepped.rsa.withSlot m { sl with
      waits := { sl.waits with trackerWait := false }, freeEntryTold := false } } := by
  unfold State.retryLockWrite
  rw [hs]
  exact State.modifySlot_eq hsl _

theorem State.retryLockWrite_refused {m : Master} {w : WordAddr} {s : State} {sl : Slot}
    (hs : s.writeStep m (lineOfWord w) = none) (hsl : s.rsa.slots.get m = some sl) :
    s.retryLockWrite m w = { s with rsa := s.rsa.withSlot m { sl with freeEntryTold := false } } := by
  unfold State.retryLockWrite
  rw [hs]
  exact State.modifySlot_eq hsl _

/-- Settles O23: the checks are passed, and the pair is joined by what its policy and its write step say; the step made
again is the same step. -/
theorem lockWriteJoinsThePair : Obligations.LockWriteJoinsThePair := by
  refine ⟨?_, fun m s w p lanes ws arrived hslot hwait => ⟨fun stepped sl hstep hsl => ?_, fun hrefused => ?_⟩⟩
  · intro r m k s joined p q hg hr hl hm hw hb hgood hp hq hj
    have hexec : exec (.lockWrite r) s = .next (State.tellWalker s.atEvent
        ((s.taken m true).joinPair k m (wordOfAddr r.sa) (lanesOf r.sben r.sd))) := by
      rw [← State.acceptLockWrite_passes (s := s.taken m true) hl hw hb hgood m,
        ← State.accept_lockWrite hg hr hl hm (State.acceptLockWrite r)]
      rfl
    have hpdr : joined.pdr = s.pdr := by rw [hj]; rfl
    have hrsa : joined.rsa = s.rsa := by rw [hj]; rfl
    have hsame : ∀ a : Rsa, State.tellWalker s.atEvent (joined.withRsa a) = joined.withRsa a := fun a =>
      State.tellWalker_of_same (congrArg Pdr.sets hpdr).symm
    refine ⟨fun ht => ?_, fun stepped ht hstep => ?_, fun ht hrefused => ?_⟩
    · rw [hexec, State.joinPair_untracked (s := s.taken m true) hj hp hq ht, ← hrsa]
      exact congrArg _ (hsame _)
    · rw [hexec, State.joinPair_stepped (s := s.taken m true) hj hp hq ht (hw ▸ hstep)]
      rfl
    · rw [hexec, State.joinPair_refused (s := s.taken m true) hj hp hq ht (hw ▸ hrefused), ← hrsa]
      exact congrArg _ (hsame _)
  · rw [exec_trackerWaitRetry hslot hwait, State.retryLockWrite_stepped hstep hsl]
  · rw [exec_trackerWaitRetry hslot hwait, State.retryLockWrite_refused (s := s.atEvent) hrefused hslot]
    exact congrArg _ (State.tellWalker_of_same rfl)

end Sys2Proof.Machine
end

