-- ==== Sys2Proof/Proofs/Expiries.lean ====
section
/-! SUPPORT and PROOFS. The records of an isolation by timeout (R43, R137): which completions may end the pair of the
lock's holder before the lock's step finds it (R112, R135; log 13). -/

namespace Sys2Proof.Machine

/-! ### The arrived completion of a slot (R112) -/

/-- The MRL completion that has arrived for the LOCK-WRITE in m's slot. -/
def State.arrivedAt (m : Master) (s : State) : Option Ending := (s.rsa.slots.get m).bind Slot.arrived

section
variable {s : State} {m : Master}

theorem State.arrivedAt_eq_none_iff :
    s.arrivedAt m = none ↔ ∀ sl, s.rsa.slots.get m = some sl → sl.arrived = none := by
  unfold State.arrivedAt
  cases s.rsa.slots.get m <;> simp

theorem State.arrivedAt_of_slot {sl : Slot} (h : s.rsa.slots.get m = some sl) : s.arrivedAt m = sl.arrived := by
  unfold State.arrivedAt
  rw [h]
  rfl

/-- Slots changed one by one, none in what has arrived for it. -/
theorem State.arrivedAt_of_map {t : State} (f : Slot → Slot)
    (ht : t.rsa.slots.get m = (s.rsa.slots.get m).map f) (hf : ∀ sl, (f sl).arrived = sl.arrived) :
    t.arrivedAt m = s.arrivedAt m := by
  unfold State.arrivedAt
  rw [ht]
  cases s.rsa.slots.get m with
  | none => rfl
  | some sl => exact hf sl

theorem State.modifySlot_arrivedAt (k : Master) {f : Slot → Slot} (hf : ∀ sl, (f sl).arrived = sl.arrived) :
    (s.modifySlot k f).arrivedAt m = s.arrivedAt m := by
  by_cases hk : m = k
  · subst hk
    exact State.arrivedAt_of_map f ((State.modifySlot_get m m f s).trans (if_pos rfl)) hf
  · exact congrArg (Option.bind · Slot.arrived) ((State.modifySlot_get k m f s).trans (if_neg hk))

theorem State.modifyHeld_arrivedAt {f : Master → Slot → Slot} (hf : ∀ k sl, (f k sl).arrived = sl.arrived) :
    (s.modifyHeld f).arrivedAt m = s.arrivedAt m := by
  refine State.arrivedAt_of_map _ (State.modifyHeld_get f s m) fun sl => ?_
  split
  · exact hf m sl
  · rfl

theorem State.createEntry_arrivedAt {l : LineAddr} {kind : EntryKind} {t c : MasterSet} {u : State}
    (h : s.createEntry l kind t c = some u) : u.arrivedAt m = s.arrivedAt m := by
  unfold State.createEntry at h
  split at h
  · cases h
  · cases h
    refine State.modifyHeld_arrivedAt fun _ sl => ?_
    split <;> rfl

theorem State.fillLookup_arrivedAt (k : Master) (l : LineAddr) : (s.fillLookup k l).1.arrivedAt m = s.arrivedAt m :=
  State.fillLookup_elim (P := fun u => u.arrivedAt m = s.arrivedAt m) k l s rfl (fun _ _ _ _ => rfl) rfl
    (fun _ _ _ => rfl) (fun _ _ _ _ => rfl) fun _ _ u _ _ _ _ hu =>
      (State.createEntry_arrivedAt hu : u.arrivedAt m = _)

theorem Slot.afterLookup_arrived (o : LookupOutcome) (sl : Slot) : (sl.afterLookup o).arrived = sl.arrived := rfl

theorem State.releaseFill_arrivedAt (l : LineAddr) (s : State) (k : Master) :
    (s.releaseFill l k).arrivedAt m = s.arrivedAt m := by
  unfold State.releaseFill
  split
  · split
    · split
      · split
        · exact (State.modifySlot_arrivedAt k (Slot.afterLookup_arrived _)).trans (State.fillLookup_arrivedAt k l)
        · exact State.modifySlot_arrivedAt k (Slot.afterLookup_arrived _)
      · rfl
    · rfl
  · rfl

theorem State.releaseLine_arrivedAt (l : LineAddr) : (s.releaseLine l).arrivedAt m = s.arrivedAt m :=
  foldl_keeps _ (State.arrivedAt m) (State.releaseFill_arrivedAt l) s.rsa.order s

theorem State.endWayWait_arrivedAt (o : LookupOutcome) (ms : List Master) :
    (s.endWayWait o ms).arrivedAt m = s.arrivedAt m :=
  foldl_keeps _ (State.arrivedAt m) (fun _ k => State.modifySlot_arrivedAt k (Slot.afterLookup_arrived o)) ms s

theorem State.completeAtDirectory_arrivedAt (e : TrackerEntry) :
    (s.completeAtDirectory e).arrivedAt m = s.arrivedAt m := by
  unfold State.completeAtDirectory
  dsimp only
  split
  · exact State.releaseLine_arrivedAt e.line
  all_goals
    split
    · rfl
    · split
      · rfl
      · exact State.endWayWait_arrivedAt _ _

/-- The completion of an entry brings no completion of the MRL and takes none (R45). -/
theorem State.completeEntry_arrivedAt (s : State) (e : TrackerEntry) :
    (s.completeEntry e).arrivedAt m = s.arrivedAt m := by
  rw [State.completeEntry_reported]
  refine Eq.trans (State.arrivedAt_of_map _ (PerMaster.get_of _ m) fun sl => ?_)
    (State.completeAtDirectory_arrivedAt (s := s.withoutEntry e) e)
  split <;> rfl

/-- A claim that is demoted leaves what has arrived (R27, R70). -/
theorem State.gone_arrivedAt (m : Master) (s : State) : (s.gone m .isolated).arrivedAt m = s.arrivedAt m := by
  have htold : (s.gone m .isolated).arrivedAt m = (s.modifySlot m fun sl =>
      if sl.phase = .held ∧ sl.waits.wayWait = true then Slot.afterLookup .demoted sl else sl).arrivedAt m := by
    rw [State.modifySlot_claimantTold]
    rfl
  rw [htold]
  refine State.modifySlot_arrivedAt m fun sl => ?_
  split <;> rfl

/-! ### The lock through the completions of an event -/

/-- A slot that is looked at keeps the lock, or ends the pair of its master, whose completion has arrived (R112). -/
theorem State.settleSlot_lock (s : State) (k : Master) :
    (s.settleSlot k).bfe.lock = s.bfe.lock ∨
      (s.settleSlot k).bfe.lock = none ∧ s.arrivedAt k ≠ none ∧ ∀ b, s.bfe.lock = some b → b.holder = k := by
  unfold State.settleSlot
  split
  · exact Or.inl rfl
  · rename_i sl hsl
    split
    · split
      · exact Or.inl rfl
      · exact Or.inl rfl
    · rename_i en _ _ hen
      split
      · by_cases hheld : ∃ b, s.bfe.lock = some b ∧ b.holder = k
        · obtain ⟨b, hb, hk⟩ := hheld
          refine Or.inr ⟨?_, by simp [State.arrivedAt_of_slot hsl, hen], fun b' hb' => ?_⟩
          · rw [State.releaseLockOf_held hb hk]
            rfl
          · rw [hb] at hb'
            cases hb'
            exact hk
        · refine Or.inl ?_
          rw [State.releaseLockOf_free fun b hb hk => hheld ⟨b, hb, hk⟩]
          rfl
      · exact Or.inl rfl
    · exact Or.inl rfl

theorem State.makeReply_arrivedAt (k : Master) (a : Answer) :
    (s.makeReply k a).arrivedAt m = if m = k then none else s.arrivedAt m := by
  show (((s.modifySlot k _).rsa.slots.get m).bind Slot.arrived) = _
  rw [State.modifySlot_get]
  split
  · cases s.rsa.slots.get k <;> rfl
  · rfl

theorem State.releaseLockOf_arrivedAt (k : Master) : (s.releaseLockOf k).arrivedAt m = s.arrivedAt m := by
  unfold State.releaseLockOf
  split
  · split
    · refine State.modifyHeld_arrivedAt fun _ sl => ?_
      split <;> rfl
    · rfl
  · rfl

/-- No slot that is looked at gains a completion of the MRL (R112). -/
theorem State.settleSlot_arrivedAt (k : Master) (h : s.arrivedAt m = none) : (s.settleSlot k).arrivedAt m = none := by
  have hreply : ∀ (u : State) (a : Answer), u.arrivedAt m = none → (u.makeReply k a).arrivedAt m = none :=
    fun u a hu => by rw [State.makeReply_arrivedAt, hu, ite_self]
  unfold State.settleSlot
  split
  · exact h
  · split
    · split
      · exact hreply s _ h
      · exact h
    · split
      · exact hreply _ _ ((State.releaseLockOf_arrivedAt k).trans h)
      · exact h
    · exact h

theorem State.foldl_completeEntry_bfe (es : List TrackerEntry) (s : State) :
    (es.foldl State.completeEntry s).bfe = s.bfe :=
  foldl_keeps State.completeEntry State.bfe (fun u e => (State.completeEntry_keeps u e).1) es s

/-- The completions of an event keep the lock or free it. -/
theorem State.completeEntries_lock (es : List TrackerEntry) (s : State) :
    (s.completeEntries es).bfe.lock = s.bfe.lock ∨ (s.completeEntries es).bfe.lock = none := by
  unfold State.completeEntries State.settleWaiters
  refine foldl_holds State.settleSlot (fun u => u.bfe.lock = s.bfe.lock ∨ u.bfe.lock = none) (fun u k hu => ?_) _ _
    (Or.inl (congrArg Bfe.lock (State.foldl_completeEntry_bfe es s)))
  rcases u.settleSlot_lock k with hkept | ⟨hfree, -⟩
  · rwa [hkept]
  · exact Or.inr hfree

/-- They keep the lock of a holder for which no completion of the MRL has arrived (R112). -/
theorem State.completeEntries_lock_kept (es : List TrackerEntry) {b : BusLock} (hb : s.bfe.lock = some b)
    (ha : s.arrivedAt b.holder = none) : (s.completeEntries es).bfe.lock = some b := by
  have harrived : (es.foldl State.completeEntry s).arrivedAt b.holder = s.arrivedAt b.holder :=
    foldl_keeps State.completeEntry (State.arrivedAt b.holder) State.completeEntry_arrivedAt es s
  unfold State.completeEntries State.settleWaiters
  refine (foldl_holds State.settleSlot (fun u => u.bfe.lock = some b ∧ u.arrivedAt b.holder = none) (fun u k hu => ?_)
    _ _ ⟨(congrArg Bfe.lock (State.foldl_completeEntry_bfe es s)).trans hb, harrived.trans ha⟩).1
  refine ⟨?_, State.settleSlot_arrivedAt k hu.2⟩
  rcases u.settleSlot_lock k with hkept | ⟨-, hend, hholder⟩
  · exact hkept.trans hu.1
  · rw [← hholder b hu.1] at hend
    exact absurd hu.2 hend

/-! ### The lock's step of an isolation -/

/-- The passage as far as the tracker's step keeps the lock or frees it. -/
theorem State.departs_lock (m : Master) (s : State) :
    (s.departs m .isolated).bfe.lock = s.bfe.lock ∨ (s.departs m .isolated).bfe.lock = none := by
  rw [State.departs_eq (Or.inl rfl)]
  exact State.completeEntries_lock _ (s.gone m .isolated)

/-- It keeps the lock of m if no completion of the MRL has arrived for it (R112; log 13). -/
theorem State.departs_lock_kept {b : BusLock} (hb : s.bfe.lock = some b) (hm : b.holder = m)
    (ha : s.arrivedAt m = none) : (s.departs m .isolated).bfe.lock = some b := by
  subst hm
  rw [State.departs_eq (Or.inl rfl)]
  exact State.completeEntries_lock_kept _ (s := s.gone b.holder .isolated) hb
    ((State.gone_arrivedAt _ s).trans ha)

theorem State.departs_mnc (m : Master) (s : State) : (s.departs m .isolated).mnc = s.mnc := by
  rw [State.departs_eq (Or.inl rfl)]
  obtain ⟨-, -, -, -, -, -, -, -, hmnc, -⟩ := State.completeEntries_keeps
    ((s.gone m .isolated).ivt.entries.filter fun x => x.acked == x.targets) (s.gone m .isolated)
  exact hmnc

/-- The records of an isolation by timeout are decided by the lock that its lock's step finds (R137; log 13). -/
theorem State.isolate_mnc {l : LineAddr} {timedOut : Mnc}
    (h : timedOut = s.mnc.offered .invalidationTimeout m (some (addrOfLine l))) :
    (s.isolate m (some l)).mnc = ((s.departs m .isolated).bfe.lock.filter fun b => b.holder == m).elim timedOut
      fun b => timedOut.offered .lockBroken m (some (addrOfWord b.word)) := by
  have htold : ∀ u : State, (State.tellWalker s u).mnc = u.mnc := fun u => by simp
  have hmnc : (((s.departs m .isolated).releaseLockOf m).leaveRetryList m).mnc = s.mnc := by
    simp [State.departs_mnc]
  have hdeparts : ((s.setAttach m .isolated).removeFromDirectory m .isolated).releaseFromTracker m =
      s.departs m .isolated := rfl
  unfold State.isolate
  dsimp only
  rw [htold, hdeparts, h, ← hmnc]
  cases (s.departs m .isolated).bfe.lock.filter fun b => b.holder == m with
  | none =>
    dsimp only
    rw [State.pushError_eq]
    rfl
  | some b =>
    dsimp only
    rw [State.pushError_eq, State.pushError_eq]
    rfl

/-- A lock that m still holds in the lock's step is recorded as broken (R137). -/
theorem State.isolate_mnc_held {l : LineAddr} {timedOut : Mnc}
    (h : timedOut = s.mnc.offered .invalidationTimeout m (some (addrOfLine l))) {b : BusLock}
    (hb : (s.departs m .isolated).bfe.lock = some b) (hm : b.holder = m) :
    (s.isolate m (some l)).mnc = timedOut.offered .lockBroken m (some (addrOfWord b.word)) := by
  rw [State.isolate_mnc h, hb, Option.filter_some, if_pos (by simp [hm])]
  rfl

/-- A lock that m does not hold in the lock's step makes no record (R137). -/
theorem State.isolate_mnc_free {l : LineAddr} {timedOut : Mnc}
    (h : timedOut = s.mnc.offered .invalidationTimeout m (some (addrOfLine l)))
    (hno : ∀ b, (s.departs m .isolated).bfe.lock = some b → b.holder ≠ m) :
    (s.isolate m (some l)).mnc = timedOut := by
  have hnone : ((s.departs m .isolated).bfe.lock.filter fun b => b.holder == m) = none :=
    Option.filter_eq_none_iff.2 fun b hb => by simpa using hno b hb
  rw [State.isolate_mnc h, hnone]
  rfl

theorem State.isolate_clk (m : Master) (timeout : Option LineAddr) (s : State) :
    (s.isolate m timeout).clk = s.clk := by
  obtain ⟨c, hc⟩ := s.isolate_eq m timeout
  obtain ⟨-, -, -, -, -, -, hclk, -⟩ := s.departs_frame (Or.inl rfl : AttachState.isolated = .isolated ∨ _) m
  obtain ⟨-, -, -, -, hconcluded, -⟩ := (s.departs m .isolated).concludes_frame m .isolated
  rw [hc]
  simp [hclk, hconcluded]

end

/-! ### The expiry (R43, R132, R137) -/

theorem exec_timerExpiry {m : Master} {s : State} {d : Nat} {l : LineAddr} {rest : List LineAddr}
    (hon : s.atEvent.mau.attach.get m = .online) (hd : s.ivt.timers.get m = some d)
    (hl : s.ivt.notices.get m = l :: rest) :
    exec (.timerExpiry m) s = .next ((s.atEvent.withClk (max s.clk d)).isolate m (some l)) := by
  show execTimerExpiry m s = _
  unfold execTimerExpiry
  dsimp only
  rw [show s.atEvent.ivt.timers.get m = some d from hd, show s.atEvent.ivt.notices.get m = l :: rest from hl]
  exact if_pos (beq_iff_eq.2 hon)

/-- With its timer stopped or off ONLINE a master cannot expire (R132). -/
theorem exec_timerExpiry_idle {m : Master} {s : State}
    (h : s.ivt.timers.get m = none ∨ s.atEvent.mau.attach.get m ≠ .online) :
    exec (.timerExpiry m) s = .next s.atEvent := by
  show execTimerExpiry m s = _
  unfold execTimerExpiry
  dsimp only
  rcases h with hd | hoff
  · rw [show s.atEvent.ivt.timers.get m = none from hd]
  · split
    · exact if_neg fun hon => hoff (beq_iff_eq.1 hon)
    · rfl

/-- Settles O41: the records follow the lock as the tracker's step leaves it, and that step frees the lock of m only by
ending a LOCK-WRITE of m whose completion has arrived. -/
theorem expiryMakesItsRecords : Obligations.ExpiryMakesItsRecords := by
  refine fun m s => ⟨fun d l rest hon hd hl => ?_, exec_timerExpiry_idle⟩
  obtain ⟨u, hu⟩ : ∃ u, u = s.atEvent.withClk (max s.clk d) := ⟨_, rfl⟩
  have hexec : exec (.timerExpiry m) s = .next (u.isolate m (some l)) := hu ▸ exec_timerExpiry hon hd hl
  have hbase : s.PassageBase m .isolated u := hu ▸ rfl
  have hlock : u.bfe.lock = s.bfe.lock := hu ▸ rfl
  have hslots : u.rsa.slots = s.rsa.slots := hu ▸ rfl
  have hmnc : u.mnc = s.mnc := hu ▸ rfl
  have hclk : (u.isolate m (some l)).clk = u.clk := u.isolate_clk m (some l)
  have hkept : ∀ b, (u.departs m .isolated).bfe.lock = some b → s.bfe.lock = some b := fun b hb => by
    rcases u.departs_lock m with hsame | hfree
    · rw [← hlock, ← hsame, hb]
    · rw [hfree] at hb
      cases hb
  refine ⟨_, hexec, hclk.trans (hu ▸ rfl), fun timedOut htimed => ?_⟩
  rw [← hmnc] at htimed
  refine ⟨fun hwf => ⟨u.departs m .isolated, ?_, fun b hb hm => ?_, fun hno => ?_⟩, fun hno => ?_,
    fun b hb hm harrived => ?_⟩
  · rw [hclk]
    exact State.completes_departs (Or.inl rfl) hbase hwf
  · exact ⟨hkept b hb, State.isolate_mnc_held htimed hb hm⟩
  · exact State.isolate_mnc_free htimed hno
  · exact State.isolate_mnc_free htimed fun b hb => hno b (hkept b hb)
  · have hnone : u.arrivedAt m = none := State.arrivedAt_eq_none_iff.2 (hslots.symm ▸ harrived)
    exact State.isolate_mnc_held htimed (State.departs_lock_kept (hlock.trans hb) hm hnone) hm

end Sys2Proof.Machine
end

