-- ==== Sys2Proof/Proofs/Moves.lean ====
section
/-! SUPPORT. The changes that commands make to the slots, the queues, the link, the arbiter, the region table and the
maintenance block. What every one of these moves keeps, every step keeps. -/

namespace Sys2Proof.Machine

/-! ### What happens beside a request -/

/-- A slot as the directory, the tracker and the bus lock may leave it: the waits that the queue gives stand, and a fill
may be demoted (R59, R64, R67, R68, R110). -/
structure Slot.Told (a b : Slot) : Prop where
  phase : b.phase = a.phase
  request : b.request = a.request ∨ b.request = a.request.demoted
  arrived : b.arrived = a.arrived
  overlap : b.waits.overlap = a.waits.overlap
  bypassLimit : b.waits.bypassLimit = a.waits.bypassLimit
  queueEmptyWait : b.waits.queueEmptyWait = a.waits.queueEmptyWait

/-- Every slot is as it was, or was told something. -/
def State.SlotsTold (s t : State) : Prop := ∀ m, Option.Rel Slot.Told (s.rsa.slots.get m) (t.rsa.slots.get m)

/-- No request is accepted, issued or answered, and the queues, the region table, the walker's mode and the maintenance
block stand. -/
structure State.Background (s t : State) : Prop where
  slots : s.SlotsTold t
  order : t.rsa.order = s.rsa.order
  grant : t.bfe.grant = s.bfe.grant
  replies : t.bfe.replies = s.bfe.replies
  retryList : t.bfe.retryList = s.bfe.retryList
  rgt : t.rgt = s.rgt
  mode : t.pdr.walker.mode = s.pdr.walker.mode
  pwq : t.pwq = s.pwq
  mlc : t.mlc = s.mlc
  mnc : t.mnc = s.mnc

/-! ### The moves -/

/-- How far an event has come with a request: m's request transfer is taken and not yet handled (R150); an item has left
the in-flight list with its completion (R167); or m's request has ended and its reply is still to be made. -/
inductive Doing where
  | nothing
  | taking (m : Master)
  | delivering (i : InFlight)
  | answering (m : Master)

/-- A SYNC that may be decided, or a LOCK-WRITE whose completion has arrived (R104, R112). -/
def Slot.MayEnd (sl : Slot) : Prop :=
  (sl.phase = .held ∧ sl.request = .sync) ∨
    (sl.phase = .issued ∧ (∃ w p lanes, sl.request = .lockWrite w p lanes) ∧ sl.arrived ≠ none)

/-- The in-flight list has room, and a tag is free (R168, R169). -/
def State.CanDrive (s : State) (tag : BitVec 2) : Prop :=
  s.mlc.inFlight.length < 4 ∧ ∀ i ∈ s.mlc.inFlight, i.tag ≠ tag

/-- The item of a read or of a part of a fill of m. -/
def InFlight.ReadsFor (i : InFlight) (m : Master) : Prop := i.origin = .read m ∨ i.origin = .continuation m

/-- The link with m's assembly replaced. -/
def Mlc.assembling (c : Mlc) (m : Master) (a : Option Assembly) : Mlc :=
  { c with assemblies := c.assemblies.set m a }

/-- One change of what the plain tables hold. -/
inductive Move : Doing → State → Doing → State → Prop
  | background {x : Doing} {s t : State} (h : s.Background t) : Move x s x t
  | reset {s : State} (mpres mrst sreq : MasterSet) (mrdy spi : Bool) (clk : Nat) (pending : List Instr) :
    Move .nothing s .nothing (State.afterReset mpres mrst sreq mrdy spi clk pending)
  -- The error queue and the port (chapter 10)
  | error {x : Doing} {s : State} (kind : ErrorKind) (m : Master) (address : Option Addr) :
    Move x s x (s.withMnc (s.mnc.offered kind m address))
  | port {x : Doing} {s : State} {p : Port} (hp : ∀ command response, p ≠ .responding command response true) :
    Move x s x (s.setPort p)
  | errorShown {x : Doing} {s : State} (command response : List Byte) :
    Move x s x (s.setPort (.responding command response (!s.mnc.errors.isEmpty)))
  | errorTaken {x : Doing} {s : State} : Move x s x (s.removeHeadError.setPort .ended)
  | limits {x : Doing} {s : State} {invalidation lock : BitVec 16} {bypass : Byte}
    (h : limitsInRange invalidation lock bypass = true) :
    Move x s x (State.refreshQueueWaits (s.withMnc { s.mnc with
      invalidationTimeout := invalidation.toNat, lockTimeout := lock.toNat, bypassLimit := bypass.toNat }))
  -- Regions and walks (chapter 6)
  | regionSet {x : Doing} {s : State} {n : Fin 8} {base pages : BitVec 32} {policy : Byte} {r : Region}
    (hfree : s.rgt[n] = none) (hr : regionOfArgs base pages policy = some r)
    (hapart : ∀ q ∈ usedRegions s.rgt, r.overlaps q = false) : Move x s x (s.withRgt (s.rgt.set n (some r)))
  | regionCleared {x : Doing} {s : State} {n : Fin 8} {r : Region} (hn : s.rgt[n] = some r)
    (hr : r.state = .active) : Move x s x (s.withRgt (s.rgt.set n none))
  | retireStarted {x : Doing} {s : State} {n : Fin 8} {base : Addr} {pages : Nat} (hm : s.pdr.walker.mode = .idle)
    (hn : s.rgt[n] = some ⟨.active, base, pages, .tracked⟩) :
    Move x s x ((s.withRgt (s.rgt.set n (some ⟨.retiring, base, pages, .tracked⟩))).withWalker
      (Walker.started (.retiring n)))
  | sweepStarted {x : Doing} {s : State} (hm : s.pdr.walker.mode = .idle) :
    Move x s x (s.withWalker (Walker.started .sweeping))
  | retired {x : Doing} {s : State} {n : Fin 8} (hm : s.pdr.walker.mode = .retiring n) :
    Move x s x ((s.withRgt (s.rgt.set n none)).withWalker Walker.idle)
  | swept {x : Doing} {s : State} (hm : s.pdr.walker.mode = .sweeping) : Move x s x (s.withWalker Walker.idle)
  -- The arbiter (chapter 8)
  | granted {s : State} {m : Master} (h : s.grantable m = true) : Move .nothing s .nothing (s.giveGrant m)
  | taken {s : State} {m : Master} (h : s.bfe.grant = some m) (up : Bool) :
    Move .nothing s (.taking m) (s.clearGrant m up)
  | lapsed {s : State} {m : Master} : Move (.taking m) s .nothing s
  | refused {s : State} {m : Master} : Move (.taking m) s .nothing (s.refuse m)
  | withdrawn {s : State} : Move .nothing s .nothing (s.withBfe { s.bfe with grant := none })
  | retryLeft {s : State} (m : Master) : Move .nothing s .nothing (s.leaveRetryList m)
  -- Acceptance (chapters 3 to 5)
  | held {s : State} {m : Master} {sl : Slot} (hp : sl.phase = .held) (ha : sl.arrived = none)
    (hq : QueueWaits s sl.request sl.waits) : Move (.taking m) s .nothing (s.enterSlot m sl)
  | decided {s : State} {m : Master} (q : SlotRequest) (a : Answer) :
    Move (.taking m) s .nothing (s.decideAtOnce m q a)
  | merged {x : Doing} {s : State} (lanes : Lanes) :
    Move x s x (s.withPwq (mergeYoungest lanes s.pwq)).refreshQueueWaits
  | appended {x : Doing} {s : State} (h : s.pwq.length < 16) (w : WordAddr) (lanes : Lanes) (m : Master) :
    Move x s x (s.withPwq (s.pwq ++ [⟨w, lanes, m, .waiting, 0⟩])).refreshQueueWaits
  -- Answers and replies (chapters 5 and 8)
  | ended {s : State} {m : Master} {sl : Slot} (hsl : s.rsa.slots.get m = some sl) (he : sl.MayEnd) :
    Move .nothing s (.answering m) s
  | answered {s : State} {m : Master} (a : Answer) : Move (.answering m) s .nothing (s.makeReply m a)
  | retrySent {s : State} {r : Reply} {rest : List Reply} (h : s.bfe.replies = r :: rest) (hr : r.body = .retry) :
    Move .nothing s .nothing (s.withBfe { s.bfe with replies := rest })
  | answerSent {s : State} {r : Reply} {rest : List Reply} (h : s.bfe.replies = r :: rest) (hr : r.body ≠ .retry) :
    Move .nothing s .nothing ((s.withBfe { s.bfe with replies := rest }).emptySlot r.master)
  | abandoned {s : State} (m : Master) : Move .nothing s .nothing (s.abandonSlot m)
  -- Issue (chapter 9)
  | continuationIssued {s : State} {tag : BitVec 2} {m : Master} {rest : List Master} {a : Assembly}
    (hd : s.CanDrive tag) (h : s.mlc.continuations = m :: rest) (ha : s.mlc.assemblies.get m = some a) :
    Move .nothing s .nothing ((s.withMlc { s.mlc with continuations := rest }).drive tag .rdRest
      (wordOfLine a.line a.words.length) (.continuation m) none)
  | continuationStray {s : State} {m : Master} {rest : List Master} (h : s.mlc.continuations = m :: rest)
    (ha : s.mlc.assemblies.get m = none) : Move .nothing s .nothing (s.withMlc { s.mlc with continuations := rest })
  | unpostedIssued {s : State} {tag : BitVec 2} {m : Master} {sl : Slot} {w : WordAddr} {p : Option Policy}
    {lanes : Lanes} (hd : s.CanDrive tag) (hsl : s.rsa.slots.get m = some sl) (he : sl.eligible = true)
    (hq : sl.request = .write w p lanes ∨ sl.request = .lockWrite w p lanes) :
    Move .nothing s .nothing ((s.slotIssued m).drive tag .wrWord w (.unposted m) (some lanes))
  | wordReadIssued {s : State} {tag : BitVec 2} {m : Master} {sl : Slot} {w : WordAddr} {p : Policy}
    (hd : s.CanDrive tag) (hsl : s.rsa.slots.get m = some sl) (he : sl.eligible = true)
    (hq : sl.request = .read w p ∨ sl.request = .lockRead w p) :
    Move .nothing s .nothing ((s.readIssued m).drive tag .rdWord w (.read m) none)
  | lineReadIssued {s : State} {tag : BitVec 2} {m : Master} {sl : Slot} {l : LineAddr} {p : Policy} {mode : FillMode}
    (hd : s.CanDrive tag) (hsl : s.rsa.slots.get m = some sl) (he : sl.eligible = true)
    (hq : sl.request = .readLine l p mode) :
    Move .nothing s .nothing (((s.readIssued m).drive tag .rdLine (wordOfLine l 0) (.read m) none).withMlc
      (((s.readIssued m).drive tag .rdLine (wordOfLine l 0) (.read m) none).mlc.assembling m (some ⟨l, mode, []⟩)))
  | queuedIssued {s : State} {tag : BitVec 2} {e : QueueEntry} (hd : s.CanDrive tag)
    (h : s.pwq.find? (fun e => e.phase == .waiting) = some e) : Move .nothing s .nothing (s.issueQueued tag e)
  -- Completion (chapter 9)
  | dropped {s : State} {i : InFlight} {rest : List InFlight} (h : s.mlc.inFlight = i :: rest)
    (hd : i.discard = true) : Move .nothing s .nothing (s.withMlc { s.mlc with inFlight := rest })
  | delivered {s : State} {i : InFlight} {rest : List InFlight} (h : s.mlc.inFlight = i :: rest)
    (hd : i.discard = false) : Move .nothing s (.delivering i) (s.withMlc { s.mlc with inFlight := rest })
  | queueEnded {s : State} {i : InFlight} {k : Master} {e : QueueEntry} {rest : List QueueEntry}
    (ho : i.origin = .queue k) (h : s.pwq = e :: rest) :
    Move (.delivering i) s .nothing (s.withPwq rest).refreshQueueWaits
  | queueStray {s : State} {i : InFlight} {k : Master} (ho : i.origin = .queue k) (h : s.pwq = []) :
    Move (.delivering i) s .nothing s
  | unpostedEnded {s : State} {i : InFlight} {m : Master} {sl : Slot} (ho : i.origin = .unposted m)
    (hsl : s.rsa.slots.get m = some sl) (hq : ∀ w p lanes, sl.request ≠ .lockWrite w p lanes) :
    Move (.delivering i) s (.answering m) s
  | pairArrived {s : State} {i : InFlight} {m : Master} {sl : Slot} {w : WordAddr} {p : Option Policy} {lanes : Lanes}
    (ho : i.origin = .unposted m) (hsl : s.rsa.slots.get m = some sl) (hq : sl.request = .lockWrite w p lanes)
    (en : Ending) : Move (.delivering i) s .nothing (s.modifySlot m fun sl => { sl with arrived := some en })
  | unpostedStray {s : State} {i : InFlight} {m : Master} (ho : i.origin = .unposted m)
    (h : ∀ sl, s.rsa.slots.get m = some sl → sl.request.isUnpostedWrite = false) : Move (.delivering i) s .nothing s
  | wordReadEnded {s : State} {i : InFlight} {m : Master} (ho : i.ReadsFor m) (hk : i.kind = .rdWord) :
    Move (.delivering i) s (.answering m) s
  | partArrived {s : State} {i : InFlight} {m : Master} {a : Assembly} {ws : List Word} (ho : i.ReadsFor m)
    (hk : i.kind ≠ .rdWord) (ha : s.mlc.assemblies.get m = some a) (hne : ws ≠ [])
    (hws : ws.length < wordsAsked i.kind i.word) :
    Move (.delivering i) s .nothing (s.withMlc { s.mlc.assembling m (some { a with words := a.words ++ ws }) with
      continuations := s.mlc.continuations ++ [m] })
  | lineReadEnded {s : State} {i : InFlight} {m : Master} (ho : i.ReadsFor m) (hk : i.kind ≠ .rdWord) :
    Move (.delivering i) s (.answering m) (s.withMlc (s.mlc.assembling m none))
  | lineReadStray {s : State} {i : InFlight} {m : Master} (ho : i.ReadsFor m) (hk : i.kind ≠ .rdWord)
    (ha : s.mlc.assemblies.get m = none) : Move (.delivering i) s .nothing s

/-- One move after another. -/
def Moves (x : Doing) (s : State) (y : Doing) (t : State) : Prop :=
  Relation.ReflTransGen (fun a b : Doing × State => Move a.1 a.2 b.1 b.2) (x, s) (y, t)

theorem Moves.refl (x : Doing) (s : State) : Moves x s x s := Relation.ReflTransGen.refl

theorem Moves.trans {x y z : Doing} {s t u : State} (h : Moves x s y t) (k : Moves y t z u) : Moves x s z u :=
  Relation.ReflTransGen.trans h k

theorem Move.moves {x y : Doing} {s t : State} (h : Move x s y t) : Moves x s y t := Relation.ReflTransGen.single h

/-- What every move keeps, moves one after another keep. -/
theorem Moves.keep {P : Doing → State → Prop} (hP : ∀ x s y t, Move x s y t → P x s → P y t) {x y : Doing}
    {s t : State} (h : Moves x s y t) (hs : P x s) : P y t :=
  Relation.ReflTransGen.head_induction_on (motive := fun a _ => P a.1 a.2 → P y t) h id
    (fun hm _ ih ha => ih (hP _ _ _ _ hm ha)) hs

end Sys2Proof.Machine
end

