-- ==== Sys2Proof/Proofs/MovesOfOps.lean ====
section
/-! SUPPORT. The shared operations, made of the moves of the file before: what the directory, the tracker, the walker
and the lock do is background, and the rest is a few moves each. -/

namespace Sys2Proof.Machine

/-! ### Slots told -/

theorem Slot.Told.refl (a : Slot) : a.Told a := ⟨rfl, Or.inl rfl, rfl, rfl, rfl, rfl⟩

@[simp] theorem SlotRequest.demoted_demoted (q : SlotRequest) : q.demoted.demoted = q.demoted := by
  cases q <;> rfl

theorem Slot.Told.trans {a b c : Slot} (h : a.Told b) (k : b.Told c) : a.Told c := by
  refine ⟨k.phase.trans h.phase, ?_, k.arrived.trans h.arrived, k.overlap.trans h.overlap,
    k.bypassLimit.trans h.bypassLimit, k.queueEmptyWait.trans h.queueEmptyWait⟩
  rcases k.request with hk | hk <;> rcases h.request with hh | hh <;> simp [hk, hh]

/-- Only the waits for the directory, the lock and the tracker change. -/
theorem Slot.told_of_waits (a : Slot) (lineBusy wayWait lockWait trackerWait syncWait told : Bool) :
    a.Told ⟨a.phase, a.request, ⟨a.waits.overlap, a.waits.bypassLimit, a.waits.queueEmptyWait, lineBusy, wayWait,
      lockWait, trackerWait, syncWait⟩, a.arrived, told⟩ := ⟨rfl, Or.inl rfl, rfl, rfl, rfl, rfl⟩

theorem Slot.told_afterLookup (o : LookupOutcome) (a : Slot) : a.Told (a.afterLookup o) := by
  refine ⟨rfl, ?_, rfl, rfl, rfl, rfl⟩
  unfold Slot.afterLookup
  dsimp only
  split
  · exact Or.inr rfl
  · exact Or.inl rfl

theorem State.SlotsTold.of_eq {s t : State} (h : t.rsa.slots = s.rsa.slots) : s.SlotsTold t := fun m => by
  rw [h]
  cases s.rsa.slots.get m with
  | none => exact .none
  | some a => exact .some (.refl a)

theorem State.SlotsTold.refl (s : State) : s.SlotsTold s := .of_eq rfl

theorem State.SlotsTold.trans {s t u : State} (h : s.SlotsTold t) (k : t.SlotsTold u) : s.SlotsTold u := fun m => by
  have hm := h m
  have km := k m
  generalize s.rsa.slots.get m = a at hm
  generalize t.rsa.slots.get m = b at hm km
  generalize u.rsa.slots.get m = c at km
  cases hm with
  | none => exact km
  | some hab => cases km with
    | some hbc => exact .some (hab.trans hbc)

/-- A slot told stands for the slot that it was. -/
theorem State.SlotsTold.get {s t : State} (h : s.SlotsTold t) {m : Master} {a : Slot}
    (ha : s.rsa.slots.get m = some a) : ∃ b, t.rsa.slots.get m = some b ∧ a.Told b := by
  have hm := h m
  rw [ha] at hm
  generalize t.rsa.slots.get m = o at hm
  cases hm with
  | some hab => exact ⟨_, rfl, hab⟩

theorem State.modifyHeld_told {f : Master → Slot → Slot} (hf : ∀ m (a : Slot), a.Told (f m a)) (s : State) :
    s.SlotsTold (s.modifyHeld f) := fun m => by
  rw [State.modifyHeld_get]
  cases s.rsa.slots.get m with
  | none => exact .none
  | some a =>
    refine .some ?_
    dsimp only
    split
    · exact hf m a
    · exact .refl a

theorem State.modifySlot_told (m : Master) {f : Slot → Slot} (hf : ∀ a : Slot, a.Told (f a)) (s : State) :
    s.SlotsTold (s.modifySlot m f) := fun k => by
  rw [State.modifySlot_get]
  split
  · rename_i hk
    subst hk
    cases s.rsa.slots.get k with
    | none => exact .none
    | some a => exact .some (hf a)
  · exact State.SlotsTold.refl s k

/-! ### Background -/

theorem State.Background.refl (s : State) : s.Background s :=
  ⟨.refl s, rfl, rfl, rfl, rfl, rfl, rfl, rfl, rfl, rfl⟩

theorem State.Background.trans {s t u : State} (h : s.Background t) (k : t.Background u) : s.Background u :=
  ⟨h.slots.trans k.slots, k.order.trans h.order, k.grant.trans h.grant, k.replies.trans h.replies,
    k.retryList.trans h.retryList, k.rgt.trans h.rgt, k.mode.trans h.mode, k.pwq.trans h.pwq, k.mlc.trans h.mlc,
    k.mnc.trans h.mnc⟩

/-- Work of the directory that tells the slots no more than it may. -/
theorem State.DirectoryWork.background {s t : State} (h : State.DirectoryWork s t) (hs : s.SlotsTold t) :
    s.Background t := by
  obtain ⟨hbfe, hrgt, horder, hwalker, -, -, hpwq, hmlc, -, hmnc, -⟩ := h
  exact ⟨hs, horder, by rw [hbfe], by rw [hbfe], by rw [hbfe], hrgt, by rw [hwalker], hpwq, hmlc, hmnc⟩

theorem State.modifyHeld_background {f : Master → Slot → Slot} (hf : ∀ m (a : Slot), a.Told (f m a)) (s : State) :
    s.Background (s.modifyHeld f) := (State.modifyHeld_work f s).background (State.modifyHeld_told hf s)

theorem State.modifySlot_background (m : Master) {f : Slot → Slot} (hf : ∀ a : Slot, a.Told (f a)) (s : State) :
    s.Background (s.modifySlot m f) := (State.modifySlot_work m f s).background (State.modifySlot_told m hf s)

theorem State.setRecords_background (i : Nat) (rs : DirectorySet) (s : State) : s.Background (s.setRecords i rs) :=
  (State.setRecords_work i rs s).background (.of_eq rfl)

/-- The walker's place, pause and counts are in no table here. -/
theorem State.withWalker_background {w : Walker} {s : State} (hm : w.mode = s.pdr.walker.mode) :
    s.Background (s.withWalker w) := ⟨.of_eq rfl, rfl, rfl, rfl, rfl, rfl, hm, rfl, rfl, rfl⟩

section
variable (s : State)

theorem State.withPins_background (x : Pins) : s.Background (s.withPins x) :=
  ⟨.of_eq rfl, rfl, rfl, rfl, rfl, rfl, rfl, rfl, rfl, rfl⟩

theorem State.withMau_background (x : Mau) : s.Background (s.withMau x) :=
  ⟨.of_eq rfl, rfl, rfl, rfl, rfl, rfl, rfl, rfl, rfl, rfl⟩

theorem State.withIvt_background (x : Ivt) : s.Background (s.withIvt x) :=
  ⟨.of_eq rfl, rfl, rfl, rfl, rfl, rfl, rfl, rfl, rfl, rfl⟩

theorem State.withClk_background (x : Nat) : s.Background (s.withClk x) :=
  ⟨.of_eq rfl, rfl, rfl, rfl, rfl, rfl, rfl, rfl, rfl, rfl⟩

theorem State.withPending_background (x : List Instr) : s.Background (s.withPending x) :=
  ⟨.of_eq rfl, rfl, rfl, rfl, rfl, rfl, rfl, rfl, rfl, rfl⟩

/-- Who holds the lock is in no table here. -/
theorem State.withLock_background (k : Option BusLock) : s.Background (s.withBfe { s.bfe with lock := k }) :=
  ⟨.of_eq rfl, rfl, rfl, rfl, rfl, rfl, rfl, rfl, rfl, rfl⟩

end

theorem State.atEvent_background (s : State) : s.Background s.atEvent :=
  (s.withPins_background s.pins.quiet).trans (State.withMau_background _ _)

theorem State.endPause_background (s : State) : s.Background (s.withWalker s.pdr.walker.endPause) :=
  State.withWalker_background rfl

theorem State.tellWalker_background (before s : State) : s.Background (State.tellWalker before s) := by
  unfold State.tellWalker
  split
  · split
    · exact s.endPause_background
    · exact .refl s
  · exact .refl s

/-! ### The lock -/

theorem State.releaseLock_background (s : State) : s.Background s.releaseLock :=
  (s.withLock_background none).trans
    (State.modifyHeld_background (fun _ a => by
      split
      · exact a.told_of_waits ..
      · exact .refl a) _)

theorem State.releaseLockOf_background (m : Master) (s : State) : s.Background (s.releaseLockOf m) := by
  unfold State.releaseLockOf
  split
  · split
    · exact s.releaseLock_background
    · exact .refl s
  · exact .refl s

theorem State.takeLock_background (m : Master) (w : WordAddr) (s : State) : s.Background (s.takeLock m w) :=
  (s.withLock_background (some ⟨m, w, some (s.clk + s.mnc.lockTimeout)⟩)).trans
    (State.modifyHeld_background (fun _ a => by
      split
      · exact a.told_of_waits ..
      · exact .refl a) _)

/-! ### The directory and the tracker -/

theorem State.createEntry_told {l : LineAddr} {kind : EntryKind} {t c : MasterSet} {s u : State}
    (h : s.createEntry l kind t c = some u) : s.SlotsTold u := by
  unfold State.createEntry at h
  split at h
  · cases h
  · cases h
    exact State.modifyHeld_told (fun _ a => by
      split
      · exact a.told_of_waits ..
      · exact .refl a) _

theorem State.fillLookup_told (m : Master) (l : LineAddr) (s : State) : s.SlotsTold (s.fillLookup m l).1 :=
  State.fillLookup_elim (P := s.SlotsTold) m l s (.refl s) (fun _ _ _ _ => .of_eq rfl) (.of_eq rfl)
    (fun _ _ _ => .of_eq rfl) (fun _ _ _ _ => .of_eq rfl) fun _ _ u _ _ _ _ hu =>
      (State.createEntry_told hu : s.SlotsTold u)

theorem State.fillLookup_background (m : Master) (l : LineAddr) (s : State) : s.Background (s.fillLookup m l).1 :=
  (State.fillLookup_work m l s).background (State.fillLookup_told m l s)

theorem State.endWayWait_background (o : LookupOutcome) (ms : List Master) (s : State) :
    s.Background (s.endWayWait o ms) :=
  foldl_holds _ s.Background
    (fun _ m h => h.trans (State.modifySlot_background m (Slot.told_afterLookup o) _)) ms s (.refl s)

theorem State.releaseFill_background (l : LineAddr) (s : State) (m : Master) : s.Background (s.releaseFill l m) := by
  unfold State.releaseFill
  split
  · split
    · split
      · split
        · exact (s.fillLookup_background m l).trans (State.modifySlot_background m (Slot.told_afterLookup _) _)
        · exact State.modifySlot_background m (Slot.told_afterLookup _) s
      · exact .refl s
    · exact .refl s
  · exact .refl s

theorem State.releaseLine_background (l : LineAddr) (s : State) : s.Background (s.releaseLine l) :=
  foldl_holds _ s.Background (fun u m h => h.trans (u.releaseFill_background l m)) s.rsa.order s (.refl s)

theorem State.writeTracker_told {a : Master} {l : LineAddr} {s u : State} (h : s.writeTracker a l = some u) :
    s.SlotsTold u := by
  cases hr : s.pdr.sets.recordOf l with
  | none =>
    unfold State.writeTracker at h
    rw [hr] at h
    cases h
    exact .refl s
  | some r =>
    rcases State.writeTracker_cases hr h with ⟨-, -, hrsa⟩ | ⟨hst, hne, -, -⟩
    · exact .of_eq (congrArg Rsa.slots hrsa)
    · obtain ⟨-, hcreate, -⟩ := State.writeTracker_found (a := a) hr
      rw [hcreate hst hne] at h
      obtain ⟨v, hv, rfl⟩ := Option.map_eq_some_iff.1 h
      exact (State.createEntry_told hv : s.SlotsTold v)

/-- A write step taken is background (R20 to R22). -/
theorem State.writeStep_background {a : Master} {l : LineAddr} {s u : State} (h : s.writeStep a l = some u) :
    s.Background u := by
  refine (State.writeStep_work h).background ?_
  obtain ⟨v, hv, rfl⟩ := Option.map_eq_some_iff.1 h
  exact (State.writeTracker_told hv).trans (.of_eq rfl)

theorem State.completeAtDirectory_background (e : TrackerEntry) (s : State) :
    s.Background (s.completeAtDirectory e) := by
  unfold State.completeAtDirectory
  dsimp only
  split
  · exact State.Background.trans (State.setRecords_background _ _ s) (State.releaseLine_background e.line _)
  all_goals
    split
    · exact .refl s
    · split
      · exact State.setRecords_background _ _ s
      · exact (State.setRecords_background _ _ s).trans (State.endWayWait_background _ _ _)

theorem State.lockReadsReleased_background (l : LineAddr) (s : State) : s.Background (s.lockReadsReleased l) :=
  State.modifyHeld_background (fun _ a => by
    split
    · exact a.told_of_waits ..
    · exact .refl a) s

theorem State.tellFreeEntry_background (s : State) : s.Background s.tellFreeEntry := by
  have htold : s.Background (s.modifyHeld fun _ sl =>
      if sl.waits.trackerWait then { sl with freeEntryTold := true } else sl) :=
    State.modifyHeld_background (fun _ a => by
      split
      · exact a.told_of_waits ..
      · exact .refl a) s
  unfold State.tellFreeEntry
  dsimp only
  split
  · split
    · exact htold.trans (State.endPause_background _)
    · exact htold
  · exact htold

theorem State.removeFromDirectory_background (m : Master) (a : AttachState) (s : State) :
    s.Background (s.removeFromDirectory m a) := by
  have hsets : s.Background
      (s.withPdr { s.pdr with sets := s.pdr.sets.mapRecords (LineRecord.withoutMaster m a) }) :=
    ⟨.of_eq rfl, rfl, rfl, rfl, rfl, rfl, rfl, rfl, rfl, rfl⟩
  unfold State.removeFromDirectory
  dsimp only
  split
  · refine hsets.trans (State.modifySlot_background m (fun sl => ?_) _)
    split
    · exact Slot.told_afterLookup _ sl
    · exact .refl sl
  · exact hsets

/-- The write step of a waiting LOCK-WRITE made again (R110). -/
theorem State.retryLockWrite_background (m : Master) (w : WordAddr) (s : State) :
    s.Background (s.retryLockWrite m w) := by
  unfold State.retryLockWrite
  split
  · rename_i u hu
    exact (State.writeStep_background hu).trans (State.modifySlot_background m (fun a => a.told_of_waits ..) u)
  · exact State.modifySlot_background m (fun a => a.told_of_waits ..) s

/-! ### Error records -/

section
variable {x : Doing} {s : State}

theorem State.pushError_moves (kind : ErrorKind) (m : Master) (address : Option Addr) :
    Moves x s x (s.pushError kind m address) := by
  rw [State.pushError_eq]
  exact (Move.error kind m address).moves

theorem State.recordFailure_moves (kind : LinkKind) (w : WordAddr) (m : Master) :
    Moves x s x (s.recordFailure kind w m) := by
  cases kind <;> exact State.pushError_moves _ _ _

theorem State.Background.moves {t : State} (h : s.Background t) : Moves x s x t := (Move.background h).moves

/-! ### Completions of tracker entries, and the slots that waited on them -/

/-- A walk that is done ends (R128). -/
theorem State.endWalkIfDone_moves : Moves x s x s.endWalkIfDone := by
  unfold State.endWalkIfDone
  split
  · split
    · exact .refl x s
    · rename_i hm
      exact (Move.swept hm).moves
    · rename_i hm
      exact (Move.retired hm).moves
  · exact .refl x s

theorem State.countWalkEntry_moves : Moves x s x s.countWalkEntry :=
  Moves.trans (State.Background.moves (State.withWalker_background (w := { s.pdr.walker with
    outstanding := s.pdr.walker.outstanding - 1 }) rfl)) State.endWalkIfDone_moves

/-- The completion of an entry (R45). -/
theorem State.completeEntry_moves (e : TrackerEntry) : Moves x s x (s.completeEntry e) := by
  have hgone : s.Background (s.withoutEntry e) := s.withIvt_background _
  have hreleased : Moves x s x (((s.withoutEntry e).completeAtDirectory e).lockReadsReleased e.line) :=
    ((hgone.trans (State.completeAtDirectory_background e _)).trans
      (State.lockReadsReleased_background e.line _)).moves
  have hcounted : Moves x s x (if e.kind = .walk then
      (((s.withoutEntry e).completeAtDirectory e).lockReadsReleased e.line).countWalkEntry
      else ((s.withoutEntry e).completeAtDirectory e).lockReadsReleased e.line) := by
    split
    · exact hreleased.trans State.countWalkEntry_moves
    · exact hreleased
  rw [State.completeEntry_eq]
  split
  · exact hcounted.trans (State.tellFreeEntry_background _).moves
  · exact hcounted

/-- A slot that may end may still end after it was told. -/
theorem Slot.MayEnd.told {a b : Slot} (h : a.MayEnd) (k : a.Told b) : b.MayEnd := by
  rcases h with ⟨hp, hq⟩ | ⟨hp, ⟨w, p, lanes, hq⟩, ha⟩
  · refine Or.inl ⟨k.phase.trans hp, ?_⟩
    rcases k.request with hr | hr <;> simp [hr, hq, SlotRequest.demoted]
  · refine Or.inr ⟨k.phase.trans hp, ⟨w, p, lanes, ?_⟩, k.arrived ▸ ha⟩
    rcases k.request with hr | hr <;> simp [hr, hq, SlotRequest.demoted]

/-- A slot that may end is answered. -/
theorem State.answer_moves {m : Master} {sl : Slot} (hsl : s.rsa.slots.get m = some sl) (he : sl.MayEnd) (a : Answer) :
    Moves .nothing s .nothing (s.makeReply m a) := (Move.ended hsl he).moves.trans (Move.answered a).moves

/-- A waiting SYNC or LOCK-WRITE is examined (R104, R112). -/
theorem State.settleSlot_moves (m : Master) : Moves .nothing s .nothing (s.settleSlot m) := by
  unfold State.settleSlot
  split
  · exact .refl _ s
  · rename_i sl hsl
    split
    · rename_i hp hq
      split
      · exact State.answer_moves hsl (Or.inl ⟨hp, hq⟩) _
      · exact .refl _ s
    · rename_i hp hq ha
      split
      · have hfree := s.releaseLockOf_background m
        obtain ⟨b, hb, htold⟩ := hfree.slots.get hsl
        have he : sl.MayEnd := Or.inr ⟨hp, ⟨_, _, _, hq⟩, by simp [ha]⟩
        exact hfree.moves.trans (State.answer_moves hb (he.told htold) _)
      · exact .refl _ s
    · exact .refl _ s

end

/-- Operations repeated over a list are moves when each is. -/
theorem foldl_moves {α : Type} {x : Doing} {f : State → α → State} (h : ∀ s a, Moves x s x (f s a)) (l : List α)
    (s : State) : Moves x s x (l.foldl f s) :=
  foldl_holds f (Moves x s x) (fun u a hu => hu.trans (h u a)) l s (.refl x s)

theorem State.settleWaiters_moves (s : State) : Moves .nothing s .nothing s.settleWaiters :=
  foldl_moves (fun _ m => State.settleSlot_moves m) s.rsa.order s

/-- The completions of one event (R45, R46). -/
theorem State.completeEntries_moves (es : List TrackerEntry) (s : State) :
    Moves .nothing s .nothing (s.completeEntries es) :=
  (foldl_moves (fun _ e => State.completeEntry_moves e) es s).trans (State.settleWaiters_moves _)

/-! ### A master that leaves -/

/-- The passage as far as the tracker's step (R135). -/
theorem State.departs_moves (m : Master) (a : AttachState) (s : State) :
    Moves .nothing s .nothing (s.departs m a) := by
  have hattach : s.Background (s.setAttach m a) := s.withMau_background _
  have hleft := hattach.trans (State.removeFromDirectory_background m a _)
  unfold State.departs State.releaseFromTracker
  refine Moves.trans ?_ (State.completeEntries_moves _ _)
  exact State.Background.moves (hleft.trans (State.withIvt_background _ _))

theorem State.withdrawGrant_moves (m : Master) (s : State) : Moves .nothing s .nothing (s.withdrawGrant m) := by
  unfold State.withdrawGrant
  split
  · exact Move.withdrawn.moves
  · exact .refl _ s

/-- The passage of m to IN_RESET (R135, R140). -/
theorem State.enterReset_moves (m : Master) (s : State) : Moves .nothing s .nothing (s.enterReset m) := by
  rw [State.enterReset_eq, State.concludes, if_pos rfl]
  refine Moves.trans ?_ (State.tellWalker_background _ _).moves
  refine Moves.trans ?_ (State.withdrawGrant_moves m _)
  refine Moves.trans ?_ (Move.retryLeft m).moves
  refine Moves.trans ?_ (State.releaseLockOf_background m _).moves
  exact (State.departs_moves m .inReset s).trans (Move.abandoned m).moves

/-- The passage of m to ISOLATED, with the records of its cause (R135 to R137). -/
theorem State.isolate_moves (m : Master) (timeout : Option LineAddr) (s : State) :
    Moves .nothing s .nothing (s.isolate m timeout) := by
  have hleft : Moves .nothing s .nothing (((s.departs m .isolated).releaseLockOf m).leaveRetryList m) :=
    ((State.departs_moves m .isolated s).trans (State.releaseLockOf_background m _).moves).trans
      (Move.retryLeft m).moves
  unfold State.isolate
  dsimp only
  refine Moves.trans ?_ (State.tellWalker_background _ _).moves
  split
  · exact hleft
  · split
    · exact (hleft.trans (State.pushError_moves ..)).trans (State.pushError_moves ..)
    · exact hleft.trans (State.pushError_moves ..)

end Sys2Proof.Machine
end

