-- ==== Sys2Proof/Proofs/MovesOfSteps.lean ====
section
/-! SUPPORT. Every command, and so every step, made of moves. -/

namespace Sys2Proof.Machine

/-! ### The acceptance of a request (R150) -/

section
variable {s : State}

/-- A request that is taken is handled, refused or lapses. -/
theorem State.accept_moves (r : RequestLines) (b : Bool) {handle : Master → State → State}
    (hh : ∀ m u, Moves (.taking m) u .nothing (handle m u)) : Moves .nothing s .nothing (s.accept r b handle) := by
  unfold State.accept
  split
  · exact .refl _ s
  · rename_i m hg
    have htaken : Moves .nothing s (.taking m) (s.clearGrant m r.sreq) := (Move.taken hg _).moves
    dsimp only
    split
    · exact htaken.trans Move.lapsed.moves
    · split
      · exact htaken.trans (hh m _)
      · rename_i k _
        split
        · exact htaken.trans Move.refused.moves
        · split
          · exact htaken.trans (hh m _)
          · have hfree := (s.clearGrant m r.sreq).releaseLock_background
            exact ((htaken.trans hfree.moves).trans (State.pushError_moves ..)).trans (hh m _)

/-- A new slot holds its request with the waits that the queue gives it (R59). -/
theorem State.newSlot_moves (m : Master) (q : SlotRequest) (w : WaitReasons) :
    Moves (.taking m) s .nothing (s.enterSlot m (s.newSlot q w)) :=
  (Move.held rfl rfl (Slot.withQueueWaits_queueWaits s (Slot.held q w))).moves

/-- A request that is no read and no WRITE to a device has none of the queue's waits (R59). -/
theorem queueWaits_of_neither {q : SlotRequest} {w : WaitReasons} (hq : q.isPlainRead = false)
    (hd : q.isDeviceAccess = false) (ho : w.overlap = false) (hb : w.bypassLimit = false)
    (he : w.queueEmptyWait = false) : QueueWaits s q w := by
  simp [QueueWaits, hq, hd, ho, hb, he]

theorem State.decided_moves (m k : Master) (q : SlotRequest) (a : Answer) (kind : ErrorKind) (address : Option Addr) :
    Moves (.taking m) s .nothing ((s.decideAtOnce m q a).pushError kind k address) :=
  (Move.decided q a).moves.trans (State.pushError_moves ..)

theorem QueueWaits.afterLookup {a : Slot} (h : QueueWaits s a.request a.waits) (o : LookupOutcome) :
    QueueWaits s (a.afterLookup o).request (a.afterLookup o).waits := by
  obtain ⟨phase, q, w, arrived, told⟩ := a
  cases o with
  | demoted => cases q <;> exact h
  | _ => exact h

theorem State.acceptReadLine_moves (r : RequestLines) (m : Master) :
    Moves (.taking m) s .nothing (s.acceptReadLine r m) := by
  unfold State.acceptReadLine
  dsimp only
  split
  · have hwaits : ∀ (u : State) q o, QueueWaits u ((u.newSlot q WaitReasons.none).afterLookup o).request
        ((u.newSlot q WaitReasons.none).afterLookup o).waits := fun u q o =>
      (Slot.withQueueWaits_queueWaits u (Slot.held q WaitReasons.none) :
        QueueWaits u (u.newSlot q WaitReasons.none).request (u.newSlot q WaitReasons.none).waits).afterLookup o
    exact (State.fillLookup_background m (requestLine r) s).moves.trans (Move.held rfl rfl (hwaits _ _ _)).moves
  · exact State.newSlot_moves m _ _

theorem State.placeWrite_moves {x : Doing} {m : Master} {w : WordAddr} {lanes : Lanes} {ans : QueueAnswer}
    (h : ans = .append → s.pwq.length < 16) : Moves x s x (s.placeWrite m w lanes ans) := by
  cases ans with
  | merge => exact (Move.merged lanes).moves
  | append => exact (Move.appended (h rfl) w lanes m).moves
  | deviceHold => exact .refl _ s
  | full => exact .refl _ s

theorem State.offer_append {m : Master} {w : WordAddr} (h : s.offer m w = .append) : s.pwq.length < 16 := by
  unfold State.offer at h
  split at h
  · cases h
  · split at h
    · cases h
    · split at h
      · assumption
      · cases h

/-- A posted write is refused, or makes its write step and is placed and answered (R98, R99). -/
theorem State.postWrite_moves (m : Master) (w : WordAddr) (lanes : Lanes) (p : Policy) :
    Moves (.taking m) s .nothing (s.postWrite m w lanes p) := by
  have hrefused : Moves (.taking m) s .nothing (s.refuse m) := Move.refused.moves
  unfold State.postWrite
  split
  · exact hrefused
  · exact hrefused
  · split
    · exact hrefused
    · rename_i u hu
      have hstep : s.Background u := by
        split at hu
        · exact State.writeStep_background hu
        · cases hu
          exact .refl s
      refine hstep.moves.trans (Moves.trans (State.placeWrite_moves fun ha => ?_) (Move.decided _ _).moves)
      rw [hstep.pwq]
      exact State.offer_append ha

theorem State.acceptWrite_moves (r : RequestLines) (m : Master) :
    Moves (.taking m) s .nothing (s.acceptWrite r m) := by
  unfold State.acceptWrite
  dsimp only
  split
  · exact State.decided_moves ..
  · split
    · exact State.decided_moves ..
    · split
      · exact State.newSlot_moves m _ _
      · exact State.postWrite_moves ..

/-- A LOCK-WRITE held, or refused its write step and held with TRACKER_WAIT (R110). -/
theorem State.joinPair_moves (k : BusLock) (m : Master) (w : WordAddr) (lanes : Lanes) :
    Moves (.taking m) s .nothing (s.joinPair k m w lanes) := by
  have hlock := s.withLock_background (some { k with deadline := none })
  have hheld : ∀ (u : State) p waiting, Moves (.taking m) u .nothing
      (u.enterSlot m (Slot.held (.lockWrite w p lanes) { WaitReasons.none with trackerWait := waiting })) :=
    fun u p waiting => (Move.held rfl rfl (queueWaits_of_neither rfl rfl rfl rfl rfl)).moves
  unfold State.joinPair
  dsimp only
  split
  · split
    · rename_i u hu
      exact (hlock.trans (State.writeStep_background hu)).moves.trans (hheld u _ false)
    · exact hlock.moves.trans (hheld _ _ true)
  · exact hlock.moves.trans (hheld _ _ false)

theorem State.acceptLockWrite_moves (r : RequestLines) (m : Master) :
    Moves (.taking m) s .nothing (s.acceptLockWrite r m) := by
  have hfree : Moves (.taking m) s (.taking m) s.releaseLock := s.releaseLock_background.moves
  unfold State.acceptLockWrite
  dsimp only
  split
  · exact State.decided_moves ..
  · split
    · exact hfree.trans (State.decided_moves ..)
    · split
      · exact hfree.trans (State.decided_moves ..)
      · split
        · exact hfree.trans (State.decided_moves ..)
        · exact State.joinPair_moves ..

theorem State.acceptSync_moves (m : Master) : Moves (.taking m) s .nothing (s.acceptSync m) := by
  unfold State.acceptSync
  split
  · exact (Move.decided _ _).moves
  · exact (Move.held rfl rfl (queueWaits_of_neither rfl rfl rfl rfl rfl)).moves

/-! ### Issue (R168 to R170) -/

theorem State.oldestEligible_slot {kind : SlotRequest → Bool} {m : Master} {q : SlotRequest}
    (h : s.oldestEligible kind = some (m, q)) :
    ∃ sl, s.rsa.slots.get m = some sl ∧ sl.eligible = true ∧ sl.request = q ∧ kind q = true := by
  obtain ⟨k, -, hk⟩ := List.exists_of_findSome?_eq_some h
  split at hk
  · rename_i sl hsl
    split at hk
    · rename_i hboth
      rw [Bool.and_eq_true] at hboth
      cases hk
      exact ⟨sl, hsl, hboth.1, rfl, hboth.2⟩
    · cases hk
  · cases hk

/-- What stands behind the choice of an issue event. -/
theorem State.issueChoice_cases {c : Candidate} (h : s.issueChoice = some c) :
    (∃ m rest, c = .continuation m ∧ s.mlc.continuations = m :: rest) ∨
    (∃ m q, c = .unposted m q ∧ s.oldestEligible SlotRequest.isUnpostedWrite = some (m, q)) ∨
    (∃ m q, c = .read m q ∧ s.oldestEligible SlotRequest.isRead = some (m, q)) ∨
    ∃ e, c = .queued e ∧ s.pwq.find? (fun e => e.phase == .waiting) = some e := by
  unfold State.issueChoice at h
  rcases Option.or_eq_some_iff.1 h with h | ⟨-, h⟩
  · rcases Option.or_eq_some_iff.1 h with h | ⟨-, h⟩
    · obtain ⟨m, hm, rfl⟩ := Option.map_eq_some_iff.1 h
      obtain ⟨rest, hrest⟩ := List.head?_eq_some_iff.1 hm
      exact Or.inl ⟨m, rest, rfl, hrest⟩
    · obtain ⟨⟨m, q⟩, hm, rfl⟩ := Option.map_eq_some_iff.1 h
      exact Or.inr (Or.inl ⟨m, q, rfl, hm⟩)
  · rcases Option.or_eq_some_iff.1 h with h | ⟨-, h⟩
    · obtain ⟨⟨m, q⟩, hm, rfl⟩ := Option.map_eq_some_iff.1 h
      exact Or.inr (Or.inr (Or.inl ⟨m, q, rfl, hm⟩))
    · obtain ⟨e, he, rfl⟩ := Option.map_eq_some_iff.1 h
      exact Or.inr (Or.inr (Or.inr ⟨e, rfl, he⟩))

theorem State.freeTag_free {tag : BitVec 2} (h : s.freeTag = some tag) : ∀ i ∈ s.mlc.inFlight, i.tag ≠ tag := by
  simpa using List.find?_some h

/-- The issue of a read: its slot ISSUED, the counts raised, and the request driven (R61, R89, R170). -/
theorem State.issueRead_moves {tag : BitVec 2} (hd : s.CanDrive tag) {m : Master} {q : SlotRequest}
    (h : s.oldestEligible SlotRequest.isRead = some (m, q)) : Moves .nothing s .nothing (s.issueRead tag m q) := by
  obtain ⟨sl, hsl, he, hq, hkind⟩ := State.oldestEligible_slot h
  cases q with
  | read w p => exact (Move.wordReadIssued hd hsl he (Or.inl hq)).moves
  | lockRead w p =>
    exact (Move.wordReadIssued hd hsl he (Or.inr hq)).moves.trans (State.takeLock_background m w _).moves
  | readLine l p mode =>
    refine (Move.lineReadIssued hd hsl he hq).moves.trans ?_
    unfold State.issueRead
    dsimp only
    split
    · exact State.Background.moves (State.setRecords_background _ _ _)
    · exact .refl _ _
  | write => cases hkind
  | lockWrite => cases hkind
  | sync => cases hkind
  | noKind => cases hkind

theorem State.issueUnposted_moves {tag : BitVec 2} (hd : s.CanDrive tag) {m : Master} {q : SlotRequest}
    (h : s.oldestEligible SlotRequest.isUnpostedWrite = some (m, q)) :
    Moves .nothing s .nothing (s.issueUnposted tag m q) := by
  obtain ⟨sl, hsl, he, hq, hkind⟩ := State.oldestEligible_slot h
  cases q with
  | write w p lanes => exact (Move.unpostedIssued hd hsl he (Or.inl hq)).moves
  | lockWrite w p lanes => exact (Move.unpostedIssued hd hsl he (Or.inr hq)).moves
  | read => cases hkind
  | readLine => cases hkind
  | lockRead => cases hkind
  | sync => cases hkind
  | noKind => cases hkind

theorem State.issue_moves {tag : BitVec 2} (hd : s.CanDrive tag) {c : Candidate} (h : s.issueChoice = some c) :
    Moves .nothing s .nothing (s.issue tag c) := by
  rcases State.issueChoice_cases h with ⟨m, rest, rfl, hc⟩ | ⟨m, q, rfl, hm⟩ | ⟨m, q, rfl, hm⟩ | ⟨e, rfl, he⟩
  · unfold State.issue State.issueContinuation
    rw [hc]
    dsimp only [List.tail_cons]
    split
    · rename_i a ha
      exact (Move.continuationIssued hd hc ha).moves
    · rename_i ha
      exact (Move.continuationStray hc ha).moves
  · exact State.issueUnposted_moves hd hm
  · exact State.issueRead_moves hd hm
  · exact (Move.queuedIssued hd he).moves

/-! ### Completion (R171 to R174) -/

theorem State.queueWriteEnds_moves {i : InFlight} {k : Master} (ho : i.origin = .queue k) (en : Ending) :
    Moves (.delivering i) s .nothing (s.queueWriteEnds en) := by
  unfold State.queueWriteEnds
  split
  · exact (Move.queueStray ho ‹_›).moves
  · rename_i e rest h
    have hended : Moves (.delivering i) s .nothing (s.withPwq rest).refreshQueueWaits := (Move.queueEnded ho h).moves
    refine Moves.trans ?_ (State.settleSlot_moves _)
    cases en with
    | ok => exact hended
    | fail =>
      have hrecord := hended.trans
        (State.pushError_moves .memWriteFail e.source (some (addrOfWord e.word)))
      exact hrecord.trans (State.withMau_background _ _).moves

/-- An unposted write's completion: a WRITE to a device is answered, a LOCK-WRITE's completion is kept until its end
(R102, R112, R172). -/
theorem State.unpostedEnds_moves {i : InFlight} {m : Master} (ho : i.origin = .unposted m) (w : WordAddr)
    (en : Ending) : Moves (.delivering i) s .nothing (s.unpostedEnds m w en) := by
  have hrecord : Moves (.delivering i) s (.delivering i) (if en = .fail then s.recordFailure .wrWord w m else s) := by
    split
    · exact State.recordFailure_moves ..
    · exact .refl _ s
  unfold State.unpostedEnds
  dsimp only
  refine hrecord.trans ?_
  generalize (if en = .fail then s.recordFailure .wrWord w m else s) = u
  split
  · rename_i sl hsl
    split
    · split
      · rename_i hq
        exact (Move.pairArrived ho hsl hq en).moves.trans (State.settleSlot_moves m)
      · rename_i hq
        exact (Move.unpostedEnded ho hsl hq).moves.trans (Move.answered _).moves
    · rename_i hq
      refine (Move.unpostedStray ho fun sl' hsl' => ?_).moves
      cases hsl.symm.trans hsl'
      exact Bool.eq_false_iff.2 hq
  · rename_i hnone
    exact (Move.unpostedStray ho fun sl' hsl' => by simp [hnone] at hsl').moves

theorem State.wordReadEnds_moves {i : InFlight} {m : Master} (ho : i.ReadsFor m) (hk : i.kind = .rdWord) (w : WordAddr)
    (st : CompletionStatus) (c : CompletionLines) : Moves (.delivering i) s .nothing (s.wordReadEnds m w st c) := by
  unfold State.wordReadEnds
  split
  · exact (Move.wordReadEnded ho hk).moves.trans (Move.answered _).moves
  · have hfailed : Moves (.delivering i) s .nothing ((s.recordFailure .rdWord w m).makeReply m .err) :=
      ((State.recordFailure_moves ..).trans (Move.wordReadEnded ho hk).moves).trans (Move.answered _).moves
    dsimp only
    split
    · split
      · exact hfailed.trans (State.releaseLockOf_background m _).moves
      · exact hfailed
    · exact hfailed

/-- A SHORT completion delivers some words and not all (R167). -/
theorem completionStatus_short {kind : LinkKind} {w : WordAddr} {c : CompletionLines} {n : Nat}
    (h : completionStatus kind w c = .short n) : 1 ≤ n ∧ n < wordsAsked kind w := by
  unfold completionStatus at h
  dsimp only at h
  split at h
  · cases h
  · split at h
    · split at h
      · split at h
        · cases h
          assumption
        · cases h
      · split at h
        · cases h
          assumption
        · cases h
      · cases h
      · cases h
    · cases h

/-- The parts of a fill: a SHORT adds words, and any other status ends the fill (R173, R174). -/
theorem State.lineReadEnds_moves {i : InFlight} {m : Master} (ho : i.ReadsFor m) (hk : i.kind ≠ .rdWord)
    (c : CompletionLines) : Moves (.delivering i) s .nothing
      (s.lineReadEnds m (wordsAsked i.kind i.word) (completionStatus i.kind i.word c) c) := by
  unfold State.lineReadEnds
  split
  · exact (Move.lineReadStray ho hk ‹_›).moves
  · rename_i a ha
    have hended : Moves (.delivering i) s (.answering m) (s.withMlc (s.mlc.assembling m none)) :=
      (Move.lineReadEnded ho hk).moves
    split
    · unfold State.fillEnds
      dsimp only
      split
      · exact (hended.trans (State.setRecords_background _ _ _).moves).trans (Move.answered _).moves
      · exact hended.trans (Move.answered _).moves
    · rename_i n hst
      obtain ⟨hn, hlt⟩ := completionStatus_short hst
      have hlen : (deliveredWords c n).length = n := by
        have hle : wordsAsked i.kind i.word ≤ 8 := by
          cases i.kind <;> simp [wordsAsked]
        simp [deliveredWords]
        omega
      exact (Move.partArrived ho hk ha (List.ne_nil_of_length_pos (by omega)) (hlen.symm ▸ hlt)).moves
    · unfold State.fillFails
      dsimp only
      have hrecord := hended.trans (State.recordFailure_moves .rdLine (wordOfLine a.line 0) m)
      refine hrecord.trans (Moves.trans ?_ (Move.answered _).moves)
      split
      · exact (State.setRecords_background _ _ _).moves
      · exact .refl _ _

theorem State.handOver_moves (i : InFlight) (c : CompletionLines) :
    Moves (.delivering i) s .nothing (s.handOver i (completionStatus i.kind i.word c) c) := by
  have hread : ∀ m, i.ReadsFor m → Moves (.delivering i) s .nothing
      (if i.kind = .rdWord then s.wordReadEnds m i.word (completionStatus i.kind i.word c) c
        else s.lineReadEnds m (wordsAsked i.kind i.word) (completionStatus i.kind i.word c) c) := fun m ho => by
    split
    · exact State.wordReadEnds_moves ho ‹_› ..
    · exact State.lineReadEnds_moves ho ‹_› c
  unfold State.handOver
  split
  · exact State.queueWriteEnds_moves ‹_› _
  · exact State.unpostedEnds_moves ‹_› _ _
  · exact hread _ (Or.inl ‹_›)
  · exact hread _ (Or.inr ‹_›)

theorem State.discarded_moves {x : Doing} (i : InFlight) (st : CompletionStatus) :
    Moves x s x (s.discarded i st) := by
  unfold State.discarded
  split
  · exact State.recordFailure_moves ..
  · exact State.recordFailure_moves ..
  · exact State.recordFailure_moves ..
  · exact .refl _ s

/-! ### The walker's visits (R124 to R129) -/

theorem State.evictForWalk_background (i : Nat) (r : LineRecord) (s : State) : s.Background (s.evictForWalk i r) := by
  unfold State.evictForWalk
  split
  · exact State.withWalker_background rfl
  · rename_i u hu
    have hcreated := (State.createEntry_work hu).background (State.createEntry_told hu)
    exact (hcreated.trans (State.setRecords_background i _ u)).trans (State.withWalker_background rfl)

theorem State.dropSuccessor_background (i : Nat) (r : LineRecord) (s : State) :
    s.Background (s.dropSuccessor i r) := by
  unfold State.dropSuccessor
  split
  · split
    · exact (State.setRecords_background i _ s).trans (State.endWayWait_background _ _ _)
    · exact .refl s
  · exact .refl s

/-- A visit to a record (R125, R126, R129). -/
theorem State.examine_background (i : Nat) (r : LineRecord) (s : State) : s.Background (s.examine i r) := by
  have hwalker : ∀ (u : State) w, w.mode = u.pdr.walker.mode → s.Background u → s.Background (u.withWalker w) :=
    fun u w hw hu => hu.trans (State.withWalker_background hw)
  unfold State.examine
  dsimp only
  split
  · split
    · exact hwalker s _ rfl (.refl s)
    · split
      · exact hwalker _ _ rfl (State.setRecords_background i _ s)
      · split
        · exact hwalker s _ rfl (.refl s)
        · exact State.evictForWalk_background i r s
  · split <;> exact hwalker s _ rfl (.refl s)
  · split <;> exact hwalker _ _ rfl (State.dropSuccessor_background i r s)

theorem State.visitNext_moves (i : Nat) : Moves .nothing s .nothing (s.visitNext i) := by
  unfold State.visitNext
  split
  · exact (State.examine_background i _ s).moves
  · unfold State.leaveSet
    split
    · exact State.Background.moves (State.withWalker_background rfl)
    · exact Moves.trans (State.Background.moves (State.withWalker_background (w := { s.pdr.walker with
        set := none, visited := [], draining := true }) rfl)) State.endWalkIfDone_moves

theorem State.visitPaused_moves (i : Nat) (p : Pause) : Moves .nothing s .nothing (s.visitPaused i p) := by
  unfold State.visitPaused
  split
  · exact (State.examine_background i _ s).moves
  · split
    · exact State.Background.moves (State.withWalker_background rfl)
    · exact State.visitNext_moves i

/-! ### The maintenance commands (chapter 10) -/

theorem State.setRegion_moves (n : Byte) (base pages : BitVec 32) (policy : Byte) :
    Moves .nothing s .nothing (s.setRegion n base pages policy).1 := by
  unfold State.setRegion
  split
  · exact .refl _ s
  · split
    · exact .refl _ s
    · rename_i hfree
      split
      · exact .refl _ s
      · rename_i hr
        split
        · exact .refl _ s
        · rename_i hapart
          refine (Move.regionSet (by simpa using hfree) hr fun q hq => ?_).moves
          exact Bool.eq_false_iff.2 fun ho => hapart (List.any_eq_true.2 ⟨q, hq, ho⟩)

theorem State.retireRegion_moves (n : Byte) : Moves .nothing s .nothing (s.retireRegion n).1 := by
  unfold State.retireRegion
  split
  · exact .refl _ s
  · split
    · exact .refl _ s
    · rename_i hm
      split
      · exact (Move.retireStarted (Decidable.not_not.1 hm) ‹_›).moves
      · exact (Move.regionCleared ‹_› rfl).moves
      · exact .refl _ s
      · exact .refl _ s

theorem State.sweep_moves : Moves .nothing s .nothing s.sweep.1 := by
  unfold State.sweep
  split
  · exact .refl _ s
  · exact (Move.sweepStarted (Decidable.not_not.1 ‹_›)).moves

theorem State.setLimits_moves (i l : BitVec 16) (b : Byte) : Moves .nothing s .nothing (s.setLimits i l b).1 := by
  unfold State.setLimits
  split
  · exact (Move.limits ‹_›).moves
  · exact .refl _ s

theorem State.isolateCommand_moves (n : Byte) : Moves .nothing s .nothing (s.isolateCommand n).1 := by
  unfold State.isolateCommand
  split
  · exact .refl _ s
  · split
    · exact State.isolate_moves _ none s
    · exact .refl _ s

theorem State.joinCommand_moves (n : Byte) : Moves .nothing s .nothing (s.joinCommand n).1 := by
  unfold State.joinCommand
  split
  · exact .refl _ s
  · split
    · exact (s.withMau_background _).moves
    · exact .refl _ s

/-- Every command starts from the event's state (logs 4 and 7). -/
theorem State.atEvent_moves (s : State) : Moves .nothing s .nothing s.atEvent := s.atEvent_background.moves

/-- A command of the port is carried out and answered with no record (R177). -/
theorem State.takeCommand_moves {c : Instr} {f : State → State × List Byte} {t : State}
    (hf : Moves .nothing s.atEvent .nothing (f s.atEvent).1) (ht : s.takeCommand c f = .next t) :
    Moves .nothing s .nothing t := by
  unfold State.takeCommand at ht
  dsimp only at ht
  split at ht
  · cases ht
    exact (s.atEvent_moves.trans hf).trans (Move.port (by simp)).moves
  · cases ht
    exact s.atEvent_moves

theorem exec_maintenance_moves {c : Instr} {t : State} (hc : commandFrame c ≠ []) (ht : exec c s = .next t) :
    Moves .nothing s .nothing t := by
  cases c with
  | getStatus => exact State.takeCommand_moves (c := .getStatus) (f := fun s => (s, s.statusFrame)) (.refl _ _) ht
  | getRegion n =>
    refine State.takeCommand_moves (f := State.getRegion n) ?_ ht
    rw [State.getRegion_fst]
    exact .refl _ _
  | setRegion n base pages policy => exact State.takeCommand_moves (State.setRegion_moves n base pages policy) ht
  | retireRegion n => exact State.takeCommand_moves (State.retireRegion_moves n) ht
  | sweep => exact State.takeCommand_moves State.sweep_moves ht
  | getRecord set way =>
    refine State.takeCommand_moves (f := State.getRecord set way) ?_ ht
    rw [State.getRecord_fst]
    exact .refl _ _
  | setLimits i l b => exact State.takeCommand_moves (State.setLimits_moves i l b) ht
  | isolate n => exact State.takeCommand_moves (State.isolateCommand_moves n) ht
  | join n => exact State.takeCommand_moves (State.joinCommand_moves n) ht
  | takeError =>
    simp only [exec, execTakeError] at ht
    split at ht <;> cases ht
    · exact s.atEvent_moves.trans (Move.errorShown _ _).moves
    · exact s.atEvent_moves
  | unknownCommand code =>
    exact State.takeCommand_moves (c := .unknownCommand code) (f := fun s => (s, [statusBadArg])) (.refl _ _) ht
  | _ => exact absurd rfl hc

/-! ### Every command and every step -/

theorem State.grantChoice_grantable {m : Master} (h : s.grantChoice = some m) : s.grantable m = true := by
  unfold State.grantChoice at h
  rcases Option.or_eq_some_iff.1 h with h | ⟨-, h⟩
  · exact List.find?_some h
  · exact List.find?_some h

theorem State.answerHead_moves (m : Master) (l : LineAddr) (rest : List LineAddr) :
    Moves .nothing s .nothing (s.answerHead m l rest) := by
  unfold State.answerHead
  exact Moves.trans (s.withIvt_background _).moves (State.completeEntries_moves _ _)

/-- A reply that is sent leaves the queue, and the slot that made it is EMPTY (R155). -/
theorem State.afterSend_moves {r : Reply} {rest : List Reply} (h : s.bfe.replies = r :: rest) (p : Pins) :
    Moves .nothing s .nothing (((s.withBfe { s.bfe with replies := rest }).withPins p).afterSend r) := by
  have hsent : Moves .nothing s .nothing (if r.body = .retry then (s.withBfe { s.bfe with replies := rest }).withPins p
      else ((s.withBfe { s.bfe with replies := rest }).withPins p).emptySlot r.master) := by
    split
    · exact (Move.retrySent h ‹_›).moves.trans (State.withPins_background _ p).moves
    · exact (Move.answerSent h ‹_›).moves.trans (State.withPins_background _ p).moves
  unfold State.afterSend
  dsimp only
  split
  · exact hsent.trans (State.withMau_background _ _).moves
  · exact hsent

theorem execWalkerVisit_moves {t : State} (ht : execWalkerVisit s = .next t) : Moves .nothing s .nothing t := by
  unfold execWalkerVisit at ht
  dsimp only at ht
  split at ht
  · cases ht
    exact s.atEvent_moves
  · split at ht
    · cases ht
      exact s.atEvent_moves
    · have hcleared : Moves .nothing s .nothing
          (s.atEvent.withWalker { s.atEvent.pdr.walker with pause := none }) :=
        s.atEvent_moves.trans (State.Background.moves (State.withWalker_background rfl))
      split at ht
      · cases ht
        exact hcleared.trans (State.visitPaused_moves _ _)
      · cases ht
        exact hcleared.trans (State.visitNext_moves _)

theorem exec_moves {c : Instr} {t : State} (ht : exec c s = .next t) : Moves .nothing s .nothing t := by
  have hstart := s.atEvent_moves
  have hpins : ∀ p : Pins, Moves .nothing s .nothing (s.atEvent.withPins p) := fun p =>
    hstart.trans (State.withPins_background _ p).moves
  have hmau : ∀ u : Mau, Moves .nothing s .nothing (s.atEvent.withMau u) := fun u =>
    hstart.trans (State.withMau_background _ u).moves
  have hclk : ∀ n : Nat, Moves .nothing s .nothing (s.atEvent.withClk n) := fun n =>
    hstart.trans (State.withClk_background _ n).moves
  have htold : ∀ (before u : State), Moves .nothing s .nothing u →
      Moves .nothing s .nothing (State.tellWalker before u) := fun before u hu =>
    hu.trans (State.tellWalker_background before u).moves
  by_cases hf : commandFrame c ≠ []
  · exact exec_maintenance_moves hf ht
  cases c with
  | chipReset mpres mrst =>
    cases ht
    exact (Move.reset ..).moves
  | grant sreq =>
    have hseen : Moves .nothing s .nothing (s.atEvent.seeRequestLines sreq) := hpins _
    simp only [exec, execGrant] at ht
    split at ht <;> cases ht
    · exact hseen.trans (Move.granted (State.grantChoice_grantable ‹_›)).moves
    · exact hseen
  | read r =>
    cases ht
    exact hstart.trans (State.accept_moves r false fun m u => State.newSlot_moves m _ _)
  | readLine r =>
    cases ht
    exact htold _ _ (hstart.trans (State.accept_moves r false fun m u => u.acceptReadLine_moves r m))
  | write r =>
    cases ht
    exact htold _ _ (hstart.trans (State.accept_moves r false fun m u => u.acceptWrite_moves r m))
  | lockRead r =>
    cases ht
    exact hstart.trans (State.accept_moves r false fun m u => State.newSlot_moves m _ _)
  | lockWrite r =>
    cases ht
    exact htold _ _ (hstart.trans (State.accept_moves r true fun m u => u.acceptLockWrite_moves r m))
  | sync r =>
    cases ht
    exact hstart.trans (State.accept_moves r false fun m u => u.acceptSync_moves m)
  | malformedRequest k r =>
    simp only [exec, execMalformedRequest] at ht
    split at ht <;> cases ht
    · exact hstart.trans (State.accept_moves r false fun m u => State.decided_moves ..)
    · exact hstart
  | requestLineFall m =>
    cases ht
    exact (hpins _).trans (State.withdrawGrant_moves m _)
  | replySend =>
    simp only [exec, execReplySend] at ht
    split at ht <;> cases ht
    · exact hstart
    · exact hstart.trans (State.afterSend_moves ‹_› _)
  | issueEvent mrdy =>
    have hseen := hpins { s.atEvent.pins with mrdy := mrdy }
    simp only [exec, execIssueEvent] at ht
    split at ht
    · rename_i hroom
      split at ht <;> cases ht
      · exact htold _ _ (hseen.trans (State.issue_moves ⟨hroom.1, State.freeTag_free ‹_›⟩ ‹_›))
      · exact hseen
    · cases ht
      exact hseen
  | mrlCompletion c =>
    simp only [exec, execMrlCompletion] at ht
    split at ht
    · cases ht
      exact hstart
    · rename_i i rest hlist
      split at ht <;> cases ht
      · exact (hstart.trans (Move.dropped hlist ‹_›).moves).trans (State.discarded_moves i _)
      · exact htold _ _ ((hstart.trans (Move.delivered hlist (Bool.eq_false_iff.2 ‹_›)).moves).trans
          (State.handOver_moves i c))
  | sendEvent =>
    simp only [exec, execSendEvent] at ht
    split at ht <;> cases ht
    · exact hstart
    · exact (hstart.trans (State.withIvt_background _ _).moves).trans (State.withPins_background _ _).moves
  | acknowledge m =>
    simp only [exec, execAcknowledge] at ht
    split at ht
    · cases ht
      exact hstart
    · cases ht
      exact hstart
    · cases ht
      exact hstart.trans (State.pushError_moves ..)
    · split at ht <;> cases ht
      · exact hstart.trans (State.pushError_moves ..)
      · exact htold _ _ (hstart.trans (State.answerHead_moves ..))
  | timerExpiry m =>
    simp only [exec, execTimerExpiry] at ht
    split at ht
    · rename_i d l _ _ _
      split at ht <;> cases ht
      · exact (hclk _).trans (State.isolate_moves m (some l) _)
      · exact hstart
    · cases ht
      exact hstart
  | lockTimeout =>
    simp only [exec, execLockTimeout] at ht
    split at ht <;> cases ht
    · exact ((hclk _).trans (State.releaseLock_background _).moves).trans (State.pushError_moves ..)
    · exact hstart
  | resetNoticeRise m =>
    have hseen : Moves .nothing s .nothing (s.atEvent.seeResetNotice m true) := hmau _
    simp only [exec, execResetNoticeRise] at ht
    split at ht <;> cases ht
    · exact hseen.trans (State.enterReset_moves m _)
    · exact hseen.trans (State.enterReset_moves m _)
    · exact hseen
    · exact hseen
  | resetNoticeFall m =>
    simp only [exec, execResetNoticeFall] at ht
    split at ht <;> cases ht
    · exact Moves.trans (hmau _) (State.withMau_background _ _).moves
    all_goals exact hmau _
  | walkerVisit => exact execWalkerVisit_moves ht
  | trackerWaitRetry m =>
    simp only [exec, execTrackerWaitRetry] at ht
    split at ht
    · split at ht <;> cases ht
      · exact htold _ _ (hstart.trans (State.retryLockWrite_background m _ _).moves)
      · exact hstart
    · cases ht
      exact hstart
  | spiSelect =>
    simp only [exec, execSpiSelect] at ht
    split at ht <;> cases ht
    · exact hstart
    · exact (hpins _).trans (Move.port (by simp)).moves
  | responseEnd =>
    simp only [exec, execResponseEnd] at ht
    split at ht <;> cases ht
    · split
      · exact hstart.trans Move.errorTaken.moves
      · exact hstart.trans (Move.port (by simp)).moves
    all_goals exact hstart
  | deselect =>
    cases ht
    exact (hpins _).trans (Move.port (by simp)).moves
  | _ => exact absurd (by simp [commandFrame]) hf

/-- Every step is made of moves. -/
theorem step_moves {t : State} (ht : step s = .next t) : Moves .nothing s .nothing t := by
  unfold step at ht
  split at ht
  · cases ht
    exact (s.withClk_background _).moves
  · rename_i c rest _
    exact (s.withPending_background rest).moves.trans (exec_moves ht)

/-- What every move keeps, every step keeps. -/
theorem step_keeps {P : Doing → State → Prop} (hP : ∀ x s y t, Move x s y t → P x s → P y t) {t : State}
    (hs : P .nothing s) (ht : step s = .next t) : P .nothing t := (step_moves ht).keep hP hs

end

end Sys2Proof.Machine
end

