-- ==== Sys2Proof/Proofs/WaitsInLine.lean ====
section
/-! PROOFS. The waits that the queue gives to the HELD slots, and the bypass counts (R59, R60, R61, R89, R91). -/

namespace Sys2Proof.Machine

/-! ### The queue's waits of a slot that was told something -/

@[simp] theorem SlotRequest.demoted_isPlainRead (q : SlotRequest) : q.demoted.isPlainRead = q.isPlainRead := by
  cases q <;> rfl

@[simp] theorem SlotRequest.demoted_isDeviceAccess (q : SlotRequest) :
    q.demoted.isDeviceAccess = q.isDeviceAccess := by
  cases q <;> rfl

@[simp] theorem SlotRequest.demoted_spans (q : SlotRequest) (w : WordAddr) : q.demoted.spans w = q.spans w := by
  cases q <;> rfl

section
variable {s t : State}

/-- A demotion changes no condition of the queue's waits (R59, R64). -/
theorem QueueWaits.told {a b : Slot} (h : QueueWaits s a.request a.waits) (k : a.Told b) :
    QueueWaits s b.request b.waits := by
  unfold QueueWaits at h ⊢
  rw [k.overlap, k.bypassLimit, k.queueEmptyWait]
  rcases k.request with hq | hq
  · rw [hq]
    exact h
  · simpa only [hq, SlotRequest.demoted_isPlainRead, SlotRequest.demoted_isDeviceAccess,
      SlotRequest.demoted_spans] using h

theorem QueueWaits.of_queue {q : SlotRequest} {w : WaitReasons} (h : QueueWaits s q w) (hpwq : t.pwq = s.pwq)
    (hlimit : t.mnc.bypassLimit = s.mnc.bypassLimit) : QueueWaits t q w := by
  unfold QueueWaits
  rw [hpwq, hlimit]
  exact h

/-- With queue and limit as they were, it is enough to look at the HELD slots. -/
theorem WaitsFollowQueue.of_slots (h : WaitsFollowQueue s) (hpwq : t.pwq = s.pwq)
    (hlimit : t.mnc.bypassLimit = s.mnc.bypassLimit)
    (hslots : ∀ m sl, t.rsa.slots.get m = some sl → sl.phase = .held → s.rsa.slots.get m = some sl ∨
      QueueWaits s sl.request sl.waits) : WaitsFollowQueue t := by
  obtain ⟨hwaits, hcounts, hbounds⟩ := h
  refine ⟨fun m sl hsl hp => ?_, hpwq ▸ hcounts, hlimit ▸ hbounds⟩
  refine QueueWaits.of_queue ?_ hpwq hlimit
  exact (hslots m sl hsl hp).elim (fun hs => hwaits m sl hs hp) id

/-- HELD slots that were brought into line are in line (R60). -/
theorem waitsFollowQueue_refreshed (hcounts : ∀ e ∈ s.pwq, e.count ≤ 15) (hlow : 1 ≤ s.mnc.bypassLimit)
    (hhigh : s.mnc.bypassLimit ≤ 15) : WaitsFollowQueue s.refreshQueueWaits := by
  refine ⟨fun m sl hsl hp => ?_, hcounts, hlow, hhigh⟩
  unfold State.refreshQueueWaits at hsl
  rw [State.modifyHeld_get] at hsl
  obtain ⟨a, -, rfl⟩ := Option.map_eq_some_iff.1 hsl
  split
  · exact Slot.withQueueWaits_queueWaits s a
  · rename_i hn
    rw [if_neg hn] at hp
    exact absurd hp hn

/-- It is enough to look at the one slot that was replaced. -/
theorem WaitsFollowQueue.of_set (h : WaitsFollowQueue s) {m : Master} {o : Option Slot}
    (ho : ∀ sl, o = some sl → sl.phase = .held → QueueWaits s sl.request sl.waits)
    (hslots : t.rsa.slots = s.rsa.slots.set m o) (hpwq : t.pwq = s.pwq)
    (hlimit : t.mnc.bypassLimit = s.mnc.bypassLimit) : WaitsFollowQueue t := by
  refine h.of_slots hpwq hlimit fun k sl hsl hp => ?_
  rw [hslots, PerMaster.get_set] at hsl
  split at hsl
  · exact Or.inr (ho sl hsl hp)
  · exact Or.inl hsl

theorem WaitsFollowQueue.background (h : WaitsFollowQueue s) (k : s.Background t) : WaitsFollowQueue t := by
  refine h.of_slots k.pwq (congrArg Mnc.bypassLimit k.mnc) fun m b hb hp => Or.inr ?_
  have hm := k.slots m
  rw [hb] at hm
  generalize ha : s.rsa.slots.get m = o at hm
  cases hm with
  | some htold => exact QueueWaits.told (h.1 m _ ha (htold.phase ▸ hp)) htold

/-! ### The bypass counts -/

theorem mem_mergeYoungest {lanes : Lanes} {q : List QueueEntry} {e : QueueEntry} (h : e ∈ mergeYoungest lanes q) :
    ∃ f ∈ q, e.count = f.count := by
  induction q using mergeYoungest.induct with
  | case1 => exact absurd h List.not_mem_nil
  | case2 f => exact ⟨f, List.mem_singleton_self f, by rw [List.mem_singleton.1 h]⟩
  | case3 f g q ih =>
    rcases List.mem_cons.1 h with rfl | h
    · exact ⟨e, List.mem_cons_self, rfl⟩
    · obtain ⟨x, hx, hcount⟩ := ih h
      exact ⟨x, List.mem_cons_of_mem _ hx, hcount⟩

theorem mem_issueOldest {q : List QueueEntry} {e : QueueEntry} (h : e ∈ issueOldest q) :
    ∃ f ∈ q, e.count = f.count := by
  induction q with
  | nil => exact absurd h List.not_mem_nil
  | cons f q ih =>
    unfold issueOldest at h
    split at h
    · rcases List.mem_cons.1 h with rfl | h
      · exact ⟨f, List.mem_cons_self, rfl⟩
      · exact ⟨e, List.mem_cons_of_mem _ h, rfl⟩
    · rcases List.mem_cons.1 h with rfl | h
      · exact ⟨e, List.mem_cons_self, rfl⟩
      · obtain ⟨x, hx, hcount⟩ := ih h
        exact ⟨x, List.mem_cons_of_mem _ hx, hcount⟩

/-- An eligible read finds every WAITING entry below the limit: a plain read by BYPASS_LIMIT, and a read of a device by
an empty queue (R59, R91). -/
theorem WaitsFollowQueue.below_limit (h : WaitsFollowQueue s) {m : Master} {sl : Slot}
    (hsl : s.rsa.slots.get m = some sl) (he : sl.eligible = true) (hr : sl.request.isRead = true) {e : QueueEntry}
    (hmem : e ∈ s.pwq) (hwaiting : e.phase = .waiting) : e.count < s.mnc.bypassLimit := by
  obtain ⟨hheld, hnone⟩ := (Slot.eligible_iff sl).1 he
  obtain ⟨-, hbypass, hempty⟩ := h.1 m sl hsl hheld
  rw [hnone] at hbypass hempty
  have hdevice : sl.request.isDeviceAccess = false := Bool.eq_false_iff.2 fun hd =>
    absurd (hempty.2 ⟨hd, List.ne_nil_of_mem hmem⟩) (by decide)
  have hplain : sl.request.isPlainRead = true := by
    cases hq : sl.request <;> simp_all [SlotRequest.isPlainRead, SlotRequest.isDeviceAccess, SlotRequest.isRead]
  by_contra hcount
  exact absurd (hbypass.2 ⟨hplain, e, hmem, hwaiting, Nat.le_of_not_lt hcount⟩) (by decide)

/-- The issue of a read keeps every count within 15 (R89, R91). -/
theorem WaitsFollowQueue.readIssued (h : WaitsFollowQueue s) {m : Master} {sl : Slot}
    (hsl : s.rsa.slots.get m = some sl) (he : sl.eligible = true) (hr : sl.request.isRead = true) :
    WaitsFollowQueue (s.readIssued m) := by
  obtain ⟨-, hcounts, hlow, hhigh⟩ := id h
  refine waitsFollowQueue_refreshed (s := (s.slotIssued m).withPwq (raiseCounts s.pwq)) (fun e hmem => ?_) hlow hhigh
  obtain ⟨f, hf, rfl⟩ := List.mem_map.1 hmem
  split
  · exact Nat.le_trans (h.below_limit hsl he hr hf ‹_›) hhigh
  · exact hcounts f hf

theorem WaitsFollowQueue.slotIssued (h : WaitsFollowQueue s) {m : Master} : WaitsFollowQueue (s.slotIssued m) := by
  refine h.of_set (m := m) (o := (s.rsa.slots.get m).map fun sl => { sl with phase := .issued })
    (fun sl hsl hp => ?_) rfl rfl rfl
  obtain ⟨a, -, rfl⟩ := Option.map_eq_some_iff.1 hsl
  cases hp

theorem Mnc.offered_bypassLimit (c : Mnc) (kind : ErrorKind) (m : Master) (address : Option Addr) :
    (c.offered kind m address).bypassLimit = c.bypassLimit := by
  unfold Mnc.offered
  split <;> rfl

/-! ### Every move keeps the waits in line -/

theorem WaitsFollowQueue.makeReply (h : WaitsFollowQueue s) (m : Master) (a : Answer) :
    WaitsFollowQueue (s.makeReply m a) := by
  refine h.of_set (m := m) (o := (s.rsa.slots.get m).map fun sl =>
    ⟨.replying a.recorded, sl.request, WaitReasons.none, none, false⟩) (fun sl hsl hp => ?_) rfl rfl rfl
  obtain ⟨b, -, rfl⟩ := Option.map_eq_some_iff.1 hsl
  cases hp

theorem WaitsFollowQueue.emptySlot (h : WaitsFollowQueue s) (m : Master) : WaitsFollowQueue (s.emptySlot m) :=
  h.of_set (m := m) (o := none) (fun _ hsl => nomatch hsl) rfl rfl rfl

theorem WaitsFollowQueue.decideAtOnce (h : WaitsFollowQueue s) (m : Master) (q : SlotRequest) (a : Answer) :
    WaitsFollowQueue (s.decideAtOnce m q a) := by
  refine h.of_slots rfl rfl fun k sl hsl hp => ?_
  unfold State.decideAtOnce at hsl
  have hget : ((s.enterSlot m (Slot.held q WaitReasons.none)).makeReply m a).rsa.slots.get k =
      if k = m then some (Slot.answered q a) else s.rsa.slots.get k := by
    rw [State.makeReply_eq (sl := Slot.held q WaitReasons.none) (PerMaster.get_set_self _ _ _)]
    show ((s.rsa.slots.set m _).set m _).get k = _
    rw [PerMaster.get_set, PerMaster.get_set]
    split <;> rfl
  rw [hget] at hsl
  split at hsl
  · cases hsl
    cases hp
  · exact Or.inl hsl

theorem Move.keeps_waits {x y : Doing} (h : Move x s y t) (hs : WaitsFollowQueue s) : WaitsFollowQueue t := by
  obtain ⟨hwaits, hcounts, hlow, hhigh⟩ := id hs
  cases h with
  | background h => exact hs.background h
  | reset =>
    refine ⟨fun m sl hsl => ?_, fun e he => absurd he List.not_mem_nil, show 1 ≤ Config.resetBypassLimit by decide,
      show Config.resetBypassLimit ≤ 15 by decide⟩
    cases m <;> cases hsl
  | error kind m address => exact hs.of_slots rfl (Mnc.offered_bypassLimit ..) fun _ _ h _ => Or.inl h
  | limits h =>
    simp only [limitsInRange, Bool.and_eq_true, decide_eq_true_eq] at h
    obtain ⟨⟨⟨-, -⟩, hlow⟩, hhigh⟩ := h
    exact waitsFollowQueue_refreshed (s := s.withMnc _) hcounts hlow hhigh
  | held hp ha hq => exact hs.of_set (fun sl hsl _ => Option.some.inj hsl ▸ hq) rfl rfl rfl
  | decided q a => exact hs.decideAtOnce _ q a
  | merged lanes =>
    refine waitsFollowQueue_refreshed (s := s.withPwq _) (fun e he => ?_) hlow hhigh
    obtain ⟨f, hf, hcount⟩ := mem_mergeYoungest he
    exact hcount ▸ hcounts f hf
  | appended =>
    refine waitsFollowQueue_refreshed (s := s.withPwq _) (List.forall_mem_append.2 ⟨hcounts, ?_⟩) hlow hhigh
    exact List.forall_mem_singleton.2 (Nat.zero_le _)
  | answered a => exact hs.makeReply _ a
  | answerSent => exact hs.emptySlot _
  | abandoned m => exact hs.emptySlot m
  | unpostedIssued => exact hs.slotIssued
  | wordReadIssued _ hsl he hq =>
    exact hs.readIssued hsl he (by rcases hq with hq | hq <;> rw [hq] <;> rfl)
  | lineReadIssued _ hsl he hq => exact hs.readIssued hsl he (by rw [hq]; rfl)
  | queuedIssued =>
    refine waitsFollowQueue_refreshed (s := s.withPwq (issueOldest s.pwq)) (fun e he => ?_) hlow hhigh
    obtain ⟨f, hf, hcount⟩ := mem_issueOldest he
    exact hcount ▸ hcounts f hf
  | queueEnded _ hpwq =>
    rw [hpwq] at hcounts
    exact waitsFollowQueue_refreshed (s := s.withPwq _) (fun e he => hcounts e (List.mem_cons_of_mem _ he)) hlow hhigh
  | @pairArrived _ _ m _ _ _ _ _ _ _ en =>
    refine hs.of_set (m := m) (o := (s.rsa.slots.get m).map fun sl => { sl with arrived := some en })
      (fun b hb hp => ?_) rfl rfl rfl
    obtain ⟨a, ha, rfl⟩ := Option.map_eq_some_iff.1 hb
    exact hwaits m a ha hp
  | _ => exact hs

end

/-- Settles O58: what brings a condition of the queue's waits about brings the HELD slots into line in the same move,
and a read that could raise a count past the limit is not eligible. -/
theorem stepsKeepWaitsInLine : Obligations.StepsKeepWaitsInLine :=
  fun _ _ hs ht => step_keeps (P := fun _ => WaitsFollowQueue) (fun _ _ _ _ => Move.keeps_waits) hs ht

end Sys2Proof.Machine
end

