-- ==== Sys2Proof/Proofs/Standings.lean ====
section
/-! SUPPORT. What stands of one master's request in the part: its slot, its items at the MLC and its replies; and that
`OneReplyEach` speaks of these alone. -/

namespace Sys2Proof.Machine

/-! ### The standing of a master -/

/-- What stands of one master's request: its slot, its live in-flight items, how often its continuation waits, its
assembly and its replies. -/
structure Standing where
  slot : Option Slot
  items : List InFlight
  waiting : Nat
  assembly : Option Assembly
  replies : List ReplyBody

def State.repliesOf (s : State) (m : Master) : List ReplyBody :=
  (s.bfe.replies.filter fun r => r.master == m).map Reply.body

def State.standing (s : State) (m : Master) : Standing :=
  ⟨s.rsa.slots.get m, s.liveItems m, s.mlc.continuations.count m, s.mlc.assemblies.get m, s.repliesOf m⟩

/-- The places in which a request of m stands from its acceptance to its reply (R55, R154, R168), with the EMPTY slot,
from which at most a RETRY is still to be sent. -/
inductive Standing.Sound (m : Master) : Standing → Prop
  | empty {rs : List ReplyBody} (hr : rs = [] ∨ rs = [.retry]) : Sound m ⟨none, [], 0, none, rs⟩
  | held {sl : Slot} (hp : sl.phase = .held) (ha : sl.arrived = none) : Sound m ⟨some sl, [], 0, none, []⟩
  | replying {sl : Slot} {a : Answer} (hp : sl.phase = .replying a.recorded) (ha : sl.arrived = none) :
    Sound m ⟨some sl, [], 0, none, [.answer a]⟩
  | word {sl : Slot} {i : InFlight} {w : WordAddr} {p : Policy} (hp : sl.phase = .issued) (ha : sl.arrived = none)
    (hq : sl.request = .read w p ∨ sl.request = .lockRead w p) (hk : i.kind = .rdWord) (ho : i.origin = .read m) :
    Sound m ⟨some sl, [i], 0, none, []⟩
  | unposted {sl : Slot} {i : InFlight} {w : WordAddr} {p : Option Policy} {lanes : Lanes} (hp : sl.phase = .issued)
    (ha : sl.arrived = none) (hq : sl.request = .write w p lanes ∨ sl.request = .lockWrite w p lanes)
    (hk : i.kind = .wrWord) (ho : i.origin = .unposted m) : Sound m ⟨some sl, [i], 0, none, []⟩
  | arrived {sl : Slot} {w : WordAddr} {p : Option Policy} {lanes : Lanes} (hp : sl.phase = .issued)
    (ha : sl.arrived ≠ none) (hq : sl.request = .lockWrite w p lanes) : Sound m ⟨some sl, [], 0, none, []⟩
  | line {sl : Slot} {i : InFlight} {p : Policy} {mode : FillMode} {a : Assembly} (hp : sl.phase = .issued)
    (ha : sl.arrived = none) (hq : sl.request = .readLine a.line p mode) (hk : i.kind = .rdLine)
    (ho : i.origin = .read m) (hw : a.words = []) : Sound m ⟨some sl, [i], 0, some a, []⟩
  | rest {sl : Slot} {i : InFlight} {p : Policy} {mode : FillMode} {a : Assembly} (hp : sl.phase = .issued)
    (ha : sl.arrived = none) (hq : sl.request = .readLine a.line p mode) (hk : i.kind = .rdRest)
    (ho : i.origin = .continuation m) (hw : a.words.length ≤ 7) (hi : i.word = wordOfLine a.line a.words.length) :
    Sound m ⟨some sl, [i], 0, some a, []⟩
  | between {sl : Slot} {p : Policy} {mode : FillMode} {a : Assembly} (hp : sl.phase = .issued)
    (ha : sl.arrived = none) (hq : sl.request = .readLine a.line p mode) (hw : a.words.length ≤ 7)
    (hne : a.words ≠ []) : Sound m ⟨some sl, [], 1, some a, []⟩

/-! ### The replies of a master -/

section
variable {s : State} {m : Master}

theorem State.repliesOf_eq_nil_iff : s.repliesOf m = [] ↔ ∀ r ∈ s.bfe.replies, r.master ≠ m := by
  simp [State.repliesOf, List.filter_eq_nil_iff]

theorem State.mem_repliesOf {b : ReplyBody} : b ∈ s.repliesOf m ↔ ⟨m, b⟩ ∈ s.bfe.replies := by
  unfold State.repliesOf
  simp only [List.mem_map, List.mem_filter, beq_iff_eq]
  constructor
  · rintro ⟨⟨k, b⟩, ⟨hr, rfl⟩, rfl⟩
    exact hr
  · exact fun h => ⟨_, ⟨h, rfl⟩, rfl⟩

/-- At most one reply for each master. -/
theorem nodup_masters_iff : (s.bfe.replies.map Reply.master).Nodup ↔ ∀ m, (s.repliesOf m).length ≤ 1 := by
  rw [List.nodup_iff_count_le_one]
  refine forall_congr' fun m => ?_
  rw [State.repliesOf, List.length_map, List.count, List.countP_map, List.countP_eq_length_filter]
  rfl

theorem eq_singleton_of_mem {α : Type} {l : List α} {a : α} (h : l.length ≤ 1) (ha : a ∈ l) : l = [a] := by
  match l with
  | [] => exact absurd ha List.not_mem_nil
  | [b] => rw [List.mem_singleton.1 ha]
  | b :: c :: l => exact absurd h (by simp)

theorem State.repliesOf_retry_iff (h : (s.repliesOf m).length ≤ 1) :
    (s.repliesOf m = [] ∨ s.repliesOf m = [.retry]) ↔ ∀ r ∈ s.bfe.replies, r.master = m → r.body = .retry := by
  constructor
  · rintro hr ⟨k, b⟩ hb rfl
    have hb := State.mem_repliesOf.2 hb
    rcases hr with hr | hr
    · exact absurd hb (by simp [hr])
    · simpa [hr] using hb
  · intro hall
    rcases hrs : s.repliesOf m with _ | ⟨b, rest⟩
    · exact Or.inl rfl
    · have hb : b ∈ s.repliesOf m := by simp [hrs]
      have hretry : b = .retry := hall ⟨m, b⟩ (State.mem_repliesOf.1 hb) rfl
      rw [← hrs, ← hretry]
      exact Or.inr (eq_singleton_of_mem h hb)

/-! ### `OneReplyEach` in the words of standings -/

/-- A standing with no item, no continuation and no assembly. -/
theorem State.idleAtLink_iff : s.IdleAtLink m ↔
    s.liveItems m = [] ∧ s.mlc.continuations.count m = 0 ∧ s.mlc.assemblies.get m = none := by
  rw [List.count_eq_zero]
  rfl

theorem State.standing_of_idle (h : s.IdleAtLink m) {o : Option Slot} (ho : s.rsa.slots.get m = o)
    {rs : List ReplyBody} (hr : s.repliesOf m = rs) : s.standing m = ⟨o, [], 0, none, rs⟩ := by
  obtain ⟨hitems, hwaiting, hassembly⟩ := State.idleAtLink_iff.1 h
  rw [State.standing, ho, hitems, hwaiting, hassembly, hr]

/-- An ISSUED request in one place, with no reply. -/
theorem State.standing_of_issued {sl : Slot} (hsl : s.rsa.slots.get m = some sl) (hp : sl.phase = .issued)
    (h : s.IssuedInOnePlace m sl) (hr : s.repliesOf m = []) : (s.standing m).Sound m := by
  unfold State.standing
  rw [hsl, hr]
  unfold State.IssuedInOnePlace at h
  cases hq : sl.request with
  | read w p =>
    simp only [hq] at h
    obtain ⟨⟨i, hi, hk, ho⟩, hc, ha, harr⟩ := h
    rw [hi, List.count_eq_zero.2 hc, ha]
    exact .word hp harr (Or.inl hq) hk ho
  | lockRead w p =>
    simp only [hq] at h
    obtain ⟨⟨i, hi, hk, ho⟩, hc, ha, harr⟩ := h
    rw [hi, List.count_eq_zero.2 hc, ha]
    exact .word hp harr (Or.inr hq) hk ho
  | readLine l p mode =>
    simp only [hq] at h
    obtain ⟨a, ha, rfl, hlen, harr, ⟨⟨i, hi, hpart⟩, hc⟩ | ⟨hi, hc, hne⟩⟩ := h
    · rw [hi, List.count_eq_zero.2 hc, ha]
      rcases hpart with ⟨hk, ho, hw⟩ | ⟨hk, ho, hw⟩
      · exact .line hp harr hq hk ho hw
      · exact .rest hp harr hq hk ho hlen hw
    · rw [hi, hc, ha]
      exact .between hp harr hq hlen hne
  | write w p lanes =>
    simp only [hq] at h
    obtain ⟨⟨i, hi, hk, ho⟩, hc, ha, harr⟩ := h
    rw [hi, List.count_eq_zero.2 hc, ha]
    exact .unposted hp harr (Or.inl hq) hk ho
  | lockWrite w p lanes =>
    simp only [hq] at h
    obtain ⟨⟨i, hi, hk, ho, harr⟩ | ⟨hi, harr⟩, hc, ha⟩ := h
    · rw [hi, List.count_eq_zero.2 hc, ha]
      exact .unposted hp harr (Or.inr hq) hk ho
    · rw [hi, List.count_eq_zero.2 hc, ha]
      exact .arrived hp harr hq
  | sync => simp only [hq] at h
  | noKind w => simp only [hq] at h

/-- What `OneReplyEach` says of one master's slot. -/
def State.SlotPlaced (s : State) (m : Master) : Prop :=
  match s.rsa.slots.get m with
  | none => s.IdleAtLink m ∧ ∀ r ∈ s.bfe.replies, r.master = m → r.body = .retry
  | some sl =>
    match sl.phase with
    | .held => s.IdleAtLink m ∧ sl.arrived = none ∧ ∀ r ∈ s.bfe.replies, r.master ≠ m
    | .issued => s.IssuedInOnePlace m sl ∧ ∀ r ∈ s.bfe.replies, r.master ≠ m
    | .replying x => s.IdleAtLink m ∧ sl.arrived = none ∧ ∃ a, ⟨m, .answer a⟩ ∈ s.bfe.replies ∧ a.recorded = x

theorem State.SlotPlaced.sound (h : s.SlotPlaced m) (hlen : (s.repliesOf m).length ≤ 1) : (s.standing m).Sound m := by
  unfold State.SlotPlaced at h
  cases hsl : s.rsa.slots.get m with
  | none =>
    simp only [hsl] at h
    rw [State.standing_of_idle h.1 hsl rfl]
    exact .empty ((State.repliesOf_retry_iff hlen).2 h.2)
  | some sl =>
    cases hp : sl.phase with
    | held =>
      simp only [hsl, hp] at h
      rw [State.standing_of_idle h.1 hsl (State.repliesOf_eq_nil_iff.2 h.2.2)]
      exact .held hp h.2.1
    | issued =>
      simp only [hsl, hp] at h
      exact State.standing_of_issued hsl hp h.1 (State.repliesOf_eq_nil_iff.2 h.2)
    | replying x =>
      simp only [hsl, hp] at h
      obtain ⟨hidle, ha, a, hmem, rfl⟩ := h
      rw [State.standing_of_idle hidle hsl (eq_singleton_of_mem hlen (State.mem_repliesOf.2 hmem))]
      exact .replying hp ha

/-- The parts of a standing that is written out. -/
theorem State.standing_eq_iff {o : Option Slot} {is : List InFlight} {n : Nat} {a : Option Assembly}
    {rs : List ReplyBody} : s.standing m = ⟨o, is, n, a, rs⟩ ↔ s.rsa.slots.get m = o ∧ s.liveItems m = is ∧
      s.mlc.continuations.count m = n ∧ s.mlc.assemblies.get m = a ∧ s.repliesOf m = rs := by
  rw [State.standing, Standing.mk.injEq]

/-- An ISSUED request in one place, with no reply, meets what is said of its slot. -/
theorem State.slotPlaced_of_issued {sl : Slot} (hsl : s.rsa.slots.get m = some sl) (hp : sl.phase = .issued)
    (hrs : s.repliesOf m = []) (h : s.IssuedInOnePlace m sl) : (s.repliesOf m).length ≤ 1 ∧ s.SlotPlaced m := by
  unfold State.SlotPlaced
  simp only [hsl, hp, hrs]
  exact ⟨Nat.zero_le _, h, State.repliesOf_eq_nil_iff.1 hrs⟩

theorem State.idleAtLink_of_standing {o : Option Slot} {rs : List ReplyBody}
    (h : s.standing m = ⟨o, [], 0, none, rs⟩) : s.IdleAtLink m := by
  obtain ⟨-, hi, hc, ha, -⟩ := State.standing_eq_iff.1 h
  exact State.idleAtLink_iff.2 ⟨hi, hc, ha⟩

theorem State.slotPlaced_of_sound (h : (s.standing m).Sound m) :
    (s.repliesOf m).length ≤ 1 ∧ s.SlotPlaced m := by
  generalize hst : s.standing m = st at h
  cases h with
  | empty hr =>
    obtain ⟨hsl, -, -, -, hrs⟩ := State.standing_eq_iff.1 hst
    have hlen : (s.repliesOf m).length ≤ 1 := by
      rw [hrs]
      rcases hr with rfl | rfl <;> decide
    unfold State.SlotPlaced
    simp only [hsl]
    exact ⟨hlen, State.idleAtLink_of_standing hst, (State.repliesOf_retry_iff hlen).1 (hrs ▸ hr)⟩
  | held hp ha =>
    obtain ⟨hsl, -, -, -, hrs⟩ := State.standing_eq_iff.1 hst
    unfold State.SlotPlaced
    simp only [hsl, hp, hrs]
    exact ⟨Nat.zero_le _, State.idleAtLink_of_standing hst, ha, State.repliesOf_eq_nil_iff.1 hrs⟩
  | @replying sl a hp ha =>
    obtain ⟨hsl, -, -, -, hrs⟩ := State.standing_eq_iff.1 hst
    unfold State.SlotPlaced
    simp only [hsl, hp, hrs]
    exact ⟨Nat.le_refl _, State.idleAtLink_of_standing hst, ha, a, State.mem_repliesOf.1 (by simp [hrs]), rfl⟩
  | @word sl i w p hp ha hq hk ho =>
    obtain ⟨hsl, hi, hc, has, hrs⟩ := State.standing_eq_iff.1 hst
    refine State.slotPlaced_of_issued hsl hp hrs ?_
    unfold State.IssuedInOnePlace
    rcases hq with hq | hq <;> rw [hq] <;>
      exact ⟨⟨i, hi, hk, ho⟩, List.count_eq_zero.1 hc, has, ha⟩
  | @unposted sl i w p lanes hp ha hq hk ho =>
    obtain ⟨hsl, hi, hc, has, hrs⟩ := State.standing_eq_iff.1 hst
    refine State.slotPlaced_of_issued hsl hp hrs ?_
    unfold State.IssuedInOnePlace
    rcases hq with hq | hq <;> rw [hq]
    · exact ⟨⟨i, hi, hk, ho⟩, List.count_eq_zero.1 hc, has, ha⟩
    · exact ⟨Or.inl ⟨i, hi, hk, ho, ha⟩, List.count_eq_zero.1 hc, has⟩
  | arrived hp ha hq =>
    obtain ⟨hsl, hi, hc, has, hrs⟩ := State.standing_eq_iff.1 hst
    refine State.slotPlaced_of_issued hsl hp hrs ?_
    unfold State.IssuedInOnePlace
    rw [hq]
    exact ⟨Or.inr ⟨hi, ha⟩, List.count_eq_zero.1 hc, has⟩
  | @line sl i p mode a hp ha hq hk ho hw =>
    obtain ⟨hsl, hi, hc, has, hrs⟩ := State.standing_eq_iff.1 hst
    refine State.slotPlaced_of_issued hsl hp hrs ?_
    unfold State.IssuedInOnePlace
    rw [hq]
    exact ⟨a, has, rfl, by simp [hw], ha, Or.inl ⟨⟨i, hi, Or.inl ⟨hk, ho, hw⟩⟩, List.count_eq_zero.1 hc⟩⟩
  | @rest sl i p mode a hp ha hq hk ho hw hword =>
    obtain ⟨hsl, hi, hc, has, hrs⟩ := State.standing_eq_iff.1 hst
    refine State.slotPlaced_of_issued hsl hp hrs ?_
    unfold State.IssuedInOnePlace
    rw [hq]
    exact ⟨a, has, rfl, hw, ha, Or.inl ⟨⟨i, hi, Or.inr ⟨hk, ho, hword⟩⟩, List.count_eq_zero.1 hc⟩⟩
  | @between sl p mode a hp ha hq hw hne =>
    obtain ⟨hsl, hi, hc, has, hrs⟩ := State.standing_eq_iff.1 hst
    refine State.slotPlaced_of_issued hsl hp hrs ?_
    unfold State.IssuedInOnePlace
    rw [hq]
    exact ⟨a, has, rfl, hw, ha, Or.inr ⟨hi, hc, hne⟩⟩

/-- A granted master has nothing, and every master's standing is sound. -/
theorem oneReplyEach_iff (s : State) : OneReplyEach s ↔
    (∀ m, s.bfe.grant = some m → s.rsa.slots.get m = none ∧ s.repliesOf m = []) ∧
      ∀ m, (s.standing m).Sound m := by
  constructor
  · refine fun h => ⟨fun m hm => ?_, fun m => State.SlotPlaced.sound (h.slots m) (nodup_masters_iff.1 h.single m)⟩
    obtain ⟨hslot, hreplies⟩ := h.granted m hm
    exact ⟨hslot, State.repliesOf_eq_nil_iff.2 hreplies⟩
  · rintro ⟨hg, hst⟩
    refine ⟨fun m hm => ?_, nodup_masters_iff.2 fun m => (State.slotPlaced_of_sound (hst m)).1,
      fun m => (State.slotPlaced_of_sound (hst m)).2⟩
    obtain ⟨hslot, hreplies⟩ := hg m hm
    exact ⟨hslot, State.repliesOf_eq_nil_iff.1 hreplies⟩

end

end Sys2Proof.Machine
end

