-- ==== Sys2Proof/Proofs/OneReply.lean ====
section
/-! PROOFS. Each request stands in one place from its acceptance to its one reply (R55, R154, R168). -/

namespace Sys2Proof.Machine

/-! ### What a standing keeps of a slot -/

/-- A slot with the request that it had, in the state that it had. -/
structure Slot.Stands (a b : Slot) : Prop where
  phase : b.phase = a.phase
  request : b.request = a.request ∨ b.request = a.request.demoted
  arrived : b.arrived = a.arrived

theorem Slot.Stands.refl (a : Slot) : a.Stands a := ⟨rfl, Or.inl rfl, rfl⟩

theorem Slot.Told.stands {a b : Slot} (h : a.Told b) : a.Stands b := ⟨h.phase, h.request, h.arrived⟩

theorem optionRel_mono {α : Type} {r q : α → α → Prop} (h : ∀ a b, r a b → q a b) :
    ∀ {o p : Option α}, Option.Rel r o p → Option.Rel q o p
  | _, _, .none => .none
  | _, _, .some hr => .some (h _ _ hr)

/-- A demoted fill is a fill of the same line, and any other request is none (R64). -/
theorem Slot.Stands.readLine {a b : Slot} (h : a.Stands b) {l : LineAddr} {p : Policy} {mode : FillMode}
    (hq : a.request = .readLine l p mode) : ∃ mode', b.request = .readLine l p mode' := by
  rcases h.request with hr | hr
  · exact ⟨mode, hr.trans hq⟩
  · exact ⟨.uncached, by rw [hr, hq]; rfl⟩

theorem Slot.Stands.other {a b : Slot} (h : a.Stands b) {q : SlotRequest} (hq : a.request = q)
    (hd : q.demoted = q) : b.request = q := by
  rcases h.request with hr | hr <;> simp [hr, hq, hd]

theorem Standing.Sound.stands {m : Master} {st : Standing} (h : st.Sound m) {o : Option Slot}
    (ho : Option.Rel Slot.Stands st.slot o) : Standing.Sound m { st with slot := o } := by
  cases h with
  | empty hr =>
    cases ho
    exact .empty hr
  | held hp ha =>
    obtain ⟨hs⟩ := ho
    exact .held (hs.phase.trans hp) (hs.arrived.trans ha)
  | replying hp ha =>
    obtain ⟨hs⟩ := ho
    exact .replying (hs.phase.trans hp) (hs.arrived.trans ha)
  | word hp ha hq hk ho' =>
    obtain ⟨hs⟩ := ho
    exact .word (hs.phase.trans hp) (hs.arrived.trans ha) (hq.imp (hs.other · rfl) (hs.other · rfl)) hk ho'
  | unposted hp ha hq hk ho' =>
    obtain ⟨hs⟩ := ho
    exact .unposted (hs.phase.trans hp) (hs.arrived.trans ha) (hq.imp (hs.other · rfl) (hs.other · rfl)) hk ho'
  | arrived hp ha hq =>
    obtain ⟨hs⟩ := ho
    exact .arrived (hs.phase.trans hp) (hs.arrived ▸ ha) (hs.other hq rfl)
  | line hp ha hq hk ho' hw =>
    obtain ⟨hs⟩ := ho
    obtain ⟨mode, hq⟩ := hs.readLine hq
    exact .line (hs.phase.trans hp) (hs.arrived.trans ha) hq hk ho' hw
  | rest hp ha hq hk ho' hw hi =>
    obtain ⟨hs⟩ := ho
    obtain ⟨mode, hq⟩ := hs.readLine hq
    exact .rest (hs.phase.trans hp) (hs.arrived.trans ha) hq hk ho' hw hi
  | between hp ha hq hw hne =>
    obtain ⟨hs⟩ := ho
    obtain ⟨mode, hq⟩ := hs.readLine hq
    exact .between (hs.phase.trans hp) (hs.arrived.trans ha) hq hw hne

/-! ### The items of a master -/

/-- The master whose slot an item is for; a queued write is for none (R168). -/
def Origin.slotMaster : Origin → Option Master
  | .read m | .unposted m | .continuation m => some m
  | .queue _ => none

/-- A live item of m's present request. -/
def InFlight.liveFor (m : Master) (i : InFlight) : Bool := !i.discard && i.origin.slotMaster == some m

section
variable {s t : State}

theorem InFlight.liveFor_iff {m : Master} {i : InFlight} :
    i.liveFor m = true ↔ i.discard = false ∧ i.origin.slotMaster = some m := by
  simp [InFlight.liveFor]

theorem State.liveItems_eq (s : State) (m : Master) : s.liveItems m = s.mlc.inFlight.filter (InFlight.liveFor m) := by
  refine List.filter_congr fun i _ => ?_
  unfold InFlight.liveFor
  congr 1
  cases i.origin <;> simp [Origin.slotMaster, beq_eq_decide]

theorem InFlight.discardFor_eq (m : Master) (i : InFlight) :
    i.discardFor m = if i.origin.slotMaster = some m then { i with discard := true } else i := by
  unfold InFlight.discardFor
  split <;> simp [*, Origin.slotMaster]

/-- An abandoned slot's items are nobody's, and the items of another slot stand (R175). -/
theorem InFlight.liveFor_discardFor (m k : Master) (i : InFlight) :
    (i.discardFor m).liveFor k = (i.liveFor k && k != m) ∧ (i.liveFor k = true → k ≠ m → i.discardFor m = i) := by
  rw [InFlight.discardFor_eq]
  by_cases ho : i.origin.slotMaster = some m
  · rw [if_pos ho]
    refine ⟨?_, fun hl hk => absurd ((InFlight.liveFor_iff.1 hl).2.symm.trans ho) (by simpa using hk)⟩
    by_cases hk : k = m
    · simp [InFlight.liveFor, hk]
    · simp [InFlight.liveFor, ho, Ne.symm hk]
  · rw [if_neg ho]
    refine ⟨?_, fun _ _ => rfl⟩
    by_cases hk : k = m
    · simp [InFlight.liveFor, hk, ho]
    · simp [hk]

theorem filter_liveFor_map_discardFor (m k : Master) (l : List InFlight) :
    (l.map (InFlight.discardFor m)).filter (InFlight.liveFor k) =
      if k = m then [] else l.filter (InFlight.liveFor k) := by
  induction l with
  | nil => simp
  | cons i l ih =>
    obtain ⟨hlive, hsame⟩ := InFlight.liveFor_discardFor m k i
    rw [List.map_cons, List.filter_cons, ih, hlive, List.filter_cons]
    by_cases hk : k = m
    · simp [hk]
    · by_cases hi : i.liveFor k = true
      · simp [hk, hi, hsame hi hk]
      · simp [hk, hi]

/-! ### What holds at each stage of an event -/

/-- The standing with a delivered item still counted among m's. -/
def Standing.before (m : Master) (i : InFlight) (st : Standing) : Standing :=
  if i.liveFor m then { st with items := i :: st.items } else st

/-- m's standing is sound as far as the event has come with a request. -/
def Doing.Holds (x : Doing) (m : Master) (st : Standing) : Prop :=
  match x with
  | .nothing => st.Sound m
  | .taking k => st.Sound m ∧ (m = k → st.slot = none ∧ st.replies = [])
  | .delivering i => i.discard = false ∧ (st.before m i).Sound m
  | .answering k => if m = k then ∃ sl, st = ⟨some sl, [], 0, none, []⟩ else st.Sound m

theorem Doing.holds_answering_self {m : Master} {st : Standing} :
    (Doing.answering m).Holds m st ↔ ∃ sl, st = ⟨some sl, [], 0, none, []⟩ := iff_of_eq (if_pos rfl)

theorem Doing.holds_answering_ne {m k : Master} (hk : k ≠ m) {st : Standing} :
    (Doing.answering m).Holds k st ↔ st.Sound k := iff_of_eq (if_neg hk)

/-- `OneReplyEach` as far as an event has come: a granted master has nothing, and no grant stands while a request is
taken. -/
structure OneReplyWhile (x : Doing) (s : State) : Prop where
  granted : ∀ m, s.bfe.grant = some m → s.rsa.slots.get m = none ∧ s.repliesOf m = []
  cleared : ∀ m, x = .taking m → s.bfe.grant = none
  standing : ∀ m, x.Holds m (s.standing m)

theorem oneReplyEach_iff_while (s : State) : OneReplyEach s ↔ OneReplyWhile .nothing s := by
  rw [oneReplyEach_iff]
  exact ⟨fun h => ⟨h.1, fun _ hx => (nomatch hx), h.2⟩, fun h => ⟨h.granted, h.standing⟩⟩

theorem Doing.Holds.stands {x : Doing} {m : Master} {st : Standing} (h : x.Holds m st) {o : Option Slot}
    (ho : Option.Rel Slot.Stands st.slot o) : x.Holds m { st with slot := o } := by
  cases x with
  | nothing => exact Standing.Sound.stands h ho
  | taking k =>
    refine ⟨Standing.Sound.stands h.1 ho, fun hk => ⟨?_, (h.2 hk).2⟩⟩
    rw [(h.2 hk).1] at ho
    cases ho
    rfl
  | delivering i =>
    refine ⟨h.1, ?_⟩
    have hb := h.2
    unfold Standing.before at hb ⊢
    split at hb <;> rename_i hl
    · rw [if_pos hl]
      exact hb.stands ho
    · rw [if_neg hl]
      exact hb.stands ho
  | answering k =>
    unfold Doing.Holds at h ⊢
    dsimp only at h ⊢
    split at h <;> rename_i hk
    · rw [if_pos hk]
      obtain ⟨sl, rfl⟩ := h
      obtain ⟨hs⟩ := ho
      exact ⟨_, rfl⟩
    · rw [if_neg hk]
      exact h.stands ho

/-- Slots that stand, with grant, replies and link as they were. -/
theorem OneReplyWhile.of_stands {x : Doing} (h : OneReplyWhile x s)
    (hslots : ∀ m, Option.Rel Slot.Stands (s.rsa.slots.get m) (t.rsa.slots.get m)) (hgrant : t.bfe.grant = s.bfe.grant)
    (hreplies : t.bfe.replies = s.bfe.replies) (hmlc : t.mlc = s.mlc) : OneReplyWhile x t := by
  have hof : ∀ m, t.repliesOf m = s.repliesOf m := fun m => by
    unfold State.repliesOf
    rw [hreplies]
  refine ⟨fun m hm => ?_, fun m hx => hgrant.trans (h.cleared m hx), fun m => ?_⟩
  · obtain ⟨hslot, hr⟩ := h.granted m (hgrant ▸ hm)
    have hrel := hslots m
    rw [hslot] at hrel
    refine ⟨?_, (hof m).trans hr⟩
    generalize t.rsa.slots.get m = o at hrel
    cases hrel
    rfl
  · have hst := (h.standing m).stands (hslots m)
    unfold State.standing State.liveItems at hst ⊢
    rw [hmlc, hof m]
    exact hst

/-- A change of what stands of one master's request. -/
theorem OneReplyWhile.of_one {x y : Doing} (h : OneReplyWhile x s) {m : Master}
    (hgrant : ∀ k, t.bfe.grant = some k → k ≠ m ∧ s.bfe.grant = some k)
    (hcleared : ∀ k, y = .taking k → t.bfe.grant = none) (hothers : ∀ k, k ≠ m → t.standing k = s.standing k)
    (hstage : ∀ k st, k ≠ m → x.Holds k st → y.Holds k st) (hm : y.Holds m (t.standing m)) : OneReplyWhile y t := by
  refine ⟨fun k hk => ?_, hcleared, fun k => ?_⟩
  · obtain ⟨hne, hk⟩ := hgrant k hk
    obtain ⟨hslot, -, -, -, hreplies⟩ := State.standing_eq_iff.1 (hothers k hne)
    rw [hslot, hreplies]
    exact h.granted k hk
  · by_cases hk : k = m
    · exact hk ▸ hm
    · rw [hothers k hk]
      exact hstage k _ hk (h.standing k)

/-! ### Standings after the operations -/

theorem State.standing_drive (tag : BitVec 2) (kind : LinkKind) (w : WordAddr) (o : Origin) (lanes : Option Lanes)
    (k : Master) : (s.drive tag kind w o lanes).standing k =
      if o.slotMaster = some k then { s.standing k with items := s.liveItems k ++ [⟨tag, kind, w, o, false⟩] }
      else s.standing k := by
  have hitems : (s.drive tag kind w o lanes).liveItems k =
      if o.slotMaster = some k then s.liveItems k ++ [⟨tag, kind, w, o, false⟩] else s.liveItems k := by
    rw [State.liveItems_eq, State.liveItems_eq]
    show (s.mlc.inFlight ++ [_]).filter _ = _
    rw [List.filter_append, List.filter_singleton]
    by_cases ho : o.slotMaster = some k
    · simp [InFlight.liveFor, ho]
    · simp [InFlight.liveFor, ho, cond_eq_ite]
  unfold State.standing
  rw [hitems]
  split <;> rfl

theorem State.repliesOf_append {rs : List Reply} {m : Master} {b : ReplyBody}
    (h : t.bfe.replies = rs ++ [⟨m, b⟩]) (hs : s.bfe.replies = rs) (k : Master) :
    t.repliesOf k = if k = m then s.repliesOf k ++ [b] else s.repliesOf k := by
  unfold State.repliesOf
  rw [h, hs, List.filter_append, List.filter_singleton]
  by_cases hk : k = m
  · simp [hk]
  · simp [hk, Ne.symm hk, cond_eq_ite]

theorem State.standing_makeReply {m : Master} {sl : Slot} (hsl : s.rsa.slots.get m = some sl) (a : Answer)
    (k : Master) : (s.makeReply m a).standing k =
      if k = m then { s.standing m with
        slot := some (Slot.answered sl.request a), replies := s.repliesOf m ++ [.answer a] }
      else s.standing k := by
  have hreplies := State.repliesOf_append (t := s.makeReply m a) (s := s) rfl rfl k
  have hslot : (s.makeReply m a).rsa.slots.get k =
      if k = m then some (Slot.answered sl.request a) else s.rsa.slots.get k := by
    rw [State.makeReply_eq hsl]
    exact PerMaster.get_set ..
  unfold State.standing
  rw [hreplies, hslot]
  by_cases hk : k = m
  · subst hk
    simp only [if_true]
    rfl
  · simp only [if_neg hk]
    rfl

theorem State.standing_enterSlot (m : Master) (sl : Slot) (k : Master) : (s.enterSlot m sl).standing k =
    if k = m then { s.standing m with slot := some sl } else s.standing k := by
  unfold State.standing
  rw [State.enterSlot_get]
  by_cases hk : k = m
  · subst hk
    simp only [if_true]
    rfl
  · simp only [if_neg hk]
    rfl

theorem State.standing_modifySlot (m : Master) (f : Slot → Slot) (k : Master) : (s.modifySlot m f).standing k =
    if k = m then { s.standing m with slot := (s.rsa.slots.get m).map f } else s.standing k := by
  unfold State.standing
  rw [State.modifySlot_get]
  by_cases hk : k = m
  · subst hk
    simp only [if_true]
    rfl
  · simp only [if_neg hk]
    rfl

/-- Where a slot is EMPTY, at most a RETRY stands. -/
theorem Standing.Sound.of_none {m : Master} {st : Standing} (h : st.Sound m) (hs : st.slot = none) :
    st = ⟨none, [], 0, none, st.replies⟩ ∧ (st.replies = [] ∨ st.replies = [.retry]) := by
  cases h with
  | empty hr => exact ⟨rfl, hr⟩
  | _ => cases hs

/-- A HELD request stands in its slot alone. -/
theorem Standing.Sound.of_held {m : Master} {st : Standing} (h : st.Sound m) {sl : Slot} (hs : st.slot = some sl)
    (hp : sl.phase = .held) : st = ⟨some sl, [], 0, none, []⟩ ∧ sl.arrived = none := by
  cases h with
  | empty => cases hs
  | held _ ha =>
    cases hs
    exact ⟨rfl, ha⟩
  | replying hp' | word hp' | unposted hp' | arrived hp' | line hp' | rest hp' | between hp' =>
    cases hs
    rw [hp'] at hp
    cases hp

theorem Standing.Sound.of_arrived {m : Master} {st : Standing} (h : st.Sound m) {sl : Slot} (hs : st.slot = some sl)
    (ha : sl.arrived ≠ none) : st = ⟨some sl, [], 0, none, []⟩ := by
  cases h with
  | empty => cases hs
  | arrived => cases hs; rfl
  | held _ ha' | replying _ ha' | word _ ha' | unposted _ ha' | line _ ha' | rest _ ha' | between _ ha' =>
    cases hs
    exact absurd ha' ha

/-! ### The arbiter and the acceptance of a request -/

theorem OneReplyWhile.granted_to (h : OneReplyWhile .nothing s) {m : Master} (hm : s.grantable m = true) :
    OneReplyWhile .nothing (s.giveGrant m) := by
  refine ⟨fun k hk => ?_, fun _ hx => (nomatch hx), h.standing⟩
  cases hk
  simp only [State.grantable, Bool.and_eq_true, State.slotEmpty, Option.isNone_iff_eq_none, Bool.not_eq_true',
    State.hasReply, List.any_eq_false, beq_iff_eq] at hm
  obtain ⟨⟨⟨⟨-, hslot⟩, hreply⟩, -⟩, -⟩ := hm
  exact ⟨hslot, State.repliesOf_eq_nil_iff.2 hreply⟩

theorem OneReplyWhile.taken (h : OneReplyWhile .nothing s) {m : Master} (hg : s.bfe.grant = some m) (up : Bool) :
    OneReplyWhile (.taking m) (s.clearGrant m up) := by
  refine ⟨fun k hk => (nomatch hk), fun _ _ => rfl, fun k => ⟨h.standing k, fun hk => ?_⟩⟩
  subst hk
  exact h.granted k hg

/-- The master whose request is taken has an EMPTY slot and no reply. -/
theorem OneReplyWhile.taking_standing {m : Master} (h : OneReplyWhile (.taking m) s) :
    s.standing m = ⟨none, [], 0, none, []⟩ := by
  obtain ⟨hsound, hfree⟩ := h.standing m
  obtain ⟨hslot, hreplies⟩ := hfree rfl
  rw [(hsound.of_none hslot).1, hreplies]

theorem OneReplyWhile.lapsed {m : Master} (h : OneReplyWhile (.taking m) s) : OneReplyWhile .nothing s :=
  ⟨h.granted, fun _ hx => (nomatch hx), fun k => (h.standing k).1⟩

/-- What becomes of the request that is taken. -/
theorem OneReplyWhile.of_taking {m : Master} (h : OneReplyWhile (.taking m) s) (hgrant : t.bfe.grant = s.bfe.grant)
    (hothers : ∀ k, k ≠ m → t.standing k = s.standing k) (hm : (t.standing m).Sound m) : OneReplyWhile .nothing t :=
  h.of_one (fun k hk => absurd (hgrant.symm.trans hk) (by simp [h.cleared m rfl])) (fun _ hx => (nomatch hx)) hothers
    (fun _ _ _ hst => hst.1) hm

theorem OneReplyWhile.refused {m : Master} (h : OneReplyWhile (.taking m) s) : OneReplyWhile .nothing (s.refuse m) := by
  have hreplies := State.repliesOf_append (t := s.refuse m) (s := s) rfl rfl
  refine h.of_taking rfl (fun k hk => ?_) ?_
  · exact State.standing_eq_iff.2 ⟨rfl, rfl, rfl, rfl, by rw [hreplies, if_neg hk]⟩
  · obtain ⟨hslot, hitems, hwaiting, hassembly, hrs⟩ := State.standing_eq_iff.1 h.taking_standing
    have hretry : (s.refuse m).repliesOf m = [.retry] := by rw [hreplies, if_pos rfl, hrs]; rfl
    have hst : (s.refuse m).standing m = ⟨none, [], 0, none, [.retry]⟩ :=
      State.standing_eq_iff.2 ⟨hslot, hitems, hwaiting, hassembly, hretry⟩
    rw [hst]
    exact .empty (Or.inr rfl)

theorem OneReplyWhile.held {m : Master} (h : OneReplyWhile (.taking m) s) {sl : Slot} (hp : sl.phase = .held)
    (ha : sl.arrived = none) : OneReplyWhile .nothing (s.enterSlot m sl) := by
  refine h.of_taking rfl (fun k hk => ?_) ?_
  · rw [State.standing_enterSlot, if_neg hk]
  · rw [State.standing_enterSlot, if_pos rfl, h.taking_standing]
    exact .held hp ha

theorem OneReplyWhile.decided {m : Master} (h : OneReplyWhile (.taking m) s) (q : SlotRequest) (a : Answer) :
    OneReplyWhile .nothing (s.decideAtOnce m q a) := by
  have hentered : (s.enterSlot m (Slot.held q WaitReasons.none)).rsa.slots.get m =
      some (Slot.held q WaitReasons.none) := PerMaster.get_set_self ..
  have hreplies : (s.enterSlot m (Slot.held q WaitReasons.none)).repliesOf m = [] :=
    (State.standing_eq_iff.1 h.taking_standing).2.2.2.2
  refine h.of_taking rfl (fun k hk => ?_) ?_
  · unfold State.decideAtOnce
    rw [State.standing_makeReply hentered, if_neg hk, State.standing_enterSlot, if_neg hk]
  · unfold State.decideAtOnce
    rw [State.standing_makeReply hentered, if_pos rfl, State.standing_enterSlot, if_pos rfl, h.taking_standing,
      hreplies]
    exact .replying rfl rfl

/-! ### Answers and replies -/

/-- A master whose slot holds a request has no grant. -/
theorem OneReplyWhile.grant_ne {x : Doing} (h : OneReplyWhile x s) {m : Master} {sl : Slot}
    (hsl : s.rsa.slots.get m = some sl) {k : Master} (hk : s.bfe.grant = some k) : k ≠ m := by
  rintro rfl
  rw [(h.granted k hk).1] at hsl
  cases hsl

theorem OneReplyWhile.ended (h : OneReplyWhile .nothing s) {m : Master} {sl : Slot}
    (hsl : s.rsa.slots.get m = some sl) (he : sl.MayEnd) : OneReplyWhile (.answering m) s := by
  refine h.of_one (m := m) (fun k hk => ⟨h.grant_ne hsl hk, hk⟩) (fun _ hx => (nomatch hx)) (fun _ _ => rfl)
    (fun _ _ hk => (Doing.holds_answering_ne hk).2) (Doing.holds_answering_self.2 ?_)
  · have hst : (s.standing m).Sound m := h.standing m
    rcases he with ⟨hp, -⟩ | ⟨-, -, harr⟩
    · exact ⟨sl, (hst.of_held hsl hp).1⟩
    · exact ⟨sl, hst.of_arrived hsl harr⟩

theorem OneReplyWhile.answered {m : Master} (h : OneReplyWhile (.answering m) s) (a : Answer) :
    OneReplyWhile .nothing (s.makeReply m a) := by
  obtain ⟨sl, hst⟩ := Doing.holds_answering_self.1 (h.standing m)
  obtain ⟨hsl, -, -, -, hrs⟩ := State.standing_eq_iff.1 hst
  refine h.of_one (m := m) (fun k hk => ⟨h.grant_ne hsl hk, hk⟩) (fun _ hx => (nomatch hx)) (fun k hk => ?_)
    (fun _ _ hk => (Doing.holds_answering_ne hk).1) ?_
  · rw [State.standing_makeReply hsl, if_neg hk]
  · rw [State.standing_makeReply hsl, if_pos rfl, hst, hrs]
    exact .replying rfl rfl

/-- The first reply leaves the queue. -/
theorem State.repliesOf_cons {r : Reply} {rest : List Reply} (h : s.bfe.replies = r :: rest)
    (ht : t.bfe.replies = rest) (k : Master) :
    s.repliesOf k = if k = r.master then r.body :: t.repliesOf k else t.repliesOf k := by
  unfold State.repliesOf
  rw [h, ht, List.filter_cons]
  by_cases hk : k = r.master
  · simp [hk]
  · simp [hk, Ne.symm hk]

/-- A master with a reply has nothing at the MLC, and its RETRY comes from an EMPTY slot. -/
theorem Standing.Sound.of_reply {m : Master} {st : Standing} (h : st.Sound m) {b : ReplyBody} {rs : List ReplyBody}
    (hr : st.replies = b :: rs) : st.items = [] ∧ st.waiting = 0 ∧ st.assembly = none ∧ rs = [] ∧
      (b = .retry → st.slot = none) := by
  cases h with
  | empty hrs =>
    rcases hrs with rfl | rfl <;> cases hr
    exact ⟨rfl, rfl, rfl, rfl, fun _ => rfl⟩
  | replying =>
    cases hr
    exact ⟨rfl, rfl, rfl, rfl, fun hb => (nomatch hb)⟩
  | _ => cases hr

/-- The first reply is sent, and its slot is EMPTY. -/
theorem OneReplyWhile.sent (h : OneReplyWhile .nothing s) {r : Reply} {rest : List Reply}
    (hr : s.bfe.replies = r :: rest) (hreplies : t.bfe.replies = rest) (hgrant : t.bfe.grant = s.bfe.grant)
    (hmlc : t.mlc = s.mlc) (hothers : ∀ k, k ≠ r.master → t.rsa.slots.get k = s.rsa.slots.get k)
    (hslot : t.rsa.slots.get r.master = none ∨ r.body = .retry ∧ t.rsa = s.rsa) : OneReplyWhile .nothing t := by
  have hof := State.repliesOf_cons (t := t) hr hreplies
  have hhead : s.repliesOf r.master = r.body :: t.repliesOf r.master := by rw [hof, if_pos rfl]
  have hitems : ∀ k, t.liveItems k = s.liveItems k := fun k => by rw [State.liveItems_eq, State.liveItems_eq, hmlc]
  refine h.of_one (m := r.master) (fun k hk => ⟨?_, hgrant ▸ hk⟩) (fun _ hx => (nomatch hx)) (fun k hk => ?_)
    (fun _ _ _ hst => hst) ?_
  · rintro rfl
    rw [(h.granted _ (hgrant ▸ hk)).2] at hhead
    cases hhead
  · refine State.standing_eq_iff.2 ⟨hothers k hk, hitems k, by rw [hmlc], by rw [hmlc], ?_⟩
    rw [hof, if_neg hk]
  · obtain ⟨hi, hw, ha, hrs, hretry⟩ := (h.standing r.master : (s.standing r.master).Sound r.master).of_reply hhead
    have hempty : t.rsa.slots.get r.master = none :=
      hslot.elim id fun ⟨hb, hrsa⟩ => (congrArg (fun a : Rsa => a.slots.get r.master) hrsa).trans (hretry hb)
    have hst : t.standing r.master = ⟨none, [], 0, none, []⟩ :=
      State.standing_eq_iff.2 ⟨hempty, (hitems _).trans hi, by rw [hmlc]; exact hw, by rw [hmlc]; exact ha, hrs⟩
    rw [hst]
    exact .empty (Or.inl rfl)

/-- m's slot is emptied, with all that stands of its request (R71, R156, R175). -/
theorem OneReplyWhile.abandoned (h : OneReplyWhile .nothing s) (m : Master) :
    OneReplyWhile .nothing (s.abandonSlot m) := by
  have hslot : ∀ k, (s.abandonSlot m).rsa.slots.get k = if k = m then none else s.rsa.slots.get k :=
    fun k => s.emptySlot_get m k
  have hitems : ∀ k, (s.abandonSlot m).liveItems k = if k = m then [] else s.liveItems k := fun k => by
    rw [State.liveItems_eq, State.liveItems_eq]
    exact filter_liveFor_map_discardFor m k _
  have hreplies : ∀ k, (s.abandonSlot m).repliesOf k = if k = m then [] else s.repliesOf k := fun k => by
    unfold State.repliesOf
    show ((s.bfe.replies.filter _).filter _).map _ = _
    rw [List.filter_filter]
    by_cases hk : k = m
    · rw [if_pos hk, List.filter_eq_nil_iff.2 fun r _ => by simp [hk]]
      rfl
    · rw [if_neg hk]
      congr 1
      refine List.filter_congr fun r _ => ?_
      by_cases hr : r.master = k <;> simp [hr, hk]
  have hwaiting : ∀ k, (s.abandonSlot m).mlc.continuations.count k =
      if k = m then 0 else s.mlc.continuations.count k := fun k => by
    show (s.mlc.continuations.filter _).count k = _
    by_cases hk : k = m
    · rw [if_pos hk, List.count_eq_zero]
      simp [hk]
    · rw [if_neg hk, List.count_filter (by simpa using hk)]
  have hassembly : ∀ k, (s.abandonSlot m).mlc.assemblies.get k = if k = m then none else s.mlc.assemblies.get k :=
    fun k => PerMaster.get_set ..
  have hstanding : ∀ k, (s.abandonSlot m).standing k =
      if k = m then ⟨none, [], 0, none, []⟩ else s.standing k := fun k => by
    by_cases hk : k = m
    · rw [if_pos hk]
      exact State.standing_eq_iff.2 ⟨by rw [hslot, if_pos hk], by rw [hitems, if_pos hk], by rw [hwaiting, if_pos hk],
        by rw [hassembly, if_pos hk], by rw [hreplies, if_pos hk]⟩
    · rw [if_neg hk]
      exact State.standing_eq_iff.2 ⟨by rw [hslot, if_neg hk], by rw [hitems, if_neg hk], by rw [hwaiting, if_neg hk],
        by rw [hassembly, if_neg hk], by rw [hreplies, if_neg hk]⟩
  refine ⟨fun k hk => ?_, fun _ hx => (nomatch hx), fun k => ?_⟩
  · obtain ⟨hs, hr⟩ := h.granted k hk
    rw [hslot, hreplies, hs, hr]
    exact ⟨ite_self _, ite_self _⟩
  · rw [hstanding]
    split
    · exact .empty (Or.inl rfl)
    · exact h.standing k

/-! ### Issue -/

theorem State.refreshQueueWaits_stands (s : State) (m : Master) :
    Option.Rel Slot.Stands (s.rsa.slots.get m) (s.refreshQueueWaits.rsa.slots.get m) := by
  unfold State.refreshQueueWaits
  rw [State.modifyHeld_get]
  cases s.rsa.slots.get m with
  | none => exact .none
  | some a =>
    refine .some ?_
    dsimp only
    split
    · exact ⟨rfl, Or.inl rfl, rfl⟩
    · exact .refl a

/-- The HELD slots are brought into line with a queue (R60). -/
theorem OneReplyWhile.refreshed {x : Doing} (h : OneReplyWhile x s) (q : List QueueEntry) :
    OneReplyWhile x (s.withPwq q).refreshQueueWaits :=
  h.of_stands (s.withPwq q).refreshQueueWaits_stands rfl rfl rfl

/-- What becomes of a request that stands in its slot. -/
theorem OneReplyWhile.placed (h : OneReplyWhile .nothing s) {m : Master} {sl : Slot}
    (hsl : s.rsa.slots.get m = some sl) (hgrant : t.bfe.grant = s.bfe.grant)
    (hothers : ∀ k, k ≠ m → t.standing k = s.standing k) (hm : (t.standing m).Sound m) : OneReplyWhile .nothing t :=
  h.of_one (fun _ hk => ⟨h.grant_ne hsl (hgrant ▸ hk), hgrant ▸ hk⟩) (fun _ hx => (nomatch hx)) hothers
    (fun _ _ _ hst => hst) hm

/-- m's HELD request is driven on the link: its slot ISSUED, and one item. -/
theorem OneReplyWhile.issued (h : OneReplyWhile .nothing s) {m : Master} {sl : Slot}
    (hsl : s.rsa.slots.get m = some sl) (hp : sl.phase = .held) (tag : BitVec 2) (kind : LinkKind) (w : WordAddr)
    {o : Origin} (lanes : Option Lanes) (ho : o.slotMaster = some m) :
    sl.arrived = none ∧ ∀ k, ((s.slotIssued m).drive tag kind w o lanes).standing k =
      if k = m then ⟨some { sl with phase := .issued }, [⟨tag, kind, w, o, false⟩], 0, none, []⟩ else s.standing k := by
  have hsound : (s.standing m).Sound m := h.standing m
  obtain ⟨hst, harr⟩ := hsound.of_held hsl hp
  have hitems : s.liveItems m = [] := (State.standing_eq_iff.1 hst).2.1
  refine ⟨harr, fun k => ?_⟩
  unfold State.slotIssued
  rw [State.standing_drive, ho, State.standing_modifySlot]
  by_cases hk : k = m
  · subst hk
    have hlive : (s.modifySlot k fun sl => { sl with phase := .issued }).liveItems k = [] := hitems
    rw [if_pos rfl, if_pos rfl, if_pos rfl, hst, hsl, hlive]
    rfl
  · rw [if_neg (by simpa using Ne.symm hk), if_neg hk, if_neg hk]

theorem State.standing_assembling (m : Master) (a : Option Assembly) (k : Master) :
    (s.withMlc (s.mlc.assembling m a)).standing k =
      if k = m then { s.standing m with assembly := a } else s.standing k := by
  have hassembly : (s.withMlc (s.mlc.assembling m a)).mlc.assemblies.get k =
      if k = m then a else s.mlc.assemblies.get k := PerMaster.get_set ..
  unfold State.standing
  rw [hassembly]
  by_cases hk : k = m
  · subst hk
    simp only [if_true]
    rfl
  · simp only [if_neg hk]
    rfl

/-- An issued write that is not queued, and an issued word read. -/
theorem OneReplyWhile.wordIssued (h : OneReplyWhile .nothing s) {m : Master} {sl : Slot}
    (hsl : s.rsa.slots.get m = some sl) (hp : sl.phase = .held) {tag : BitVec 2} {kind : LinkKind} {w : WordAddr}
    {o : Origin} {lanes : Option Lanes} (ho : o.slotMaster = some m)
    (hsound : sl.arrived = none → Standing.Sound m
      ⟨some { sl with phase := .issued }, [⟨tag, kind, w, o, false⟩], 0, none, []⟩) :
    OneReplyWhile .nothing ((s.slotIssued m).drive tag kind w o lanes) := by
  obtain ⟨harr, hst⟩ := h.issued hsl hp tag kind w lanes ho
  refine h.placed hsl rfl (fun k hk => ?_) ?_
  · rw [hst, if_neg hk]
  · rw [hst, if_pos rfl]
    exact hsound harr

theorem OneReplyWhile.lineIssued (h : OneReplyWhile .nothing s) {m : Master} {sl : Slot}
    (hsl : s.rsa.slots.get m = some sl) (hp : sl.phase = .held) {tag : BitVec 2} {l : LineAddr} {p : Policy}
    {mode : FillMode} (hq : sl.request = .readLine l p mode) :
    OneReplyWhile .nothing (((s.slotIssued m).drive tag .rdLine (wordOfLine l 0) (.read m) none).withMlc
      (((s.slotIssued m).drive tag .rdLine (wordOfLine l 0) (.read m) none).mlc.assembling m
        (some ⟨l, mode, []⟩))) := by
  obtain ⟨harr, hst⟩ := h.issued hsl hp tag .rdLine (wordOfLine l 0) (o := .read m) none rfl
  refine h.placed hsl rfl (fun k hk => ?_) ?_
  · rw [State.standing_assembling, if_neg hk, hst, if_neg hk]
  · rw [State.standing_assembling, if_pos rfl, hst, if_pos rfl]
    exact .line (a := ⟨l, mode, []⟩) rfl harr hq rfl rfl rfl

/-- The issue of a read raises the counts of the queue and tells the HELD slots (R61, R89). -/
theorem State.readIssued_stands (s : State) (m k : Master) :
    Option.Rel Slot.Stands ((s.slotIssued m).rsa.slots.get k) ((s.readIssued m).rsa.slots.get k) :=
  ((s.slotIssued m).withPwq (raiseCounts s.pwq)).refreshQueueWaits_stands k

/-- A continuation waits for a fill whose words have not all come. -/
theorem Standing.Sound.of_waiting {m : Master} {st : Standing} (h : st.Sound m) {n : Nat} (hw : st.waiting = n + 1) :
    ∃ sl p mode a, st = ⟨some sl, [], 1, some a, []⟩ ∧ n = 0 ∧ sl.phase = .issued ∧ sl.arrived = none ∧
      sl.request = .readLine a.line p mode ∧ a.words.length ≤ 7 := by
  cases h with
  | between hp ha hq hlen =>
    cases hw
    exact ⟨_, _, _, _, rfl, rfl, hp, ha, hq, hlen⟩
  | _ => cases hw

theorem OneReplyWhile.continuation (h : OneReplyWhile .nothing s) {m : Master} {rest : List Master}
    (hc : s.mlc.continuations = m :: rest) : rest.count m = 0 ∧ ∃ sl p mode a,
      s.standing m = ⟨some sl, [], 1, some a, []⟩ ∧ sl.phase = .issued ∧ sl.arrived = none ∧
      sl.request = .readLine a.line p mode ∧ a.words.length ≤ 7 := by
  have hsound : (s.standing m).Sound m := h.standing m
  have hw : (s.standing m).waiting = rest.count m + 1 := by
    show s.mlc.continuations.count m = _
    rw [hc, List.count_cons_self]
  obtain ⟨sl, p, mode, a, hst, hn, hrest⟩ := hsound.of_waiting hw
  exact ⟨hn, sl, p, mode, a, hst, hrest⟩

/-- A continuation leaves its list and asks for the line from the assembly's next word (R170, R173). -/
theorem OneReplyWhile.continued (h : OneReplyWhile .nothing s) {m : Master} {rest : List Master} {a : Assembly}
    (hc : s.mlc.continuations = m :: rest) (ha : s.mlc.assemblies.get m = some a) (tag : BitVec 2) :
    OneReplyWhile .nothing ((s.withMlc { s.mlc with continuations := rest }).drive tag .rdRest
      (wordOfLine a.line a.words.length) (.continuation m) none) := by
  obtain ⟨hn, sl, p, mode, a', hst, hp, harr, hq, hlen⟩ := h.continuation hc
  obtain ⟨hsl, hitems, -, ha', hrs⟩ := State.standing_eq_iff.1 hst
  obtain rfl : a = a' := Option.some.inj (ha.symm.trans ha')
  refine h.placed hsl rfl (fun k hk => ?_) ?_
  · rw [State.standing_drive, if_neg (by simpa [Origin.slotMaster] using Ne.symm hk)]
    refine State.standing_eq_iff.2 ⟨rfl, rfl, ?_, rfl, rfl⟩
    show rest.count k = _
    rw [hc, List.count_cons_of_ne (Ne.symm hk)]
  · have hu : (s.withMlc { s.mlc with continuations := rest }).standing m = ⟨some sl, [], 0, some a, []⟩ :=
      State.standing_eq_iff.2 ⟨hsl, hitems, hn, ha, hrs⟩
    have hlive : (s.withMlc { s.mlc with continuations := rest }).liveItems m = [] := hitems
    have hm : (Origin.continuation m).slotMaster = some m := rfl
    rw [State.standing_drive, if_pos hm, hu, hlive]
    exact .rest hp harr hq rfl rfl hlen rfl

theorem OneReplyWhile.queuedIssued (h : OneReplyWhile .nothing s) (tag : BitVec 2) (e : QueueEntry) :
    OneReplyWhile .nothing (s.issueQueued tag e) := by
  have hu := h.refreshed (issueOldest s.pwq)
  refine ⟨hu.granted, hu.cleared, fun m => ?_⟩
  unfold State.issueQueued
  rw [State.standing_drive, if_neg (by simp [Origin.slotMaster])]
  exact hu.standing m

/-! ### Completion -/

theorem State.standing_inFlight {i : InFlight} {rest : List InFlight} (h : s.mlc.inFlight = i :: rest) (m : Master) :
    s.standing m = ((s.withMlc { s.mlc with inFlight := rest }).standing m).before m i := by
  have hitems : s.liveItems m = if i.liveFor m then i :: rest.filter (InFlight.liveFor m)
      else rest.filter (InFlight.liveFor m) := by rw [State.liveItems_eq, h, List.filter_cons]
  have hrest : (s.withMlc { s.mlc with inFlight := rest }).liveItems m = rest.filter (InFlight.liveFor m) :=
    State.liveItems_eq ..
  unfold State.standing Standing.before
  rw [hitems, hrest]
  split <;> rfl

theorem Standing.before_of_not {m : Master} {i : InFlight} (h : i.liveFor m = false) (st : Standing) :
    st.before m i = st := if_neg (by simp [h])

/-- A discarded completion is nobody's (R175). -/
theorem OneReplyWhile.dropped (h : OneReplyWhile .nothing s) {i : InFlight} {rest : List InFlight}
    (hi : s.mlc.inFlight = i :: rest) (hd : i.discard = true) :
    OneReplyWhile .nothing (s.withMlc { s.mlc with inFlight := rest }) := by
  refine ⟨h.granted, fun _ hx => (nomatch hx), fun m => ?_⟩
  rw [← Standing.before_of_not (i := i) (m := m) (by simp [InFlight.liveFor, hd]) (State.standing _ m),
    ← State.standing_inFlight hi]
  exact h.standing m

theorem OneReplyWhile.delivered (h : OneReplyWhile .nothing s) {i : InFlight} {rest : List InFlight}
    (hi : s.mlc.inFlight = i :: rest) (hd : i.discard = false) :
    OneReplyWhile (.delivering i) (s.withMlc { s.mlc with inFlight := rest }) :=
  ⟨h.granted, fun _ hx => (nomatch hx), fun m => ⟨hd, State.standing_inFlight hi m ▸ h.standing m⟩⟩

/-- The item that is delivered counts for its own master alone. -/
theorem OneReplyWhile.delivering_ne {i : InFlight} (h : OneReplyWhile (.delivering i) s) {m : Master}
    (ho : i.origin.slotMaster ≠ some m) : (s.standing m).Sound m := by
  rw [← Standing.before_of_not (i := i) (m := m) (by simp [InFlight.liveFor, ho]) (s.standing m)]
  exact (h.standing m).2

theorem OneReplyWhile.delivering_self {i : InFlight} (h : OneReplyWhile (.delivering i) s) {m : Master}
    (ho : i.origin.slotMaster = some m) : Standing.Sound m { s.standing m with items := i :: s.liveItems m } := by
  obtain ⟨hd, hst⟩ := h.standing m
  rwa [Standing.before, if_pos (InFlight.liveFor_iff.2 ⟨hd, ho⟩)] at hst

/-- A completion of a queued write touches no request in a slot. -/
theorem OneReplyWhile.queueItem {i : InFlight} (h : OneReplyWhile (.delivering i) s) {k : Master}
    (ho : i.origin = .queue k) : OneReplyWhile .nothing s :=
  ⟨h.granted, fun _ hx => (nomatch hx), fun _ => h.delivering_ne (by simp [ho, Origin.slotMaster])⟩

/-- What becomes of the request whose item is delivered. -/
theorem OneReplyWhile.of_delivering {i : InFlight} (h : OneReplyWhile (.delivering i) s) {m : Master} {sl : Slot}
    (ho : i.origin.slotMaster = some m) (hsl : s.rsa.slots.get m = some sl) {y : Doing}
    (hy : y = .nothing ∨ y = .answering m) (hgrant : t.bfe.grant = s.bfe.grant)
    (hothers : ∀ k, k ≠ m → t.standing k = s.standing k) (hm : y.Holds m (t.standing m)) : OneReplyWhile y t := by
  have hne : ∀ {k}, k ≠ m → i.origin.slotMaster ≠ some k := fun hk he => hk (Option.some.inj (he.symm.trans ho))
  refine h.of_one (fun _ hk => ⟨h.grant_ne hsl (hgrant ▸ hk), hgrant ▸ hk⟩) ?_ hothers (fun k st hk hst => ?_) hm
  · rcases hy with rfl | rfl <;> exact fun _ hx => (nomatch hx)
  · have hst : st.Sound k := by
      rw [← Standing.before_of_not (i := i) (m := k) (by simp [InFlight.liveFor, hne hk]) st]
      exact hst.2
    rcases hy with rfl | rfl
    · exact hst
    · exact (Doing.holds_answering_ne hk).2 hst

/-- The item of a write that is not queued. -/
theorem Standing.Sound.of_unposted {m : Master} {st : Standing} (h : st.Sound m) {i : InFlight} {is : List InFlight}
    (hi : st.items = i :: is) (ho : i.origin = .unposted m) : ∃ sl, st = ⟨some sl, [i], 0, none, []⟩ ∧ is = [] ∧
      sl.phase = .issued ∧ sl.request.isUnpostedWrite = true := by
  cases h with
  | unposted hp _ hq =>
    cases hi
    refine ⟨_, rfl, rfl, hp, ?_⟩
    rcases hq with hq | hq <;> rw [hq] <;> rfl
  | word _ _ _ _ ho' | line _ _ _ _ ho' | rest _ _ _ _ ho' =>
    cases hi
    cases ho.symm.trans ho'
  | _ => cases hi

/-- The item of a word read. -/
theorem Standing.Sound.of_wordRead {m : Master} {st : Standing} (h : st.Sound m) {i : InFlight} {is : List InFlight}
    (hi : st.items = i :: is) (hk : i.kind = .rdWord) : ∃ sl, st = ⟨some sl, [i], 0, none, []⟩ ∧ is = [] := by
  cases h with
  | word =>
    cases hi
    exact ⟨_, rfl, rfl⟩
  | unposted _ _ _ hk' | line _ _ _ hk' | rest _ _ _ hk' =>
    cases hi
    cases hk.symm.trans hk'
  | _ => cases hi

/-- The number of a word in its line. -/
theorem wordIndex_wordOfLine (l : LineAddr) {k : Nat} (hk : k < 8) : wordIndex (wordOfLine l k) = k := by
  unfold wordIndex wordOfLine
  rw [BitVec.extractLsb'_append_eq_right, BitVec.toNat_ofNat, Nat.mod_eq_of_lt hk]

/-- The item of a fill asks for the words that its assembly lacks. -/
theorem Standing.Sound.of_lineRead {m : Master} {st : Standing} (h : st.Sound m) {i : InFlight} {is : List InFlight}
    (hi : st.items = i :: is) (ho : i.ReadsFor m) (hk : i.kind ≠ .rdWord) : ∃ sl a p mode,
      st = ⟨some sl, [i], 0, some a, []⟩ ∧ is = [] ∧ sl.phase = .issued ∧ sl.arrived = none ∧
      sl.request = .readLine a.line p mode ∧ wordsAsked i.kind i.word = 8 - a.words.length := by
  cases h with
  | word _ _ _ hk' =>
    cases hi
    exact absurd hk' hk
  | unposted _ _ _ _ ho' =>
    cases hi
    rcases ho with ho | ho <;> cases ho.symm.trans ho'
  | line hp ha hq hk' _ hw =>
    cases hi
    refine ⟨_, _, _, _, rfl, rfl, hp, ha, hq, ?_⟩
    rw [hk', hw]
    rfl
  | rest hp ha hq hk' _ hw hword =>
    cases hi
    refine ⟨_, _, _, _, rfl, rfl, hp, ha, hq, ?_⟩
    rw [hk', hword]
    show 8 - wordIndex _ = _
    rw [wordIndex_wordOfLine _ (by omega)]
  | _ => cases hi

theorem InFlight.ReadsFor.slotMaster {i : InFlight} {m : Master} (h : i.ReadsFor m) :
    i.origin.slotMaster = some m := by
  rcases h with h | h <;> rw [h] <;> rfl

/-- The standing that is left when the only item of a request is delivered. -/
theorem State.standing_of_before {i : InFlight} {m : Master} {o : Option Slot} {n : Nat} {a : Option Assembly}
    {rs : List ReplyBody} {is : List InFlight}
    (h : { s.standing m with items := i :: s.liveItems m } = (⟨o, i :: is, n, a, rs⟩ : Standing)) :
    s.standing m = ⟨o, is, n, a, rs⟩ := by
  rw [Standing.mk.injEq] at h
  obtain ⟨hsl, hitems, hrest⟩ := h
  exact State.standing_eq_iff.2 ⟨hsl, (List.cons.inj hitems).2, hrest⟩

/-- The write of a slot is at an end when its item is delivered, and its answer is to come (R165). -/
theorem OneReplyWhile.unpostedItem {i : InFlight} (h : OneReplyWhile (.delivering i) s) {m : Master}
    (ho : i.origin = .unposted m) : ∃ sl, s.standing m = ⟨some sl, [], 0, none, []⟩ ∧ sl.phase = .issued ∧
      sl.request.isUnpostedWrite = true := by
  obtain ⟨sl, hst, -, hrest⟩ := (h.delivering_self (m := m) (by rw [ho]; rfl)).of_unposted rfl ho
  exact ⟨sl, State.standing_of_before hst, hrest⟩

theorem OneReplyWhile.unpostedEnded {i : InFlight} (h : OneReplyWhile (.delivering i) s) {m : Master}
    (ho : i.origin = .unposted m) : OneReplyWhile (.answering m) s := by
  obtain ⟨sl, hst, -⟩ := h.unpostedItem ho
  exact h.of_delivering (by rw [ho]; rfl) (State.standing_eq_iff.1 hst).1 (Or.inr rfl) rfl (fun _ _ => rfl)
    (Doing.holds_answering_self.2 ⟨sl, hst⟩)

theorem OneReplyWhile.pairArrived {i : InFlight} (h : OneReplyWhile (.delivering i) s) {m : Master} {sl : Slot}
    {w : WordAddr} {p : Option Policy} {lanes : Lanes} (ho : i.origin = .unposted m)
    (hsl : s.rsa.slots.get m = some sl) (hq : sl.request = .lockWrite w p lanes) (en : Ending) :
    OneReplyWhile .nothing (s.modifySlot m fun sl => { sl with arrived := some en }) := by
  obtain ⟨sl', hst, hp, -⟩ := h.unpostedItem ho
  obtain rfl : sl = sl' := Option.some.inj (hsl.symm.trans (State.standing_eq_iff.1 hst).1)
  refine h.of_delivering (by rw [ho]; rfl) hsl (Or.inl rfl) rfl (fun k hk => ?_) ?_
  · rw [State.standing_modifySlot, if_neg hk]
  · rw [State.standing_modifySlot, if_pos rfl, hst, hsl]
    exact .arrived (sl := { sl with arrived := some en }) hp nofun hq

theorem OneReplyWhile.wordReadEnded {i : InFlight} (h : OneReplyWhile (.delivering i) s) {m : Master}
    (ho : i.ReadsFor m) (hk : i.kind = .rdWord) : OneReplyWhile (.answering m) s := by
  obtain ⟨sl, hst, -⟩ := (h.delivering_self ho.slotMaster).of_wordRead rfl hk
  have hst := State.standing_of_before hst
  exact h.of_delivering ho.slotMaster (State.standing_eq_iff.1 hst).1 (Or.inr rfl) rfl (fun _ _ => rfl)
    (Doing.holds_answering_self.2 ⟨sl, hst⟩)

theorem OneReplyWhile.lineItem {i : InFlight} (h : OneReplyWhile (.delivering i) s) {m : Master}
    (ho : i.ReadsFor m) (hk : i.kind ≠ .rdWord) : ∃ sl a p mode, s.standing m = ⟨some sl, [], 0, some a, []⟩ ∧
      sl.phase = .issued ∧ sl.arrived = none ∧ sl.request = .readLine a.line p mode ∧
      wordsAsked i.kind i.word = 8 - a.words.length := by
  obtain ⟨sl, a, p, mode, hst, -, hrest⟩ := (h.delivering_self ho.slotMaster).of_lineRead rfl ho hk
  exact ⟨sl, a, p, mode, State.standing_of_before hst, hrest⟩

/-- A part of the line arrives, and its continuation waits (R170, R173). -/
theorem OneReplyWhile.partArrived {i : InFlight} (h : OneReplyWhile (.delivering i) s) {m : Master} {a : Assembly}
    {ws : List Word} (ho : i.ReadsFor m) (hk : i.kind ≠ .rdWord) (ha : s.mlc.assemblies.get m = some a) (hne : ws ≠ [])
    (hws : ws.length < wordsAsked i.kind i.word) :
    OneReplyWhile .nothing (s.withMlc { s.mlc.assembling m (some { a with words := a.words ++ ws }) with
      continuations := s.mlc.continuations ++ [m] }) := by
  obtain ⟨sl, a', p, mode, hst, hp, harr, hq, hasked⟩ := h.lineItem ho hk
  obtain ⟨hsl, hitems, hwait, ha', hrs⟩ := State.standing_eq_iff.1 hst
  obtain rfl : a = a' := Option.some.inj (ha.symm.trans ha')
  refine h.of_delivering ho.slotMaster hsl (Or.inl rfl) rfl (fun k hne => ?_) ?_
  · refine State.standing_eq_iff.2 ⟨rfl, rfl, ?_, PerMaster.get_set_ne _ _ hne, rfl⟩
    show (s.mlc.continuations ++ [m]).count k = _
    rw [List.count_append, List.count_singleton, if_neg (by simpa using Ne.symm hne), Nat.add_zero]
  · have hcount : (s.mlc.continuations ++ [m]).count m = 1 := by
      rw [List.count_append, hwait, List.count_singleton_self]
    have hst : (s.withMlc { s.mlc.assembling m (some { a with words := a.words ++ ws }) with
        continuations := s.mlc.continuations ++ [m] }).standing m =
          ⟨some sl, [], 1, some { a with words := a.words ++ ws }, []⟩ :=
      State.standing_eq_iff.2 ⟨hsl, hitems, hcount, PerMaster.get_set_self .., hrs⟩
    rw [hst]
    refine .between hp harr hq ?_ (by simp [hne])
    show (a.words ++ ws).length ≤ 7
    rw [List.length_append]
    omega

theorem OneReplyWhile.lineReadEnded {i : InFlight} (h : OneReplyWhile (.delivering i) s) {m : Master}
    (ho : i.ReadsFor m) (hk : i.kind ≠ .rdWord) :
    OneReplyWhile (.answering m) (s.withMlc (s.mlc.assembling m none)) := by
  obtain ⟨sl, a, p, mode, hst, -⟩ := h.lineItem ho hk
  refine h.of_delivering ho.slotMaster (State.standing_eq_iff.1 hst).1 (Or.inr rfl) rfl (fun k hne => ?_)
    (Doing.holds_answering_self.2 ⟨sl, ?_⟩)
  · rw [State.standing_assembling, if_neg hne]
  · rw [State.standing_assembling, if_pos rfl, hst]

/-! ### Every move -/

/-- A change that no standing shows. -/
theorem OneReplyWhile.of_same {x : Doing} (h : OneReplyWhile x s) (hslots : t.rsa.slots = s.rsa.slots)
    (hgrant : t.bfe.grant = s.bfe.grant) (hreplies : t.bfe.replies = s.bfe.replies) (hmlc : t.mlc = s.mlc) :
    OneReplyWhile x t := by
  refine h.of_stands (fun m => ?_) hgrant hreplies hmlc
  rw [hslots]
  cases s.rsa.slots.get m with
  | none => exact .none
  | some a => exact .some (.refl a)

theorem OneReplyWhile.afterReset (mpres mrst sreq : MasterSet) (mrdy spi : Bool) (clk : Nat) (pending : List Instr) :
    OneReplyWhile .nothing (State.afterReset mpres mrst sreq mrdy spi clk pending) :=
  ⟨fun _ hg => (nomatch hg), fun _ hx => (nomatch hx), fun m => by cases m <;> exact .empty (Or.inl rfl)⟩

/-- Every move keeps each request in one place. -/
theorem Move.keeps_oneReply {x y : Doing} (hm : Move x s y t) (h : OneReplyWhile x s) : OneReplyWhile y t := by
  cases hm with
  | background hb =>
    exact h.of_stands (fun m => optionRel_mono (fun _ _ => Slot.Told.stands) (hb.slots m)) hb.grant hb.replies hb.mlc
  | reset => exact .afterReset ..
  | limits =>
    refine OneReplyWhile.of_stands ?_ (State.refreshQueueWaits_stands _) rfl rfl rfl
    exact h.of_same rfl rfl rfl rfl
  | granted hg => exact h.granted_to hg
  | taken hg up => exact h.taken hg up
  | lapsed => exact h.lapsed
  | refused => exact h.refused
  | withdrawn => exact ⟨fun _ hg => (nomatch hg), fun _ hx => (nomatch hx), h.standing⟩
  | held hp ha => exact h.held hp ha
  | decided q a => exact h.decided q a
  | merged | appended => exact h.refreshed _
  | ended hsl he => exact h.ended hsl he
  | answered a => exact h.answered a
  | retrySent hr hb => exact h.sent hr rfl rfl rfl (fun _ _ => rfl) (Or.inr ⟨hb, rfl⟩)
  | answerSent hr =>
    exact h.sent hr rfl rfl rfl (fun _ hk => PerMaster.get_set_ne _ _ hk) (Or.inl (PerMaster.get_set_self ..))
  | abandoned m => exact h.abandoned m
  | continuationIssued _ hc ha => exact h.continued hc ha _
  | continuationStray hc ha =>
    obtain ⟨-, _, _, _, a, hst, -⟩ := h.continuation hc
    cases ha.symm.trans (State.standing_eq_iff.1 hst).2.2.2.1
  | unpostedIssued _ hsl he hq =>
    exact h.wordIssued hsl ((Slot.eligible_iff _).1 he).1 rfl fun ha => .unposted rfl ha hq rfl rfl
  | wordReadIssued _ hsl he hq =>
    exact (h.wordIssued (lanes := none) hsl ((Slot.eligible_iff _).1 he).1 rfl
      fun ha => .word rfl ha hq rfl rfl).of_stands (State.readIssued_stands s _) rfl rfl rfl
  | lineReadIssued _ hsl he hq =>
    exact (h.lineIssued hsl ((Slot.eligible_iff _).1 he).1 hq).of_stands (State.readIssued_stands s _) rfl rfl rfl
  | queuedIssued => exact h.queuedIssued _ _
  | dropped hi hd => exact h.dropped hi hd
  | delivered hi hd => exact h.delivered hi hd
  | queueEnded ho => exact (h.queueItem ho).refreshed _
  | queueStray ho => exact h.queueItem ho
  | unpostedEnded ho => exact h.unpostedEnded ho
  | pairArrived ho hsl hq en => exact h.pairArrived ho hsl hq en
  | unpostedStray ho hno =>
    obtain ⟨sl, hst, -, hw⟩ := h.unpostedItem ho
    rw [hno sl (State.standing_eq_iff.1 hst).1] at hw
    cases hw
  | wordReadEnded ho hk => exact h.wordReadEnded ho hk
  | partArrived ho hk ha hne hws => exact h.partArrived ho hk ha hne hws
  | lineReadEnded ho hk => exact h.lineReadEnded ho hk
  | lineReadStray ho hk ha =>
    obtain ⟨_, a, _, _, hst, -⟩ := h.lineItem ho hk
    cases ha.symm.trans (State.standing_eq_iff.1 hst).2.2.2.1
  | _ => exact h.of_same rfl rfl rfl rfl

end

/-- Settles O60: the standing of each master is sound at each stage of an event, and every step is moves from one stage
to the next. -/
theorem stepsKeepOneReplyForEachRequest : Obligations.StepsKeepOneReplyForEachRequest := by
  intro s t hs hst
  exact (oneReplyEach_iff_while t).2 (step_keeps (fun _ _ _ _ hm => hm.keeps_oneReply)
    ((oneReplyEach_iff_while s).1 hs) hst)

end Sys2Proof.Machine
end

