-- ==== Sys2Proof/Proofs/MaintenanceAndRegions.lean ====
section
/-! PROOFS. The error queue, the limits, the port and the Region Table (R116, R117, R122, R128, R181 to R184). -/

namespace Sys2Proof.Machine

section
variable {s t : State}

/-! ### The maintenance block -/

theorem MaintenanceSound.of_mnc (h : MaintenanceSound s) (hmnc : t.mnc = s.mnc) : MaintenanceSound t := by
  unfold MaintenanceSound
  rw [hmnc]
  exact h

/-- An error is recorded, or the overflow flag stands over a full queue (R183, R184). -/
theorem MaintenanceSound.offered (h : MaintenanceSound s) (kind : ErrorKind) (m : Master) (address : Option Addr) :
    MaintenanceSound (s.withMnc (s.mnc.offered kind m address)) := by
  obtain ⟨hlen, -, hinvalidation, hlock, hbypass, hport⟩ := h
  unfold Mnc.offered
  split
  · refine ⟨?_, fun hnil => absurd hnil ?_, hinvalidation, hlock, hbypass, fun _ _ _ => ?_⟩
    · show (s.mnc.errors ++ _).length ≤ 8
      rw [List.length_append, List.length_singleton]
      omega
    all_goals exact List.append_ne_nil_of_right_ne_nil _ (List.cons_ne_nil _ _)
  · rename_i hfull
    refine ⟨hlen, fun hnil => ?_, hinvalidation, hlock, hbypass, hport⟩
    have hnil : s.mnc.errors = [] := hnil
    rw [hnil] at hfull
    exact absurd (show (0 : Nat) < 8 by decide) hfull

/-- A port whose response returns a record only while one stands. -/
theorem MaintenanceSound.setPort (h : MaintenanceSound s) {p : Port}
    (hp : ∀ command frame, p = .responding command frame true → s.mnc.errors ≠ []) :
    MaintenanceSound (s.setPort p) := by
  obtain ⟨hlen, hflag, hinvalidation, hlock, hbypass, -⟩ := h
  exact ⟨hlen, hflag, hinvalidation, hlock, hbypass, hp⟩

theorem MaintenanceSound.errorTaken (h : MaintenanceSound s) : MaintenanceSound (s.removeHeadError.setPort .ended) := by
  obtain ⟨hlen, -, hinvalidation, hlock, hbypass, -⟩ := h
  refine ⟨?_, fun hnil => ?_, hinvalidation, hlock, hbypass, fun _ _ hp => (nomatch hp)⟩
  · exact Nat.le_trans (List.length_tail ▸ Nat.sub_le _ _) hlen
  · have hnil : s.mnc.errors.tail = [] := hnil
    show (s.mnc.overflow && !s.mnc.errors.tail.isEmpty) = false
    simp [hnil]

theorem MaintenanceSound.limits (h : MaintenanceSound s) {invalidation lock : BitVec 16} {bypass : Byte}
    (hl : limitsInRange invalidation lock bypass = true) :
    MaintenanceSound (s.withMnc { s.mnc with
      invalidationTimeout := invalidation.toNat, lockTimeout := lock.toNat, bypassLimit := bypass.toNat }) := by
  obtain ⟨hlen, hflag, -, -, -, hport⟩ := h
  simp only [limitsInRange, Bool.and_eq_true, decide_eq_true_eq] at hl
  obtain ⟨⟨⟨hinvalidation, hlock⟩, hlow⟩, hhigh⟩ := hl
  exact ⟨hlen, hflag, ⟨hinvalidation, Nat.le_of_lt_succ invalidation.isLt⟩, ⟨hlock, Nat.le_of_lt_succ lock.isLt⟩,
    ⟨hlow, hhigh⟩, hport⟩

theorem Move.keeps_maintenance {x y : Doing} (hm : Move x s y t) (h : MaintenanceSound s) : MaintenanceSound t := by
  cases hm with
  | background hb => exact h.of_mnc hb.mnc
  | reset =>
    have hlimits : (64 ≤ Config.resetInvalidationTimeout ∧ Config.resetInvalidationTimeout ≤ 65535) ∧
        (64 ≤ Config.resetLockTimeout ∧ Config.resetLockTimeout ≤ 65535) ∧
        (1 ≤ Config.resetBypassLimit ∧ Config.resetBypassLimit ≤ 15) := by decide
    obtain ⟨hinvalidation, hlock, hbypass⟩ := hlimits
    exact ⟨Nat.zero_le _, fun _ => rfl, hinvalidation, hlock, hbypass, fun _ _ hp => (nomatch hp)⟩
  | error kind m address => exact h.offered kind m address
  | port hp => exact h.setPort fun command frame he => absurd he (hp command frame)
  | errorShown command response =>
    refine h.setPort fun _ _ he hnil => ?_
    rw [hnil] at he
    cases he
  | errorTaken => exact h.errorTaken
  | limits hl => exact (h.limits hl).of_mnc rfl
  | _ => exact h.of_mnc rfl

/-! ### The Region Table -/

/-- The range of an entry, and the policy of a RETIRING one (R116, R122). -/
def Region.Sound (r : Region) : Prop :=
  r.base.toNat % 4096 = 0 ∧ 1 ≤ r.pages ∧ r.pages ≤ 1048576 ∧ r.base.toNat + r.pages * 4096 ≤ 4294967296 ∧
    (r.state = .retiring → r.policy = .tracked)

/-- Two entries cover no common address. -/
def Region.Apart (r q : Region) : Prop := ∀ a : Addr, ¬ (r.covers a = true ∧ q.covers a = true)

theorem Region.Apart.symm {r q : Region} (h : r.Apart q) : q.Apart r := fun a hc => h a hc.symm

theorem Region.apart_of_overlaps {r q : Region} (h : r.overlaps q = false) : r.Apart q := by
  rintro a ⟨hr, hq⟩
  simp only [Region.overlaps, Bool.and_eq_false_iff, decide_eq_false_iff_not] at h
  simp only [Region.covers, Bool.and_eq_true, decide_eq_true_eq] at hr hq
  omega

theorem mem_usedRegions {t : RegionTable} {n : Fin 8} {r : Region} (h : t[n] = some r) : r ∈ usedRegions t :=
  List.mem_filterMap.2 ⟨some r, h ▸ Vector.mem_toList_iff.2 (Vector.getElem_mem n.isLt), rfl⟩

theorem regionOfArgs_sound {base pages : BitVec 32} {policy : Byte} {r : Region}
    (h : regionOfArgs base pages policy = some r) : r.Sound ∧ r.state = .active := by
  unfold regionOfArgs at h
  split at h
  · rename_i hrange
    obtain ⟨hbase, hlow, hhigh, hend⟩ := hrange
    obtain ⟨p, -, rfl⟩ := Option.map_eq_some_iff.1 h
    exact ⟨⟨hbase, hlow, hhigh, hend, fun hs => (nomatch hs)⟩, rfl⟩
  · cases h

theorem rgt_set_get (t : RegionTable) (n k : Fin 8) (o : Option Region) :
    (t.set n o)[k] = if k = n then o else t[k] := by
  show (t.set n.val o n.isLt)[k.val] = _
  rw [Vector.getElem_set]
  simp only [eq_comm, Fin.ext_iff]
  rfl

/-- A change of what the walk does, that no RETIRING entry waits for. -/
theorem RegionsSound.of_mode (h : RegionsSound s) (hrgt : t.rgt = s.rgt)
    (hmode : ∀ n, t.pdr.walker.mode = .retiring n ↔ s.pdr.walker.mode = .retiring n) : RegionsSound t := by
  obtain ⟨hrange, hapart, hretiring⟩ := h
  unfold RegionsSound
  simp only [hrgt, hmode]
  exact ⟨hrange, hapart, hretiring⟩

/-- A change of entry n, in range and apart from the others, that goes with the walk. -/
theorem RegionsSound.of_entry (h : RegionsSound s) {n : Fin 8} {o : Option Region} (hrgt : t.rgt = s.rgt.set n o)
    (hrange : ∀ r, o = some r → r.Sound)
    (hapart : ∀ r, o = some r → ∀ k q, k ≠ n → s.rgt[k] = some q → r.Apart q)
    (hn : (∃ r, o = some r ∧ r.state = .retiring) ↔ t.pdr.walker.mode = .retiring n)
    (hmode : ∀ k, k ≠ n → (t.pdr.walker.mode = .retiring k ↔ s.pdr.walker.mode = .retiring k)) : RegionsSound t := by
  obtain ⟨hranges, haparts, hretiring⟩ := h
  unfold RegionsSound
  simp only [hrgt, rgt_set_get]
  refine ⟨fun k r hk => ?_, fun k j hne r q hk hj => ?_, fun k => ?_⟩
  · split at hk
    · exact hrange r hk
    · exact hranges k r hk
  · split at hk <;> split at hj
    · exact absurd (by simp [*]) hne
    · exact hapart r hk j q ‹_› hj
    · exact (hapart q hj k r ‹_› hk).symm
    · exact haparts k j hne r q hk hj
  · by_cases hk : k = n
    · simpa [hk] using hn
    · simpa [hk, hmode k hk] using hretiring k

/-- An entry that is not RETIRING is not walked for. -/
theorem RegionsSound.not_retiring (h : RegionsSound s) {n : Fin 8} (hn : ∀ r, s.rgt[n] = some r → r.state ≠ .retiring) :
    s.pdr.walker.mode ≠ .retiring n := fun hm => by
  obtain ⟨r, hr, hst⟩ := (h.2.2 n).2 hm
  exact hn r hr hst

theorem RegionsSound.regionSet (h : RegionsSound s) {n : Fin 8} {base pages : BitVec 32} {policy : Byte} {r : Region}
    (hfree : s.rgt[n] = none) (hr : regionOfArgs base pages policy = some r)
    (hapart : ∀ q ∈ usedRegions s.rgt, r.overlaps q = false) : RegionsSound (s.withRgt (s.rgt.set n (some r))) := by
  obtain ⟨hsound, hactive⟩ := regionOfArgs_sound hr
  have hidle := h.not_retiring (n := n) fun _ hq => by rw [hfree] at hq; cases hq
  refine h.of_entry rfl ?_ ?_ (iff_of_false ?_ hidle) fun _ _ => Iff.rfl
  · rintro _ ⟨⟩
    exact hsound
  · rintro _ ⟨⟩ k q - hq
    exact Region.apart_of_overlaps (hapart q (mem_usedRegions hq))
  · rintro ⟨_, ⟨⟩, hst⟩
    rw [hactive] at hst
    cases hst

/-- An entry becomes UNUSED, and no walk stands for it any more. -/
theorem RegionsSound.cleared (h : RegionsSound s) {n : Fin 8} (hrgt : t.rgt = s.rgt.set n none)
    (hn : t.pdr.walker.mode ≠ .retiring n)
    (hmode : ∀ k, k ≠ n → (t.pdr.walker.mode = .retiring k ↔ s.pdr.walker.mode = .retiring k)) : RegionsSound t :=
  h.of_entry hrgt (fun _ hr => (nomatch hr)) (fun _ hr => (nomatch hr))
    (iff_of_false (fun ⟨_, hr, _⟩ => (nomatch hr)) hn) hmode

theorem RegionsSound.retireStarted (h : RegionsSound s) {n : Fin 8} {base : Addr} {pages : Nat}
    (hm : s.pdr.walker.mode = .idle) (hn : s.rgt[n] = some ⟨.active, base, pages, .tracked⟩) :
    RegionsSound ((s.withRgt (s.rgt.set n (some ⟨.retiring, base, pages, .tracked⟩))).withWalker
      (Walker.started (.retiring n))) := by
  obtain ⟨hbase, hlow, hhigh, hend, -⟩ := h.1 n _ hn
  refine h.of_entry rfl ?_ ?_ (iff_of_true ⟨_, rfl, rfl⟩ rfl) fun k hk => iff_of_false ?_ (by simp [hm])
  · rintro _ ⟨⟩
    exact ⟨hbase, hlow, hhigh, hend, fun _ => rfl⟩
  · rintro _ ⟨⟩ k q hk hq
    have hapart : Region.Apart ⟨.active, base, pages, .tracked⟩ q := h.2.1 n k (Ne.symm hk) _ q hn hq
    exact hapart
  · exact fun he => hk (WalkMode.retiring.inj he).symm

theorem Move.keeps_regions {x y : Doing} (hm : Move x s y t) (h : RegionsSound s) : RegionsSound t := by
  cases hm with
  | background hb => exact h.of_mode hb.rgt fun n => by rw [hb.mode]
  | reset =>
    have hnone : ∀ n : Fin 8, (Vector.replicate 8 none : RegionTable)[n] = none := fun n => by simp
    refine ⟨fun n r hr => ?_, fun n _ _ r _ hr => ?_, fun n => iff_of_false ?_ nofun⟩
    · cases (hnone n).symm.trans hr
    · cases (hnone n).symm.trans hr
    · rintro ⟨r, hr, -⟩
      cases (hnone n).symm.trans hr
  | regionSet hfree hr hapart => exact h.regionSet hfree hr hapart
  | regionCleared hn hr =>
    refine h.cleared rfl (h.not_retiring fun q hq => ?_) fun _ _ => Iff.rfl
    obtain rfl := Option.some.inj (hn.symm.trans hq)
    simp [hr]
  | retireStarted hm hn => exact h.retireStarted hm hn
  | sweepStarted hm => exact h.of_mode rfl fun n => iff_of_false nofun (by simp [hm])
  | retired hm =>
    exact h.cleared rfl nofun fun k hk => iff_of_false nofun (by simpa [hm] using Ne.symm hk)
  | swept hm => exact h.of_mode rfl fun n => iff_of_false nofun (by simp [hm])
  | _ => exact h.of_mode rfl fun _ => Iff.rfl

end

end Sys2Proof.Machine
end

