-- ==== Sys2Proof/Proofs/QueuesInStep.lean ====
section
/-! PROOFS. The Posted Write Queue and the in-flight list keep in step (R75, R80, R89, R168). -/

namespace Sys2Proof.Machine

/-! ### A queue and an in-flight list -/

/-- An item of a queued write. -/
def InFlight.queued (i : InFlight) : Bool := i.origin.slotMaster.isNone

/-- The words and origins of the ISSUED entries. -/
def issuedWrites (q : List QueueEntry) : List (WordAddr × Origin) :=
  (q.filter fun e => e.phase == .issued).map fun e => (e.word, .queue e.source)

/-- The words and origins of the items of queued writes. -/
def writesInFlight (l : List InFlight) : List (WordAddr × Origin) :=
  (l.filter InFlight.queued).map fun i => (i.word, i.origin)

/-- `QueuesSound` of a queue and an in-flight list. -/
structure InStep (q : List QueueEntry) (l : List InFlight) : Prop where
  short : q.length ≤ 16
  issuedFirst : q.Pairwise fun a b => b.phase = .issued → a.phase = .issued
  counts : q.Pairwise fun a b => a.phase = .waiting → b.phase = .waiting → b.count ≤ a.count
  four : l.length ≤ 4
  tags : (l.map InFlight.tag).Nodup
  step : issuedWrites q = writesInFlight l
  kept : ∀ i ∈ l, ∀ m, i.origin = .queue m → i.discard = false

theorem queuesSound_iff (s : State) : QueuesSound s ↔ InStep s.pwq s.mlc.inFlight := by
  unfold QueuesSound
  refine ⟨fun ⟨hshort, hfirst, hcounts, hfour, htags, hstep, hkept⟩ => ⟨hshort, hfirst, hcounts, hfour, htags,
      hstep.trans (congrArg _ (List.filter_congr fun i _ => ?_)), hkept⟩,
    fun h => ⟨h.short, h.issuedFirst, h.counts, h.four, h.tags,
      h.step.trans (congrArg _ (List.filter_congr fun i _ => ?_)), h.kept⟩⟩
  all_goals
    unfold InFlight.queued
    cases i.origin <;> rfl

theorem InFlight.queued_iff {i : InFlight} : i.queued = true ↔ ∃ k, i.origin = .queue k := by
  unfold InFlight.queued
  cases i.origin <;> simp [Origin.slotMaster]

theorem writesInFlight_cons_of_not {i : InFlight} (h : i.queued = false) (l : List InFlight) :
    writesInFlight (i :: l) = writesInFlight l := by
  unfold writesInFlight
  rw [List.filter_cons_of_neg (by simp [h])]

theorem writesInFlight_cons_of_queue {i : InFlight} {k : Master} (h : i.origin = .queue k) (l : List InFlight) :
    writesInFlight (i :: l) = (i.word, i.origin) :: writesInFlight l := by
  unfold writesInFlight
  rw [List.filter_cons_of_pos (InFlight.queued_iff.2 ⟨k, h⟩), List.map_cons]

section
variable {q : List QueueEntry} {l : List InFlight}

/-! ### Changes of the queue -/

/-- What `InStep` reads of an entry. -/
def QueueEntry.turn (e : QueueEntry) : WordAddr × Master × WritePhase × Nat := (e.word, e.source, e.phase, e.count)

theorem InStep.of_turns (h : InStep q l) {p : List QueueEntry} (hp : p.map QueueEntry.turn = q.map QueueEntry.turn) :
    InStep p l := by
  have hwrites : ∀ q : List QueueEntry, issuedWrites q =
      ((q.map QueueEntry.turn).filter fun x => x.2.2.1 == .issued).map fun x => (x.1, .queue x.2.1) := fun q => by
    unfold issuedWrites
    rw [List.filter_map, List.map_map]
    rfl
  refine ⟨?_, ?_, ?_, h.four, h.tags, ?_, h.kept⟩
  · rw [← List.length_map QueueEntry.turn, hp, List.length_map]
    exact h.short
  · refine (List.pairwise_map (f := QueueEntry.turn)
      (R := fun x y => y.2.2.1 = .issued → x.2.2.1 = .issued)).1 ?_
    rw [hp]
    exact List.pairwise_map.2 h.issuedFirst
  · refine (List.pairwise_map (f := QueueEntry.turn)
      (R := fun x y => x.2.2.1 = .waiting → y.2.2.1 = .waiting → y.2.2.2 ≤ x.2.2.2)).1 ?_
    rw [hp]
    exact List.pairwise_map.2 h.counts
  · rw [hwrites, hp, ← hwrites]
    exact h.step

theorem turns_mergeYoungest (lanes : Lanes) (q : List QueueEntry) :
    (mergeYoungest lanes q).map QueueEntry.turn = q.map QueueEntry.turn := by
  induction q using mergeYoungest.induct with
  | case1 | case2 => rfl
  | case3 e f q ih =>
    rw [mergeYoungest, List.map_cons, ih]
    rfl

theorem issuedWrites_append_waiting {e : QueueEntry} (he : e.phase = .waiting) (q : List QueueEntry) :
    issuedWrites (q ++ [e]) = issuedWrites q := by
  unfold issuedWrites
  rw [List.filter_append, List.filter_cons_of_neg (by simp [he]), List.filter_nil, List.append_nil]

/-- A write joins the young end WAITING, with count 0 (R75, R79). -/
theorem InStep.append (h : InStep q l) (hlen : q.length < 16) {e : QueueEntry} (he : e.phase = .waiting)
    (hcount : e.count = 0) : InStep (q ++ [e]) l := by
  refine ⟨?_, ?_, ?_, h.four, h.tags, (issuedWrites_append_waiting he q).trans h.step, h.kept⟩
  · rw [List.length_append]
    exact hlen
  · refine List.pairwise_append.2 ⟨h.issuedFirst, List.pairwise_singleton _ _, fun a _ b hb hi => ?_⟩
    rw [List.mem_singleton.1 hb, he] at hi
    cases hi
  · refine List.pairwise_append.2 ⟨h.counts, List.pairwise_singleton _ _, fun a _ b hb _ _ => ?_⟩
    rw [List.mem_singleton.1 hb, hcount]
    exact Nat.zero_le _

/-- The bypass count of an entry as the issue of a read leaves it. -/
theorem raiseCounts_eq (q : List QueueEntry) :
    raiseCounts q = q.map fun e => { e with count := if e.phase = .waiting then e.count + 1 else e.count } := by
  refine List.map_congr_left fun e _ => ?_
  split <;> rfl

theorem issuedWrites_raiseCounts (q : List QueueEntry) : issuedWrites (raiseCounts q) = issuedWrites q := by
  unfold issuedWrites
  rw [raiseCounts_eq, List.filter_map, List.map_map]
  rfl

/-- The counts of all WAITING entries rise together (R89). -/
theorem InStep.raise (h : InStep q l) : InStep (raiseCounts q) l := by
  refine ⟨?_, ?_, ?_, h.four, h.tags, (issuedWrites_raiseCounts q).trans h.step, h.kept⟩ <;> rw [raiseCounts_eq]
  · rw [List.length_map]
    exact h.short
  · exact List.pairwise_map.2 h.issuedFirst
  · refine List.pairwise_map.2 (h.counts.imp fun {a b} hab ha hb => ?_)
    dsimp only at ha hb ⊢
    rw [if_pos ha, if_pos hb]
    exact Nat.succ_le_succ (hab ha hb)

/-- Behind a WAITING entry every entry is WAITING (R80). -/
theorem issuedWrites_of_waiting {e : QueueEntry} (he : e.phase = .waiting)
    (h : ∀ b ∈ q, b.phase = .issued → e.phase = .issued) : issuedWrites (e :: q) = [] := by
  have hnone : (e :: q).filter (fun e => e.phase == .issued) = [] := by
    refine List.filter_eq_nil_iff.2 fun b hb hi => ?_
    have hi : b.phase = .issued := eq_of_beq hi
    rcases List.mem_cons.1 hb with rfl | hb
    · cases he.symm.trans hi
    · cases he.symm.trans (h b hb hi)
  rw [issuedWrites, hnone, List.map_nil]

/-- The oldest WAITING entry is the youngest of the ISSUED ones (R80, R83). -/
theorem issueOldest_inStep (hfirst : q.Pairwise fun a b => b.phase = .issued → a.phase = .issued)
    (hcounts : q.Pairwise fun a b => a.phase = .waiting → b.phase = .waiting → b.count ≤ a.count) {e : QueueEntry}
    (he : q.find? (fun e => e.phase == .waiting) = some e) :
    (issueOldest q).length = q.length ∧
    (issueOldest q).Pairwise (fun a b => b.phase = .issued → a.phase = .issued) ∧
    (issueOldest q).Pairwise (fun a b => a.phase = .waiting → b.phase = .waiting → b.count ≤ a.count) ∧
    issuedWrites (issueOldest q) = issuedWrites q ++ [(e.word, .queue e.source)] := by
  induction q with
  | nil => cases he
  | cons f q ih =>
    obtain ⟨hf, hfirst⟩ := List.pairwise_cons.1 hfirst
    obtain ⟨hc, hcounts⟩ := List.pairwise_cons.1 hcounts
    unfold issueOldest
    by_cases hw : f.phase = .waiting
    · rw [List.find?_cons_of_pos (by simp [hw])] at he
      obtain rfl := Option.some.inj he
      rw [if_pos hw]
      have hq : issuedWrites (f :: q) = [] := issuedWrites_of_waiting hw hf
      refine ⟨rfl, List.pairwise_cons.2 ⟨fun _ _ _ => rfl, hfirst⟩,
        List.pairwise_cons.2 ⟨fun _ _ h => (nomatch h), hcounts⟩, ?_⟩
      have htail : q.filter (fun e => e.phase == .issued) = [] := by
        rw [issuedWrites, List.map_eq_nil_iff, List.filter_cons_of_neg (by simp [hw])] at hq
        exact hq
      rw [hq, issuedWrites, List.filter_cons_of_pos rfl, htail]
      rfl
    · have hi : f.phase = .issued := by
        cases hp : f.phase with
        | waiting => exact absurd hp hw
        | issued => rfl
      rw [List.find?_cons_of_neg (by simp [hi])] at he
      obtain ⟨hlen, hfirst, hcounts, hwrites⟩ := ih hfirst hcounts he
      rw [if_neg hw]
      refine ⟨congrArg (· + 1) hlen, List.pairwise_cons.2 ⟨fun _ _ _ => hi, hfirst⟩,
        List.pairwise_cons.2 ⟨fun _ _ h => absurd h hw, hcounts⟩, ?_⟩
      have hcons : ∀ q, issuedWrites (f :: q) = (f.word, .queue f.source) :: issuedWrites q := fun q => by
        unfold issuedWrites
        rw [List.filter_cons_of_pos (by simp [hi]), List.map_cons]
      rw [hcons, hcons, hwrites, List.cons_append]

/-! ### Changes of the in-flight list -/

theorem writesInFlight_append (l : List InFlight) (i : InFlight) :
    writesInFlight (l ++ [i]) = writesInFlight l ++ if i.queued then [(i.word, i.origin)] else [] := by
  unfold writesInFlight
  rw [List.filter_append, List.filter_singleton, List.map_append]
  cases i.queued <;> rfl

/-- An item is driven: the bound, the tags and the marks (R168, R169). -/
theorem InStep.drive (h : InStep q l) {p : List QueueEntry} (hp : p.length ≤ 16)
    (hfirst : p.Pairwise fun a b => b.phase = .issued → a.phase = .issued)
    (hcounts : p.Pairwise fun a b => a.phase = .waiting → b.phase = .waiting → b.count ≤ a.count) {i : InFlight}
    (hlen : l.length < 4) (htag : ∀ j ∈ l, j.tag ≠ i.tag) (hd : i.discard = false)
    (hstep : issuedWrites p = issuedWrites q ++ if i.queued then [(i.word, i.origin)] else []) :
    InStep p (l ++ [i]) := by
  refine ⟨hp, hfirst, hcounts, ?_, ?_, ?_, List.forall_mem_append.2 ⟨h.kept, List.forall_mem_singleton.2 fun _ _ => hd⟩⟩
  · rw [List.length_append]
    exact hlen
  · rw [List.map_append, List.map_singleton]
    refine List.nodup_append.2 ⟨h.tags, List.nodup_singleton _, fun a ha b hb => ?_⟩
    obtain ⟨j, hj, rfl⟩ := List.mem_map.1 ha
    exact List.mem_singleton.1 hb ▸ htag j hj
  · rw [hstep, writesInFlight_append, h.step]

theorem InStep.driveOther (h : InStep q l) {i : InFlight} (hlen : l.length < 4) (htag : ∀ j ∈ l, j.tag ≠ i.tag)
    (hd : i.discard = false) (ho : i.queued = false) : InStep q (l ++ [i]) :=
  h.drive h.short h.issuedFirst h.counts hlen htag hd (by simp [ho])

/-- An item of no queued write leaves the list. -/
theorem InStep.otherEnds {i : InFlight} (h : InStep q (i :: l)) (ho : i.queued = false) : InStep q l := by
  refine ⟨h.short, h.issuedFirst, h.counts, Nat.le_of_succ_le h.four, (List.nodup_cons.1 h.tags).2, ?_,
    fun j hj => h.kept j (List.mem_cons_of_mem _ hj)⟩
  rw [h.step, writesInFlight_cons_of_not ho]

/-- The first item of a queued write is the first entry's (R85). -/
theorem InStep.writeEnds {i : InFlight} {k : Master} {e : QueueEntry} (h : InStep (e :: q) (i :: l))
    (ho : i.origin = .queue k) : InStep q l := by
  obtain ⟨hissued, hfirst⟩ := List.pairwise_cons.1 h.issuedFirst
  have hstep := h.step
  rw [writesInFlight_cons_of_queue ho] at hstep
  have he : e.phase = .issued := by
    cases hp : e.phase with
    | issued => rfl
    | waiting =>
      rw [issuedWrites_of_waiting hp hissued] at hstep
      cases hstep
  refine ⟨Nat.le_of_succ_le h.short, hfirst, (List.pairwise_cons.1 h.counts).2, Nat.le_of_succ_le h.four,
    (List.nodup_cons.1 h.tags).2, ?_, fun j hj => h.kept j (List.mem_cons_of_mem _ hj)⟩
  rw [issuedWrites, List.filter_cons_of_pos (by simp [he]), List.map_cons] at hstep
  exact (List.cons.inj hstep).2

theorem InStep.no_stray {i : InFlight} {k : Master} (h : InStep [] (i :: l)) (ho : i.origin = .queue k) : False := by
  have hstep := h.step
  rw [writesInFlight_cons_of_queue ho] at hstep
  cases hstep

theorem InFlight.discardFor_keeps (m : Master) (i : InFlight) :
    (i.discardFor m).tag = i.tag ∧ (i.discardFor m).word = i.word ∧ (i.discardFor m).origin = i.origin ∧
      (i.queued = true → i.discardFor m = i) := by
  rw [InFlight.discardFor_eq]
  split
  · refine ⟨rfl, rfl, rfl, fun hq => ?_⟩
    rename_i ho
    rw [InFlight.queued, ho] at hq
    cases hq
  · exact ⟨rfl, rfl, rfl, fun _ => rfl⟩

/-- The items of an abandoned slot stay on the list, marked (R175). -/
theorem InStep.discardFor (h : InStep q l) (m : Master) : InStep q (l.map (InFlight.discardFor m)) := by
  refine ⟨h.short, h.issuedFirst, h.counts, ?_, ?_, ?_, fun j hj k hk => ?_⟩
  · rw [List.length_map]
    exact h.four
  · have htags : (l.map (InFlight.discardFor m)).map InFlight.tag = l.map InFlight.tag :=
      List.map_map.trans (List.map_congr_left fun i _ => (InFlight.discardFor_keeps m i).1)
    exact htags ▸ h.tags
  · have hqueued : ∀ i : InFlight, (i.discardFor m).queued = i.queued := fun i => by
      rw [InFlight.queued, (InFlight.discardFor_keeps m i).2.2.1, InFlight.queued]
    rw [h.step, writesInFlight, writesInFlight, List.filter_map, List.map_map,
      List.filter_congr fun i _ => (hqueued i).symm]
    refine List.map_congr_left fun i _ => ?_
    obtain ⟨-, hword, horigin, -⟩ := InFlight.discardFor_keeps m i
    show (i.word, i.origin) = ((i.discardFor m).word, (i.discardFor m).origin)
    rw [hword, horigin]
  · obtain ⟨i, hi, rfl⟩ := List.mem_map.1 hj
    obtain ⟨-, -, horigin, hsame⟩ := InFlight.discardFor_keeps m i
    rw [horigin] at hk
    rw [hsame (InFlight.queued_iff.2 ⟨k, hk⟩)]
    exact h.kept i hi k hk

end

/-! ### Every move -/

/-- The in-flight list with the item that is being delivered still on it. -/
def Doing.onLink : Doing → List InFlight → List InFlight
  | .delivering i, l => i :: l
  | .nothing, l | .taking _, l | .answering _, l => l

section
variable {s t : State}

theorem InFlight.ReadsFor.not_queued {i : InFlight} {m : Master} (h : i.ReadsFor m) : i.queued = false := by
  rw [InFlight.queued, h.slotMaster]
  rfl

theorem InFlight.not_queued_of_unposted {i : InFlight} {m : Master} (h : i.origin = .unposted m) :
    i.queued = false := by
  rw [InFlight.queued, h]
  rfl

theorem Move.keeps_inStep {x y : Doing} (hm : Move x s y t) (h : InStep s.pwq (x.onLink s.mlc.inFlight)) :
    InStep t.pwq (y.onLink t.mlc.inFlight) := by
  cases hm with
  | background hb =>
    rw [hb.pwq, hb.mlc]
    exact h
  | reset => exact ⟨Nat.zero_le _, .nil, .nil, Nat.zero_le _, .nil, rfl, fun _ hi => absurd hi List.not_mem_nil⟩
  | merged lanes => exact h.of_turns (turns_mergeYoungest lanes s.pwq)
  | appended hlen => exact h.append hlen rfl rfl
  | abandoned m => exact h.discardFor m
  | continuationIssued hd | unpostedIssued hd => exact h.driveOther hd.1 hd.2 rfl rfl
  | wordReadIssued hd | lineReadIssued hd => exact h.raise.driveOther hd.1 hd.2 rfl rfl
  | queuedIssued hd he =>
    obtain ⟨hlen, hfirst, hcounts, hwrites⟩ := issueOldest_inStep h.issuedFirst h.counts he
    exact h.drive (hlen ▸ h.short) hfirst hcounts hd.1 hd.2 rfl hwrites
  | dropped hi hd =>
    rw [hi] at h
    refine h.otherEnds (Bool.eq_false_iff.2 fun hq => ?_)
    obtain ⟨k, hk⟩ := InFlight.queued_iff.1 hq
    cases hd.symm.trans (h.kept _ List.mem_cons_self k hk)
  | delivered hi =>
    rw [hi] at h
    exact h
  | queueEnded ho he =>
    rw [he] at h
    exact h.writeEnds ho
  | queueStray ho he =>
    rw [he] at h
    exact (h.no_stray ho).elim
  | unpostedEnded ho | pairArrived ho | unpostedStray ho => exact h.otherEnds (InFlight.not_queued_of_unposted ho)
  | wordReadEnded ho | partArrived ho | lineReadEnded ho | lineReadStray ho => exact h.otherEnds ho.not_queued
  | _ => exact h

end

end Sys2Proof.Machine
end

