-- ==== Sys2Proof/Proofs/PlainTables.lean ====
section
/-! PROOFS. The acceptance order, the retry preference list and the grant (R57, R144, R159); and the obligation on the
plain tables. -/

namespace Sys2Proof.Machine

section
variable {s t : State}

/-! ### EMPTY slots -/

/-- The same slots are EMPTY. -/
def State.SameEmpty (s t : State) : Prop := ∀ m, t.rsa.slots.get m = none ↔ s.rsa.slots.get m = none

theorem State.SameEmpty.refl (s : State) : s.SameEmpty s := fun _ => Iff.rfl

theorem State.SameEmpty.trans {u : State} (h : s.SameEmpty t) (k : t.SameEmpty u) : s.SameEmpty u :=
  fun m => (k m).trans (h m)

theorem State.SlotsTold.sameEmpty (h : s.SlotsTold t) : s.SameEmpty t := fun m => by
  have hm := h m
  generalize s.rsa.slots.get m = a at hm ⊢
  generalize t.rsa.slots.get m = b at hm ⊢
  cases hm <;> simp

theorem State.modifySlot_sameEmpty (m : Master) (f : Slot → Slot) (s : State) : s.SameEmpty (s.modifySlot m f) :=
  fun k => by
    rw [State.modifySlot_get]
    split
    · rename_i hk
      rw [hk, Option.map_eq_none_iff]
    · rfl

theorem State.refreshQueueWaits_sameEmpty (s : State) : s.SameEmpty s.refreshQueueWaits := fun k => by
  unfold State.refreshQueueWaits
  rw [State.modifyHeld_get, Option.map_eq_none_iff]

theorem State.readIssued_sameEmpty (m : Master) (s : State) : s.SameEmpty (s.readIssued m) :=
  (State.modifySlot_sameEmpty m _ s).trans
    (State.refreshQueueWaits_sameEmpty ((s.slotIssued m).withPwq (raiseCounts s.pwq)))

/-! ### The arbiter's lists -/

/-- `ArbiterSound` as far as an event has come: while m's request is taken no grant stands, m's slot is EMPTY, and m
stands on no list. -/
structure ArbiterWhile (x : Doing) (s : State) : Prop where
  sound : ArbiterSound s
  taking : ∀ m, x = .taking m → s.bfe.grant = none ∧ s.rsa.slots.get m = none ∧ m ∉ s.bfe.retryList

theorem ArbiterSound.while_nothing (h : ArbiterSound s) : ArbiterWhile .nothing s := ⟨h, fun _ hx => (nomatch hx)⟩

/-- Slots that stand, with the lists and the grant as they were. -/
theorem ArbiterSound.of_same (h : ArbiterSound s) (hslots : s.SameEmpty t) (horder : t.rsa.order = s.rsa.order)
    (hretry : t.bfe.retryList = s.bfe.retryList) (hgrant : t.bfe.grant = s.bfe.grant) : ArbiterSound t := by
  obtain ⟨hnodup, hmem, hlist, hfree⟩ := h
  unfold ArbiterSound
  rw [horder, hretry, hgrant]
  refine ⟨hnodup, fun m => (hmem m).trans (not_congr (hslots m)).symm, hlist, fun m hm => ?_⟩
  obtain ⟨hslot, hno⟩ := hfree m hm
  exact ⟨(hslots m).2 hslot, hno⟩

theorem ArbiterWhile.of_same {x : Doing} (h : ArbiterWhile x s) (hslots : s.SameEmpty t)
    (horder : t.rsa.order = s.rsa.order) (hretry : t.bfe.retryList = s.bfe.retryList)
    (hgrant : t.bfe.grant = s.bfe.grant) : ArbiterWhile x t := by
  refine ⟨h.sound.of_same hslots horder hretry hgrant, fun m hx => ?_⟩
  obtain ⟨hnone, hslot, hno⟩ := h.taking m hx
  rw [hgrant, hretry]
  exact ⟨hnone, (hslots m).2 hslot, hno⟩

theorem ArbiterWhile.moved {x y : Doing} (h : ArbiterWhile x s) (hy : ∀ m, y ≠ .taking m) (hslots : s.SameEmpty t)
    (horder : t.rsa.order = s.rsa.order) (hretry : t.bfe.retryList = s.bfe.retryList)
    (hgrant : t.bfe.grant = s.bfe.grant) : ArbiterWhile y t :=
  ⟨h.sound.of_same hslots horder hretry hgrant, fun m hx => absurd hx (hy m)⟩

/-- The grant goes to a master whose slot is EMPTY, and it leaves the list (R144, R158, R159). -/
theorem ArbiterSound.granted (h : ArbiterSound s) {m : Master} (hm : s.grantable m = true) :
    ArbiterSound (s.giveGrant m) := by
  obtain ⟨hnodup, hmem, hlist, -⟩ := h
  refine ⟨hnodup, hmem, hlist.filter _, fun k hk => ?_⟩
  cases hk
  simp only [State.grantable, Bool.and_eq_true, State.slotEmpty, Option.isNone_iff_eq_none] at hm
  obtain ⟨⟨⟨⟨-, hslot⟩, -⟩, -⟩, -⟩ := hm
  refine ⟨hslot, fun hin => ?_⟩
  simpa using (List.mem_filter.1 hin).2

theorem ArbiterSound.taken (h : ArbiterSound s) {m : Master} (hg : s.bfe.grant = some m) (up : Bool) :
    ArbiterWhile (.taking m) (s.clearGrant m up) := by
  obtain ⟨hnodup, hmem, hlist, hfree⟩ := h
  refine ⟨⟨hnodup, hmem, hlist, fun _ hk => (nomatch hk)⟩, fun k hx => ?_⟩
  cases hx
  exact ⟨rfl, hfree m hg⟩

/-- A refused master joins the young end of the list (R152, R159). -/
theorem ArbiterWhile.refused {m : Master} (h : ArbiterWhile (.taking m) s) : ArbiterSound (s.refuse m) := by
  obtain ⟨hnodup, hmem, hlist, -⟩ := h.sound
  obtain ⟨hnone, -, hno⟩ := h.taking m rfl
  refine ⟨hnodup, hmem, hlist.append (List.nodup_singleton m) (List.disjoint_singleton.2 hno), fun k hk => ?_⟩
  cases hnone.symm.trans hk

/-- A request enters the slot of the master that is served: it joins the young end of the order (R57). -/
theorem ArbiterWhile.entered {m : Master} (h : ArbiterWhile (.taking m) s) (sl : Slot) :
    ArbiterSound (s.enterSlot m sl) := by
  obtain ⟨hnodup, hmem, hlist, -⟩ := h.sound
  obtain ⟨hnone, hslot, -⟩ := h.taking m rfl
  have hnew : m ∉ s.rsa.order := fun hin => (hmem m).1 hin hslot
  refine ⟨hnodup.append (List.nodup_singleton m) (List.disjoint_singleton.2 hnew), fun k => ?_, hlist, fun k hk => ?_⟩
  · rw [State.enterSlot_get]
    show k ∈ s.rsa.order ++ [m] ↔ _
    rw [List.mem_append, List.mem_singleton, hmem k]
    by_cases hk : k = m <;> simp [hk]
  · cases hnone.symm.trans hk

/-- m's slot becomes EMPTY: m leaves the order (R57). -/
theorem ArbiterSound.emptySlot (h : ArbiterSound s) (m : Master) : ArbiterSound (s.emptySlot m) := by
  obtain ⟨hnodup, hmem, hlist, hfree⟩ := h
  refine ⟨hnodup.filter _, fun k => ?_, hlist, fun k hk => ?_⟩
  · rw [State.emptySlot_get]
    show k ∈ s.rsa.order.filter _ ↔ _
    rw [List.mem_filter, hmem k]
    by_cases hk : k = m <;> simp [hk]
  · obtain ⟨hslot, hno⟩ := hfree k hk
    rw [State.emptySlot_get, hslot]
    exact ⟨ite_self _, hno⟩

theorem ArbiterSound.leaveRetryList (h : ArbiterSound s) (m : Master) : ArbiterSound (s.leaveRetryList m) := by
  obtain ⟨hnodup, hmem, hlist, hfree⟩ := h
  refine ⟨hnodup, hmem, hlist.filter _, fun k hk => ?_⟩
  obtain ⟨hslot, hno⟩ := hfree k hk
  exact ⟨hslot, fun hin => hno (List.mem_filter.1 hin).1⟩

theorem ArbiterSound.withdrawn (h : ArbiterSound s) : ArbiterSound (s.withBfe { s.bfe with grant := none }) := by
  obtain ⟨hnodup, hmem, hlist, -⟩ := h
  exact ⟨hnodup, hmem, hlist, fun _ hk => (nomatch hk)⟩

theorem arbiterSound_afterReset (mpres mrst sreq : MasterSet) (mrdy spi : Bool) (clk : Nat) (pending : List Instr) :
    ArbiterSound (State.afterReset mpres mrst sreq mrdy spi clk pending) := by
  refine ⟨.nil, fun m => ?_, .nil, fun _ hk => (nomatch hk)⟩
  cases m <;> exact iff_of_false List.not_mem_nil fun hne => hne rfl

theorem ArbiterSound.makeReply (h : ArbiterSound s) (m : Master) (a : Answer) : ArbiterSound (s.makeReply m a) :=
  h.of_same (State.modifySlot_sameEmpty m _ s) rfl rfl rfl

theorem Move.keeps_arbiter {x y : Doing} (hm : Move x s y t) (h : ArbiterWhile x s) : ArbiterWhile y t := by
  cases hm with
  | background hb => exact h.of_same hb.slots.sameEmpty hb.order hb.retryList hb.grant
  | reset => exact (arbiterSound_afterReset ..).while_nothing
  | granted hm => exact (h.sound.granted hm).while_nothing
  | taken hg up => exact h.sound.taken hg up
  | refused => exact h.refused.while_nothing
  | withdrawn => exact h.sound.withdrawn.while_nothing
  | retryLeft m => exact (h.sound.leaveRetryList m).while_nothing
  | held => exact (h.entered _).while_nothing
  | decided q a => exact ((h.entered _).makeReply _ a).while_nothing
  | limits => exact h.of_same (State.refreshQueueWaits_sameEmpty (s.withMnc _)) rfl rfl rfl
  | merged | appended => exact h.of_same (State.refreshQueueWaits_sameEmpty (s.withPwq _)) rfl rfl rfl
  | answered a => exact (h.sound.makeReply _ a).while_nothing
  | answerSent =>
    refine (ArbiterSound.emptySlot ?_ _).while_nothing
    exact h.sound.of_same (.refl s) rfl rfl rfl
  | abandoned m =>
    refine ArbiterWhile.moved (h.sound.emptySlot m).while_nothing nofun ?_ rfl rfl rfl
    exact .refl (s.emptySlot m)
  | unpostedIssued => exact h.of_same (State.modifySlot_sameEmpty _ _ s) rfl rfl rfl
  | wordReadIssued | lineReadIssued => exact h.of_same (State.readIssued_sameEmpty _ s) rfl rfl rfl
  | queuedIssued => exact h.of_same (State.refreshQueueWaits_sameEmpty (s.withPwq _)) rfl rfl rfl
  | queueEnded => exact h.moved nofun (State.refreshQueueWaits_sameEmpty (s.withPwq _)) rfl rfl rfl
  | pairArrived => exact h.moved nofun (State.modifySlot_sameEmpty _ _ s) rfl rfl rfl
  | retrySent | delivered | ended | unpostedEnded | wordReadEnded | lineReadEnded | lapsed | queueStray | unpostedStray
    | partArrived | lineReadStray => exact h.moved nofun (.refl s) rfl rfl rfl
  | _ => exact h.of_same (.refl _) rfl rfl rfl

end

/-- Settles O55: every move keeps each of the tables, the in-flight list with the item that is being delivered, and the
arbiter's lists with the master whose request is taken. -/
theorem stepsKeepThePlainTablesSound : Obligations.StepsKeepThePlainTablesSound := by
  intro s t hst
  refine ⟨fun h => ?_, fun h => ?_, fun h => ?_, fun h => ?_⟩
  · exact step_keeps (P := fun _ => MaintenanceSound) (fun _ _ _ _ => Move.keeps_maintenance) h hst
  · exact step_keeps (P := fun _ => RegionsSound) (fun _ _ _ _ => Move.keeps_regions) h hst
  · exact (queuesSound_iff t).2 (step_keeps (P := fun x s => InStep s.pwq (x.onLink s.mlc.inFlight))
      (fun _ _ _ _ => Move.keeps_inStep) ((queuesSound_iff s).1 h) hst)
  · exact (step_keeps (fun _ _ _ _ => Move.keeps_arbiter) h.while_nothing hst).sound

end Sys2Proof.Machine
end

