-- ==== Sys2Proof/Proofs/WordReads.lean ====
section
/-! PROOFS. A word read is held, and its completion is answered (R59, R62, R67, R68, R167, R171). -/

namespace Sys2Proof.Machine

/-! ### The acceptance of a word read -/

/-- The lookup for a live entry (R33). -/
theorem State.liveEntry_isSome_iff (s : State) (l : LineAddr) :
    (s.liveEntry l).isSome = true ↔ ∃ e ∈ s.ivt.entries, e.line = l := by
  unfold State.liveEntry
  simp

/-- With no lock held a LOCK-READ does not wait for one (R67). -/
theorem State.lockReadWaits_lockWait {s : State} (h : s.bfe.lock = none) (m : Master) (w : WordAddr) :
    (s.lockReadWaits m w).lockWait = false := by
  unfold State.lockReadWaits State.lockAllows
  rw [h]
  rfl

/-- Settles O11: the slot's waits are the queue's three, and a LOCK-READ's own. -/
theorem wordReadIsHeld : Obligations.WordReadIsHeld := by
  rintro r m s x p hpres rfl rfl
  refine ⟨⟨_, congrArg _ (hpres.accept false (State.acceptRead r)),
      Slot.withQueueWaits_queueWaits s (Slot.held _ WaitReasons.none), rfl, rfl, rfl, rfl, rfl⟩,
    ⟨_, congrArg _ (hpres.accept false (State.acceptLockRead r)),
      Slot.withQueueWaits_queueWaits s (Slot.held _ _), ⟨rfl, rfl, ?_, rfl, rfl⟩, State.liveEntry_isSome_iff s _⟩⟩
  obtain ⟨-, -, hfree⟩ := hpres
  exact State.lockReadWaits_lockWait (s := s.taken m true) hfree m (requestWord r)

/-! ### The completion of a word read -/

/-- A word is delivered whole or not at all (R167). -/
theorem completionStatus_word (w : WordAddr) (c : CompletionLines) :
    completionStatus .rdWord w c = if c.mcstat.extractLsb' 0 2 = 0#2 then .ok else .fail := by
  unfold completionStatus
  split
  · rfl
  · exact ite_self _

/-- The completion of a word read of m is handed to its slot (R171). -/
theorem exec_mrlCompletion_of_word {c : CompletionLines} {tag : BitVec 2} {w : WordAddr} {m : Master}
    {rest : List InFlight} {s : State} (hlist : s.mlc.inFlight = ⟨tag, .rdWord, w, .read m, false⟩ :: rest) :
    exec (.mrlCompletion c) s = .next (State.tellWalker s.atEvent
      ((s.atEvent.withMlc { s.mlc with inFlight := rest }).wordReadEnds m w
        (if c.mcstat.extractLsb' 0 2 = 0#2 then .ok else .fail) c)) := by
  have hlist : s.atEvent.mlc.inFlight = ⟨tag, .rdWord, w, .read m, false⟩ :: rest := hlist
  rw [← completionStatus_word w c]
  show execMrlCompletion c s = _
  unfold execMrlCompletion
  simp only [hlist]
  rfl

/-- A failed LOCK-READ gives up the lock that its master still holds (R68). -/
theorem State.wordReadEnds_eq {s : State} {m : Master} {sl : Slot} (hsl : s.rsa.slots.get m = some sl) (w : WordAddr)
    (c : CompletionLines) :
    s.wordReadEnds m w .ok c = { s with
      rsa := s.rsa.withSlot m (Slot.answered sl.request (.word c.mrd[0]))
      bfe := s.bfe.answering m (.word c.mrd[0]) } ∧
    ∀ failed, failed = { s with
        rsa := s.rsa.withSlot m (Slot.answered sl.request .err)
        bfe := s.bfe.answering m .err
        mnc := s.mnc.offered .memReadFail m (some (addrOfWord w)) } →
      ((sl.request.isLockRead = true ∧ ∃ k, s.bfe.lock = some k ∧ k.holder = m) →
        s.wordReadEnds m w .fail c = { failed with
          rsa := failed.rsa.lockFreed, bfe := { failed.bfe with lock := none } }) ∧
      (¬ (sl.request.isLockRead = true ∧ ∃ k, s.bfe.lock = some k ∧ k.holder = m) →
        s.wordReadEnds m w .fail c = failed) := by
  refine ⟨State.makeReply_eq hsl _, fun failed hf => ?_⟩
  have hlock : failed.bfe.lock = s.bfe.lock := hf ▸ rfl
  have hends : s.wordReadEnds m w .fail c = if sl.request.isLockRead then failed.releaseLockOf m else failed := by
    unfold State.wordReadEnds State.recordFailure
    dsimp only [CompletionStatus.ending]
    rw [hsl, State.pushError_eq, State.makeReply_eq
      (s := { s with mnc := s.mnc.offered .memReadFail m (some (addrOfWord w)) }) (sl := sl) hsl, hf]
  refine ⟨fun ⟨hread, k, hk, hholder⟩ => ?_, fun hno => ?_⟩
  · rw [hends, if_pos hread, State.releaseLockOf_held (hlock.trans hk) hholder]
  · rw [hends]
    split
    · rename_i hread
      exact State.releaseLockOf_free fun k hk hholder => hno ⟨hread, k, hlock.symm.trans hk, hholder⟩
    · rfl

/-- Settles O31, by the status of the completion, and a failed LOCK-READ by the holder of the lock. -/
theorem wordReadIsAnswered : Obligations.WordReadIsAnswered := by
  intro c tag w m rest sl s hlist hsl
  have hexec := exec_mrlCompletion_of_word (c := c) hlist
  obtain ⟨hok, hfail⟩ := State.wordReadEnds_eq (s := s.atEvent.withMlc { s.mlc with inFlight := rest }) hsl w c
  refine ⟨fun hstatus => ?_, fun hstatus => ?_⟩
  · rw [hexec, if_pos hstatus, hok]
    exact congrArg _ (State.tellWalker_of_same rfl)
  · rintro failed rfl
    obtain ⟨hreleased, hkept⟩ := hfail _ rfl
    rw [hexec, if_neg hstatus]
    refine ⟨fun hread => ?_, fun hno => ?_⟩
    · rw [hreleased hread]
      exact congrArg _ (State.tellWalker_of_same rfl)
    · rw [hkept hno]
      exact congrArg _ (State.tellWalker_of_same rfl)

end Sys2Proof.Machine
end

