-- ==== Sys2Proof/Proofs/ResetNotices.lean ====
section
/-! PROOFS. What the reset notice of a master does to its slot, its replies, its grant and its items at the MLC (R71,
R140, R141, R156, R160, R175). -/

namespace Sys2Proof.Machine

/-! ### The rotation pointer -/

theorem State.releaseLockOf_pointer (m : Master) (s : State) : (s.releaseLockOf m).bfe.pointer = s.bfe.pointer := by
  unfold State.releaseLockOf
  split
  · split <;> rfl
  · rfl

theorem State.settleSlot_pointer (s : State) (m : Master) : (s.settleSlot m).bfe.pointer = s.bfe.pointer := by
  unfold State.settleSlot
  split
  · rfl
  · split
    · split <;> rfl
    · split
      · exact s.releaseLockOf_pointer m
      · rfl
    · rfl

/-- The pointer moves with a grant alone (R158, R160). -/
theorem State.completeEntries_pointer (es : List TrackerEntry) (s : State) :
    (s.completeEntries es).bfe.pointer = s.bfe.pointer := by
  have hentries : (es.foldl State.completeEntry s).bfe = s.bfe :=
    foldl_keeps State.completeEntry State.bfe (fun s e => (State.completeEntry_keeps s e).1) es s
  have hsettled := foldl_keeps State.settleSlot (fun s => s.bfe.pointer) State.settleSlot_pointer
    (es.foldl State.completeEntry s).rsa.order (es.foldl State.completeEntry s)
  exact hsettled.trans (congrArg Bfe.pointer hentries)

/-! ### The passage to IN_RESET -/

/-- The blocks that the tracker's step of a passage leaves, beside those of `State.departs_frame`. -/
theorem State.departs_link (m : Master) (s : State) :
    (s.departs m .inReset).bfe.pointer = s.bfe.pointer ∧ (s.departs m .inReset).mlc = s.mlc ∧
      (s.departs m .inReset).mnc = s.mnc := by
  rw [State.departs_eq (Or.inr rfl)]
  obtain ⟨-, -, -, -, -, -, hmlc, -, hmnc, -⟩ :=
    State.completeEntries_keeps ((s.gone m .inReset).ivt.entries.filter fun x => x.acked == x.targets)
      (s.gone m .inReset)
  exact ⟨State.completeEntries_pointer _ _, hmlc, hmnc⟩

/-- The items that an abandoned slot leaves at the MLC (R175). -/
theorem InFlight.discardFor_eq_origins (m : Master) (i : InFlight) : i.discardFor m =
    if i.origin = .read m ∨ i.origin = .unposted m ∨ i.origin = .continuation m then { i with discard := true }
    else i := by
  rw [InFlight.discardFor_eq]
  congr 1
  cases i.origin <;> simp [Origin.slotMaster]

/-- What the passage to IN_RESET leaves of m's request (R71, R140, R156, R160, R175). -/
structure State.Emptied (s t : State) (m : Master) : Prop where
  slot : t.rsa.slots.get m = none
  order : m ∉ t.rsa.order
  replies : ∀ r ∈ t.bfe.replies, r.master ≠ m
  grant : t.bfe.grant = if s.bfe.grant = some m then none else s.bfe.grant
  pointer : t.bfe.pointer = s.bfe.pointer
  mnc : t.mnc = s.mnc
  clk : t.clk = s.clk
  notice : t.mau.resetNotice = s.mau.resetNotice
  mlc : t.mlc = (s.abandonSlot m).mlc

/-- The slot is emptied, then the lock, the list and the grant are left. -/
theorem State.concludes_emptied (m : Master) (s : State) : s.Emptied (s.concludes m .inReset) m := by
  rw [State.concludes_eq, State.emptiedBy, if_pos rfl]
  obtain ⟨-, -, -, -, hmlc, hmau, hmnc, -, hclk, -, horder, -, hreplies, -⟩ :=
    State.releaseLockOf_frame m (s.abandonSlot m)
  have hempty : (s.abandonSlot m).rsa.slots.get m = none := PerMaster.get_set_self ..
  refine ⟨((State.releaseLockOf_background m _).slots.sameEmpty m).2 hempty, ?_, ?_, ?_,
    State.releaseLockOf_pointer m (s.abandonSlot m), hmnc, hclk, congrArg Mau.resetNotice hmau, hmlc⟩
  · show m ∉ ((s.abandonSlot m).releaseLockOf m).rsa.order
    rw [horder]
    show m ∉ s.rsa.order.filter _
    simp
  · show ∀ r ∈ ((s.abandonSlot m).releaseLockOf m).bfe.replies, _
    rw [hreplies]
    show ∀ r ∈ s.bfe.replies.filter _, _
    simp
  · simp only [true_and]

theorem State.enterReset_emptied (m : Master) (s : State) : s.Emptied (s.enterReset m) m := by
  obtain ⟨hgrant, -, -, -, -, hmau, hclk, -⟩ := State.departs_frame (Or.inr rfl) m s (a := .inReset)
  obtain ⟨hpointer, hmlc, hmnc⟩ := State.departs_link m s
  have h := State.concludes_emptied m (s.departs m .inReset)
  rw [State.enterReset_eq]
  generalize (s.departs m .inReset).concludes m .inReset = u at h
  obtain ⟨hbfe, hrsa, -, -, -, -, hmlcT, hmauT, hmncT, -, hclkT, -⟩ := State.tellWalker_frame s u
  refine ⟨?_, ?_, ?_, ?_, ?_, ?_, ?_, ?_, ?_⟩
  · rw [hrsa]
    exact h.slot
  · rw [hrsa]
    exact h.order
  · rw [hbfe]
    exact h.replies
  · rw [hbfe, h.grant, hgrant]
  · rw [hbfe, h.pointer, hpointer]
  · rw [hmncT, h.mnc, hmnc]
  · rw [hclkT, h.clk, hclk]
  · rw [hmauT, h.notice, hmau]
  · rw [hmlcT, h.mlc, State.abandonSlot, hmlc]
    rfl

/-- Settles O42, by the attachment state that the notice finds. -/
theorem resetNoticeEmptiesTheSlot : Obligations.ResetNoticeEmptiesTheSlot := by
  intro m s
  refine ⟨fun hattach => ?_, fun hattach => ?_, ?_⟩
  · have hexec : exec (.resetNoticeRise m) s = .next ((s.atEvent.seeResetNotice m true).enterReset m) := by
      show execResetNoticeRise m s = _
      unfold execResetNoticeRise
      have hseen : (s.atEvent.seeResetNotice m true).mau.attach = s.atEvent.mau.attach := rfl
      rcases hattach with hattach | hattach <;> simp only [hseen, hattach]
    obtain ⟨hslot, horder, hreplies, hgrant, hpointer, hmnc, hclk, hnotice, hmlc⟩ :=
      State.enterReset_emptied m (s.atEvent.seeResetNotice m true)
    refine ⟨_, hexec, hnotice, hslot, horder, hreplies, hgrant, hpointer, hmnc, hclk, ?_, ?_, ?_⟩ <;> rw [hmlc]
    · exact List.map_congr_left fun i _ => InFlight.discardFor_eq_origins m i
    · rfl
    · rfl
  · show execResetNoticeRise m s = _
    unfold execResetNoticeRise
    have hseen : (s.atEvent.seeResetNotice m true).mau.attach = s.atEvent.mau.attach := rfl
    rcases hattach with hattach | hattach <;> simp only [hseen, hattach] <;> rfl
  · show execResetNoticeFall m s = _
    unfold execResetNoticeFall
    have hseen : (s.atEvent.seeResetNotice m false).mau.attach = s.atEvent.mau.attach := rfl
    dsimp only
    rw [hseen]
    split
    · rename_i hattach
      rw [if_pos hattach]
      rfl
    all_goals
      rename_i hattach
      rw [if_neg (by simp [hattach])]
      rfl

end Sys2Proof.Machine
end

