-- ==== Sys2Proof/Proofs/WriteQueue.lean ====
section
/-! PROOFS. The Posted Write Queue: its answer to an offered write, a posted WRITE placed or refused, the issue and the
completion of a queued write, and the limits (R76 to R79, R83 to R86, R91, R98, R99, R152, R169 to R172, R181). -/

namespace Sys2Proof.Machine

/-! ### The answer to an offered write (R76) -/

/-- Posted writes are refused while a HELD slot carries QUEUE_EMPTY_WAIT (R81). -/
theorem State.deviceHold_iff (s : State) : s.deviceHold = true ↔
    ∃ k sl, s.rsa.slots.get k = some sl ∧ sl.phase = .held ∧ sl.waits.queueEmptyWait = true := by
  unfold State.deviceHold
  rw [List.any_eq_true]
  refine ⟨?_, fun ⟨k, sl, hsl, hphase, hwait⟩ => ⟨k, Master.mem_all k, ?_⟩⟩
  · rintro ⟨k, -, hk⟩
    split at hk
    · rename_i sl hsl
      rw [Bool.and_eq_true, beq_iff_eq] at hk
      exact ⟨k, sl, hsl, hk⟩
    · cases hk
  · simp only [hsl, hphase, hwait]
    rfl

/-- The youngest entry takes another write of the same master to the same word while it is WAITING (R76). -/
def QueueEntry.Takes (y : QueueEntry) (m : Master) (w : WordAddr) : Prop :=
  y.phase = .waiting ∧ y.source = m ∧ y.word = w

/-- The answers after a device hold is excluded, in their order (R76). -/
theorem State.offer_of_no_hold {s : State} (h : s.deviceHold = false) (m : Master) (w : WordAddr) :
    (∀ older y, s.pwq = older ++ [y] → y.Takes m w → s.offer m w = .merge) ∧
    ((∀ older y, s.pwq = older ++ [y] → ¬ y.Takes m w) →
      s.offer m w = if s.pwq.length < 16 then .append else .full) := by
  have hoffer : s.offer m w =
      if s.pwq.getLast?.any (fun e => e.phase == .waiting && e.source == m && e.word == w) then .merge
      else if s.pwq.length < 16 then .append else .full := by
    unfold State.offer
    rw [h]
    rfl
  rw [hoffer]
  refine ⟨fun older y hq ⟨hphase, hsource, hword⟩ => if_pos ?_, fun hno => if_neg fun hany => ?_⟩
  · simp [hq, hphase, hsource, hword]
  · obtain ⟨y, hy, htakes⟩ := (Option.any_eq_true _ _).1 hany
    obtain ⟨older, hq⟩ := List.getLast?_eq_some_iff.1 hy
    exact hno older y hq (by simpa [QueueEntry.Takes, and_assoc] using htakes)

/-- Settles O19, by the conditions of the answers in their order. -/
theorem queueAnswersInOrder : Obligations.QueueAnswersInOrder := by
  refine fun m w s => ⟨fun hheld => if_pos (s.deviceHold_iff.2 hheld), fun hnone => ?_⟩
  have hno : s.deviceHold = false := by
    rw [Bool.eq_false_iff, Ne, s.deviceHold_iff]
    rintro ⟨k, sl, hsl, hphase, hwait⟩
    exact absurd hwait (by rw [hnone k sl hsl hphase]; decide)
  obtain ⟨hmerge, hrest⟩ := s.offer_of_no_hold hno m w
  refine ⟨fun older y hq hphase hsource hword => hmerge older y hq ⟨hphase, hsource, hword⟩, fun hother => ?_⟩
  have hoffer := hrest hother
  exact ⟨fun hroom => hoffer.trans (if_pos hroom), fun hfull => hoffer.trans (if_neg (Nat.not_lt.2 hfull))⟩

/-! ### A posted WRITE placed or refused (R77 to R79, R98, R99) -/

/-- The youngest entry alone takes the bytes of a merge (R79). -/
theorem mergeYoungest_append_singleton (lanes : Lanes) (older : List QueueEntry) (y : QueueEntry) :
    mergeYoungest lanes (older ++ [y]) = older ++ [{ y with lanes := lanes.over y.lanes }] := by
  induction older with
  | nil => rfl
  | cons e older ih =>
    rw [List.cons_append, List.cons_append, ← ih]
    cases older <;> rfl

/-- The queue with a write of m appended or merged, as the queue answered (R77 to R79). -/
def PlacedAs (q : List QueueEntry) (ans : QueueAnswer) (m : Master) (w : WordAddr) (lanes : Lanes)
    (placed : List QueueEntry) : Prop :=
  ans = .append ∧ placed = q ++ [⟨w, lanes, m, .waiting, 0⟩] ∨
    ans = .merge ∧ ∃ older y, q = older ++ [y] ∧ placed = older ++ [{ y with lanes := lanes.over y.lanes }]

/-- A write placed: the queue, and the HELD slots brought into line with it (R60, R78, R79). -/
theorem State.placeWrite_eq {s : State} {m : Master} {w : WordAddr} {lanes : Lanes} {ans : QueueAnswer}
    {placed : List QueueEntry} (h : PlacedAs s.pwq ans m w lanes placed) :
    s.placeWrite m w lanes ans = { s with
      pwq := placed, rsa := s.rsa.refreshed placed s.mnc.bypassLimit } := by
  obtain ⟨rfl, rfl⟩ | ⟨rfl, older, y, hq, rfl⟩ := h
  · rfl
  · rw [← mergeYoungest_append_singleton, ← hq]
    rfl

/-- A request decided at its acceptance: its slot REPLYING, and its reply made (R57, R154). -/
theorem State.decideAtOnce_eq (m : Master) (q : SlotRequest) (a : Answer) (s : State) :
    s.decideAtOnce m q a = { s with rsa := s.rsa.entered m (Slot.answered q a), bfe := s.bfe.answering m a } := by
  unfold State.decideAtOnce
  rw [State.makeReply_eq (sl := Slot.held q WaitReasons.none) (PerMaster.get_set_self ..)]
  cases m <;> rfl

section
variable {s : State} {m : Master} {w : WordAddr} {p : Policy}

theorem State.postWrite_placed {lanes : Lanes} {stepped : State} {placed : List QueueEntry}
    (hstep : (if p.isTracked then s.writeStep m (lineOfWord w) else some s) = some stepped)
    (hplaced : PlacedAs s.pwq (s.offer m w) m w lanes placed) :
    s.postWrite m w lanes p = { stepped with
      pwq := placed
      bfe := s.bfe.answering m .done
      rsa := (stepped.rsa.refreshed placed s.mnc.bypassLimit).entered m
        (Slot.answered (.write w (some p) lanes) .done) } := by
  obtain ⟨hbfe, hpwq, hmnc⟩ : stepped.bfe = s.bfe ∧ stepped.pwq = s.pwq ∧ stepped.mnc = s.mnc := by
    split at hstep
    · obtain ⟨hbfe, -, -, -, -, -, hpwq, -, -, hmnc, -⟩ := State.writeStep_work hstep
      exact ⟨hbfe, hpwq, hmnc⟩
    · cases hstep
      exact ⟨rfl, rfl, rfl⟩
  have hpost : s.postWrite m w lanes p =
      (stepped.placeWrite m w lanes (s.offer m w)).decideAtOnce m (.write w (some p) lanes) .done := by
    unfold State.postWrite
    rw [hstep]
    obtain ⟨hans, -⟩ | ⟨hans, -⟩ := hplaced <;> rw [hans]
  rw [← hpwq] at hplaced
  rw [hpost, State.placeWrite_eq hplaced, State.decideAtOnce_eq]
  dsimp only
  rw [hbfe, hmnc]

theorem State.postWrite_refused (lanes : Lanes) (h : s.offer m w = .deviceHold ∨ s.offer m w = .full ∨
    p.isTracked = true ∧ s.writeStep m (lineOfWord w) = none) : s.postWrite m w lanes p = s.refuse m := by
  unfold State.postWrite
  obtain hans | hans | ⟨htracked, hstep⟩ := h
  · rw [hans]
  · rw [hans]
  · rw [if_pos htracked, hstep]
    cases s.offer m w <;> rfl

/-- A WRITE that passes its checks outside the DEVICE regions is posted (R97, R98, R99, R150). -/
theorem exec_write_posted {r : RequestLines} (hpres : s.Presents m r) (hbytes : r.sben ≠ 0#4) (hgood : r.Good)
    (hp : p = regionLookup s.rgt (addrOfWord (wordOfAddr r.sa))) (hdevice : p ≠ .device) :
    exec (.write r) s = .next (State.tellWalker s.atEvent
      ((s.taken m true).postWrite m (wordOfAddr r.sa) (lanesOf r.sben r.sd) p)) := by
  have haccept : (s.taken m true).acceptWrite r m =
      (s.taken m true).postWrite m (wordOfAddr r.sa) (lanesOf r.sben r.sd) p := by
    have hpolicy : (s.taken m true).policyOfWord (requestWord r) = p := hp.symm
    unfold State.acceptWrite
    dsimp only
    rw [if_neg (by simpa [namesAByte] using hbytes), if_neg (by simp [(requestParityGood_iff r).2 hgood]), hpolicy]
    split
    · exact absurd rfl hdevice
    · rfl
  rw [← haccept, ← hpres.accept false (State.acceptWrite r)]
  rfl

end

/-- Settles O20, by the queue's answer and the write step. -/
theorem postedWriteIsPlacedOrRefused : Obligations.PostedWriteIsPlacedOrRefused := by
  refine ⟨fun r m s stepped p placed hpres hbytes hgood hp hdevice hstep hplaced => ?_,
    fun r m s p hpres hbytes hgood hp hdevice hcause => ?_⟩
  · rw [exec_write_posted hpres hbytes hgood hp hdevice, State.postWrite_placed hstep hplaced]
    rfl
  · rw [exec_write_posted hpres hbytes hgood hp hdevice, State.postWrite_refused _ hcause]
    exact congrArg _ (State.tellWalker_of_same rfl)

/-! ### The issue of a queued write (R83, R169, R170) -/

/-- The first entry that is WAITING becomes ISSUED (R83). -/
theorem issueOldest_append {older : List QueueEntry} {e : QueueEntry} (holder : ∀ x ∈ older, x.phase = .issued)
    (he : e.phase = .waiting) (younger : List QueueEntry) :
    issueOldest (older ++ e :: younger) = older ++ { e with phase := .issued } :: younger := by
  induction older with
  | nil => exact if_pos he
  | cons x older ih =>
    obtain ⟨hx, holder⟩ := List.forall_mem_cons.1 holder
    rw [List.cons_append, issueOldest, if_neg (by simp [hx]), ih holder]
    rfl

/-- With no candidate of a higher rank the choice is the oldest WAITING entry, where one stands (R169). -/
theorem State.issueChoice_queued {s : State} (hcont : s.mlc.continuations = [])
    (hunposted : s.NoneEligible SlotRequest.isUnpostedWrite) (hread : s.NoneEligible SlotRequest.isRead) :
    s.issueChoice = (s.pwq.find? fun e => e.phase == .waiting).map Candidate.queued := by
  unfold State.issueChoice
  rw [hcont, State.oldestEligible_none hunposted, State.oldestEligible_none hread]
  rfl

/-- An issue event that is not taken shows MRDY alone (R169; log 3). -/
theorem exec_issueEvent_idle {s : State} {mrdy : Bool}
    (h : mrdy = false ∨ 4 ≤ s.mlc.inFlight.length ∨ s.issueChoice = none) :
    exec (.issueEvent mrdy) s = .next { s.atEvent with pins := { s.pins.quiet with mrdy := mrdy } } := by
  show execIssueEvent mrdy s = _
  unfold execIssueEvent
  dsimp only
  split
  · rename_i htaken
    obtain ⟨hroom, hready⟩ := htaken
    obtain hdown | hfull | hchoice := h
    · cases hdown.symm.trans hready
    · exact absurd hroom (Nat.not_lt.2 hfull)
    · have hchoice : (s.atEvent.withPins { s.atEvent.pins with mrdy := mrdy }).issueChoice = none := hchoice
      rw [hchoice]
      split
      · rename_i hc
        cases hc
      · rfl
  · rfl

/-- Settles O29, by the choice of the issue event. -/
theorem queuedWriteIssuesLast : Obligations.QueuedWriteIssuesLast := by
  refine ⟨?_, fun mrdy s hidle => exec_issueEvent_idle (hidle.imp_right (Or.imp_right ?_))⟩
  · rintro t older younger e s q hcan hcont hunposted hread hq holder he rfl
    have hfirst : s.pwq.find? (fun e => e.phase == .waiting) = some e := by
      rw [hq]
      exact List.find?_eq_some_iff_append.2
        ⟨by simp [he], older, younger, rfl, fun x hx => by simp [holder x hx]⟩
    have hchoice : s.issueChoice = some (.queued e) := by
      rw [State.issueChoice_queued hcont hunposted hread, hfirst, Option.map_some]
    rw [exec_issueEvent_of_choice hcan hchoice, ← issueOldest_append holder he, ← hq]
    exact congrArg _ (State.tellWalker_of_same rfl)
  · rintro ⟨hcont, hunposted, hread, hissued⟩
    rw [State.issueChoice_queued hcont hunposted hread, Option.map_eq_none_iff, List.find?_eq_none]
    exact fun e he => by simp [hissued e he]

/-! ### The completion of a queued write (R84 to R86, R172) -/

/-- A word is written whole or not at all (R167). -/
theorem completionStatus_write (w : WordAddr) (c : CompletionLines) :
    completionStatus .wrWord w c = if c.mcstat.extractLsb' 0 2 = 0#2 then .ok else .fail := by
  unfold completionStatus
  split
  · rfl
  · exact ite_self _

/-- The two conditions of a SYNC (R103). -/
theorem State.syncComplete_iff (s : State) (m : Master) : s.syncComplete m = true ↔
    (∀ x ∈ s.pwq, x.source ≠ m) ∧ ∀ x ∈ s.ivt.entries, x.causes.get m = false := by
  simp [State.syncComplete, State.queueConditionOf, State.causeConditionOf]

section
variable {s : State} {m : Master}

/-- A HELD SYNC whose conditions hold is answered by its master's flag (R104). -/
theorem State.settleSlot_sync {sl : Slot} (hsl : s.rsa.slots.get m = some sl) (hheld : sl.phase = .held)
    (hsync : sl.request = .sync) (hdone : s.syncComplete m = true) {a : Answer} (ha : a = s.syncAnswer m) :
    s.settleSlot m = { s with
      rsa := s.rsa.withSlot m (Slot.answered .sync a), bfe := s.bfe.answering m a } := by
  have hreply := State.makeReply_eq hsl a
  rw [hsync] at hreply
  rw [← hreply, ha]
  unfold State.settleSlot
  simp only [hsl, hheld, hsync, hdone, if_true]

/-- A slot with no SYNC to decide and no completion arrived stays as it is (R104, R112). -/
theorem State.settleSlot_kept (hsync : ∀ sl, s.rsa.slots.get m = some sl → sl.request = .sync → sl.phase = .held →
    s.syncComplete m = false) (harrived : s.arrivedAt m = none) : s.settleSlot m = s := by
  unfold State.settleSlot
  split
  · rfl
  · rename_i sl hsl
    split
    · rename_i hheld hreq
      rw [hsync sl hsl hreq hheld]
      rfl
    · rename_i hen
      rw [State.arrivedAt_of_slot hsl, hen] at harrived
      cases harrived
    · rfl

/-- The state in which the source's slot is examined: the oldest entry has left, and a failure has made its record and
set the flag (R84, R85). -/
theorem State.queueWriteEnds_eq {e : QueueEntry} {q : List QueueEntry} (hq : s.pwq = e :: q) (en : Ending) :
    s.queueWriteEnds en = State.settleSlot { s with
      pwq := q
      rsa := s.rsa.refreshed q s.mnc.bypassLimit
      mnc := if en = .ok then s.mnc else s.mnc.offered .memWriteFail e.source (some (addrOfWord e.word))
      mau := if en = .ok then s.mau else { s.mau with writeFailed := s.mau.writeFailed.set e.source true } }
      e.source := by
  unfold State.queueWriteEnds
  rw [hq]
  cases en with
  | ok => rfl
  | fail =>
    dsimp only
    rw [State.pushError_eq]
    rfl

end

/-- The completion of a queued write goes to the queue (R172). -/
theorem exec_mrlCompletion_of_queued {c : CompletionLines} {tag : BitVec 2} {w : WordAddr} {src : Master}
    {rest : List InFlight} {s : State} (hlist : s.mlc.inFlight = ⟨tag, .wrWord, w, .queue src, false⟩ :: rest) :
    exec (.mrlCompletion c) s = .next (State.tellWalker s.atEvent
      ((s.atEvent.withMlc { s.mlc with inFlight := rest }).queueWriteEnds
        (if c.mcstat.extractLsb' 0 2 = 0#2 then .ok else .fail))) := by
  have hlist : s.atEvent.mlc.inFlight = ⟨tag, .wrWord, w, .queue src, false⟩ :: rest := hlist
  have hending : (completionStatus .wrWord w c).ending = if c.mcstat.extractLsb' 0 2 = 0#2 then .ok else .fail := by
    rw [completionStatus_write]
    split <;> rfl
  rw [← hending]
  show execMrlCompletion c s = _
  unfold execMrlCompletion
  simp only [hlist]
  rfl

/-- Settles O32: the source's slot is examined once the entry has left and its failure is recorded. -/
theorem queuedWriteCompletes : Obligations.QueuedWriteCompletes := by
  intro c t w src rest e q s left hlist hpwq hleft
  have hexec : exec (.mrlCompletion c) s = .next (State.tellWalker s.atEvent (left.settleSlot e.source)) := by
    rw [exec_mrlCompletion_of_queued hlist,
      State.queueWriteEnds_eq (s := s.atEvent.withMlc { s.mlc with inFlight := rest }) hpwq, hleft]
    split <;> rfl
  have hsets : s.atEvent.pdr.sets = left.pdr.sets := by rw [hleft]
  have hbfe : left.bfe = s.bfe := by rw [hleft]; rfl
  have hsync : left.syncComplete e.source = true ↔
      (∀ x ∈ q, x.source ≠ e.source) ∧ ∀ x ∈ s.ivt.entries, x.causes.get e.source = false := by
    rw [State.syncComplete_iff, hleft]
    rfl
  refine ⟨fun ⟨sl, hsl, hheld, hreq, hdone⟩ a ha => ?_, fun hkept => ?_⟩
  · rw [hexec, State.settleSlot_sync hsl hheld hreq (hsync.2 hdone) ha, hbfe]
    exact congrArg _ (State.tellWalker_of_same hsets)
  · rw [hexec, State.settleSlot_kept (fun sl hsl hreq hheld => ?_)
      (State.arrivedAt_eq_none_iff.2 fun sl hsl => (hkept sl hsl).2), State.tellWalker_of_same hsets]
    rw [Bool.eq_false_iff, Ne, hsync]
    rintro ⟨hsources, hcauses⟩
    obtain ⟨x, hx, hsource⟩ | ⟨x, hx, hcause⟩ := (hkept sl hsl).1 hreq hheld
    · exact hsources x hx hsource
    · cases (hcauses x hx).symm.trans hcause

/-! ### The limits (R91, R181) -/

theorem limitsInRange_iff (invalidation lock : BitVec 16) (bypass : Byte) :
    limitsInRange invalidation lock bypass = true ↔
      64 ≤ invalidation.toNat ∧ 64 ≤ lock.toNat ∧ 1 ≤ bypass.toNat ∧ bypass.toNat ≤ 15 := by
  simp [limitsInRange, and_assoc]

/-- Settles O51, by the check of the three limits. -/
theorem limitsChangeTogether : Obligations.LimitsChangeTogether := by
  intro invalidation lock bypass s hport
  have hexec : exec (.setLimits invalidation lock bypass) s = .next
      ((s.atEvent.setLimits invalidation lock bypass).1.setPort (.responding
        (commandFrame (.setLimits invalidation lock bypass)) (s.atEvent.setLimits invalidation lock bypass).2 false)) :=
    State.takeCommand_taken (c := .setLimits invalidation lock bypass)
      (f := State.setLimits invalidation lock bypass) rfl (by simp [commandFrame]) hport
  rw [hexec, ← limitsInRange_iff]
  unfold State.setLimits
  refine ⟨fun hrange => ?_, fun hrange => ?_⟩
  · rw [if_pos hrange]
    rfl
  · rw [if_neg hrange]
    rfl

end Sys2Proof.Machine
end

