-- ==== Sys2Proof/Proofs/LockEnds.lean ====
section
/-! PROOFS. The three ends of a bus lock that leave no pair behind: another request of its holder (R108, R150), a
LOCK-WRITE that fails a check (R109), and the deadline (R107). -/

namespace Sys2Proof.Machine

/-- The lock becomes free (R106). -/
theorem State.releaseLock_eq (s : State) :
    s.releaseLock = { s with rsa := s.rsa.lockFreed, bfe := { s.bfe with lock := none } } := rfl

/-! ### The lock broken by its holder (R108, R150) -/

theorem State.breakLock_eq (k : BusLock) (s : State) : s.breakLock k = { s with
    bfe := { s.bfe with lock := none }
    rsa := s.rsa.lockFreed
    mnc := s.mnc.offered .lockBroken k.holder (some (addrOfWord k.word)) } := by
  unfold State.breakLock
  rw [State.pushError_eq, State.releaseLock_eq]

/-- The transfer taken and the lock broken, in either order (R150). -/
theorem State.breakLock_taken (k : BusLock) (s : State) (m : Master) (line : Bool) :
    (s.breakLock k).taken m line = (s.taken m line).breakLock k := by
  rw [State.breakLock_eq, State.breakLock_eq]
  rfl

/-- A request that is no LOCK-WRITE is accepted from the lock's holder as with the lock already broken (R108, R150). -/
theorem State.accept_breakLock {s : State} {k : BusLock} {r : RequestLines} (hg : s.bfe.grant = some k.holder)
    (hr : r.sreq = true) (hl : s.bfe.lock = some k) (handle : Master → State → State) :
    s.atEvent.accept r false handle = (s.breakLock k).atEvent.accept r false handle := by
  have hpresents : (s.breakLock k).Presents k.holder r := by
    rw [State.breakLock_eq]
    exact ⟨hg, hr, rfl⟩
  have hg : s.atEvent.bfe.grant = some k.holder := hg
  have hl : (s.atEvent.clearGrant k.holder true).bfe.lock = some k := hl
  rw [hpresents.accept, State.breakLock_taken]
  unfold State.accept
  rw [hg]
  dsimp only
  rw [hr, if_neg (by decide), hl]
  dsimp only
  rw [if_neg (not_not.2 rfl), if_neg (by decide)]
  rfl

/-- Settles O6: the acceptance is the same, and breaking the lock changes nothing that the walker looks at. -/
theorem holdersOtherRequestBreaksTheLock : Obligations.HoldersOtherRequestBreaksTheLock := by
  rintro c r m k s hc hwf hother hg hr hl rfl
  rw [← State.breakLock_eq]
  have haccept : ∀ handle, s.atEvent.accept r false handle = (s.breakLock k).atEvent.accept r false handle :=
    State.accept_breakLock hg hr hl
  have htold : ∀ u, State.tellWalker (s.breakLock k).atEvent u = State.tellWalker s.atEvent u := by
    obtain ⟨-, hpdr, -⟩ := State.breakLock_frame k s
    exact State.tellWalker_congr (congrArg Pdr.sets hpdr)
  cases c <;> cases hc
  case read => exact congrArg Host.Outcome.next (haccept _)
  case readLine => exact congrArg Host.Outcome.next ((congrArg _ (haccept _)).trans (htold _).symm)
  case write => exact congrArg Host.Outcome.next ((congrArg _ (haccept _)).trans (htold _).symm)
  case lockRead => exact congrArg Host.Outcome.next (haccept _)
  case lockWrite => exact absurd rfl (hother r)
  case sync => exact congrArg Host.Outcome.next (haccept _)
  case malformedRequest skind =>
    show execMalformedRequest skind r s = execMalformedRequest skind r (s.breakLock k)
    have hwf : skindNamesNoKind skind = true := hwf
    unfold execMalformedRequest
    rw [if_pos hwf, if_pos hwf, haccept]

/-! ### A LOCK-WRITE that fails its checks (R109) -/

/-- A request answered at its acceptance, with a record (R97, R109, R151, R182). -/
theorem State.decideAtOnce_pushError (m : Master) (q : SlotRequest) (a : Answer) (kind : ErrorKind)
    (address : Option Addr) (s : State) : (s.decideAtOnce m q a).pushError kind m address = { s with
      rsa := s.rsa.entered m (Slot.answered q a)
      bfe := s.bfe.answering m a
      mnc := s.mnc.offered kind m address } := by
  rw [State.decideAtOnce_eq, State.pushError_eq]

/-- A LOCK-WRITE of a master that holds no lock (R109). -/
theorem State.acceptLockWrite_unlocked {s : State} (hl : s.bfe.lock = none) (r : RequestLines) (m : Master) :
    s.acceptLockWrite r m =
      (s.decideAtOnce m (.lockWrite (wordOfAddr r.sa) none (lanesOf r.sben r.sd)) .err).pushError
        .requestMalformed m (some (addrOfWord (wordOfAddr r.sa))) := by
  unfold State.acceptLockWrite
  rw [hl]
  rfl

/-- The checks of R109 on a LOCK-WRITE of the lock's holder, in their order. -/
theorem State.acceptLockWrite_fails {s : State} {k : BusLock} (hl : s.bfe.lock = some k) (r : RequestLines)
    (m : Master) {failed : ErrorKind → WordAddr → State}
    (hf : ∀ kind w, failed kind w =
      (s.releaseLock.decideAtOnce m (.lockWrite (wordOfAddr r.sa) none (lanesOf r.sben r.sd)) .err).pushError
        kind m (some (addrOfWord w))) :
    (wordOfAddr r.sa ≠ k.word → s.acceptLockWrite r m = failed .lockBroken k.word) ∧
    (wordOfAddr r.sa = k.word → r.sben = 0#4 →
      s.acceptLockWrite r m = failed .requestMalformed (wordOfAddr r.sa)) ∧
    (wordOfAddr r.sa = k.word → r.sben ≠ 0#4 → ¬ r.Good →
      s.acceptLockWrite r m = failed .writeParity (wordOfAddr r.sa)) := by
  have haccept : s.acceptLockWrite r m =
      if wordOfAddr r.sa ≠ k.word then failed .lockBroken k.word
      else if !namesAByte r then failed .requestMalformed (wordOfAddr r.sa)
      else if !requestParityGood r then failed .writeParity (wordOfAddr r.sa)
      else s.joinPair k m (wordOfAddr r.sa) (lanesOf r.sben r.sd) := by
    rw [hf, hf, hf]
    unfold State.acceptLockWrite
    rw [hl]
    rfl
  rw [haccept]
  refine ⟨fun hw => if_pos hw, fun hw hb => ?_, fun hw hb hbad => ?_⟩
  · rw [if_neg (not_not.2 hw), if_pos (by simp [namesAByte, hb])]
  · rw [if_neg (not_not.2 hw), if_neg (by simp [namesAByte, hb]),
      if_pos (by simpa [← requestParityGood_iff] using hbad)]

/-- Settles O22: the checks in their order, each with the state that its failure leaves. -/
theorem lockWriteFailingItsChecksIsAnsweredErr : Obligations.LockWriteFailingItsChecksIsAnsweredErr := by
  rintro r m s failed hg hr rfl
  refine ⟨fun hl => ?_, fun k hl hm => ?_⟩
  · have hpresents : s.Presents m r := ⟨hg, hr, hl⟩
    have hexec : exec (.lockWrite r) s = .next (State.tellWalker s.atEvent ((s.taken m true).acceptLockWrite r m)) :=
      congrArg (Host.Outcome.next ∘ State.tellWalker s.atEvent) (hpresents.accept true (State.acceptLockWrite r))
    have hfree : ({ s.bfe.replied m .err with lock := none } : Bfe) = s.bfe.replied m .err := by
      rw [← hl]
      rfl
    rw [hexec, State.acceptLockWrite_unlocked (s := s.taken m true) hl, State.decideAtOnce_pushError, hfree]
    exact congrArg Host.Outcome.next (State.tellWalker_of_same rfl)
  · have hexec : exec (.lockWrite r) s = .next (State.tellWalker s.atEvent ((s.taken m true).acceptLockWrite r m)) :=
      congrArg (Host.Outcome.next ∘ State.tellWalker s.atEvent)
        (State.accept_lockWrite hg hr hl hm (State.acceptLockWrite r))
    obtain ⟨hword, hbytes, hparity⟩ := State.acceptLockWrite_fails (s := s.taken m true) hl r m fun _ _ => rfl
    refine ⟨fun hw => ?_, fun hw hb => ?_, fun hw hb hbad => ?_⟩
    · rw [hexec, hword hw, State.decideAtOnce_pushError]
      exact congrArg Host.Outcome.next (State.tellWalker_of_same rfl)
    · rw [hexec, hbytes hw hb, State.decideAtOnce_pushError]
      exact congrArg Host.Outcome.next (State.tellWalker_of_same rfl)
    · rw [hexec, hparity hw hb hbad, State.decideAtOnce_pushError]
      exact congrArg Host.Outcome.next (State.tellWalker_of_same rfl)

/-! ### The deadline (R107) -/

/-- Settles O25, by whether the lock's deadline runs. -/
theorem lockTimesOut : Obligations.LockTimesOut := by
  refine ⟨fun h w d s hl => ?_, fun s hidle => ?_⟩
  · have hl : s.atEvent.bfe.lock = some ⟨h, w, some d⟩ := hl
    show execLockTimeout s = _
    unfold execLockTimeout
    dsimp only
    rw [hl]
    dsimp only
    rw [State.pushError_eq, State.releaseLock_eq]
    rfl
  · show execLockTimeout s = _
    unfold execLockTimeout
    dsimp only
    split
    · rename_i hl
      cases hidle _ hl
    · rfl

end Sys2Proof.Machine
end

