-- ==== Sys2Proof/Proofs/WritesAndSyncs.lean ====
section
/-! PROOFS. A malformed WRITE and a request of no kind (R97, R151), a DEVICE write (R101, R102), a SYNC (R103, R104),
and the end of an unposted write (R102, R111, R112, R172). -/

namespace Sys2Proof.Machine

/-! ### The acceptance of a WRITE (R97, R101) -/

theorem exec_write_of_presents {s : State} {m : Master} {r : RequestLines} (h : s.Presents m r) :
    exec (.write r) s = .next (State.tellWalker s.atEvent ((s.taken m true).acceptWrite r m)) :=
  congrArg (Host.Outcome.next ∘ State.tellWalker s.atEvent) (h.accept false (State.acceptWrite r))

/-- A WRITE that names no byte (R97). -/
theorem State.acceptWrite_empty {r : RequestLines} (hb : r.sben = 0#4) (m : Master) (s : State) :
    s.acceptWrite r m = (s.decideAtOnce m (.write (wordOfAddr r.sa) none (lanesOf r.sben r.sd)) .err).pushError
      .requestMalformed m (some (addrOfWord (wordOfAddr r.sa))) := by
  unfold State.acceptWrite
  exact if_pos (by simp [namesAByte, hb])

/-- A WRITE that names a byte of bad parity (R97, R148). -/
theorem State.acceptWrite_parity {r : RequestLines} (hb : r.sben ≠ 0#4) (hbad : ¬ r.Good) (m : Master) (s : State) :
    s.acceptWrite r m = (s.decideAtOnce m (.write (wordOfAddr r.sa) none (lanesOf r.sben r.sd)) .err).pushError
      .writeParity m (some (addrOfWord (wordOfAddr r.sa))) := by
  unfold State.acceptWrite
  exact (if_neg (by simp [namesAByte, hb])).trans (if_pos (by simpa [← requestParityGood_iff] using hbad))

/-- A WRITE in a DEVICE region that passes its checks (R101). -/
theorem State.acceptWrite_device {r : RequestLines} {s : State} (hb : r.sben ≠ 0#4) (hgood : r.Good)
    (hp : regionLookup s.rgt (addrOfWord (wordOfAddr r.sa)) = .device) (m : Master) :
    s.acceptWrite r m = s.enterSlot m
      (s.newSlot (.write (wordOfAddr r.sa) (some .device) (lanesOf r.sben r.sd)) WaitReasons.none) := by
  have hp : s.policyOfWord (requestWord r) = .device := hp
  unfold State.acceptWrite
  dsimp only
  rw [if_neg (by simp [namesAByte, hb]), if_neg (by simp [(requestParityGood_iff r).2 hgood]), hp]
  rfl

theorem exec_malformedRequest {s : State} {m : Master} {r : RequestLines} (h : s.Presents m r) {skind : BitVec 3}
    (hkind : skind = 6#3 ∨ skind = 7#3) :
    exec (.malformedRequest skind r) s = .next ((s.taken m true).acceptNoKind r m) := by
  have hnone : skindNamesNoKind skind = true := by
    rcases hkind with rfl | rfl <;> decide
  show execMalformedRequest skind r s = _
  unfold execMalformedRequest
  rw [if_pos hnone, h.accept]

/-- Settles O17, by the check that fails. -/
theorem malformedRequestIsAnsweredErr : Obligations.MalformedRequestIsAnsweredErr := by
  rintro r m s x failed hpres rfl hfailed
  refine ⟨fun hb => ?_, fun hb hbad => ?_, fun skind hkind => ?_⟩
  · rw [exec_write_of_presents hpres, State.acceptWrite_empty hb, State.decideAtOnce_pushError, hfailed]
    exact congrArg Host.Outcome.next (State.tellWalker_of_same rfl)
  · rw [exec_write_of_presents hpres, State.acceptWrite_parity hb hbad, State.decideAtOnce_pushError, hfailed]
    exact congrArg Host.Outcome.next (State.tellWalker_of_same rfl)
  · rw [exec_malformedRequest hpres hkind, hfailed]
    exact congrArg Host.Outcome.next (State.decideAtOnce_pushError ..)

/-- A DEVICE write has the wait for an empty queue and no other (R59, R101). -/
theorem State.newSlot_deviceWrite (s : State) (w : WordAddr) (lanes : Lanes) :
    s.newSlot (.write w (some .device) lanes) WaitReasons.none = Slot.held (.write w (some .device) lanes)
      { WaitReasons.none with queueEmptyWait := !s.pwq.isEmpty } := rfl

/-- Settles O18: of the queue's three waits a DEVICE write carries one. -/
theorem deviceWriteIsHeld : Obligations.DeviceWriteIsHeld := by
  rintro r m s q hpres hb hgood hp rfl
  refine ⟨{ WaitReasons.none with queueEmptyWait := !s.pwq.isEmpty }, ?_, by simp, rfl⟩
  rw [exec_write_of_presents hpres, State.acceptWrite_device (s := s.taken m true) hb hgood hp,
    State.newSlot_deviceWrite]
  exact congrArg Host.Outcome.next (State.tellWalker_of_same rfl)

/-! ### SYNC (R103, R104) -/

/-- A SYNC at its acceptance (R103). -/
theorem exec_sync {s : State} {m : Master} {r : RequestLines} (h : s.Presents m r) :
    exec (.sync r) s = .next (if s.syncComplete m then (s.taken m true).decideAtOnce m .sync (s.syncAnswer m)
      else (s.taken m true).enterSlot m (Slot.held .sync { WaitReasons.none with syncWait := true })) :=
  congrArg Host.Outcome.next (h.accept false State.acceptSync)

/-- A HELD SYNC with a condition that does not hold stays (R104). -/
theorem State.settleSlot_sync_waits {s : State} {m : Master} {sl : Slot} (hsl : s.rsa.slots.get m = some sl)
    (hheld : sl.phase = .held) (hsync : sl.request = .sync) (hwait : ¬ s.syncComplete m = true) :
    s.settleSlot m = s := by
  unfold State.settleSlot
  simp only [hsl, hheld, hsync, if_neg hwait]

/-- Settles O24, by the two conditions of a SYNC, at its acceptance and when it is examined again. -/
theorem syncIsDecidedOrHeld : Obligations.SyncIsDecidedOrHeld := by
  refine ⟨fun r m s hpres => ?_, fun m sl s hsl hheld hsync => ?_, fun _ => rfl⟩
  · rw [← State.syncComplete_iff]
    refine ⟨fun hdone a ha => ?_, fun hwait => ?_⟩
    · rw [exec_sync hpres, if_pos hdone, State.decideAtOnce_eq, ha]
      rfl
    · rw [exec_sync hpres, if_neg hwait]
      rfl
  · rw [← State.syncComplete_iff]
    exact ⟨fun hdone a ha => State.settleSlot_sync hsl hheld hsync hdone ha,
      State.settleSlot_sync_waits hsl hheld hsync⟩

/-! ### The end of a LOCK-WRITE (R111, R112) -/

/-- The tracker condition of a LOCK-WRITE fails exactly in a TRACKED region while an entry for its line is live
(R111). -/
theorem State.lockWriteConditionOf_iff (s : State) (x : WordAddr) (p : Option Policy) :
    s.lockWriteConditionOf x p = true ↔
      ¬ ((∃ st, p = some (.tracked st)) ∧ ∃ e ∈ s.ivt.entries, e.line = lineOfWord x) := by
  rw [← State.liveEntry_isSome_iff]
  unfold State.lockWriteConditionOf
  split
  · simp
  · rename_i hno
    exact iff_of_true rfl fun ⟨⟨st, hp⟩, _⟩ => hno st hp

@[simp] theorem Rsa.withSlot_withSlot (a : Rsa) (m : Master) (x y : Slot) :
    (a.withSlot m x).withSlot m y = a.withSlot m y := by
  cases m <;> rfl

/-- The lock's release changes no slot that is not HELD (R106). -/
theorem Rsa.lockFreed_get {a : Rsa} {m : Master} {sl : Slot} (h : a.slots.get m = some sl)
    (hheld : sl.phase ≠ .held) : a.lockFreed.slots.get m = some sl := by
  unfold Rsa.lockFreed
  rw [PerMaster.get_of, h, Option.map_some, if_neg hheld]

theorem Rsa.lockFreed_withSlot (a : Rsa) (m : Master) {sl : Slot} (hheld : sl.phase ≠ .held) :
    (a.withSlot m sl).lockFreed = a.lockFreed.withSlot m sl := by
  have hslots : (a.withSlot m sl).lockFreed.slots = (a.lockFreed.withSlot m sl).slots := by
    refine PerMaster.ext_get fun k => ?_
    unfold Rsa.lockFreed Rsa.withSlot
    dsimp only
    rw [PerMaster.get_of, PerMaster.get_set, PerMaster.get_set, PerMaster.get_of]
    split
    · rw [Option.map_some, if_neg hheld]
    · rfl
  exact congrArg (Rsa.mk · a.order) hslots

section
variable {s : State} {m : Master} {x : WordAddr} {p : Option Policy} {lanes : Lanes} {ws : WaitReasons}
  {en : Ending} {told : Bool} (hsl : s.rsa.slots.get m = some ⟨.issued, .lockWrite x p lanes, ws, some en, told⟩)
include hsl

/-- A LOCK-WRITE whose completion has arrived waits for its tracker condition (R112). -/
theorem State.settleSlot_lockWrite_waits (hwait : ¬ s.lockWriteConditionOf x p = true) : s.settleSlot m = s := by
  unfold State.settleSlot
  simp only [hsl, if_neg hwait]

/-- It ends with its reply, and the lock that its master still holds is released (R112). -/
theorem State.settleSlot_lockWrite_ends (hcond : s.lockWriteConditionOf x p = true) {ended : State}
    (hended : ended = { s with
      rsa := s.rsa.withSlot m (Slot.answered (.lockWrite x p lanes) en.answer)
      bfe := s.bfe.answering m en.answer }) :
    ((∃ k, s.bfe.lock = some k ∧ k.holder = m) → s.settleSlot m = { ended with
      rsa := ended.rsa.lockFreed, bfe := { ended.bfe with lock := none } }) ∧
    ((∀ k, s.bfe.lock = some k → k.holder ≠ m) → s.settleSlot m = ended) := by
  have hsettle : s.settleSlot m = (s.releaseLockOf m).makeReply m en.answer := by
    unfold State.settleSlot
    simp only [hsl, if_pos hcond]
  rw [hsettle, hended]
  refine ⟨fun ⟨k, hk, hm⟩ => ?_, fun hno => ?_⟩
  · rw [State.releaseLockOf_held hk hm, Rsa.lockFreed_withSlot _ _ (by simp [Slot.answered]),
      State.makeReply_eq (s := { s with rsa := s.rsa.lockFreed, bfe := { s.bfe with lock := none } })
        (Rsa.lockFreed_get hsl (by simp))]
    rfl
  · rw [State.releaseLockOf_free hno, State.makeReply_eq hsl]

end

/-! ### The completion of an unposted write (R102, R172) -/

/-- The completion of an unposted write goes to its slot (R172). -/
theorem exec_mrlCompletion_of_unposted {c : CompletionLines} {tag : BitVec 2} {w : WordAddr} {m : Master}
    {rest : List InFlight} {s : State} (hlist : s.mlc.inFlight = ⟨tag, .wrWord, w, .unposted m, false⟩ :: rest) :
    exec (.mrlCompletion c) s = .next (State.tellWalker s.atEvent
      ((s.atEvent.withMlc { s.mlc with inFlight := rest }).unpostedEnds m w
        (if c.mcstat.extractLsb' 0 2 = 0#2 then .ok else .fail))) := by
  have hlist : s.atEvent.mlc.inFlight = ⟨tag, .wrWord, w, .unposted m, false⟩ :: rest := hlist
  have hending : (completionStatus .wrWord w c).ending = if c.mcstat.extractLsb' 0 2 = 0#2 then .ok else .fail := by
    rw [completionStatus_write]
    split <;> rfl
  rw [← hending]
  show execMrlCompletion c s = _
  unfold execMrlCompletion
  simp only [hlist]
  rfl

/-- The failure of an unposted write is recorded, then its slot is served (R172). -/
theorem State.unpostedEnds_eq {s recorded : State} {m : Master} {sl : Slot} (hsl : s.rsa.slots.get m = some sl)
    (w : WordAddr) (en : Ending) (hrec : recorded = { s with
      mnc := if en = .ok then s.mnc else s.mnc.offered .memWriteFail m (some (addrOfWord w)) }) :
    (∀ x p lanes, sl.request = .write x p lanes → s.unpostedEnds m w en = { recorded with
      rsa := s.rsa.withSlot m (Slot.answered sl.request en.answer)
      bfe := s.bfe.answering m en.answer }) ∧
    (∀ x p lanes, sl.request = .lockWrite x p lanes → s.unpostedEnds m w en = State.settleSlot { recorded with
      rsa := s.rsa.withSlot m { sl with arrived := some en } } m) := by
  have hrecorded : (if en = .fail then s.recordFailure .wrWord w m else s) = recorded := by
    cases en with
    | ok => exact hrec.symm
    | fail => exact (State.pushError_eq ..).trans hrec.symm
  have hsl : recorded.rsa.slots.get m = some sl := hrec ▸ hsl
  obtain ⟨hrsa, hbfe⟩ : recorded.rsa = s.rsa ∧ recorded.bfe = s.bfe := hrec ▸ ⟨rfl, rfl⟩
  rw [← hrsa, ← hbfe]
  refine ⟨fun x p lanes hreq => ?_, fun x p lanes hreq => ?_⟩
  · rw [← State.makeReply_eq hsl]
    unfold State.unpostedEnds
    simp only [hrecorded, hsl, hreq]
    rfl
  · rw [← State.modifySlot_eq hsl fun sl => { sl with arrived := some en }]
    unfold State.unpostedEnds
    simp only [hrecorded, hsl, hreq]
    rfl

/-- The completion of a LOCK-WRITE is marked arrived, and ends the pair if the tracker condition holds (R112, R172). -/
theorem State.unpostedEnds_lockWrite {s recorded : State} {m : Master} {x : WordAddr} {p : Option Policy}
    {lanes : Lanes} {ws : WaitReasons} {arrived : Option Ending} {told : Bool}
    (hsl : s.rsa.slots.get m = some ⟨.issued, .lockWrite x p lanes, ws, arrived, told⟩) (w : WordAddr) (en : Ending)
    (hrec : recorded = { s with
      mnc := if en = .ok then s.mnc else s.mnc.offered .memWriteFail m (some (addrOfWord w)) }) :
    (¬ s.lockWriteConditionOf x p = true → s.unpostedEnds m w en = { recorded with
      rsa := s.rsa.withSlot m ⟨.issued, .lockWrite x p lanes, ws, some en, told⟩ }) ∧
    (s.lockWriteConditionOf x p = true → ∀ ended, ended = { recorded with
        rsa := s.rsa.withSlot m (Slot.answered (.lockWrite x p lanes) en.answer)
        bfe := s.bfe.answering m en.answer } →
      ((∃ k, s.bfe.lock = some k ∧ k.holder = m) → s.unpostedEnds m w en = { ended with
        rsa := ended.rsa.lockFreed, bfe := { ended.bfe with lock := none } }) ∧
      ((∀ k, s.bfe.lock = some k → k.holder ≠ m) → s.unpostedEnds m w en = ended)) := by
  obtain ⟨-, hends⟩ := State.unpostedEnds_eq hsl w en hrec
  rw [hends x p lanes rfl]
  obtain ⟨marked, hmarked⟩ : ∃ u, u = { recorded with
    rsa := s.rsa.withSlot m ⟨.issued, .lockWrite x p lanes, ws, some en, told⟩ } := ⟨_, rfl⟩
  have hslot : marked.rsa.slots.get m = some ⟨.issued, .lockWrite x p lanes, ws, some en, told⟩ := by
    rw [hmarked]
    exact PerMaster.get_set_self ..
  have hsame : marked.lockWriteConditionOf x p = s.lockWriteConditionOf x p := by rw [hmarked, hrec]; rfl
  have hbfe : marked.bfe = s.bfe := by rw [hmarked, hrec]
  rw [← hmarked, ← hsame, ← hbfe]
  refine ⟨State.settleSlot_lockWrite_waits hslot, fun hcond ended hended =>
    State.settleSlot_lockWrite_ends hslot hcond ?_⟩
  rw [hended, hmarked, Rsa.withSlot_withSlot]

/-- Settles O33: the completion marks a LOCK-WRITE as arrived and examines it, as the end of an event does. -/
theorem unpostedWriteCompletes : Obligations.UnpostedWriteCompletes := by
  refine ⟨fun c t w m rest sl s left en hlist hsl hissued hen hleft => ?_, fun m x p lanes ws told s en hsl => ?_⟩
  · have hexec := exec_mrlCompletion_of_unposted (c := c) hlist
    rw [← hen] at hexec
    refine ⟨fun x p lanes hreq => ?_, fun x p lanes hreq => ?_⟩
    · obtain ⟨hwrite, -⟩ :=
        State.unpostedEnds_eq (s := s.atEvent.withMlc { s.mlc with inFlight := rest }) hsl w en hleft
      rw [hexec, hwrite x p lanes hreq, hleft]
      exact congrArg Host.Outcome.next (State.tellWalker_of_same rfl)
    · obtain ⟨phase, request, waits, arrived, told⟩ := sl
      cases hissued
      cases hreq
      obtain ⟨hwaits, hends⟩ := State.unpostedEnds_lockWrite
        (s := s.atEvent.withMlc { s.mlc with inFlight := rest }) hsl w en hleft
      rw [State.lockWriteConditionOf_iff, not_not] at hwaits
      rw [State.lockWriteConditionOf_iff] at hends
      refine ⟨fun hlive => ?_, fun hfree ended hended => ?_⟩
      · rw [hexec, hwaits hlive, hleft]
        exact congrArg Host.Outcome.next (State.tellWalker_of_same rfl)
      · obtain ⟨hreleased, hkept⟩ := hends hfree ended hended
        have hsets : s.pdr.sets = ended.pdr.sets := by rw [hended, hleft]; rfl
        refine ⟨fun hlock => ?_, fun hlock => ?_⟩
        · rw [hexec, hreleased hlock]
          exact congrArg Host.Outcome.next (State.tellWalker_of_same hsets)
        · rw [hexec, hkept hlock]
          exact congrArg Host.Outcome.next (State.tellWalker_of_same hsets)
  · refine ⟨fun hlive => State.settleSlot_lockWrite_waits hsl ?_, fun hfree ended hended =>
      State.settleSlot_lockWrite_ends hsl ((s.lockWriteConditionOf_iff x p).2 hfree) hended⟩
    rwa [State.lockWriteConditionOf_iff, not_not]

end Sys2Proof.Machine
end

