-- ==== Sys2Proof/Proofs/RegionCommands.lean ====
section
/-! PROOFS. The Region Table: the lookup of an address (R117), SET-REGION (R118), and the commands that start a walk
(R121, R122, R129). -/

namespace Sys2Proof.Machine

/-! ### The lookup (R116, R117) -/

theorem mem_usedRegions_iff {t : RegionTable} {r : Region} : r ∈ usedRegions t ↔ ∃ n : Fin 8, t[n] = some r := by
  refine ⟨fun h => ?_, fun ⟨_, hn⟩ => mem_usedRegions hn⟩
  obtain ⟨o, ho, rfl⟩ := List.mem_filterMap.1 h
  obtain ⟨k, hk, hget⟩ := Vector.mem_iff_getElem.1 (Vector.mem_toList_iff.1 ho)
  exact ⟨⟨k, hk⟩, hget⟩

theorem Region.covers_iff (r : Region) (a : Addr) :
    r.covers a = true ↔ r.base.toNat ≤ a.toNat ∧ a.toNat < r.base.toNat + r.pages * 4096 := by
  simp only [Region.covers, Bool.and_eq_true, decide_eq_true_eq]
  rfl

/-- No two entries cover one address, so the lookup finds the one that covers it. -/
theorem regionLookup_of_covers {s : State} (h : RegionsSound s) {n : Fin 8} {e : Region} (hn : s.rgt[n] = some e)
    {a : Addr} (hc : e.covers a = true) : regionLookup s.rgt a = e.lookupResult := by
  obtain ⟨-, hapart, -⟩ := h
  have hfind : (usedRegions s.rgt).find? (fun r => r.covers a) = some e := by
    cases hr : (usedRegions s.rgt).find? (fun r => r.covers a) with
    | none => exact absurd hc (List.find?_eq_none.1 hr e (mem_usedRegions hn))
    | some r =>
      obtain ⟨k, hk⟩ := mem_usedRegions_iff.1 (List.mem_of_find?_eq_some hr)
      have hrc : r.covers a = true := List.find?_some (p := fun q : Region => q.covers a) hr
      have hkn : k = n := by
        by_contra hne
        exact hapart k n hne r e hk hn a ⟨hrc, hc⟩
      subst hkn
      exact hk.symm.trans hn
  unfold regionLookup
  rw [hfind]

/-- Where no entry covers the address its policy is UNCACHED. -/
theorem regionLookup_of_uncovered {t : RegionTable} {a : Addr}
    (h : ∀ (n : Fin 8) (e : Region), t[n] = some e → ¬ e.covers a = true) : regionLookup t a = .uncached := by
  have hfind : (usedRegions t).find? (fun r => r.covers a) = none := by
    refine List.find?_eq_none.2 fun r hr => ?_
    obtain ⟨n, hn⟩ := mem_usedRegions_iff.1 hr
    exact h n r hn
  unfold regionLookup
  rw [hfind]

/-- Settles O7: the one entry that covers the address decides. -/
theorem lookupGivesTheCoveringEntrysPolicy : Obligations.LookupGivesTheCoveringEntrysPolicy := by
  intro s a hsound
  refine ⟨fun n e hn hlow hhigh => ?_, fun hnone => ?_⟩
  · rw [regionLookup_of_covers hsound hn ((e.covers_iff a).2 ⟨hlow, hhigh⟩)]
    refine ⟨fun hp => ?_, fun hp => ?_, fun hp => ?_⟩ <;> rw [Region.lookupResult, hp]
  · exact regionLookup_of_uncovered fun n e hn hc => hnone n e hn ((e.covers_iff a).1 hc)

/-! ### A command answered (R177, R178) -/

theorem entryOfByte_of_lt {n : Byte} (h : n.toNat < 8) : entryOfByte n = some ⟨n.toNat, h⟩ := dif_pos h

theorem entryOfByte_of_le {n : Byte} (h : 8 ≤ n.toNat) : entryOfByte n = none := dif_neg (Nat.not_lt.2 h)

/-- A command taken, from the state and the response that its effect gives (R177). -/
theorem State.takeCommand_answers {c : Instr} {f : State → State × List Byte} {s u : State} {response : List Byte}
    (hport : s.mnc.port = .receiving) (hw : c.wellFormed = true) (hf : commandFrame c ≠ [])
    (heffect : f s.atEvent = (u, response)) :
    s.takeCommand c f = .next (u.setPort (.responding (commandFrame c) response false)) := by
  rw [State.takeCommand_taken hw hf hport, heffect]

/-! ### SET-REGION (R118) -/

section
variable {n : Byte} {base pages : BitVec 32} {policy : Byte} {s : State}

theorem policyOfByte_of_lt (h : 2 < policy.toNat) : policyOfByte policy = none := by
  have hne : ∀ k : Byte, k.toNat ≤ 2 → policy ≠ k := by
    rintro k hk rfl
    omega
  unfold policyOfByte
  rw [if_neg (hne 0 (by decide)), if_neg (hne 1 (by decide)), if_neg (hne 2 (by decide))]

theorem policyOfByte_of_le (h : policy.toNat ≤ 2) : ∃ p, policyOfByte policy = some p ∧
    (p = .tracked ↔ policy = 0) ∧ (p = .uncached ↔ policy = 1) ∧ (p = .device ↔ policy = 2) := by
  obtain rfl | rfl | rfl : policy = 0 ∨ policy = 1 ∨ policy = 2 := by bv_omega
  · exact ⟨.tracked, by decide⟩
  · exact ⟨.uncached, by decide⟩
  · exact ⟨.device, by decide⟩

/-- The arguments of a SET-REGION are in range (R118). -/
def RegionArgsInRange (base pages : BitVec 32) (policy : Byte) : Prop :=
  base.toNat % 4096 = 0 ∧ 1 ≤ pages.toNat ∧ pages.toNat ≤ 1048576 ∧
    base.toNat + pages.toNat * 4096 ≤ 4294967296 ∧ policy.toNat ≤ 2

theorem regionOfArgs_of_range (h : RegionArgsInRange base pages policy) :
    ∃ p, regionOfArgs base pages policy = some ⟨.active, base, pages.toNat, p⟩ ∧
      (p = .tracked ↔ policy = 0) ∧ (p = .uncached ↔ policy = 1) ∧ (p = .device ↔ policy = 2) := by
  obtain ⟨hbase, hlow, hhigh, hend, hpolicy⟩ := h
  obtain ⟨p, hp, hcodes⟩ := policyOfByte_of_le hpolicy
  refine ⟨p, ?_, hcodes⟩
  unfold regionOfArgs
  rw [if_pos ⟨hbase, hlow, hhigh, hend⟩, hp]
  rfl

theorem regionOfArgs_of_not_range (h : ¬ RegionArgsInRange base pages policy) :
    regionOfArgs base pages policy = none := by
  unfold regionOfArgs
  split
  · rename_i hargs
    obtain ⟨hbase, hlow, hhigh, hend⟩ := hargs
    rw [policyOfByte_of_lt (Nat.not_le.1 fun hp => h ⟨hbase, hlow, hhigh, hend, hp⟩)]
    rfl
  · rfl

theorem usedRegions_overlap_iff (t : RegionTable) (r : Region) :
    ((usedRegions t).any fun q => r.overlaps q) = true ↔ ∃ (k : Fin 8) (e : Region), t[k] = some e ∧
      r.base.toNat < e.base.toNat + e.pages * 4096 ∧ e.base.toNat < r.base.toNat + r.pages * 4096 := by
  simp only [List.any_eq_true, mem_usedRegions_iff, Region.overlaps, Bool.and_eq_true, decide_eq_true_eq]
  exact ⟨fun ⟨e, ⟨k, hk⟩, ho⟩ => ⟨k, e, hk, ho⟩, fun ⟨k, e, hk, ho⟩ => ⟨e, ⟨k, hk⟩, ho⟩⟩

theorem State.setRegion_badEntry (h : 8 ≤ n.toNat) : s.setRegion n base pages policy = (s, [statusBadArg]) := by
  unfold State.setRegion
  rw [entryOfByte_of_le h]

theorem State.setRegion_used (h : n.toNat < 8) (hused : s.rgt[n.toNat] ≠ none) :
    s.setRegion n base pages policy = (s, [statusWrongState]) := by
  unfold State.setRegion
  rw [entryOfByte_of_lt h]
  exact if_pos (Option.isSome_iff_ne_none.2 hused)

/-- An UNUSED entry: what the arguments make of it (R118). -/
theorem State.setRegion_unused (h : n.toNat < 8) (hfree : s.rgt[n.toNat] = none) :
    (regionOfArgs base pages policy = none → s.setRegion n base pages policy = (s, [statusBadArg])) ∧
    ∀ r, regionOfArgs base pages policy = some r → s.setRegion n base pages policy =
      if ((usedRegions s.rgt).any fun q => r.overlaps q) = true then (s, [statusRegionOverlap])
      else (s.withRgt (s.rgt.set n.toNat (some r)), [statusOk]) := by
  have hunused : ¬ s.rgt[(⟨n.toNat, h⟩ : Fin 8)].isSome = true := by
    rw [show s.rgt[(⟨n.toNat, h⟩ : Fin 8)] = none from hfree]
    exact Bool.false_ne_true
  unfold State.setRegion
  rw [entryOfByte_of_lt h]
  dsimp only
  rw [if_neg hunused]
  refine ⟨fun hargs => ?_, fun r hargs => ?_⟩ <;> rw [hargs]

end

/-- Settles O49, one check after the other. -/
theorem setRegionChecksInOrder : Obligations.SetRegionChecksInOrder := by
  intro n base pages policy s answered hport hanswered
  obtain rfl := funext hanswered
  have hexec : ∀ u response, s.atEvent.setRegion n base pages policy = (u, response) →
      exec (.setRegion n base pages policy) s =
        .next (u.setPort (.responding (commandFrame (.setRegion n base pages policy)) response false)) :=
    fun u response => State.takeCommand_answers (f := State.setRegion n base pages policy) hport rfl
      (by simp [commandFrame])
  refine ⟨fun hn => hexec _ _ (State.setRegion_badEntry hn), fun h inRange overlap hrange hoverlap =>
    ⟨fun hused => hexec _ _ (State.setRegion_used h hused), fun hfree hout => ?_, fun hfree hin ho => ?_,
      fun hfree hin ho => ?_⟩⟩
  · obtain ⟨hbad, -⟩ := State.setRegion_unused (s := s.atEvent) h hfree
    exact hexec _ _ (hbad (regionOfArgs_of_not_range fun hr => hout (hrange.2 hr)))
  · obtain ⟨p, hp, -⟩ := regionOfArgs_of_range (hrange.1 hin)
    obtain ⟨-, hset⟩ := State.setRegion_unused (s := s.atEvent) h hfree
    exact hexec _ _ ((hset _ hp).trans (if_pos ((usedRegions_overlap_iff s.rgt _).2 (hoverlap.1 ho))))
  · obtain ⟨p, hp, htracked, huncached, hdevice⟩ := regionOfArgs_of_range (hrange.1 hin)
    obtain ⟨-, hset⟩ := State.setRegion_unused (s := s.atEvent) h hfree
    exact ⟨p, htracked, huncached, hdevice, hexec _ _ ((hset _ hp).trans (if_neg fun hc =>
      ho (hoverlap.2 ((usedRegions_overlap_iff s.rgt _).1 hc))))⟩

/-! ### RETIRE-REGION and SWEEP (R121, R122, R129) -/

section
variable {n : Byte} {s : State}

theorem State.retireRegion_badEntry (h : 8 ≤ n.toNat) : s.retireRegion n = (s, [statusBadArg]) := by
  unfold State.retireRegion
  rw [entryOfByte_of_le h]

theorem State.retireRegion_busy (h : n.toNat < 8) (hbusy : s.pdr.walker.mode ≠ .idle) :
    s.retireRegion n = (s, [statusBusy]) := by
  unfold State.retireRegion
  rw [entryOfByte_of_lt h]
  exact if_pos hbusy

/-- RETIRE-REGION with an IDLE walker, by the entry it finds (R121, R122). -/
theorem State.retireRegion_idle (h : n.toNat < 8) (hidle : s.pdr.walker.mode = .idle) :
    ((∀ e, s.rgt[n.toNat] = some e → e.state ≠ .active) → s.retireRegion n = (s, [statusWrongState])) ∧
    (∀ e, s.rgt[n.toNat] = some e → e.state = .active → e.policy ≠ .tracked →
      s.retireRegion n = (s.withRgt (s.rgt.set n.toNat none), [statusOk])) ∧
    (∀ e, s.rgt[n.toNat] = some e → e.state = .active → e.policy = .tracked → s.retireRegion n =
      ((s.withRgt (s.rgt.set n.toNat (some { e with state := .retiring }))).withWalker
        (Walker.started (.retiring ⟨n.toNat, h⟩)), [statusOk])) := by
  have hget : s.rgt[(⟨n.toNat, h⟩ : Fin 8)] = s.rgt[n.toNat] := rfl
  unfold State.retireRegion
  rw [entryOfByte_of_lt h]
  dsimp only
  rw [if_neg (not_not.2 hidle), hget]
  refine ⟨fun hnot => ?_, fun e he hactive hpolicy => ?_, fun e he hactive hpolicy => ?_⟩
  · cases he : s.rgt[n.toNat] with
    | none => rfl
    | some e =>
      obtain ⟨state, base, pages, policy⟩ := e
      cases state with
      | active => exact absurd rfl (hnot _ he)
      | retiring => rfl
  · obtain ⟨state, base, pages, policy⟩ := e
    cases hactive
    rw [he]
    cases policy with
    | tracked => exact absurd rfl hpolicy
    | uncached => rfl
    | device => rfl
  · obtain ⟨state, base, pages, policy⟩ := e
    cases hactive
    cases hpolicy
    rw [he]

theorem State.sweep_busy (hbusy : s.pdr.walker.mode ≠ .idle) : s.sweep = (s, [statusBusy]) := if_pos hbusy

theorem State.sweep_idle (hidle : s.pdr.walker.mode = .idle) :
    s.sweep = (s.withWalker (Walker.started .sweeping), [statusOk]) := if_neg (not_not.2 hidle)

end

/-- Settles O50: the checks of both commands, and the walk that each starts. -/
theorem walksStartAtSetZero : Obligations.WalksStartAtSetZero := by
  intro n s answered hport hanswered
  obtain rfl : answered = _ := funext fun c => funext (hanswered c)
  have hretire : ∀ u response, s.atEvent.retireRegion n = (u, response) → exec (.retireRegion n) s =
      .next (u.setPort (.responding (commandFrame (.retireRegion n)) response false)) :=
    fun u response => State.takeCommand_answers (f := State.retireRegion n) hport rfl (by simp [commandFrame])
  have hsweep : ∀ u response, s.atEvent.sweep = (u, response) → exec .sweep s =
      .next (u.setPort (.responding (commandFrame .sweep) response false)) :=
    fun u response => State.takeCommand_answers (f := State.sweep) hport rfl (by simp [commandFrame])
  refine ⟨fun hn => hretire _ _ (State.retireRegion_badEntry hn),
    fun hn hbusy => hretire _ _ (State.retireRegion_busy hn hbusy), fun hn hidle => ?_,
    fun hbusy => hsweep _ _ (State.sweep_busy hbusy), fun hidle => hsweep _ _ (State.sweep_idle hidle)⟩
  obtain ⟨hwrong, hcleared, hstarted⟩ := State.retireRegion_idle (s := s.atEvent) hn hidle
  exact ⟨fun hnot => hretire _ _ (hwrong hnot),
    fun e he hactive hpolicy => hretire _ _ (hcleared e he hactive hpolicy),
    fun e he hactive hpolicy => hretire _ _ (hstarted e he hactive hpolicy)⟩

end Sys2Proof.Machine
end

