-- ==== Sys2Proof/Proofs/WalkerVisits.lean ====
section
/-! PROOFS. The visits of the Directory Walker: the record that a visit treats (R124 to R127, R129), the walk from set
to set and its end (R124, R128), and the events that end a pause (R127). -/

namespace Sys2Proof.Machine

/-! ### The events that end a pause (R127) -/

theorem LineRecord.sameState_iff (x y : LineRecord) : x.sameState y = true ↔ x.tag = y.tag ∧
    ((x.status = .shared ∧ y.status = .shared) ∨ (x.status = .invalidating ∧ y.status = .invalidating) ∨
      ∃ u v, x.status = .evicting u ∧ y.status = .evicting v) := by
  unfold LineRecord.sameState
  cases x.status <;> cases y.status <;> simp

theorem stateChanged_iff (b a : Option LineRecord) : stateChanged b a = true ↔ StateChanged b a := by
  unfold StateChanged
  cases b with
  | none => cases a <;> simp [stateChanged]
  | some x =>
    cases a with
    | none => simp [stateChanged]
    | some y =>
      have hchanged : stateChanged (some x) (some y) = true ↔ ¬ x.sameState y = true := by simp [stateChanged]
      rw [hchanged, LineRecord.sameState_iff]
      refine ⟨fun h => ⟨nofun, ?_⟩, fun ⟨_, h⟩ ⟨htag, hsame⟩ => h x y rfl rfl htag hsame⟩
      rintro _ _ ⟨⟩ ⟨⟩ htag hsame
      exact h ⟨htag, hsame⟩

theorem itemLeft_iff (b a : Option LineRecord) : itemLeft b a = true ↔ ItemLeft b a := by
  unfold ItemLeft
  cases b with
  | none => simp [itemLeft]
  | some x =>
    cases a with
    | none => simp [itemLeft, List.eq_nil_iff_forall_not_mem]
    | some y => simp [itemLeft]

theorem pendingChanged_iff (b a : Option LineRecord) :
    pendingChanged b a = true ↔ b.map LineRecord.pending ≠ a.map LineRecord.pending := bne_iff_ne

/-- A paused walker is told of a change exactly when it ends the pause (R127). -/
theorem State.tellWalker_paused {before after : State} {p : Pause} {i : Nat} (hp : after.pdr.walker.pause = some p)
    (hi : after.pdr.walker.set = some i) {ends : Prop}
    (hends : endsPause p.reason (before.pdr.sets.recordAt i p.way) (after.pdr.sets.recordAt i p.way) = true ↔ ends) :
    (ends → State.tellWalker before after = { after with pdr := { after.pdr with
      walker := { after.pdr.walker with pause := some { p with ended := true } } } }) ∧
    (¬ ends → State.tellWalker before after = after) := by
  unfold State.tellWalker
  rw [hp, hi]
  refine ⟨fun h => (if_pos (hends.2 h)).trans ?_, fun h => if_neg fun hc => h (hends.1 hc)⟩
  unfold Walker.endPause
  rw [hp]
  rfl

/-- Settles O45, reason by reason. -/
theorem pausesEndByTheirEvents : Obligations.PausesEndByTheirEvents := by
  rintro before after ended p i b a hp hi rfl rfl rfl
  refine ⟨fun hr => ?_, fun hr => ?_, fun hr => ?_⟩
  · refine State.tellWalker_paused hp hi ?_
    rw [hr, ← stateChanged_iff, ← itemLeft_iff, ← Bool.or_eq_true]
    rfl
  · refine State.tellWalker_paused hp hi ?_
    rw [← stateChanged_iff]
    obtain hr | hr := hr <;> rw [hr] <;> rfl
  · refine State.tellWalker_paused hp hi ?_
    rw [hr, ← stateChanged_iff, ← pendingChanged_iff, ← Bool.or_eq_true]
    rfl

/-! ### The way of a visit (R124, R127) -/

section
variable {older younger : DirectorySet} {r : LineRecord}

theorem DirectorySet.find_way_split (h : ∀ q ∈ older, q.way ≠ r.way) :
    (older ++ r :: younger).find? (fun q => q.way == r.way) = some r := by
  rw [List.find?_append, List.find?_eq_none.2 fun q hq => by simpa using h q hq]
  simp

theorem Directory.recordAt_none {d : Directory} {i : Nat} {w : Way} (h : ∀ q ∈ d.get i, q.way ≠ w) :
    d.recordAt i w = none :=
  List.find?_eq_none.2 fun q hq => by simpa using h q hq

theorem nextWay_split {visited : List Way} (h : ∀ q ∈ older, q.way ∈ visited) (hr : r.way ∉ visited) :
    nextWay (older ++ r :: younger) visited = some r := by
  unfold nextWay
  rw [List.find?_append, List.find?_eq_none.2 fun q hq => by simpa using h q hq]
  simp [hr]

theorem nextWay_none {rs : DirectorySet} {visited : List Way} (h : ∀ q ∈ rs, q.way ∈ visited) :
    nextWay rs visited = none :=
  List.find?_eq_none.2 fun q hq => by simpa using h q hq

end

/-- The state in which a visit finds the part: the start of the event, with the pause cleared. -/
def State.resumed (s : State) : State := s.atEvent.withWalker { s.pdr.walker with pause := none }

section
variable {s : State} {i : Nat}

/-- A walker that is not IDLE, not draining and not paused makes its visit (R124, R127). -/
theorem exec_walkerVisit_taken (hmode : s.pdr.walker.mode ≠ .idle) (hdraining : s.pdr.walker.draining = false)
    (hset : s.pdr.walker.set = some i) (hended : ∀ p, s.pdr.walker.pause = some p → p.ended = true) :
    (s.pdr.walker.pause = none → exec .walkerVisit s = .next (s.resumed.visitNext i)) ∧
    ∀ p, s.pdr.walker.pause = some p → exec .walkerVisit s = .next (s.resumed.visitPaused i p) := by
  have hpaused : s.pdr.walker.isPaused = false := by
    unfold Walker.isPaused
    cases hp : s.pdr.walker.pause with
    | none => rfl
    | some p => simp [hended p hp]
  have htaken : ¬ (s.pdr.walker.mode = .idle ∨ s.pdr.walker.draining = true ∨ s.pdr.walker.isPaused = true) := by
    simp [hmode, hdraining, hpaused]
  have hpdr : s.atEvent.pdr = s.pdr := rfl
  show (_ → execWalkerVisit s = _) ∧ ∀ p, _ → execWalkerVisit s = _
  unfold execWalkerVisit State.resumed
  dsimp only
  rw [hpdr, if_neg htaken, hset]
  exact ⟨fun hp => by rw [hp], fun p hp => by rw [hp]⟩

/-- Otherwise no visit is made (R124, R127). -/
theorem exec_walkerVisit_ignored (h : s.pdr.walker.mode = .idle ∨ s.pdr.walker.draining = true ∨
    ∃ p, s.pdr.walker.pause = some p ∧ p.ended = false) : exec .walkerVisit s = .next s.atEvent := by
  have hignored : s.atEvent.pdr.walker.mode = .idle ∨ s.atEvent.pdr.walker.draining = true ∨
      s.atEvent.pdr.walker.isPaused = true := by
    refine h.imp id (Or.imp id ?_)
    rintro ⟨p, hp, hended⟩
    show s.pdr.walker.isPaused = true
    simp [Walker.isPaused, hp, hended]
  exact if_pos hignored

/-- A visit that takes the next way of its set (R124; log 11). -/
theorem exec_walkerVisit_next (hmode : s.pdr.walker.mode ≠ .idle) (hdraining : s.pdr.walker.draining = false)
    (hset : s.pdr.walker.set = some i) (hnext : s.VisitsNextWay i) :
    exec .walkerVisit s = .next (s.resumed.visitNext i) := by
  obtain ⟨hfresh, hafter⟩ := exec_walkerVisit_taken hmode hdraining hset fun p hp => (hnext p hp).1
  cases hp : s.pdr.walker.pause with
  | none => exact hfresh hp
  | some p =>
    obtain ⟨-, hreason, hfree⟩ := hnext p hp
    have hnone : s.resumed.pdr.sets.recordAt i p.way = none := Directory.recordAt_none hfree
    rw [hafter p hp, State.visitPaused_passed hnone hreason]

/-- A visit after a pause that has ended (R127). -/
theorem exec_walkerVisit_paused (hmode : s.pdr.walker.mode ≠ .idle) (hdraining : s.pdr.walker.draining = false)
    (hset : s.pdr.walker.set = some i) {p : Pause} (hp : s.pdr.walker.pause = some p) (hended : p.ended = true) :
    exec .walkerVisit s = .next (s.resumed.visitPaused i p) := by
  obtain ⟨-, hafter⟩ := exec_walkerVisit_taken hmode hdraining hset fun q hq => by
    obtain rfl := Option.some.inj (hp.symm.trans hq)
    exact hended
  exact hafter p hp

/-! ### The walk from set to set (R124, R128) -/

theorem State.visitNext_leaves (h : ∀ q ∈ s.pdr.sets.get i, q.way ∈ s.pdr.walker.visited) :
    s.visitNext i = s.leaveSet i := by
  unfold State.visitNext
  rw [nextWay_none h]

theorem State.leaveSet_next (h : i < 1023) :
    s.leaveSet i = s.withWalker { s.pdr.walker with set := some (i + 1), visited := [] } :=
  if_pos (Nat.succ_lt_succ h)

theorem State.leaveSet_last (h : 1023 ≤ i) : s.leaveSet i =
    (s.withWalker { s.pdr.walker with set := none, visited := [], draining := true }).endWalkIfDone :=
  if_neg (Nat.not_lt.2 (Nat.succ_le_succ h))

/-- A draining walk ends with its last WALK entry (R128). -/
theorem State.endWalkIfDone_draining (hd : s.pdr.walker.draining = true) :
    (s.pdr.walker.outstanding ≠ 0 → s.endWalkIfDone = s) ∧
    (s.pdr.walker.outstanding = 0 → s.pdr.walker.mode = .sweeping → s.endWalkIfDone = s.withWalker Walker.idle) ∧
    ∀ n, s.pdr.walker.outstanding = 0 → s.pdr.walker.mode = .retiring n →
      s.endWalkIfDone = (s.withRgt (s.rgt.set n none)).withWalker Walker.idle := by
  unfold State.endWalkIfDone
  refine ⟨fun ho => if_neg (by simp [ho]), fun ho hm => ?_, fun n ho hm => ?_⟩ <;>
    rw [if_pos (by simp [hd, ho]), hm]

end

/-- Settles O44: a visit that finds no way leaves its set. -/
theorem walkMovesOnAndEnds : Obligations.WalkMovesOnAndEnds := by
  refine ⟨fun s i hmode hdraining hset hnext hvisited => ?_, fun s => exec_walkerVisit_ignored⟩
  have hleaves : s.resumed.visitNext i = s.resumed.leaveSet i := State.visitNext_leaves hvisited
  have hexec := exec_walkerVisit_next hmode hdraining hset hnext
  rw [hleaves] at hexec
  obtain ⟨hdrains, hswept, hretired⟩ := State.endWalkIfDone_draining (s := s.resumed.withWalker
    { s.resumed.pdr.walker with set := none, visited := [], draining := true }) rfl
  refine ⟨fun hi => ?_, fun hi ho => ?_, fun hi ho hm => ?_, fun n hi ho hm => ?_⟩
  · rw [hexec, State.leaveSet_next hi]
    rfl
  · rw [hexec, State.leaveSet_last hi, hdrains ho]
    rfl
  · rw [hexec, State.leaveSet_last hi, hswept ho hm]
    rfl
  · rw [hexec, State.leaveSet_last hi, hretired n ho hm]
    rfl

/-! ### The record examined (R125, R126, R129) -/

section
variable {s : State} {i : Nat} {older younger : DirectorySet} {r : LineRecord}

theorem State.examine_uncovered (hc : s.walkCovers (lineOfTag r.tag i) = false) (hst : ∀ su, r.status ≠ .evicting su) :
    s.examine i r = s.finishWay r.way := by
  unfold State.examine
  rw [hc]
  cases hr : r.status with
  | shared => rfl
  | invalidating => rfl
  | evicting su => exact absurd hr (hst su)

theorem State.examine_pending (hc : s.walkCovers (lineOfTag r.tag i) = true) (hst : r.status = .shared)
    (hp : r.pending ≠ []) : s.examine i r = (s.changeWay i r.way LineRecord.spoiled).pauseOn r.way .pending := by
  unfold State.examine
  rw [hc, hst]
  exact (if_neg Bool.false_ne_true).trans (if_pos (by simpa using hp))

theorem State.examine_shared (hc : s.walkCovers (lineOfTag r.tag i) = true) (hst : r.status = .shared)
    (hp : r.pending = []) (hsh : ∃ k, r.sharers.get k = true) : s.examine i r = s.evictForWalk i r := by
  unfold State.examine
  rw [hc, hst, hp]
  exact if_neg (Bool.eq_false_iff.1 ((MasterSet.isEmpty_eq_false_iff _).2 hsh))

theorem State.examine_invalidating (hc : s.walkCovers (lineOfTag r.tag i) = true) (hst : r.status = .invalidating) :
    s.examine i r = s.pauseOn r.way .invalidating := by
  unfold State.examine
  rw [hc, hst]
  rfl

theorem State.examine_evicting {su : Option Successor} (hst : r.status = .evicting su) :
    s.examine i r = if s.walkCovers (lineOfTag r.tag i) = true then (s.dropSuccessor i r).pauseOn r.way .evicting
      else (s.dropSuccessor i r).finishWay r.way := by
  unfold State.examine
  rw [hst]

theorem State.changeWay_split (hset : s.pdr.sets.get i = older ++ r :: younger)
    (hways : ∀ q ∈ older ++ younger, q.way ≠ r.way) (f : LineRecord → LineRecord) :
    s.changeWay i r.way f = s.setRecords i (older ++ f r :: younger) := by
  unfold State.changeWay
  rw [hset, DirectorySet.map_way_split hways]

theorem State.dropSuccessor_none (hst : r.status = .evicting none) : s.dropSuccessor i r = s := by
  unfold State.dropSuccessor LineRecord.successor
  rw [hst]

theorem State.dropSuccessor_some (hset : s.pdr.sets.get i = older ++ r :: younger)
    (hways : ∀ q ∈ older ++ younger, q.way ≠ r.way) {su : Successor} (hst : r.status = .evicting (some su)) :
    s.dropSuccessor i r = if s.walkCovers (lineOfTag su.tag i) = true then
        State.endWayWait .demoted su.claimants
          (s.setRecords i (older ++ { r with status := .evicting none } :: younger))
      else s := by
  unfold State.dropSuccessor
  rw [LineRecord.successor_eq_some_iff.2 hst, State.changeWay_split hset hways]

theorem State.evictForWalk_full (hfull : 16 ≤ s.ivt.entries.length) :
    s.evictForWalk i r = s.pauseOn r.way .noEntry := by
  unfold State.evictForWalk
  rw [State.createEntry_none_iff.2 hfull]

/-- The tracker takes a WALK entry, the record is EVICTING without a successor, and the way is finished with (R125). -/
theorem State.evictForWalk_room (hset : s.pdr.sets.get i = older ++ r :: younger)
    (hways : ∀ q ∈ older ++ younger, q.way ≠ r.way) (hroom : s.ivt.entries.length < 16) :
    s.evictForWalk i r = { s with
      rsa := s.rsa.lineTaken (lineOfTag r.tag i)
      ivt := { s.ivt with entries := s.ivt.entries ++
        [⟨lineOfTag r.tag i, .walk, r.sharers, MasterSet.empty, MasterSet.empty, MasterSet.empty⟩] }
      pdr := ⟨s.pdr.sets.put i (older ++ { r with status := .evicting none } :: younger),
        { s.pdr.walker with
          outstanding := s.pdr.walker.outstanding + 1
          visited := s.pdr.walker.visited ++ [r.way] }⟩ } := by
  unfold State.evictForWalk
  rw [State.createEntry_eq _ _ _ _ _ hroom]
  dsimp only
  rw [State.changeWay_split (by exact hset) hways]
  rfl

end

/-- The record that a visit takes: of the next way, or of the way paused on (R124, R127). -/
theorem exec_walkerVisit_examines {s : State} {i : Nat} {older younger : DirectorySet} {r : LineRecord}
    (hmode : s.pdr.walker.mode ≠ .idle) (hdraining : s.pdr.walker.draining = false)
    (hset : s.pdr.walker.set = some i) (hsplit : s.pdr.sets.get i = older ++ r :: younger)
    (hways : ∀ q ∈ older ++ younger, q.way ≠ r.way)
    (htakes : s.VisitsNextWay i ∧ (∀ q ∈ older, q.way ∈ s.pdr.walker.visited) ∧ r.way ∉ s.pdr.walker.visited ∨
      ∃ p, s.pdr.walker.pause = some p ∧ p.ended = true ∧ p.way = r.way) :
    exec .walkerVisit s = .next (s.resumed.examine i r) := by
  have hget : s.resumed.pdr.sets.get i = older ++ r :: younger := hsplit
  obtain ⟨hnext, hvisited, hr⟩ | ⟨p, hp, hended, hway⟩ := htakes
  · have hway : nextWay (s.resumed.pdr.sets.get i) s.resumed.pdr.walker.visited = some r := by
      rw [hget]
      exact nextWay_split hvisited hr
    rw [exec_walkerVisit_next hmode hdraining hset hnext, State.visitNext, hway]
  · have hfound : s.resumed.pdr.sets.recordAt i p.way = some r := by
      rw [Directory.recordAt, hget, hway]
      exact DirectorySet.find_way_split fun q hq => hways q (List.mem_append_left _ hq)
    rw [exec_walkerVisit_paused hmode hdraining hset hp hended, State.visitPaused_found hfound]

/-- Settles O43: the record examined, by its state and the walk's range. -/
theorem visitTreatsTheNextRecord : Obligations.VisitTreatsTheNextRecord := by
  refine ⟨fun s i p hmode hdraining hset hp hended hreason hfree => ?_, ?_⟩
  · have hnone : s.resumed.pdr.sets.recordAt i p.way = none := Directory.recordAt_none hfree
    rw [exec_walkerVisit_paused hmode hdraining hset hp hended, State.visitPaused_freed hnone hreason]
    rfl
  rintro s found i older younger r finished paused hmode hdraining hset hsplit hways - htakes rfl hfinished hpaused
  obtain rfl : finished = State.finishWay r.way := funext hfinished
  obtain rfl : paused = fun reason => State.pauseOn r.way reason := funext fun reason => funext (hpaused reason)
  have hexec := exec_walkerVisit_examines hmode hdraining hset hsplit hways htakes
  have hget : s.resumed.pdr.sets.get i = older ++ r :: younger := hsplit
  refine ⟨fun hc hst => ?_, fun hc hst hp => ?_, fun hc hst hp hsh => ⟨fun hfull => ?_, fun hroom => ?_⟩,
    fun hc hst => ?_, fun hst => ?_, fun su dropped hst hdropped => ?_⟩
  · rw [hexec, State.examine_uncovered (s := s.resumed) hc hst]
    rfl
  · rw [hexec, State.examine_pending (s := s.resumed) hc hst hp, State.changeWay_split hget hways]
    rfl
  · rw [hexec, State.examine_shared (s := s.resumed) hc hst hp hsh, State.evictForWalk_full (s := s.resumed) hfull]
    rfl
  · exact ⟨_, hexec.trans (congrArg _ ((State.examine_shared (s := s.resumed) hc hst hp hsh).trans
      (State.evictForWalk_room hget hways hroom))), rfl⟩
  · rw [hexec, State.examine_invalidating (s := s.resumed) hc hst]
    rfl
  · rw [hexec, State.examine_evicting hst, State.dropSuccessor_none hst]
    rfl
  · have hdrop : s.resumed.dropSuccessor i r = dropped := (State.dropSuccessor_some hget hways hst).trans hdropped.symm
    rw [hexec, State.examine_evicting hst, hdrop]
    rfl

end Sys2Proof.Machine
end

