-- ==== Sys2Proof/Proofs/PortAnswers.lean ====
section
/-! PROOFS. The commands that read the part: the bytes of their responses (R120, R178 to R180, R183, section 10.2). -/

namespace Sys2Proof.Machine

theorem bytes4_zero : bytes4 0 = [0, 0, 0, 0] := by decide

/-! ### GET-STATUS (R179) -/

/-- Byte 5: the holder of the bus lock. -/
def lockHolderByte (lock : Option BusLock) : Byte := lock.elim 0xFF fun k => byteOfMaster k.holder

/-- Bytes 6 to 9: the address of the locked word. -/
def lockedAddr (lock : Option BusLock) : Addr := lock.elim 0 fun k => addrOfWord k.word

/-- Bytes 12 and 13: what the walker does, and the entry it retires. -/
def walkFields : WalkMode → Byte × Byte
  | .idle => (0, 0)
  | .retiring n => (1, byteOfNat n.val)
  | .sweeping => (2, 0)

/-- The GET-STATUS response, field after field. -/
theorem State.statusFrame_eq (s : State) : s.statusFrame = statusOk ::
    (Master.all.map fun m => attachCode (s.mau.attach.get m)) ++ lockHolderByte s.bfe.lock ::
      bytes4 (lockedAddr s.bfe.lock) ++ [byteOfNat s.pwq.length, byteOfNat s.ivt.entries.length,
        (walkFields s.pdr.walker.mode).1, (walkFields s.pdr.walker.mode).2, byteOfNat s.mnc.errors.length,
        byteOfBool s.mnc.overflow] := by
  unfold State.statusFrame
  cases s.bfe.lock <;> cases s.pdr.walker.mode <;> rfl

/-! ### GET-REGION (R120) -/

theorem regionFrame_used (e : Region) : regionFrame (some e) = [0, if e.state = .active then 1 else 2] ++
    bytes4 e.base ++ bytes4 (BitVec.ofNat 32 e.pages) ++ [policyCode e.policy] := by
  obtain ⟨state, base, pages, policy⟩ := e
  cases state <;> rfl

section
variable {n : Byte} {s : State}

theorem State.getRegion_badEntry (h : 8 ≤ n.toNat) : s.getRegion n = (s, 4 :: List.replicate 10 0) := by
  unfold State.getRegion
  rw [entryOfByte_of_le h]
  rfl

theorem State.getRegion_entry (h : n.toNat < 8) : s.getRegion n = (s, regionFrame s.rgt[n.toNat]) := by
  unfold State.getRegion
  rw [entryOfByte_of_lt h]
  rfl

end

/-! ### GET-RECORD (R180) -/

section
variable {older younger : DirectorySet} {r : LineRecord} {set : BitVec 16} {way : Byte} {s : State}

theorem DirectorySet.ranked_free {rs : DirectorySet} {w : Way} (h : ∀ q ∈ rs, q.way ≠ w) : rs.ranked w = none := by
  unfold DirectorySet.ranked
  rw [List.find?_eq_none.2 fun q hq => by simpa using h q hq]
  rfl

/-- A record's install rank counts the older records of its set (R5). -/
theorem DirectorySet.ranked_split (h : ∀ q ∈ older, q.way ≠ r.way) :
    DirectorySet.ranked (older ++ r :: younger) r.way = some (r, older.length + 1) := by
  have hindex : (older ++ r :: younger).findIdx (fun q => q.way == r.way) = older.length := by
    rw [List.findIdx_append, List.findIdx_eq_length_of_false fun q hq => by simpa using h q hq,
      if_neg (Nat.lt_irrefl _)]
    simp [List.findIdx_cons]
  unfold DirectorySet.ranked
  rw [DirectorySet.find_way_split h, hindex]
  rfl

theorem State.getRecord_badArg (h : 1024 ≤ set.toNat ∨ 8 ≤ way.toNat) :
    s.getRecord set way = (s, 4 :: List.replicate 34 0) := by
  unfold State.getRecord
  split
  · rfl
  · rename_i hset
    rw [entryOfByte_of_le (h.resolve_left hset)]
    rfl

theorem State.getRecord_way (hset : set.toNat < 1024) (hway : way.toNat < 8) : s.getRecord set way =
    (s, recordFrame set.toNat (DirectorySet.ranked (s.pdr.sets.get set.toNat) ⟨way.toNat, hway⟩)) := by
  unfold State.getRecord
  rw [if_neg (show ¬ Config.directorySets ≤ set.toNat from Nat.not_le.2 hset), entryOfByte_of_lt hway]

end

/-! ### TAKE-ERROR (R183) -/

theorem errorFrame_record (x : ErrorRecord) :
    errorFrame (some x) = [0, 1, errorCode x.kind, BitVec.ofNat 8 x.master.number] ++
      x.address.elim [0, 0, 0, 0, 0] fun a => 1 :: bytes4 a := by
  obtain ⟨kind, m, address⟩ := x
  cases address with
  | none => exact congrArg (fun bytes => [0, 1, errorCode kind, byteOfMaster m] ++ 0 :: bytes) bytes4_zero
  | some a => rfl

/-- TAKE-ERROR answers with the head record, which stays until the response end (R183). -/
theorem exec_takeError_taken {s : State} (hport : s.mnc.port = .receiving) : exec .takeError s =
    .next (s.atEvent.setPort (.responding (commandFrame .takeError) (errorFrame s.mnc.errors.head?)
      (!s.mnc.errors.isEmpty))) :=
  if_pos ((State.takes_iff (c := .takeError) rfl (by simp [commandFrame]) s.atEvent).2 hport)

/-! ### The responses -/

/-- The response of GET-STATUS byte by byte. -/
theorem State.statusFrame_bytes (s : State) :
    s.statusFrame.length = 16 ∧ s.statusFrame[0]? = some 0 ∧
      (∀ m : Master, s.statusFrame[1 + m.number]? = some (attachCode (s.mau.attach.get m))) ∧
      (s.bfe.lock = none → s.statusFrame[5]? = some 0xFF ∧ (s.statusFrame.drop 6).take 4 = [0, 0, 0, 0]) ∧
      (∀ k, s.bfe.lock = some k → s.statusFrame[5]? = some (BitVec.ofNat 8 k.holder.number) ∧
        (s.statusFrame.drop 6).take 4 = bytes4 (addrOfWord k.word)) ∧
      s.statusFrame[10]? = some (BitVec.ofNat 8 s.pwq.length) ∧
      s.statusFrame[11]? = some (BitVec.ofNat 8 s.ivt.entries.length) ∧
      (s.pdr.walker.mode = .idle → s.statusFrame[12]? = some 0 ∧ s.statusFrame[13]? = some 0) ∧
      (∀ n : Fin 8, s.pdr.walker.mode = .retiring n → s.statusFrame[12]? = some 1 ∧
        s.statusFrame[13]? = some (BitVec.ofNat 8 n.val)) ∧
      (s.pdr.walker.mode = .sweeping → s.statusFrame[12]? = some 2 ∧ s.statusFrame[13]? = some 0) ∧
      s.statusFrame[14]? = some (BitVec.ofNat 8 s.mnc.errors.length) ∧
      s.statusFrame[15]? = some (if s.mnc.overflow then 1 else 0) := by
  rw [State.statusFrame_eq]
  refine ⟨rfl, rfl, fun m => ?_, fun hl => ?_, fun k hl => ?_, rfl, rfl, fun hm => ?_, fun n hm => ?_, fun hm => ?_,
    rfl, rfl⟩
  · cases m <;> rfl
  · rw [hl]
    exact ⟨rfl, bytes4_zero⟩
  · rw [hl]
    exact ⟨rfl, rfl⟩
  all_goals
    rw [hm]
    exact ⟨rfl, rfl⟩

/-- Settles O47, command by command. -/
theorem readingCommandsAnswerTheirFrames : Obligations.ReadingCommandsAnswerTheirFrames := by
  refine ⟨⟨rfl, rfl, rfl, rfl⟩, ⟨rfl, rfl, rfl⟩, ⟨rfl, rfl, rfl, rfl, rfl, rfl, rfl, rfl⟩,
    fun s answered hport hanswered => ?_⟩
  obtain rfl : answered = _ := funext fun c => funext fun frame => funext (hanswered c frame)
  have hregion : ∀ n frame, s.atEvent.getRegion n = (s.atEvent, frame) → exec (.getRegion n) s =
      .next (s.atEvent.setPort (.responding (commandFrame (.getRegion n)) frame false)) := fun n frame =>
    State.takeCommand_answers (f := State.getRegion n) hport rfl (by simp [commandFrame])
  have hrecord : ∀ i w frame, s.atEvent.getRecord i w = (s.atEvent, frame) → exec (.getRecord i w) s =
      .next (s.atEvent.setPort (.responding (commandFrame (.getRecord i w)) frame false)) := fun i w frame =>
    State.takeCommand_answers (f := State.getRecord i w) hport rfl (by simp [commandFrame])
  refine ⟨⟨s.atEvent.statusFrame, ?_, s.atEvent.statusFrame_bytes⟩, fun n hn => ?_, fun n hn hfree => ?_,
    fun n hn e he => ?_, fun i w hbad => ?_, fun i w hi hw hfree => ?_,
    fun i w older younger r hi hsplit hway hways => ?_, fun hempty => ?_, fun x rest herrors => ?_⟩
  · exact State.takeCommand_answers (c := .getStatus) (f := fun s => (s, s.statusFrame)) hport rfl
      (by simp [commandFrame]) rfl
  · exact hregion _ _ (State.getRegion_badEntry hn)
  · have hframe : regionFrame s.atEvent.rgt[n.toNat] = List.replicate 10 0 ++ [0xFF] :=
      (congrArg regionFrame hfree).trans (by decide)
    exact hregion _ _ (hframe ▸ State.getRegion_entry hn)
  · have hframe := (congrArg regionFrame he).trans (regionFrame_used e)
    exact hregion _ _ ((State.getRegion_entry hn).trans (congrArg _ hframe))
  · exact hrecord _ _ _ (State.getRecord_badArg hbad)
  · have hranked := DirectorySet.ranked_free (rs := s.pdr.sets.get i.toNat) (w := ⟨w.toNat, hw⟩)
      fun q hq hqw => hfree q hq (congrArg Fin.val hqw)
    exact hrecord _ _ _ ((State.getRecord_way hi hw).trans (congrArg _ (congrArg _ hranked)))
  · have hw : w.toNat < 8 := hway ▸ r.way.isLt
    have hranked : DirectorySet.ranked (s.pdr.sets.get i.toNat) ⟨w.toNat, hw⟩ = some (r, older.length + 1) := by
      rw [hsplit, show (⟨w.toNat, hw⟩ : Way) = r.way from Fin.ext hway.symm]
      exact DirectorySet.ranked_split hways
    exact hrecord _ _ _ ((State.getRecord_way hi hw).trans (congrArg _ (congrArg _ hranked)))
  · rw [exec_takeError_taken hport, hempty]
    rfl
  · rw [exec_takeError_taken hport, herrors, List.head?_cons, errorFrame_record]
    cases x.address <;> rfl

end Sys2Proof.Machine
end

