-- ==== Sys2Proof/Proofs/StartReplyJoin.lean ====
section
/-! PROOFS. The start of an event (logs 4 and 7), the sending of a reply (R142, R145, R147, R149, R155), and the
commands ISOLATE and JOIN with the codes that name no command (R138, R139, R178). -/

namespace Sys2Proof.Machine

/-! ### The start of an event -/

section
variable {c : Instr} {f : State → State × List Byte} {s : State}

theorem State.takeCommand_next : ∃ t, s.takeCommand c f = .next t := by
  unfold State.takeCommand
  dsimp only
  split <;> exact ⟨_, rfl⟩

theorem State.takeCommand_atEvent : s.atEvent.takeCommand c f = s.takeCommand c f := by
  unfold State.takeCommand
  rw [State.atEvent_atEvent]

end

/-- No test that a command makes leads to a fault or a refusal. -/
theorem exec_next (c : Instr) (s : State) : ∃ t, exec c s = .next t := by
  cases c with
  | chipReset mpres mrst | read r | readLine r | lockRead r | write r | lockWrite r | sync r | requestLineFall m
  | deselect => exact ⟨_, rfl⟩
  | getStatus | getRegion n | getRecord i w | setRegion n base pages policy | retireRegion n | sweep
  | setLimits invalidation lock bypass | isolate n | join n | unknownCommand code =>
    dsimp only [exec, execGetStatus, execGetRegion, execGetRecord, execSetRegion, execRetireRegion, execSweep,
      execSetLimits, execIsolate, execJoin, execUnknownCommand]
    exact State.takeCommand_next
  | grant sreq | malformedRequest k r | replySend | lockTimeout | sendEvent | resetNoticeRise m | resetNoticeFall m
  | spiSelect | responseEnd | takeError =>
    dsimp only [exec, execGrant, execMalformedRequest, execReplySend, execLockTimeout, execSendEvent,
      execResetNoticeRise, execResetNoticeFall, execSpiSelect, execResponseEnd, execTakeError]
    split <;> exact ⟨_, rfl⟩
  | issueEvent mrdy | timerExpiry m | trackerWaitRetry m =>
    dsimp only [exec, execIssueEvent, execTimerExpiry, execTrackerWaitRetry]
    split
    · split <;> exact ⟨_, rfl⟩
    · exact ⟨_, rfl⟩
  | mrlCompletion lines =>
    dsimp only [exec, execMrlCompletion]
    split
    · exact ⟨_, rfl⟩
    · split <;> exact ⟨_, rfl⟩
  | acknowledge m =>
    dsimp only [exec, execAcknowledge]
    cases s.atEvent.mau.attach.get m with
    | absent | inReset | isolated => exact ⟨_, rfl⟩
    | online => cases s.atEvent.ivt.notices.get m <;> exact ⟨_, rfl⟩
  | walkerVisit =>
    dsimp only [exec, execWalkerVisit]
    split
    · exact ⟨_, rfl⟩
    · split
      · exact ⟨_, rfl⟩
      · split <;> exact ⟨_, rfl⟩

/-- Every event reads the part as `State.atEvent` gives it, and a second start changes nothing more; a chip reset reads
only what the start leaves alone. -/
theorem exec_atEvent (c : Instr) (s : State) : exec c s.atEvent = exec c s := by
  cases c with
  | chipReset mpres mrst => rfl
  | getStatus | getRegion n | getRecord i w | setRegion n base pages policy | retireRegion n | sweep
  | setLimits invalidation lock bypass | isolate n | join n | unknownCommand code =>
    dsimp only [exec, execGetStatus, execGetRegion, execGetRecord, execSetRegion, execRetireRegion, execSweep,
      execSetLimits, execIsolate, execJoin, execUnknownCommand]
    exact State.takeCommand_atEvent
  | grant sreq | read r | readLine r | lockRead r | write r | lockWrite r | sync r | malformedRequest k r
  | replySend | lockTimeout =>
    simp only [exec, execGrant, execRead, execReadLine, execLockRead, execWrite, execLockWrite, execSync,
      execMalformedRequest, execReplySend, execLockTimeout, State.atEvent_atEvent]
  | requestLineFall m => simp only [exec, execRequestLineFall, State.atEvent_atEvent, State.atEvent_frame]
  | issueEvent mrdy | mrlCompletion lines =>
    simp only [exec, execIssueEvent, execMrlCompletion, State.atEvent_atEvent]
  | sendEvent | acknowledge m | timerExpiry m | trackerWaitRetry m =>
    simp only [exec, execSendEvent, execAcknowledge, execTimerExpiry, execTrackerWaitRetry, State.atEvent_atEvent]
  | resetNoticeRise m | resetNoticeFall m | walkerVisit =>
    simp only [exec, execResetNoticeRise, execResetNoticeFall, execWalkerVisit, State.atEvent_atEvent]
  | spiSelect | responseEnd | deselect | takeError =>
    simp only [exec, execSpiSelect, execResponseEnd, execDeselect, execTakeError, State.atEvent_atEvent]

/-- Settles O2: no command stops, and a second start of an event changes nothing. -/
theorem eventsStartFromStandingNotices : Obligations.EventsStartFromStandingNotices :=
  ⟨fun c s => ⟨exec_next c s, (exec_atEvent c s).symm⟩,
    fun s => ⟨s.atEvent.mau.attach, rfl, s.atEvent_attach⟩⟩

/-! ### The oldest reply (R142, R155) -/

section
variable {x : Reply} {a : Answer} {s : State}

theorem exec_replySend_idle (h : s.bfe.replies = []) : exec .replySend s = .next s.atEvent := by
  dsimp only [exec, execReplySend]
  rw [show s.atEvent.bfe.replies = [] from h]

/-- The oldest reply leaves the queue for the bus, and the slots hear of it (R155). -/
theorem exec_replySend_oldest {rest : List Reply} (h : s.bfe.replies = x :: rest) : exec .replySend s =
    .next (State.afterSend x { s.atEvent with
      bfe := { s.bfe with replies := rest }, pins := { s.pins.quiet with srb := some x.transfer } }) := by
  dsimp only [exec, execReplySend]
  rw [show s.atEvent.bfe.replies = x :: rest from h]
  rfl

/-- The reply is the ERR of a SYNC (R142). -/
theorem State.sendsSyncErr_iff (h : x.body = .answer a) : s.sendsSyncErr x = true ↔
    a = .err ∧ ∃ sl, s.rsa.slots.get x.master = some sl ∧ sl.request = .sync := by
  simp [State.sendsSyncErr, h, Option.any_eq_true]

/-- A RETRY comes from no slot (R155). -/
theorem State.afterSend_retry (h : x.body = .retry) : s.afterSend x = s := by
  have hsync : ¬ s.sendsSyncErr x = true := by simp [State.sendsSyncErr, h]
  unfold State.afterSend
  dsimp only
  rw [if_neg hsync, if_pos h]

/-- An answer empties its slot, and the ERR of a SYNC clears the flag of its master too (R142, R155). -/
theorem State.afterSend_answer (h : x.body = .answer a) : s.afterSend x =
    if s.sendsSyncErr x = true then (s.emptySlot x.master).withMau
      { s.mau with writeFailed := s.mau.writeFailed.set x.master false }
    else s.emptySlot x.master := by
  have hanswer : ¬ x.body = .retry := by simp [h]
  unfold State.afterSend
  dsimp only
  rw [if_neg hanswer]
  rfl

end

/-- Settles O26, by what the oldest reply is. -/
theorem oldestReplyIsSent : Obligations.OldestReplyIsSent := by
  refine ⟨fun s => exec_replySend_idle, fun x rest s sent hreplies hsent => ?_⟩
  have hexec : exec .replySend s = .next (sent.afterSend x) := hsent ▸ exec_replySend_oldest hreplies
  have hslots : sent.rsa = s.rsa := hsent ▸ rfl
  refine ⟨rfl, fun hretry => ?_, fun a emptied ha hemptied => ⟨?_, ?_, ?_, ?_, fun hsync => ?_, fun hother => ?_⟩⟩
  · rw [hexec, State.afterSend_retry hretry, Reply.transfer, hretry]
    exact ⟨rfl, rfl, rfl⟩
  · rintro w rfl
    rw [Reply.transfer, ha]
    exact ⟨rfl, rfl⟩
  · rintro ws keep rfl
    rw [Reply.transfer, ha]
    exact ⟨rfl, rfl, rfl⟩
  · rintro rfl
    rw [Reply.transfer, ha]
    exact ⟨rfl, rfl⟩
  · rintro rfl
    rw [Reply.transfer, ha]
    exact ⟨rfl, rfl⟩
  · have herr : sent.sendsSyncErr x = true := (State.sendsSyncErr_iff ha).2 (hslots.symm ▸ hsync)
    rw [hexec, State.afterSend_answer ha, if_pos herr, hemptied, hsent]
    rfl
  · have hnot : ¬ sent.sendsSyncErr x = true := fun h => hother (hslots ▸ (State.sendsSyncErr_iff ha).1 h)
    rw [hexec, State.afterSend_answer ha, if_neg hnot, hemptied, hsent]
    rfl

/-! ### ISOLATE and JOIN (R138, R139) -/

section
variable {n : Byte} {m : Master} {s : State}

theorem masterOfByte_of_le (h : 4 ≤ n.toNat) : masterOfByte n = none := by
  obtain ⟨k, hk⟩ := Nat.exists_eq_add_of_le' h
  rw [masterOfByte, hk]
  rfl

theorem State.isolateCommand_badMaster (h : 4 ≤ n.toNat) : s.isolateCommand n = (s, [statusBadArg]) := by
  unfold State.isolateCommand
  rw [masterOfByte_of_le h]

theorem State.isolateCommand_offline (hn : n.toNat = m.number) (hm : s.mau.attach.get m ≠ .online) :
    s.isolateCommand n = (s, [statusWrongState]) := by
  unfold State.isolateCommand
  rw [masterOfByte_eq hn]
  exact if_neg fun h => hm (beq_iff_eq.1 h)

theorem State.isolateCommand_online (hn : n.toNat = m.number) (hm : s.mau.attach.get m = .online) :
    s.isolateCommand n = (s.isolate m none, [statusOk]) := by
  unfold State.isolateCommand
  rw [masterOfByte_eq hn]
  exact if_pos (beq_iff_eq.2 hm)

theorem State.joinCommand_badMaster (h : 4 ≤ n.toNat) : s.joinCommand n = (s, [statusBadArg]) := by
  unfold State.joinCommand
  rw [masterOfByte_of_le h]

theorem State.joinCommand_otherState (hn : n.toNat = m.number) (hm : s.mau.attach.get m ≠ .isolated) :
    s.joinCommand n = (s, [statusWrongState]) := by
  unfold State.joinCommand
  rw [masterOfByte_eq hn]
  exact if_neg hm

theorem State.joinCommand_isolated (hn : n.toNat = m.number) (hm : s.mau.attach.get m = .isolated) :
    s.joinCommand n = (s.setAttach m .online, [statusOk]) := by
  unfold State.joinCommand
  rw [masterOfByte_eq hn]
  exact if_pos hm

/-- A passage changes its own master's attachment state alone (R135). -/
theorem State.isolate_attach (m : Master) (timeout : Option LineAddr) (s : State) :
    (s.isolate m timeout).mau.attach = s.mau.attach.set m .isolated := by
  obtain ⟨c, hc⟩ := s.isolate_eq m timeout
  obtain ⟨-, -, -, -, -, hdeparted, -⟩ := s.departs_frame (Or.inl rfl : AttachState.isolated = .isolated ∨ _) m
  obtain ⟨hconcluded, -⟩ := (s.departs m .isolated).concludes_frame m .isolated
  obtain ⟨-, -, -, -, -, -, -, htold, -⟩ :=
    State.tellWalker_frame s (((s.departs m .isolated).concludes m .isolated).withMnc c)
  exact congrArg Mau.attach (hc ▸ (htold.trans hconcluded).trans hdeparted)

/-- An isolation by command makes no error record (R137, R138). -/
theorem State.isolate_none_mnc (m : Master) (s : State) : (s.isolate m none).mnc = s.mnc := by
  have hisolate : s.isolate m none =
    State.tellWalker s (((s.departs m .isolated).releaseLockOf m).leaveRetryList m) := rfl
  rw [hisolate]
  simp [State.departs_mnc]

/-- A code outside 0x01 to 0x0A names no command (R178). -/
theorem unknownCommand_wellFormed (h : n.toNat = 0 ∨ 11 ≤ n.toNat) :
    (Instr.unknownCommand n).wellFormed = true := by
  simp only [Instr.wellFormed, codeNamesCommand, Bool.not_eq_true', Bool.and_eq_false_iff, decide_eq_false_iff_not]
  omega

end

/-- Settles O52, check by check. -/
theorem isolateAndJoinCheckTheMaster : Obligations.IsolateAndJoinCheckTheMaster := by
  intro n s answered hport hanswered
  obtain rfl : answered = _ := funext fun c => funext (hanswered c)
  have hisolate : ∀ u response, s.atEvent.isolateCommand n = (u, response) → exec (.isolate n) s =
      .next (u.setPort (.responding (commandFrame (.isolate n)) response false)) :=
    fun u response => State.takeCommand_answers (f := State.isolateCommand n) hport rfl (by simp [commandFrame])
  have hjoin : ∀ u response, s.atEvent.joinCommand n = (u, response) → exec (.join n) s =
      .next (u.setPort (.responding (commandFrame (.join n)) response false)) :=
    fun u response => State.takeCommand_answers (f := State.joinCommand n) hport rfl (by simp [commandFrame])
  refine ⟨fun hn => ⟨hisolate _ _ (State.isolateCommand_badMaster hn), hjoin _ _ (State.joinCommand_badMaster hn)⟩,
    fun m hn => ⟨fun hm => hisolate _ _ (State.isolateCommand_offline hn hm),
      fun hm => ⟨_, hisolate _ _ (State.isolateCommand_online hn hm), ?_, s.atEvent.isolate_attach m none⟩,
      fun hm => hjoin _ _ (State.joinCommand_otherState hn hm),
      fun hm => hjoin _ _ (State.joinCommand_isolated hn hm)⟩, fun hn => ?_⟩
  · exact congrArg (fun c : Mnc => { c with port := .responding (commandFrame (.isolate n)) [0] false })
      (s.atEvent.isolate_none_mnc m)
  · exact State.takeCommand_answers (f := fun s => (s, [statusBadArg])) hport (unknownCommand_wellFormed hn)
      (by simp [commandFrame]) rfl

end Sys2Proof.Machine
end

