-- ==== Sys2Proof/Proofs/RequestBus.lean ====
section
/-! PROOFS. The Shared Request Bus: the choice of a grant and its withdrawal (R144, R157, R158, R160), the transfers
that are not handled by their kind (R150, R152), and parity (R148, R149). -/

namespace Sys2Proof.Machine

/-! ### The choice of a grant (R157, R158) -/

/-- A search by a test that decides a property finds the first element with it. -/
theorem FirstIn.find?_eq {l : List Master} {p : Master → Prop} {m : Master} {test : Master → Bool}
    (h : FirstIn l p m) (htest : ∀ k, test k = true ↔ p k) : l.find? test = some m := by
  obtain ⟨hm, before, after, hl, hbefore⟩ := h
  exact List.find?_eq_some_iff_append.2
    ⟨(htest m).2 hm, before, after, hl, fun k hk => by simpa [← htest] using hbefore k hk⟩

theorem State.lockAllows_iff {s : State} {m : Master} :
    s.lockAllows m = true ↔ ∀ k, s.bfe.lock = some k → k.holder = m := by
  unfold State.lockAllows
  cases s.bfe.lock <;> simp

theorem State.grantable_iff {s : State} {m : Master} : s.grantable m = true ↔ Grantable s m := by
  simp [State.grantable, Grantable, State.slotEmpty, State.hasReply, State.lockAllows_iff, and_assoc]

/-- The retry preference list is searched first, then the rotation (R158). -/
theorem State.grantChoice_of_choice {s : State} {m : Master} (h : GrantChoice s m) : s.grantChoice = some m := by
  unfold State.grantChoice
  rcases h with hlist | ⟨hnone, hrotation⟩
  · rw [hlist.find?_eq fun _ => State.grantable_iff, Option.some_or]
  · have hlist : s.bfe.retryList.find? (fun k => s.grantable k) = none :=
      List.find?_eq_none.2 fun k hk hyes => hnone k hk (State.grantable_iff.1 hyes)
    rw [hlist, Option.none_or]
    exact hrotation.find?_eq fun _ => State.grantable_iff

theorem State.grantChoice_none {s : State} (h : ∀ m, ¬ Grantable s m) : s.grantChoice = none :=
  Option.eq_none_iff_forall_ne_some.2 fun m hm => h m (State.grantable_iff.1 (State.grantChoice_grantable hm))

/-! ### The grant and its withdrawal (R144, R158, R160) -/

section
variable {lines : MasterSet} {s seen : State}

theorem exec_grant_given {m : Master} (hseen : seen = { s.atEvent with pins := { s.pins.quiet with sreq := lines } })
    (hidle : s.bfe.grant = none) (hchoice : seen.grantChoice = some m) :
    exec (.grant lines) s = .next (seen.giveGrant m) := by
  have hseen : s.atEvent.seeRequestLines lines = seen := hseen.symm
  have hidle : seen.bfe.grant = none := hseen ▸ hidle
  show execGrant lines s = _
  unfold execGrant
  dsimp only
  rw [hseen, hidle, hchoice]

theorem exec_grant_withheld (hseen : seen = { s.atEvent with pins := { s.pins.quiet with sreq := lines } })
    (h : s.bfe.grant ≠ none ∨ seen.grantChoice = none) : exec (.grant lines) s = .next seen := by
  have hseen : s.atEvent.seeRequestLines lines = seen := hseen.symm
  have h : seen.bfe.grant ≠ none ∨ seen.grantChoice = none := hseen ▸ h
  show execGrant lines s = _
  unfold execGrant
  dsimp only
  rw [hseen]
  split
  · rename_i m hidle hchoice
    obtain hbusy | hnone := h
    · exact absurd hidle hbusy
    · cases hnone.symm.trans hchoice
  · rfl

end

/-- The fall of m's line takes back a grant to m and no other (R160). -/
theorem State.withdrawGrant_eq (m : Master) (s : State) : s.withdrawGrant m =
    { s with bfe := { s.bfe with grant := if s.bfe.grant = some m then none else s.bfe.grant } } := by
  unfold State.withdrawGrant
  split <;> rfl

/-- Settles O4, by the outstanding grant and the choice of R158. -/
theorem grantGoesToTheChosenMaster : Obligations.GrantGoesToTheChosenMaster := by
  refine ⟨fun lines s seen hseen => ?_, fun m s => congrArg Host.Outcome.next (State.withdrawGrant_eq m _)⟩
  refine ⟨fun m hidle hchoice => ?_, fun h => exec_grant_withheld hseen (h.imp_right State.grantChoice_none)⟩
  rw [exec_grant_given hseen hidle (State.grantChoice_of_choice hchoice), hseen]
  rfl

/-! ### Transfers that are not handled by their kind (R150, R152) -/

section
variable {r : RequestLines} {b : Bool} {handle : Master → State → State} {m : Master} {s : State}

theorem State.accept_ungranted (hg : s.bfe.grant = none) : s.atEvent.accept r b handle = s.atEvent := by
  unfold State.accept
  rw [show s.atEvent.bfe.grant = none from hg]

theorem State.accept_lapsed (hg : s.bfe.grant = some m) (hr : r.sreq = false) :
    s.atEvent.accept r b handle = s.taken m false := by
  unfold State.accept
  rw [show s.atEvent.bfe.grant = some m from hg]
  dsimp only
  rw [hr, if_pos rfl]
  rfl

theorem State.accept_refused {k : BusLock} (hg : s.bfe.grant = some m) (hr : r.sreq = true)
    (hl : s.bfe.lock = some k) (hk : k.holder ≠ m) :
    s.atEvent.accept r b handle = { s.taken m true with bfe := s.bfe.refused m } := by
  unfold State.accept
  rw [show s.atEvent.bfe.grant = some m from hg]
  dsimp only
  rw [hr, if_neg (by decide), show (s.atEvent.clearGrant m true).bfe.lock = some k from hl]
  dsimp only
  rw [if_pos hk]
  rfl

end

/-- A transfer that ends the same way for every kind ends so for its own: the walker hears of nothing while the
directory's sets stand (R127). -/
theorem exec_request_of_accept {c : Instr} {r : RequestLines} {s t : State} (hc : c.requestLines = some r)
    (hwf : c.wellFormed = true) (haccept : ∀ b handle, s.atEvent.accept r b handle = t)
    (hsets : s.pdr.sets = t.pdr.sets) : exec c s = .next t := by
  have htold : State.tellWalker s.atEvent t = t := State.tellWalker_of_same hsets
  cases c <;> cases hc
  case read => exact congrArg Host.Outcome.next (haccept ..)
  case readLine => exact congrArg Host.Outcome.next ((congrArg _ (haccept ..)).trans htold)
  case write => exact congrArg Host.Outcome.next ((congrArg _ (haccept ..)).trans htold)
  case lockRead => exact congrArg Host.Outcome.next (haccept ..)
  case lockWrite => exact congrArg Host.Outcome.next ((congrArg _ (haccept ..)).trans htold)
  case sync => exact congrArg Host.Outcome.next (haccept ..)
  case malformedRequest => exact (if_pos hwf).trans (congrArg Host.Outcome.next (haccept ..))

/-- Settles O5: in these cases the acceptance never comes to the request's kind. -/
theorem transferNeedsGrantAndLock : Obligations.TransferNeedsGrantAndLock :=
  fun _ _ _ hc hwf =>
    ⟨fun hg => exec_request_of_accept hc hwf (fun _ _ => State.accept_ungranted hg) rfl,
      fun _ hg hr => exec_request_of_accept hc hwf (fun _ _ => State.accept_lapsed hg hr) rfl,
      fun _ _ hg hr hl hk => exec_request_of_accept hc hwf (fun _ _ => State.accept_refused hg hr hl hk) rfl⟩

/-! ### Parity of replies (R149) -/

/-- Bit k of the parity lines belongs to byte position k. -/
theorem getLsbD_parityOfWord (w : Word) {k : Nat} (hk : k < 4) :
    (parityOfWord w).getLsbD k = evenParity (byteOfWord w k) := by
  have hbits : ∀ p3 p2 p1 p0 : Bool, ∀ k : Fin 4,
      (BitVec.ofBool p3 ++ BitVec.ofBool p2 ++ BitVec.ofBool p1 ++ BitVec.ofBool p0).getLsbD k =
        ![p0, p1, p2, p3] k := by
    decide
  obtain rfl | rfl | rfl | rfl : k = 0 ∨ k = 1 ∨ k = 2 ∨ k = 3 := by omega
  · exact hbits _ _ _ _ 0
  · exact hbits _ _ _ _ 1
  · exact hbits _ _ _ _ 2
  · exact hbits _ _ _ _ 3

/-- Settles O8: the parity bit of a byte is the count of its ones modulo two, so with it the count is even. -/
theorem parityIsEven : Obligations.ParityIsEven := by
  refine ⟨requestParityGood_iff, fun w k hk => ?_⟩
  rw [getLsbD_parityOfWord w hk, Nat.add_mod, ← evenParity_byteOfWord]
  cases evenParity (byteOfWord w k) <;> rfl

end Sys2Proof.Machine
end

