-- ==== Sys2Proof/Proofs/WireSpelling.lean ====
section
/-! PROOFS. What crosses the wires: SKIND (R145), the frames of maintenance commands and their lengths (R177, R178,
section 10.2), the bits of a transaction (R177), and the words that spell a command (log 10). -/

namespace Sys2Proof

/-! ### Request transfers (R145) -/

/-- A request transfer is read back from its SKIND and its lines. -/
theorem requestCommand_skind {c : Instr} {r : RequestLines} (hc : c.requestLines = some r)
    (hwf : c.wellFormed = true) : ∃ k, c.skind = some k ∧ requestCommand k r = c := by
  cases c <;> cases hc
  case malformedRequest k =>
    have hnone : kindOfSkind k = none := Option.isNone_iff_eq_none.1 hwf
    exact ⟨k, rfl, by rw [requestCommand, hnone]⟩
  all_goals exact ⟨_, rfl, rfl⟩

/-! ### Fields and bits, most significant first (R177) -/

theorem extractLsb'_byte {n : Nat} (w : BitVec n) (k : Nat) : w.extractLsb' k 8 = BitVec.ofNat 8 (w.toNat / 2 ^ k) := by
  rw [BitVec.extractLsb', Nat.shiftRight_eq_div_pow]

theorem bytes4_eq (w : BitVec 32) : bytes4 w = [BitVec.ofNat 8 (w.toNat / 2 ^ 24), BitVec.ofNat 8 (w.toNat / 2 ^ 16),
    BitVec.ofNat 8 (w.toNat / 2 ^ 8), BitVec.ofNat 8 w.toNat] := by
  simp only [bytes4, extractLsb'_byte, Nat.pow_zero, Nat.div_one]

theorem bytes2_eq (w : BitVec 16) : bytes2 w = [BitVec.ofNat 8 (w.toNat / 2 ^ 8), BitVec.ofNat 8 w.toNat] := by
  simp only [bytes2, extractLsb'_byte, Nat.pow_zero, Nat.div_one]

theorem getElem?_bitsOfByte (b : Byte) {j : Nat} (hj : j < 8) : (bitsOfByte b)[j]? = some (b.getLsbD (7 - j)) := by
  obtain rfl | rfl | rfl | rfl | rfl | rfl | rfl | rfl :
    j = 0 ∨ j = 1 ∨ j = 2 ∨ j = 3 ∨ j = 4 ∨ j = 5 ∨ j = 6 ∨ j = 7 := by omega
  all_goals rfl

/-- Bits short of a byte make none. -/
theorem bytesOfBits_short {bits : List Bool} (h : bits.length < 8) : bytesOfBits bits = [] := by
  unfold bytesOfBits
  split
  · simp only [List.length_cons] at h
    omega
  · rfl

theorem bytesOfBits_flatMap (bytes : List Byte) {bits : List Bool} (h : bits.length < 8) :
    bytesOfBits (bytes.flatMap bitsOfByte ++ bits) = bytes := by
  induction bytes with
  | nil => exact bytesOfBits_short h
  | cons b bytes ih => rw [List.flatMap_cons, List.append_assoc, bytesOfBits_bitsOfByte, ih]

/-! ### Frames (R178, section 10.2) -/

/-- Bytes are short of the frame that byte 0 begins, and name no command yet, or begin with the whole frame of one. -/
def ShortOrFramed (code : Byte) (args : List Byte) : Prop :=
  ((code :: args).length < commandLength code ∧ commandOfBytes (code :: args) = none) ∨
    ∃ c extra, c.wellFormed = true ∧ commandFrame c ≠ [] ∧ code :: args = commandFrame c ++ extra

theorem ShortOrFramed.framed {code : Byte} {args : List Byte} (c : Instr) (extra : List Byte)
    (hwf : c.wellFormed = true) (h : code :: args = commandFrame c ++ extra) (hf : commandFrame c ≠ []) :
    ShortOrFramed code args := .inr ⟨c, extra, hwf, hf, h⟩

/-- A frame of a code and one byte. -/
theorem ShortOrFramed.of_one_argument {code : Byte} {command : Byte → Instr} (hlength : commandLength code = 2)
    (hnone : commandOfBytes [code] = none) (hwf : ∀ n, (command n).wellFormed = true)
    (hframe : ∀ n, commandFrame (command n) = [code, n]) (args : List Byte) : ShortOrFramed code args := by
  cases args with
  | nil => exact .inl ⟨by simp [hlength], hnone⟩
  | cons n extra => exact .framed (command n) extra (hwf n) (by rw [hframe]; rfl) (by simp [hframe])

theorem shortOrFramed_setRegion (args : List Byte) : ShortOrFramed 0x03 args :=
  match args with
  | [] | [_] | [_, _] | [_, _, _] | [_, _, _, _] | [_, _, _, _, _] | [_, _, _, _, _, _] | [_, _, _, _, _, _, _]
  | [_, _, _, _, _, _, _, _] | [_, _, _, _, _, _, _, _, _] => .inl ⟨by simp [commandLength], rfl⟩
  | n :: b3 :: b2 :: b1 :: b0 :: p3 :: p2 :: p1 :: p0 :: policy :: extra =>
    .framed (.setRegion n (field4 b3 b2 b1 b0) (field4 p3 p2 p1 p0) policy) extra rfl
      (by simp [commandFrame, bytes4_field4]) (List.cons_ne_nil _ _)

theorem shortOrFramed_getRecord (args : List Byte) : ShortOrFramed 0x06 args :=
  match args with
  | [] | [_] | [_, _] => .inl ⟨by simp [commandLength], rfl⟩
  | s1 :: s0 :: way :: extra =>
    .framed (.getRecord (field2 s1 s0) way) extra rfl (by simp [commandFrame, bytes2_field2]) (List.cons_ne_nil _ _)

theorem shortOrFramed_setLimits (args : List Byte) : ShortOrFramed 0x07 args :=
  match args with
  | [] | [_] | [_, _] | [_, _, _] | [_, _, _, _] => .inl ⟨by simp [commandLength], rfl⟩
  | i1 :: i0 :: l1 :: l0 :: bypass :: extra =>
    .framed (.setLimits (field2 i1 i0) (field2 l1 l0) bypass) extra rfl (by simp [commandFrame, bytes2_field2])
      (List.cons_ne_nil _ _)

/-- The codes that name a command (R178). -/
theorem codeNamesCommand_cases {code : Byte} (h : codeNamesCommand code = true) :
    code = 0x01 ∨ code = 0x02 ∨ code = 0x03 ∨ code = 0x04 ∨ code = 0x05 ∨ code = 0x06 ∨ code = 0x07 ∨ code = 0x08 ∨
      code = 0x09 ∨ code = 0x0A := by
  simp only [codeNamesCommand, Bool.and_eq_true, decide_eq_true_eq] at h
  bv_omega

theorem shortOrFramed (code : Byte) (args : List Byte) : ShortOrFramed code args := by
  cases hnamed : codeNamesCommand code with
  | false => exact .framed (.unknownCommand code) args (by simp [Instr.wellFormed, hnamed]) rfl (List.cons_ne_nil _ _)
  | true =>
    rcases codeNamesCommand_cases hnamed with rfl | rfl | rfl | rfl | rfl | rfl | rfl | rfl | rfl | rfl
    · exact .framed .getStatus args rfl rfl (List.cons_ne_nil _ _)
    · exact .of_one_argument (command := .getRegion) rfl rfl (fun _ => rfl) (fun _ => rfl) args
    · exact shortOrFramed_setRegion args
    · exact .of_one_argument (command := .retireRegion) rfl rfl (fun _ => rfl) (fun _ => rfl) args
    · exact .framed .sweep args rfl rfl (List.cons_ne_nil _ _)
    · exact shortOrFramed_getRecord args
    · exact shortOrFramed_setLimits args
    · exact .of_one_argument (command := .isolate) rfl rfl (fun _ => rfl) (fun _ => rfl) args
    · exact .of_one_argument (command := .join) rfl rfl (fun _ => rfl) (fun _ => rfl) args
    · exact .framed .takeError args rfl rfl (List.cons_ne_nil _ _)

/-- Bytes name a command exactly when they begin with its frame. -/
theorem commandOfBytes_eq_some_iff {bytes : List Byte} {c : Instr} : commandOfBytes bytes = some c ↔
    c.wellFormed = true ∧ commandFrame c ≠ [] ∧ ∃ extra, bytes = commandFrame c ++ extra := by
  constructor
  · intro h
    cases bytes with
    | nil => cases h
    | cons code args =>
      obtain ⟨-, hnone⟩ | ⟨d, extra, hwf, hf, hbytes⟩ := shortOrFramed code args
      · cases hnone.symm.trans h
      · rw [hbytes, commandOfBytes_commandFrame hwf hf] at h
        cases h
        exact ⟨hwf, hf, extra, hbytes⟩
  · rintro ⟨hwf, hf, extra, rfl⟩
    exact commandOfBytes_commandFrame hwf hf extra

/-- Byte 0 of the bytes that a frame begins gives the length of the frame. -/
theorem commandFrame_length_of_append {c : Instr} {code : Byte} {args extra : List Byte} (hwf : c.wellFormed = true)
    (hf : commandFrame c ≠ []) (h : code :: args = commandFrame c ++ extra) :
    (commandFrame c).length = commandLength code := by
  obtain ⟨code', args', hframe⟩ := List.exists_cons_of_ne_nil hf
  rw [hframe, List.cons_append] at h
  obtain ⟨rfl, -⟩ := List.cons.inj h
  rw [hframe, commandFrame_length hwf hframe]

theorem commandOfBytes_eq_none_iff (code : Byte) (args : List Byte) :
    commandOfBytes (code :: args) = none ↔ (code :: args).length < commandLength code := by
  obtain ⟨hshort, hnone⟩ | ⟨c, extra, hwf, hf, hbytes⟩ := shortOrFramed code args
  · exact iff_of_true hnone hshort
  · refine iff_of_false ?_ ?_
    · rw [hbytes, commandOfBytes_commandFrame hwf hf]
      exact Option.some_ne_none c
    · rw [← commandFrame_length_of_append hwf hf hbytes, hbytes, List.length_append]
      omega

/-- The lengths of frames and responses by code (R178), for each of the 256 codes. -/
theorem commandLength_responseLength (code : Byte) : (commandLength code, responseLength code) =
    match code.toNat with
    | 1 => (1, 16)
    | 2 => (2, 11)
    | 3 => (11, 1)
    | 4 | 8 | 9 => (2, 1)
    | 6 => (4, 35)
    | 7 => (6, 1)
    | 10 => (1, 9)
    | _ => (1, 1) := by
  revert code
  decide +kernel

/-! ### Transactions (R177) -/

/-- A transaction carries the command of its frame, and its response end once the whole response was clocked. -/
theorem eventsOfBytes_frame {c : Instr} {code : Byte} {args : List Byte} (hwf : c.wellFormed = true)
    (hframe : commandFrame c = code :: args) (extra : List Byte) : eventsOfBytes (code :: args ++ extra) =
      c :: if responseLength code ≤ extra.length then [.responseEnd] else [] := by
  have hnamed : commandWith code (args ++ extra) = some c :=
    (commandOfBytes_eq_some_iff (bytes := code :: (args ++ extra))).2
      ⟨hwf, by simp [hframe], extra, by rw [hframe, List.cons_append]⟩
  have hlength : commandLength code + responseLength code ≤ (code :: (args ++ extra)).length ↔
      responseLength code ≤ extra.length := by
    rw [← List.cons_append, List.length_append, commandFrame_length hwf hframe, Nat.add_le_add_iff_left]
  rw [List.cons_append, eventsOfBytes, hnamed]
  dsimp only
  rw [if_congr hlength rfl rfl]
  split <;> rfl

/-- A transaction that ends within the frame carries nothing. -/
theorem eventsOfBytes_short {code : Byte} {args : List Byte} (h : (code :: args).length < commandLength code) :
    eventsOfBytes (code :: args) = [] := by
  have hnone : commandWith code args = none := (commandOfBytes_eq_none_iff code args).2 h
  rw [eventsOfBytes, hnone]

theorem transactionCommands_flatMap (bytes : List Byte) {bits : List Bool} (h : bits.length < 8) :
    transactionCommands (bytes.flatMap bitsOfByte ++ bits) = .spiSelect :: (eventsOfBytes bytes ++ [.deselect]) := by
  rw [transactionCommands, bytesOfBits_flatMap bytes h]

/-! ### Words (log 10) -/

theorem length_bytesOfWord (n w : Nat) : (bytesOfWord n w).length = n := by simp [bytesOfWord]

/-- A word has the bytes of a list, byte 0 at its least significant end. -/
theorem bytesOfWord_eq_iff (bytes : List Byte) (w : Nat) : bytesOfWord bytes.length w = bytes ↔
    ∀ k, k < bytes.length → bytes[k]? = some (BitVec.ofNat 8 (w / 2 ^ (8 * k))) := by
  have hbyte : ∀ k, k < bytes.length →
      (bytesOfWord bytes.length w)[k]? = some (BitVec.ofNat 8 (w / 2 ^ (8 * k))) := fun k hk => by
    simp [bytesOfWord, hk]
  constructor
  · intro h k hk
    rw [← hbyte k hk, h]
  · intro h
    refine List.ext_getElem? fun k => ?_
    by_cases hk : k < bytes.length
    · rw [hbyte k hk, h k hk]
    · rw [List.getElem?_eq_none (by rw [length_bytesOfWord]; omega), List.getElem?_eq_none (by omega)]

/-- A word spells the command whose whole frame its bytes are, and no other. -/
theorem decodeTableWord_eq_some_iff {nbits w : Nat} {c : Instr} : decodeTableWord nbits w = some c ↔
    c.wellFormed = true ∧ commandFrame c ≠ [] ∧ nbits = 8 * (commandFrame c).length ∧
      bytesOfWord (commandFrame c).length w = commandFrame c := by
  unfold decodeTableWord
  constructor
  · intro h
    split at h
    · cases h
    · rename_i code args hword
      obtain ⟨hnbits, hnamed⟩ := Option.ite_none_right_eq_some.1 h
      obtain ⟨hwf, hf, extra, hbytes⟩ := (commandOfBytes_eq_some_iff (bytes := code :: args)).1 hnamed
      have hlength := commandFrame_length_of_append hwf hf hbytes
      have hcount : nbits / 8 = (commandFrame c).length := by omega
      have hextra : extra = [] := by
        have htotal := congrArg List.length (hword.trans hbytes)
        rw [length_bytesOfWord, List.length_append] at htotal
        exact List.eq_nil_of_length_eq_zero (by omega)
      rw [hcount, hbytes, hextra, List.append_nil] at hword
      exact ⟨hwf, hf, by omega, hword⟩
  · rintro ⟨hwf, hf, rfl, hword⟩
    obtain ⟨code, args, hframe⟩ := List.exists_cons_of_ne_nil hf
    have hnamed : commandWith code args = some c :=
      (commandOfBytes_eq_some_iff (bytes := code :: args)).2 ⟨hwf, hf, [], by rw [hframe, List.append_nil]⟩
    rw [Nat.mul_div_cancel_left _ (by decide), hword, hframe]
    exact (if_pos (congrArg _ (commandFrame_length hwf hframe))).trans hnamed

end Sys2Proof

namespace Sys2Proof.Machine

theorem State.withFetchWord_of_decode {nbits w : Nat} {c : Instr} (h : decodeTableWord nbits w = some c) (s : State) :
    s.withFetchWord nbits w = { s with pending := c :: s.pending } := by
  unfold State.withFetchWord
  rw [h]
  rfl

/-- Settles O9, wire by wire: each clause is what is read from the bytes that were written. -/
theorem wiresSpellTheirCommands : Obligations.WiresSpellTheirCommands := by
  refine ⟨fun r => ⟨rfl, rfl, rfl, rfl, rfl, rfl, rfl, rfl⟩, fun c r => requestCommand_skind, bytes4_eq, bytes2_eq,
    fun _ _ _ _ _ _ _ _ _ _ => ⟨rfl, rfl, rfl, rfl, rfl, rfl, rfl, rfl, rfl, rfl, rfl⟩,
    fun c => commandOfBytes_commandFrame, fun bytes c => commandOfBytes_eq_some_iff.1, commandOfBytes_eq_none_iff,
    commandLength_responseLength, fun b j => getElem?_bitsOfByte b, fun bytes bits => bytesOfBits_flatMap bytes,
    fun c code args extra bits hwf hframe hbits => ?_, fun code args bits hbits hshort => ?_, fun bits hbits => ?_,
    fun nbits word c hc => ?_, fun c code args word s hwf hframe hbytes => ?_⟩
  · rw [transactionCommands_flatMap _ hbits, eventsOfBytes_frame hwf hframe]
    rfl
  · rw [transactionCommands_flatMap _ hbits, eventsOfBytes_short hshort]
    rfl
  · exact transactionCommands_flatMap [] hbits
  · obtain ⟨hwf, hf, hnbits, hword⟩ := decodeTableWord_eq_some_iff.1 hc
    exact ⟨hwf, hf, hnbits, (bytesOfWord_eq_iff _ word).1 hword⟩
  · rw [← hframe] at hbytes ⊢
    have hspelt : decodeTableWord (8 * (commandFrame c).length) word = some c :=
      decodeTableWord_eq_some_iff.2 ⟨hwf, by simp [hframe], rfl, (bytesOfWord_eq_iff _ word).2 hbytes⟩
    exact ⟨hspelt, State.withFetchWord_of_decode hspelt s⟩

end Sys2Proof.Machine
end

