-- ==== Sys2Proof/Proofs/LinkRequests.lean ====
section
/-! PROOFS. The Memory Request Link: the fields of a request transfer (R166), the two candidates of the highest ranks
(R169, R170, R173), and how a completion is read, ignored or only recorded (R167, R175). -/

namespace Sys2Proof

/-! ### The byte positions of a request transfer (R166) -/

/-- The four byte positions listed are the positions below 4, each with what stands there. -/
theorem Lanes.mem_positions {x : Lanes} {k : Nat} {byte : Option Byte}
    (h : (k, byte) ∈ [(0, x.b0), (1, x.b1), (2, x.b2), (3, x.b3)]) : k < 4 ∧ byte = x.at k := by
  simp only [List.mem_cons, List.not_mem_nil, or_false, Prod.mk.injEq] at h
  obtain ⟨rfl, rfl⟩ | ⟨rfl, rfl⟩ | ⟨rfl, rfl⟩ | ⟨rfl, rfl⟩ := h
  all_goals exact ⟨by decide, rfl⟩

/-- Bit k of four bits put side by side, the highest first. -/
theorem getLsbD_ofBool_append (b3 b2 b1 b0 : Bool) (k : Fin 4) :
    (BitVec.ofBool b3 ++ BitVec.ofBool b2 ++ BitVec.ofBool b1 ++ BitVec.ofBool b0).getLsbD k =
      ![b0, b1, b2, b3] k := by
  revert b3 b2 b1 b0 k
  decide

/-- MBEN selects the byte positions at which a byte stands. -/
theorem Lanes.getLsbD_selected (x : Lanes) {k : Nat} (hk : k < 4) : x.selected.getLsbD k = (x.at k).isSome := by
  have hbit : x.selected.getLsbD k = ![x.b0.isSome, x.b1.isSome, x.b2.isSome, x.b3.isSome] ⟨k, hk⟩ :=
    getLsbD_ofBool_append _ _ _ _ ⟨k, hk⟩
  rw [hbit]
  obtain rfl | rfl | rfl | rfl : k = 0 ∨ k = 1 ∨ k = 2 ∨ k = 3 := by omega
  all_goals rfl

/-- MWD lines 8k to 8k + 7 carry the bits of byte position k, where a byte stands there. -/
theorem Lanes.getElem?_lines (x : Lanes) {k j : Nat} (hk : k < 4) (hj : j < 8) :
    x.lines[8 * k + j]? = some ((x.at k).map fun b => b.getLsbD j) := by
  have hline : 8 * k + j < 32 := by omega
  have hposition : (8 * k + j) / 8 = k := by omega
  have hbit : (8 * k + j) % 8 = j := by omega
  rw [Lanes.lines, Vector.getElem?_eq_getElem hline, Vector.getElem_ofFn]
  simp only [hposition, hbit]

end Sys2Proof

namespace Sys2Proof.Machine

/-- Settles O10, byte position by byte position. -/
theorem linkRequestHasItsLayout : Obligations.LinkRequestHasItsLayout := by
  intro t mkind kind w x hkind
  have hcode : kind.mkind = mkind := by
    obtain ⟨rfl, rfl⟩ | ⟨rfl, rfl⟩ | ⟨rfl, rfl⟩ | ⟨rfl, rfl⟩ := hkind
    all_goals rfl
  subst hcode
  refine ⟨rfl, x.selected, x.lines, rfl, fun k byte hmem => ?_⟩
  obtain ⟨hk, rfl⟩ := Lanes.mem_positions hmem
  refine ⟨?_, fun j hj hnone => ?_, fun j b hj hsome => ?_⟩
  · rw [x.getLsbD_selected hk, Option.isSome_iff_ne_none]
  · rw [x.getElem?_lines hk hj, hnone]
    rfl
  · rw [x.getElem?_lines hk hj, hsome]
    rfl

/-! ### The first two ranks of the issue choice (R169) -/

/-- The oldest continuation is the choice before every other candidate (R169). -/
theorem State.issueChoice_continuation {s : State} {m : Master} {younger : List Master}
    (hcont : s.mlc.continuations = m :: younger) : s.issueChoice = some (.continuation m) := by
  unfold State.issueChoice
  rw [hcont]
  rfl

/-- With no continuation the oldest eligible unposted write is the choice (R169). -/
theorem State.issueChoice_unposted {s : State} {m : Master} {sl : Slot} (hcont : s.mlc.continuations = [])
    (hfirst : FirstIn s.rsa.order (s.EligibleFor SlotRequest.isUnpostedWrite) m)
    (hsl : s.rsa.slots.get m = some sl) : s.issueChoice = some (.unposted m sl.request) := by
  unfold State.issueChoice
  rw [hcont, State.oldestEligible_some hfirst hsl]
  rfl

/-- A continuation asks for the line from its assembly's next word, and leaves its list (R170, R173). -/
theorem State.issueContinuation_eq {s : State} {m : Master} {younger : List Master} {a : Assembly}
    (hcont : s.mlc.continuations = m :: younger) (ha : s.mlc.assemblies.get m = some a) (t : BitVec 2) :
    s.issueContinuation t m = (s.withMlc { s.mlc with continuations := younger }).drive t .rdRest
      (wordOfLine a.line a.words.length) (.continuation m) none := by
  unfold State.issueContinuation
  dsimp only [State.withMlc]
  rw [ha, hcont, List.tail_cons]

/-- The slot of an unposted write becomes ISSUED, and its bytes go out as one WR-WORD (R170). -/
theorem State.issueUnposted_eq {s : State} {m : Master} {sl : Slot} {w : WordAddr} {p : Option Policy} {lanes : Lanes}
    (hsl : s.rsa.slots.get m = some sl) (hq : sl.request = .write w p lanes ∨ sl.request = .lockWrite w p lanes)
    (t : BitVec 2) : s.issueUnposted t m sl.request =
      State.drive t .wrWord w (.unposted m) (some lanes)
        { s with rsa := s.rsa.withSlot m { sl with phase := .issued } } := by
  have hissued : s.slotIssued m = { s with rsa := s.rsa.withSlot m { sl with phase := .issued } } :=
    State.modifySlot_eq hsl _
  rw [← hissued]
  obtain hq | hq := hq
  · rw [hq]
    rfl
  · rw [hq]
    rfl

/-- Settles O27, by the choice of the issue event. -/
theorem continuationThenUnpostedWriteIssues : Obligations.ContinuationThenUnpostedWriteIssues := by
  refine fun t m s hcan => ⟨fun younger a hcont ha => ?_, fun sl w p lanes hcont hfirst hsl hq => ?_⟩
  · rw [exec_issueEvent_of_choice hcan (State.issueChoice_continuation hcont), State.issue,
      State.issueContinuation_eq (s := s.seesReady) hcont ha]
    exact congrArg _ (State.tellWalker_of_same rfl)
  · rw [exec_issueEvent_of_choice hcan (State.issueChoice_unposted hcont hfirst hsl), State.issue,
      State.issueUnposted_eq (s := s.seesReady) hsl hq]
    exact congrArg _ (State.tellWalker_of_same rfl)

/-! ### The status of a completion (R167) -/

section
variable {c : CompletionLines} (kind : LinkKind) (word : WordAddr)

theorem completionStatus_ok (h : c.mcstat.extractLsb' 0 2 = 0#2) : completionStatus kind word c = .ok := if_pos h

/-- A SHORT of a request for a single word is its failure (R167). -/
theorem completionStatus_short_word (h : c.mcstat.extractLsb' 0 2 = 1#2) (hkind : kind = .rdWord ∨ kind = .wrWord) :
    completionStatus kind word c = .fail := by
  unfold completionStatus
  dsimp only
  rw [if_neg (by rw [h]; decide), if_pos h]
  obtain rfl | rfl := hkind
  all_goals rfl

/-- A SHORT of a line read counts while it delivers some of the words asked for and not all (R167). -/
theorem completionStatus_short_line (h : c.mcstat.extractLsb' 0 2 = 1#2) (hkind : kind = .rdLine ∨ kind = .rdRest) :
    completionStatus kind word c = if 1 ≤ deliveredCount c ∧ deliveredCount c < wordsAsked kind word then
      .short (deliveredCount c) else .fail := by
  unfold completionStatus
  dsimp only
  rw [if_neg (by rw [h]; decide), if_pos h]
  obtain rfl | rfl := hkind
  all_goals rfl

/-- FAIL, and the status that has no name, fail a request of any kind (R167). -/
theorem completionStatus_fail (h : c.mcstat.extractLsb' 0 2 = 2#2 ∨ c.mcstat.extractLsb' 0 2 = 3#2) :
    completionStatus kind word c = .fail := by
  obtain ⟨hok, hshort⟩ : c.mcstat.extractLsb' 0 2 ≠ 0#2 ∧ c.mcstat.extractLsb' 0 2 ≠ 1#2 := by
    obtain h | h := h
    all_goals
      rw [h]
      decide
  unfold completionStatus
  dsimp only
  rw [if_neg hok, if_neg hshort]

end

/-! ### Completions that nothing waits for (R167, R175) -/

/-- A completion with nothing in flight is ignored (R167). -/
theorem exec_mrlCompletion_ignored {s : State} (h : s.mlc.inFlight = []) (c : CompletionLines) :
    exec (.mrlCompletion c) s = .next s.atEvent := by
  have hlist : s.atEvent.mlc.inFlight = [] := h
  show execMrlCompletion c s = _
  unfold execMrlCompletion
  simp only [hlist]

/-- The completion of an item marked discard takes it off the list (R175). -/
theorem exec_mrlCompletion_discarded {s : State} {i : InFlight} {rest : List InFlight}
    (hlist : s.mlc.inFlight = i :: rest) (hdiscard : i.discard = true) (c : CompletionLines) :
    exec (.mrlCompletion c) s = .next
      ((s.atEvent.withMlc { s.mlc with inFlight := rest }).discarded i (completionStatus i.kind i.word c)) := by
  have hlist : s.atEvent.mlc.inFlight = i :: rest := hlist
  show execMrlCompletion c s = _
  unfold execMrlCompletion
  simp only [hlist]
  exact if_pos hdiscard

/-- The completion of any other item is handed to the owner of its request (R171 to R174). -/
theorem exec_mrlCompletion_handedOver {s : State} {i : InFlight} {rest : List InFlight}
    (hlist : s.mlc.inFlight = i :: rest) (hdiscard : i.discard = false) (c : CompletionLines) :
    exec (.mrlCompletion c) s = .next (State.tellWalker s.atEvent
      ((s.atEvent.withMlc { s.mlc with inFlight := rest }).handOver i (completionStatus i.kind i.word c) c)) := by
  have hlist : s.atEvent.mlc.inFlight = i :: rest := hlist
  show execMrlCompletion c s = _
  unfold execMrlCompletion
  simp only [hlist]
  exact if_neg (by simp [hdiscard])

/-- A completion is the oldest item's whatever tag it carries: neither its status nor its hand-over reads the tag
(R167). -/
theorem exec_mrlCompletion_mctag (c : CompletionLines) (tag : BitVec 2) (s : State) :
    exec (.mrlCompletion { c with mctag := tag }) s = exec (.mrlCompletion c) s := by
  cases hlist : s.mlc.inFlight with
  | nil => rw [exec_mrlCompletion_ignored hlist, exec_mrlCompletion_ignored hlist]
  | cons i rest =>
    cases hdiscard : i.discard with
    | true =>
      rw [exec_mrlCompletion_discarded hlist hdiscard, exec_mrlCompletion_discarded hlist hdiscard]
      rfl
    | false =>
      rw [exec_mrlCompletion_handedOver hlist hdiscard, exec_mrlCompletion_handedOver hlist hdiscard]
      rfl

/-- What a failure offers to the error queue: a word's address, or a line's for a read of a line (R171, R174, R175). -/
theorem State.recordFailure_eq (kind : LinkKind) (word : WordAddr) (m : Master) (s : State) :
    s.recordFailure kind word m = { s with
      mnc := match kind with
        | .rdWord => s.mnc.offered .memReadFail m (some (addrOfWord word))
        | .rdLine | .rdRest => s.mnc.offered .memReadFail m (some (addrOfLine (lineOfWord word)))
        | .wrWord => s.mnc.offered .memWriteFail m (some (addrOfWord word)) } := by
  unfold State.recordFailure
  cases kind with
  | rdWord | rdLine | rdRest | wrWord => exact State.pushError_eq ..

/-- A discarded item of a master leaves a record if it failed, and else nothing (R175). -/
theorem State.discarded_eq {i : InFlight} {m : Master}
    (horigin : i.origin = .read m ∨ i.origin = .unposted m ∨ i.origin = .continuation m) (st : CompletionStatus)
    (s : State) : s.discarded i st = if st = .fail then s.recordFailure i.kind i.word m else s := by
  unfold State.discarded
  cases st with
  | ok | short n => rfl
  | fail =>
    obtain h | h | h := horigin
    all_goals
      rw [h]
      rfl

/-- Settles O30: the status by its code and the kind, and the completion by what stands at the old end of the list. -/
theorem completionIsReadByKind : Obligations.CompletionIsReadByKind := by
  refine ⟨fun kind word c n hn => ⟨completionStatus_ok kind word, completionStatus_short_word kind word,
    fun hshort hkind => ?_, fun hshort hkind => ?_, completionStatus_fail kind word⟩,
    fun c s => ⟨fun hlist => exec_mrlCompletion_ignored hlist c, fun tag => exec_mrlCompletion_mctag c tag s,
      fun i rest m hlist hdiscard horigin => ?_⟩⟩
  · subst hn hkind
    exact completionStatus_short_line .rdLine word hshort (.inl rfl)
  · subst hn hkind
    exact completionStatus_short_line .rdRest word hshort (.inr rfl)
  · rw [exec_mrlCompletion_discarded hlist hdiscard, State.discarded_eq horigin, State.recordFailure_eq]
    split <;> rfl

end Sys2Proof.Machine
end

