-- ==== Sys2Proof/Proofs/Transactions.lean ====
section
/-! PROOFS. ALERT_N (R143, R185), and a transaction of the maintenance port: its select, its one command with the
response, the response end, the rise, and SPI_SDO (R177, R178, R183, R184). -/

namespace Sys2Proof.Machine

/-! ### ALERT_N (R143, R185) -/

theorem State.anyIsolated_iff (s : State) : s.anyIsolated = true ↔ ∃ m, s.mau.attach.get m = .isolated := by
  simp [State.anyIsolated, List.any_eq_true]

/-- Settles O53, one condition on each side. -/
theorem alertFollowsItsTwoConditions : Obligations.AlertFollowsItsTwoConditions := by
  intro s
  have hqueued : (!s.mnc.errors.isEmpty) = true ↔ s.mnc.errors ≠ [] := by simp
  rw [State.alert, Bool.or_eq_true, hqueued, State.anyIsolated_iff]

/-! ### The select, the response end and the rise (R177) -/

section
variable {s : State}

theorem exec_spiSelect_falls (h : s.pins.spiSelected = false) : exec .spiSelect s = .next
    ((s.atEvent.withPins { s.pins.quiet with spiSelected := true }).setPort .receiving) :=
  if_neg (Bool.eq_false_iff.1 (show s.atEvent.pins.spiSelected = false from h))

/-- A line that is low does not fall (log 8). -/
theorem exec_spiSelect_low (h : s.pins.spiSelected = true) : exec .spiSelect s = .next s.atEvent :=
  if_pos (show s.atEvent.pins.spiSelected = true from h)

theorem exec_responseEnd_responding {command response : List Byte} {returned : Bool}
    (h : s.mnc.port = .responding command response returned) : exec .responseEnd s = .next
      ((if returned = true then s.atEvent.removeHeadError else s.atEvent).setPort .ended) := by
  dsimp only [exec, execResponseEnd]
  rw [show s.atEvent.mnc.port = .responding command response returned from h]

/-- Only a response has an end (log 3). -/
theorem exec_responseEnd_ignored (h : ∀ command response returned, s.mnc.port ≠ .responding command response returned) :
    exec .responseEnd s = .next s.atEvent := by
  dsimp only [exec, execResponseEnd]
  split
  · rename_i hport
    exact absurd hport (h _ _ _)
  all_goals rfl

/-- The head record leaves, and the last one takes the overflow flag with it (R183, R184). -/
theorem State.removeHeadError_eq {x : ErrorRecord} {rest : List ErrorRecord} (h : s.mnc.errors = x :: rest) :
    s.removeHeadError = s.withMnc { s.mnc with
      errors := rest, overflow := if rest = [] then false else s.mnc.overflow } := by
  have hflag : (s.mnc.overflow && !rest.isEmpty) = if rest = [] then false else s.mnc.overflow := by
    cases rest <;> simp
  rw [← hflag, State.removeHeadError, h, List.tail_cons]

end

/-! ### The answers to the commands (R178) -/

/-- What a command does and answers, from a state: a response of its length, and with a status other than OK zeros
after it and nothing done (R178). -/
structure State.Answers (s : State) (length : Nat) (x : State × List Byte) : Prop where
  length_eq : x.2.length = length
  refused : x.2[0]? ≠ some 0 → (∀ b ∈ x.2.tail, b = 0) ∧ x.1 = s

section
variable {s u : State}

/-- An answer whose status is OK may do anything. -/
theorem State.Answers.ok {length : Nat} {response : List Byte} (hlength : response.length = length)
    (hstatus : response[0]? = some 0) : s.Answers length (u, response) :=
  ⟨hlength, fun h => absurd hstatus h⟩

theorem State.Answers.badArg (s : State) (k : Nat) : s.Answers (k + 1) (s, statusBadArg :: List.replicate k 0) :=
  ⟨by simp, fun _ => ⟨fun _ hb => List.eq_of_mem_replicate hb, rfl⟩⟩

/-- A status alone, where nothing is done. -/
theorem State.Answers.status (s : State) (b : Byte) : s.Answers 1 (s, [b]) :=
  ⟨rfl, fun _ => ⟨nofun, rfl⟩⟩

theorem State.Answers.done : s.Answers 1 (u, [statusOk]) := .ok rfl rfl

theorem regionFrame_length_status (e : Option Region) :
    (regionFrame e).length = 11 ∧ (regionFrame e)[0]? = some 0 := by
  cases e <;> exact ⟨rfl, rfl⟩

theorem recordFrame_length_status (set : Nat) (record : Option (LineRecord × Nat)) :
    (recordFrame set record).length = 35 ∧ (recordFrame set record)[0]? = some 0 := by
  cases record with
  | none => exact ⟨rfl, rfl⟩
  | some ranked =>
    obtain ⟨r, rank⟩ := ranked
    refine ⟨recordFrame_length set rank r, ?_⟩
    rw [recordFrame_eq]
    rfl

theorem errorFrame_length_status (e : Option ErrorRecord) :
    (errorFrame e).length = 9 ∧ (errorFrame e)[0]? = some 0 := by
  cases e with
  | none => exact ⟨rfl, rfl⟩
  | some x =>
    rw [errorFrame_record]
    cases x.address <;> exact ⟨rfl, rfl⟩

theorem State.statusFrame_answers (s : State) : s.Answers 16 (s, s.statusFrame) := by
  obtain ⟨hlength, hstatus, -⟩ := s.statusFrame_bytes
  exact .ok hlength hstatus

theorem State.getRegion_answers (n : Byte) (s : State) : s.Answers 11 (s.getRegion n) := by
  obtain hn | hn := Nat.lt_or_ge n.toNat 8
  · obtain ⟨hlength, hstatus⟩ := regionFrame_length_status s.rgt[n.toNat]
    rw [State.getRegion_entry hn]
    exact .ok hlength hstatus
  · rw [State.getRegion_badEntry hn]
    exact .badArg s 10

theorem State.getRecord_answers (set : BitVec 16) (way : Byte) (s : State) : s.Answers 35 (s.getRecord set way) := by
  by_cases hbad : 1024 ≤ set.toNat ∨ 8 ≤ way.toNat
  · rw [State.getRecord_badArg hbad]
    exact .badArg s 34
  · obtain ⟨hset, hway⟩ : set.toNat < 1024 ∧ way.toNat < 8 := by omega
    rw [State.getRecord_way hset hway]
    obtain ⟨hlength, hstatus⟩ := recordFrame_length_status set.toNat
      (DirectorySet.ranked (s.pdr.sets.get set.toNat) ⟨way.toNat, hway⟩)
    exact .ok hlength hstatus

theorem State.setRegion_answers (n : Byte) (base pages : BitVec 32) (policy : Byte) (s : State) :
    s.Answers 1 (s.setRegion n base pages policy) := by
  obtain hn | hn := Nat.lt_or_ge n.toNat 8
  · by_cases hfree : s.rgt[n.toNat] = none
    · obtain ⟨hbad, hset⟩ := State.setRegion_unused (base := base) (pages := pages) (policy := policy) hn hfree
      cases hargs : regionOfArgs base pages policy with
      | none =>
        rw [hbad hargs]
        exact .status s _
      | some r =>
        rw [hset r hargs]
        split
        · exact .status s _
        · exact .done
    · rw [State.setRegion_used hn hfree]
      exact .status s _
  · rw [State.setRegion_badEntry hn]
    exact .status s _

theorem State.retireRegion_answers (n : Byte) (s : State) : s.Answers 1 (s.retireRegion n) := by
  unfold State.retireRegion
  split
  · exact .status s _
  · split
    · exact .status s _
    · split
      · exact .done
      · exact .done
      · exact .status s _
      · exact .status s _

theorem State.sweep_answers (s : State) : s.Answers 1 s.sweep := by
  unfold State.sweep
  split
  · exact .status s _
  · exact .done

theorem State.setLimits_answers (invalidation lock : BitVec 16) (bypass : Byte) (s : State) :
    s.Answers 1 (s.setLimits invalidation lock bypass) := by
  unfold State.setLimits
  split
  · exact .done
  · exact .status s _

theorem State.isolateCommand_answers (n : Byte) (s : State) : s.Answers 1 (s.isolateCommand n) := by
  unfold State.isolateCommand
  split
  · exact .status s _
  · split
    · exact .done
    · exact .status s _

theorem State.joinCommand_answers (n : Byte) (s : State) : s.Answers 1 (s.joinCommand n) := by
  unfold State.joinCommand
  split
  · exact .status s _
  · split
    · exact .done
    · exact .status s _

end

/-- A code that names no command is answered with a status alone (R178). -/
theorem responseLength_unknown {code : Byte} (h : codeNamesCommand code = false) : responseLength code = 1 := by
  have hne : ∀ k : Byte, codeNamesCommand k = true → code ≠ k := by
    rintro k hk rfl
    cases hk.symm.trans h
  unfold responseLength
  rw [if_neg (hne 0x01 (by decide)), if_neg (hne 0x02 (by decide)), if_neg (hne 0x06 (by decide)),
    if_neg (hne 0x0A (by decide))]

/-- Every command of the port but TAKE-ERROR is one effect, whose answer has the length that its code gives. -/
theorem exec_eq_takeCommand {c : Instr} (hc : commandFrame c ≠ []) (hother : c ≠ .takeError) :
    ∃ f : State → State × List Byte, (∀ s, exec c s = s.takeCommand c f) ∧
      (c.wellFormed = true → ∀ s, State.Answers s (responseLength ((commandFrame c).headD 0)) (f s)) := by
  cases c with
  | getStatus => exact ⟨fun s => (s, s.statusFrame), fun _ => rfl, fun _ => State.statusFrame_answers⟩
  | getRegion n => exact ⟨_, fun _ => rfl, fun _ => State.getRegion_answers n⟩
  | setRegion n base pages policy => exact ⟨_, fun _ => rfl, fun _ => State.setRegion_answers n base pages policy⟩
  | retireRegion n => exact ⟨_, fun _ => rfl, fun _ => State.retireRegion_answers n⟩
  | sweep => exact ⟨_, fun _ => rfl, fun _ => State.sweep_answers⟩
  | getRecord set way => exact ⟨_, fun _ => rfl, fun _ => State.getRecord_answers set way⟩
  | setLimits invalidation lock bypass =>
    exact ⟨_, fun _ => rfl, fun _ => State.setLimits_answers invalidation lock bypass⟩
  | isolate n => exact ⟨_, fun _ => rfl, fun _ => State.isolateCommand_answers n⟩
  | join n => exact ⟨_, fun _ => rfl, fun _ => State.joinCommand_answers n⟩
  | unknownCommand code =>
    refine ⟨fun s => (s, [statusBadArg]), fun _ => rfl, fun hw s => ?_⟩
    have hunnamed : codeNamesCommand code = false := by simpa [Instr.wellFormed] using hw
    have hlength : responseLength ((commandFrame (.unknownCommand code)).headD 0) = 1 :=
      responseLength_unknown hunnamed
    rw [hlength]
    exact .status s statusBadArg
  | takeError => exact absurd rfl hother
  | _ => exact absurd rfl hc

/-! ### A command in and outside its part of a transaction (R177, R178; log 8) -/

/-- Command c is taken, from s, with the response of its length in the port; where its status is not OK nothing else
changes, and zeros follow it (R177, R178). -/
def State.TakesAndAnswers (s : State) (c : Instr) : Prop :=
  ∃ t response returned, exec c s = .next t ∧ t.mnc.port = .responding (commandFrame c) response returned ∧
    response.length = responseLength ((commandFrame c).headD 0) ∧
    (response[0]? ≠ some 0 → (∀ b ∈ response.tail, b = 0) ∧
      t = { s.atEvent with mnc := { s.mnc with port := .responding (commandFrame c) response returned } })

section
variable {c : Instr} {s : State}

theorem exec_takeError_ignored (h : s.mnc.port ≠ .receiving) : exec .takeError s = .next s.atEvent :=
  if_neg fun htaken => h ((State.takes_iff (c := .takeError) rfl (by simp [commandFrame]) s.atEvent).1 htaken)

/-- No command is taken outside its part of a transaction. -/
theorem exec_command_ignored (hc : commandFrame c ≠ []) (hport : s.mnc.port ≠ .receiving) :
    exec c s = .next s.atEvent := by
  by_cases hother : c = .takeError
  · subst hother
    exact exec_takeError_ignored hport
  · obtain ⟨f, hexec, -⟩ := exec_eq_takeCommand hc hother
    rw [hexec, State.takeCommand_ignored hport]

/-- TAKE-ERROR is always answered OK (R183). -/
theorem exec_takeError_answers (hport : s.mnc.port = .receiving) : s.TakesAndAnswers .takeError := by
  obtain ⟨hlength, hstatus⟩ := errorFrame_length_status s.mnc.errors.head?
  exact ⟨_, _, _, exec_takeError_taken hport, rfl, hlength, fun h => absurd hstatus h⟩

/-- Every command is taken and answered while its frame is being shifted in. -/
theorem exec_takesAndAnswers (hw : c.wellFormed = true) (hc : commandFrame c ≠ []) (hport : s.mnc.port = .receiving) :
    s.TakesAndAnswers c := by
  by_cases hother : c = .takeError
  · subst hother
    exact exec_takeError_answers hport
  · obtain ⟨f, hexec, hanswers⟩ := exec_eq_takeCommand hc hother
    obtain ⟨hlength, hrefused⟩ := hanswers hw s.atEvent
    refine ⟨_, _, false, (hexec s).trans (State.takeCommand_taken hw hc hport), rfl, hlength, fun hstatus => ?_⟩
    obtain ⟨hzeros, hstate⟩ := hrefused hstatus
    refine ⟨hzeros, ?_⟩
    rw [hstate]
    rfl

end

/-! ### SPI_SDO (R177) -/

section
variable {command response : List Byte} {returned : Bool} {k : Nat}

theorem Port.sdo_command (h : k < command.length) : (Port.responding command response returned).sdo k = some 0 :=
  congrArg some (if_pos h)

theorem Port.sdo_afterCommand (h : command.length ≤ k) :
    (Port.responding command response returned).sdo k = some (response.getD (k - command.length) 0) :=
  congrArg some (if_neg (Nat.not_lt.2 h))

theorem Port.sdo_response (h : k < response.length) :
    (Port.responding command response returned).sdo (command.length + k) = response[k]? := by
  rw [Port.sdo_afterCommand (Nat.le_add_right _ _), Nat.add_sub_cancel_left, List.getElem?_eq_getElem h,
    List.getD_eq_getElem _ _ h]

theorem Port.sdo_afterResponse (h : command.length + response.length ≤ k) :
    (Port.responding command response returned).sdo k = some 0 := by
  rw [Port.sdo_afterCommand (by omega), List.getD_eq_default _ _ (by omega)]

end

/-- Settles O46, event by event of the transaction, and SPI_SDO by its parts. -/
theorem transactionRunsThroughItsEvents : Obligations.TransactionRunsThroughItsEvents := by
  refine fun s => ⟨exec_spiSelect_falls, fun command frame hport => exec_responseEnd_responding hport,
    fun command frame x rest hport herrors => ?_, rfl, exec_spiSelect_low, exec_responseEnd_ignored,
    fun hport c hc => exec_command_ignored ?_ hport, fun hport c code args hw hframe => ?_,
    fun k => ⟨fun hport => ?_, fun command response returned hport => ?_⟩⟩
  · rw [exec_responseEnd_responding hport, if_pos rfl, State.removeHeadError_eq (s := s.atEvent) herrors]
    rfl
  · obtain rfl | ⟨_, rfl⟩ | ⟨_, _, _, _, rfl⟩ | ⟨_, rfl⟩ | rfl | ⟨_, _, rfl⟩ | ⟨_, _, _, rfl⟩ | ⟨_, rfl⟩ | ⟨_, rfl⟩ |
      rfl | ⟨_, rfl⟩ := hc
    all_goals exact List.cons_ne_nil _ _
  · have htaken := exec_takesAndAnswers hw (by simp [hframe]) hport
    rw [State.TakesAndAnswers, hframe] at htaken
    exact htaken
  · obtain hport | hport := hport
    all_goals
      rw [hport]
      rfl
  · rw [hport]
    exact ⟨Port.sdo_command, Port.sdo_response, Port.sdo_afterResponse⟩

end Sys2Proof.Machine
end

