-- ==== Sys2Proof/Proofs/QueueFront.lean ====
section
/-! PROOFS. What a step does, by the queue of waiting commands (log 1, log 10). -/

namespace Sys2Proof.Machine

section
variable {s : State} {c : Instr} {rest : List Instr}

theorem step_of_pending_cons (h : s.pending = c :: rest) : step s = exec c (s.withPending rest) := by
  simp only [step, h]

theorem step_of_pending_nil (h : s.pending = []) : step s = .next (s.withClk (s.clk + 1)) := by
  simp only [step, h]

end

/-- Settles O1, by the two forms of the queue. -/
theorem stepRunsTheFrontCommand : Obligations.StepRunsTheFrontCommand :=
  ⟨fun _ _ _ hfront => step_of_pending_cons hfront, fun _ hempty => step_of_pending_nil hempty⟩

end Sys2Proof.Machine
end
